-- ==== Sys2Proof/Word.lean ====
section
/-! DEFINITION. The word types of the CL4: bus words, bus addresses, and the table type that holds a fixed number of
like things. The bus has 24-bit byte addresses, 32-bit data words and four byte enables (00_scope.md, Conventions). -/

namespace Sys2Proof

/-- A 32-bit bus word. -/
abbrev Word := BitVec 32

/-- One byte of RAM. -/
abbrev Byte := BitVec 8

/-- A 24-bit byte address of the card's memory bus. -/
abbrev Addr := BitVec 24

/-- A record index, 0 to 767: (loop − 1) × 192 + (address − 1) (00_scope.md, Conventions). -/
abbrev Rec := Fin 768

/-- A real zone, 1 to 96; `z` stands for zone number `z + 1`. -/
abbrev RealZone := Fin 96

/-- A zone of the Zone Table, 1 to 100; `z` stands for zone number `z + 1`, so 96 to 99 are the pseudo-zones 97 to 100. -/
abbrev Zone := Fin 100

/-- A loop, 1 to 4; `l` stands for loop number `l + 1`. -/
abbrev Loop := Fin 4

/-- Every entry of a table changed by one function. -/
def Table.map {α β : Type} {n : Nat} (f : α → β) (v : Vector α n) : Vector β n :=
  ⟨(v.toList.map f).toArray, by simp⟩

/-- A table made from its entries. -/
def Table.tabulate {α : Type} {n : Nat} (f : Fin n → α) : Vector α n :=
  ⟨((List.finRange n).map f).toArray, by simp⟩

end Sys2Proof
end

