-- ==== Sys2Proof/Syntax.lean ====
section
/-! DEFINITION. The commands of the block: one constructor per row of spec/opcode_table.json.

A row is a step of the part or of what stands around it: a host access, an edge on a pin, or a move of one of the part's
own blocks. A host access carries what the host puts on the bus. The last operand of a row that starts an access, `after`,
is how many of the part's own events follow directly upon the arrival with nothing else between them (log 6); with
`after = 0` the access is left where its arrival puts it and the rows of the downstream port carry it on. -/

namespace Sys2Proof

/-- Which of the owed point events a row makes: the one at a record, or all that are owed, in ascending record order. -/
inductive Which where
  | one (r : Rec)
  | all
  deriving DecidableEq, Repr

/-- The two forms of a mailbox command's row (log 6). -/
inductive CommandStep where
  /-- The host writes the command word, whole, at `addr`: the row's code in bits 7:0, `tag` in 15:8, and `upper`, which the
  part ignores (R146). -/
  | word (addr : Addr) (tag : BitVec 8) (upper : BitVec 16) (after : Nat)
  /-- The command in hand, when it is the row's, goes on by `events` events of its own. -/
  | run (events : Nat)
  deriving DecidableEq, Repr

/-- What the host puts on the bus to read a word: the address and the byte enables (R1). -/
structure BusRead where
  addr : Addr
  be : BitVec 4
  deriving DecidableEq, Repr

/-- The commands: one constructor per row of the table, in the table's order. -/
inductive Instr where
  | passedWrite (addr : Addr) (data : Word) (be : BitVec 4) (after : Nat)
  | downstreamAccessDone
  | bindTrigger (dsel : BitVec 3) (addr : Addr) (data : Word) (after : Nat)
  | bindRejected
  | bindBound
  | secondTick
  | silenceExpiry (which : Which)
  | walkExpiry (slot : Fin 4)
  | verdictWordRead (read : BusRead) (after : Nat)
  | planWordRead (read : BusRead) (after : Nat)
  | heldReadRelease
  | swallowedWrite (addr : Addr) (data : Word) (be : BitVec 4) (after : Nat)
  | serialWordWrite (addr : Addr) (data : Word) (after : Nat)
  | replyWordWrite (addr : Addr) (data : Word) (after : Nat)
  | heldReplyWriteRelease (after : Nat)
  | malformedReplyWrite (addr : Addr) (data : Word) (be : BitVec 4) (after : Nat)
  | replyEvent
  | loopIsolateChange (loop : Loop)
  | zoneLoad (zclk : Option Bool)
  | consentRederivation (which : Which)
  | walkEndEvent (slot : Fin 4)
  | walkClearEvent (slot : Fin 4) (moves : Nat)
  | mailboxOverrunWrite (addr : Addr) (data : Word) (be : BitVec 4) (after : Nat)
  | unknownCommand (code : BitVec 8) (how : CommandStep)
  | commandComplete
  | planLoad (how : CommandStep)
  | snapshot (how : CommandStep)
  | restore (how : CommandStep)
  | profileSet (how : CommandStep)
  | sealPlan (how : CommandStep)
  | walkStart (how : CommandStep)
  | walkEnd (how : CommandStep)
  | accept (how : CommandStep)
  | release (how : CommandStep)
  | adopt (how : CommandStep)
  | clearFlags (how : CommandStep)
  | clearVerdict (how : CommandStep)
  | revertPrepare (how : CommandStep)
  | revert (how : CommandStep)
  | query (how : CommandStep)
  | reset (how : CommandStep)
  | consumerWrite (addr : Addr) (data : Word) (after : Nat)
  | reportRecordStart
  | reportRecordPublish
  | hostReset
  | powerOnReset
  | powerOnRelease (liso : BitVec 4)
  | zoneChainShift (zdat zload : Bool)
  | hostResetRelease
  | refclkRisingEdge (liso : BitVec 4) (order : List Loop) (tickLast : Bool)
  deriving DecidableEq, Repr

end Sys2Proof
end

