-- ==== Sys2Proof/Config.lean ====
section
/-! DEFINITION. What is fixed for the machine, and the values the manual leaves open. -/

namespace Sys2Proof.Config

/-- What a RAM byte that nothing has written reads as. DESIGN CHOICE (log 1): the manual says only "whatever the RAM
powered up with" (R22); unsafe. -/
def ramFill : Byte := 0

/-- The RESULT word w10 of a WALK START whose END does not fit 32 bits: a free value, DESIGN CHOICE (log 15). R129 gives
END in w10 and R126 no upper bound for END. The argument is END. -/
opaque walkEndOverflow : Nat → Word

/-- The largest value of the seconds counter, 4,294,967,295 (R33). -/
def maxSecond : Nat := 4294967295

/-- The number of reference cycles in a second (R33). -/
def cyclesPerSecond : Nat := 32768

/-- The reference edges an input must hold a new level (R91). -/
def stableEdges : Nat := 16

/-- The host grants the Internal Master stands by through (R18). -/
def starveLimit : Nat := 32

/-- The length the Intake Queue never exceeds (R55). -/
def intakeLimit : Nat := 4

/-- The length the pending queue never exceeds (R178). -/
def pendingLimit : Nat := 16

/-- The entries a hit list never exceeds (R126). -/
def hitListLimit : Nat := 32

/-- The first byte past the address space. -/
def spaceEnd : Nat := 0x1000000

/-- SIGNATURE of a binding descriptor (R185). -/
def bindSignature : Word := 0x4F544D31

/-- Word 0 of a plan block (R189). -/
def planSignature : Word := 0x4F54504C

/-- Word 0 of a snapshot header (R190). -/
def headerSignature : Word := 0x4F545348

/-- Word 0 of a state block (R190). -/
def stateSignature : Word := 0x4F545342

end Sys2Proof.Config
end

