-- ==== Sys2Proof/Machine/State.lean ====
section
/-! DEFINITION. The state of the CL4 as plain data, and its reset value. Groups follow the manual's chapters. -/

namespace Sys2Proof.Machine

/-! ### Points (Reply Intake and Point State) -/

/-- STATE, in the order of its codes 0 to 7 (R56, R188). -/
inductive PointState where
  | vacant | expected | unplanned | matched | mismatch | conflict | tested | commissioned
  deriving DecidableEq, Repr

/-- PRESENCE, in the order of its codes (R188). -/
inductive Presence where
  | absent | live | silent
  deriving DecidableEq, Repr

/-- VERDICT, in the order of its codes (R105, R188). -/
inductive Verdict where
  | none | fire | test | held
  deriving DecidableEq, Repr

/-- The five legal reply STATUS values, in the order of their codes (R53, R186). -/
inductive Status where
  | normal | alarm | fault | garbled | noreply
  deriving DecidableEq, Repr

/-- The good statuses (04, "Forming reply events"). -/
inductive GoodStatus where
  | normal | alarm | fault
  deriving DecidableEq, Repr

/-- The eight latched flags, in the order of their numbers 0 to 7 (R186). -/
inductive Flag where
  | drift | prealarm | sensor | faulted | silenced | serialLost | badWrite | classChanged
  deriving DecidableEq, Repr

/-- A point record of the Point State Table (R56). -/
structure PointRecord where
  state : PointState
  presence : Presence
  verdict : Verdict
  foundClass : Option (BitVec 3)
  firstSerial : Option Word
  secondSerial : Option Word
  lastStatus : Option Status
  /-- LAST GOOD TIME, seconds. -/
  lastGood : Nat
  noreplyRun : Nat
  garbledRun : Nat
  driftRun : Nat
  prealarmReady : Bool
  testCount : Nat
  /-- FLAGS, flag n at bit n (R186). -/
  flags : BitVec 8
  armed : Bool
  suppressed : Bool
  deriving DecidableEq, Repr

/-- What an event with SVALID 1 found in the Serial Latch, or that it did not look (R53, R62). -/
inductive EventSerial where
  /-- The event carries no serial and no mark. -/
  | absent
  /-- The event carries SERIAL. -/
  | present (serial : Word)
  /-- SERIAL LOST mark: the latch was empty. -/
  | lostEmpty
  /-- SERIAL LOST mark: the latch held this other record's serial. -/
  | lostOther (holder : Rec)
  deriving DecidableEq, Repr

/-- What a reply event carries besides its record index (R53). -/
inductive ReplyBody where
  | good (status : GoodStatus) (cls : BitVec 3) (analog : BitVec 8) (serial : EventSerial)
  | garbled
  | noreply
  deriving DecidableEq, Repr

/-- A reply event (R53). -/
structure ReplyEvent where
  point : Rec
  body : ReplyBody
  deriving DecidableEq, Repr

/-! ### Plan (The Plan Table and Sensitivity Profiles) -/

/-- The fields of a planned entry; an absent entry is `none` and so has every other field 0 (R35). -/
structure PlanEntry where
  enable : Bool
  cls : BitVec 3
  zone : RealZone
  profile : Fin 4
  label : BitVec 16
  deriving DecidableEq, Repr

/-! ### Zones and walk slots (Alarm Qualification, Walk Tests) -/

/-- A zone's OPENER (R104). -/
structure Opener where
  point : Rec
  /-- The expiry second. -/
  expiry : Nat
  deriving DecidableEq, Repr

/-- A record of the Zone Table (R104). -/
structure ZoneRecord where
  /-- CONSENT is withheld. -/
  withheld : Bool
  walkSlot : Option (Fin 4)
  opener : Option Opener
  deriving DecidableEq, Repr

/-- END REASON, in the order of its codes 1 to 4 (R133, R187). -/
inductive EndReason where
  | expired | ended | breakout | isolated
  deriving DecidableEq, Repr

/-- A hit-list entry (R126). -/
structure Hit where
  point : Rec
  count : Nat
  deriving DecidableEq, Repr

/-- A walk slot that is not FREE (R126). `ending` tells ENDING from RUNNING; `endNow` and `sweep` are the now of the end
event and the next record the clear sweep looks at (R137, R138). -/
structure WalkSlot where
  ending : Bool
  zone : RealZone
  start : Nat
  finish : Nat
  hits : List Hit
  overflowed : Bool
  reason : Option EndReason
  endEntries : Nat
  endOverflowed : Bool
  cleared : Nat
  handedBack : Nat
  endNow : Nat
  sweep : Nat
  deriving DecidableEq, Repr

/-! ### Reports (The Report Ring) -/

/-- The report kinds (R188). -/
inductive ReportKind where
  | found | mismatch | conflict | silent | returned | classChanged | serialLost | badWrite
  | drift | prealarm | sensor | fault
  | fire | held | coincidence
  | testHit | walkEnd
  | consentChanged
  | commandDone
  deriving DecidableEq, Repr

/-- A formed report (11_the_report_ring.md, "Reports and their classes"); GAP is given when it is taken in hand (R177).
LOOP, ADDRESS and ZONE are the numbers the record carries, 0 where there is none. -/
structure Report where
  kind : ReportKind
  loop : Nat
  addr : Nat
  zone : Nat
  time : Nat
  detailA : Word
  detailB : Word
  deriving DecidableEq, Repr

/-- The record in hand, its GAP field, and how many of its five writes have finished (R178). -/
structure RecordInHand where
  report : Report
  gap : Bool
  written : Nat
  deriving DecidableEq, Repr

/-- The Report Writer (R176 to R178). -/
structure Writer where
  queue : List Report
  inHand : Option RecordInHand
  producer : Nat
  consumer : Nat
  gap : Bool
  deriving DecidableEq, Repr

/-! ### Memory path -/

/-- What a host access does on the bus, with the byte enables the host gives it; a read carries them too, and a passed one is
presented downstream with them (R1, R17). -/
inductive HostOp where
  | read (be : BitVec 4)
  | write (data : Word) (be : BitVec 4)
  deriving DecidableEq, Repr

/-- A host access as the host presents it. -/
structure HostRequest where
  addr : Addr
  op : HostOp
  deriving DecidableEq, Repr

/-- How the Window Decoder treats a host access, decided on its arrival (R3, R4, R8, R9, R23). -/
inductive Treatment where
  | passed
  /-- A bind trigger, with the sampled location (R23). -/
  | trigger (location : BitVec 3)
  | serialWrite (r : Rec)
  | replyWrite (r : Rec)
  | malformedWrite (r : Rec)
  | commandWrite
  | consumerWrite
  | swallowed
  /-- Swallowed, and sets the OVERRUN mark (R8). -/
  | overrun
  | verdictRead (r : Rec)
  | planRead (r : Rec)
  deriving DecidableEq, Repr

/-- Where a host access in flight stands: held (R11, R12), waiting at the arbiter, or at the downstream port. -/
inductive HostStage where
  | held | waiting | atPort
  deriving DecidableEq, Repr

/-- A host access in flight at the upstream port. -/
structure HostAccess where
  request : HostRequest
  treatment : Treatment
  stage : HostStage
  deriving DecidableEq, Repr

/-- The host's last answer: no UACK since the last access arrived, UACK for a write, or UACK with UD. -/
inductive HostAnswer where
  | none
  | written
  | read (data : Word)
  deriving DecidableEq, Repr

/-- The clients of the Internal Master (R20). -/
inductive Client where
  | binding | command | report
  deriving DecidableEq, Repr

/-- A single-word request of the Internal Master; `none` reads (R17, R20). -/
structure MemRequest where
  addr : Addr
  wdata : Option Word
  deriving DecidableEq, Repr

/-- The access in progress at the downstream port. `orphan` is an internal access whose requester a host reset took away:
it finishes at DACK and goes to nobody (R22). `abandonedStatus` is the BIND STATUS write of a check that a host reset
abandoned: it keeps the port until DACK, and no BIND STATUS is written (R22, R31, R32; DEDUCED, log 14). -/
inductive PortAccess where
  | host
  | internal (client : Client) (request : MemRequest)
  | orphan (request : MemRequest)
  | abandonedStatus (request : MemRequest)
  deriving DecidableEq, Repr

/-- The last-served mark (R21). -/
inductive LastServed where
  | command | report
  deriving DecidableEq, Repr

/-- The Internal Master (R20, R21). -/
structure InternalMaster where
  current : Option (Client × MemRequest)
  waitBinding : Option MemRequest
  waitCommand : Option MemRequest
  waitReport : Option MemRequest
  lastServed : LastServed
  deriving DecidableEq, Repr

/-! ### Binding -/

/-- The windows and the parameter copies of a binding (R25, R29). `location` is the latched DSEL (R23). -/
structure Binding where
  location : BitVec 3
  pointBase : Nat
  mailboxBase : Nat
  ringBase : Nat
  capacity : Nat
  loops : Nat
  autoWithdraw : Bool
  silenceTimeout : Nat
  noreplyLimit : Nat
  coincidenceWindow : Nat
  classMask : BitVec 6
  irqEnable : Bool
  deriving DecidableEq, Repr

/-- BIND STATUS reasons, in the order of their codes 0 to 4 (R185). -/
inductive BindReason where
  | none | signature | checksum | range | overlap
  deriving DecidableEq, Repr

/-- What the check in CHECKING is at: reading the descriptor, writing REJECTED, writing PRODUCER, writing BOUND
(R24, R28, R29). -/
inductive CheckPhase where
  | reading
  | rejecting (reason : BindReason) (detail : Nat)
  | producer (binding : Binding)
  | status (binding : Binding)
  deriving DecidableEq, Repr

/-- A check in progress (R23, R24). -/
structure Check where
  location : BitVec 3
  checksum : Word
  words : List Word
  phase : CheckPhase
  deriving DecidableEq, Repr

/-- The Binding Unit's traffic states (R1, R2, R31). -/
inductive BindState where
  | unbound
  | checking (check : Check)
  | bound (binding : Binding)
  deriving DecidableEq, Repr

/-! ### Command Engine -/

/-- Final states of a command (R151). -/
inductive FinalState where
  | done | refused | aborted
  deriving DecidableEq, Repr

/-- Reasons, in the order of their codes 0 to 16 (R187). -/
inductive Reason where
  | none | unknownCommand | badOperand | sealed | lockedPoint | notPrepared | badBlock | torn | duplicateEntry
  | noSlot | zoneBusy | zoneNotInTest | zoneIsolated | zoneInTest | wrongState | walkActive | firePresent
  deriving DecidableEq, Repr

/-- What a completion writes: the final state, the reason, DETAIL and RESULT w8 onward (words not listed are 0) (R149). -/
structure Completion where
  final : FinalState
  reason : Reason
  detail : Word
  result : List Word
  deriving DecidableEq, Repr

/-- The stretches of R70. -/
inductive Stretch where
  | accept | release | revert
  deriving DecidableEq, Repr

/-- QUERY's counts so far, by code of STATE, PRESENCE and VERDICT (R154). -/
structure Census where
  states : Vector Nat 8
  presences : Vector Nat 3
  verdicts : Vector Nat 4
  slots : Nat
  sealBit : Nat
  deriving DecidableEq, Repr

/-- The next event a running command makes by itself, with no memory access. Records are counted as numbers: `next` is the
next record, `left` how many remain. -/
inductive Work where
  /-- The checks of R148 steps 3 to 5, and the whole effect of a command that has no more events than one. -/
  | check
  | stretch (kind : Stretch) (next left changed skipped : Nat)
  | clearFlags (next left : Nat) (mask : BitVec 8) (count : Nat)
  | clearVerdict (next left cleared alarmed : Nat)
  | query (next : Nat) (census : Census)
  /-- The whole-block checks of a plan block (R161). -/
  | planBlock
  /-- The checks of entry slot `slot` (R162). -/
  | planEntry (slot : Nat)
  /-- The install of entry slot `slot` (R164). -/
  | planInstall (slot : Nat)
  | restoreHeader
  /-- All checks of a state block (R170). -/
  | restoreBlock
  /-- The install of the block's point `slot` (R172). -/
  | restoreInstall (slot : Nat)
  /-- The final event of a RESTORE (R44). -/
  | restoreFinal
  /-- The assembly of a state block (R167). -/
  | snapshotBlock
  /-- The assembly of the header (R166 step 4). -/
  | snapshotHeader
  deriving DecidableEq, Repr

/-- The transfer access the Command Engine waits on. -/
inductive Transfer where
  /-- A word of the block or header being read (R159). -/
  | read
  /-- The write of 0 over the header signature (R166 step 2). -/
  | withdraw
  /-- Word `i` of the assembled block (R166 step 3). -/
  | block (i : Nat)
  /-- Word `i` of the header, words 1 to 15 and then 0 (R166 step 4). -/
  | header (i : Nat)
  deriving DecidableEq, Repr

/-- What the RUNNING Command Engine is at (R148, R149). -/
inductive CommandStage where
  /-- The write of STATUS RUNNING (R148 step 1). -/
  | announcing
  /-- The reads of w1 to w5 (R148 step 2). -/
  | operands
  | working (work : Work)
  | transferring (access : Transfer)
  /-- WALK END waits for the slot (R135). -/
  | waitingSlot (slot : Fin 4)
  /-- The DETAIL write (R149 step 1). -/
  | detail (c : Completion)
  /-- The write of RESULT word w(8 + i) (R149 step 2). -/
  | result (c : Completion) (i : Nat)
  /-- The final STATUS write (R149 step 3). -/
  | status (c : Completion)
  deriving DecidableEq, Repr

/-- The command in hand (R145). -/
structure Command where
  code : BitVec 8
  tag : BitVec 8
  preparedAtTake : Bool
  operands : List Word
  stage : CommandStage
  deriving DecidableEq, Repr

/-- The Transfer Engine's passes (R158). -/
inductive Pass where
  | verify | install | write
  deriving DecidableEq, Repr

/-- What RESTORE keeps of the header (R158, R169). -/
structure KeptHeader where
  codes : Vector (BitVec 4) 4
  sealFlag : Bool
  second : Word
  deriving DecidableEq, Repr

/-- The Transfer Engine (R158). `position` is none for the header. `words` is the block in hand: the words read so far, or
the words assembled; `sum` is their running sum. `marks` are the record indexes whose point mark is set. -/
structure TransferEngine where
  pass : Pass
  position : Option Nat
  words : List Word
  sum : Word
  marks : List Rec
  kept : Option KeptHeader
  blocks : Nat
  entries : Nat
  deletions : Nat
  /-- SNAPSHOT's snapshot second (R166). -/
  second : Nat
  deriving DecidableEq, Repr

/-! ### The whole state -/

/-- A re-derivation event still owed at a record, with how many of the queued reply events were formed before its consent
event; those may be taken before it (R99). -/
structure OwedRederivation where
  point : Rec
  exempt : Nat
  deriving DecidableEq, Repr

/-- Everything but the queue of waiting commands: the part, its pins, and the RAM behind it. -/
structure Chip where
  /-- RAM: (address, byte) in canonical form (log 1). -/
  mem : List Host.Cell
  -- pins
  dsel : BitVec 3
  porLow : Bool
  hrstLow : Bool
  -- upstream port
  host : Option HostAccess
  /-- The accesses the host presents next, each at the UACK of the one before (log 7). -/
  backlog : List HostRequest
  answer : HostAnswer
  -- downstream port
  port : Option PortAccess
  starve : Nat
  im : InternalMaster
  -- binding and timebase
  bind : BindState
  seconds : Nat
  refCount : Nat
  -- plan and profiles
  plan : Vector (Option PlanEntry) 768
  sealed : Bool
  profiles : Vector (BitVec 4) 4
  -- intake and points
  latch : Option (Rec × Word)
  intake : List ReplyEvent
  points : Vector PointRecord 768
  rederivations : List OwedRederivation
  /-- The records whose silence test of the last sweep is still owed (R66). -/
  silenceOwed : List Rec
  /-- How many of the queued reply events were formed before that sweep's tick. -/
  silenceExempt : Nat
  -- consent block
  lisoFiltered : Vector Bool 4
  lisoStable : Vector Nat 4
  shiftRegister : BitVec 96
  zoneMask : BitVec 96
  -- alarm qualifier
  zones : Vector ZoneRecord 100
  fireCount : Nat
  firePin : Bool
  -- walk-test unit
  slots : Vector (Option WalkSlot) 4
  /-- The slots whose comparison of the last round is still owed (R134). -/
  walkOwed : List (Fin 4)
  -- command engine
  command : Option Command
  overrun : Bool
  prepared : Bool
  transfer : Option TransferEngine
  -- report writer
  writer : Writer
  irqPin : Bool
  deriving DecidableEq, Repr

/-- The state of the block: the chip with its RAM, and the commands that are waiting, first in, first out. -/
structure State where
  chip : Chip
  pending : List Instr
  deriving DecidableEq, Repr

/-- The manual names no machine fault, and no meaning raises one: bad input is answered in RAM (INVENTORY.md, Faults). -/
inductive Fault where
  deriving DecidableEq, Repr

/-- Why a command is refused. -/
inductive Refusal where
  /-- The command has no meaning yet. Raised by no meaning; safe. -/
  | notModelled (mnemonic : String)
  deriving DecidableEq, Repr

/-- A point record right after power-on reset (R76); SUPPRESSED as given. -/
def PointRecord.fresh (suppressed : Bool) : PointRecord where
  state := .vacant
  presence := .absent
  verdict := .none
  foundClass := none
  firstSerial := none
  secondSerial := none
  lastStatus := none
  lastGood := 0
  noreplyRun := 0
  garbledRun := 0
  driftRun := 0
  prealarmReady := true
  testCount := 0
  flags := 0
  armed := false
  suppressed := suppressed

/-- The Report Writer after a reset or at a bind (R182, R183); "none" copies are held as 0 (log 16). -/
def Writer.fresh : Writer where
  queue := []
  inHand := none
  producer := 0
  consumer := 0
  gap := false

/-- The Internal Master after a reset (R22). -/
def InternalMaster.fresh : InternalMaster where
  current := none
  waitBinding := none
  waitCommand := none
  waitReport := none
  lastServed := .report

/-- A zone record after power-on reset (R124). -/
def ZoneRecord.fresh : ZoneRecord where
  withheld := false
  walkSlot := none
  opener := none

/-- The profile codes after power-on reset (R45). -/
def powerOnCodes : Vector (BitVec 4) 4 := #v[2, 5, 9, 14]

/-- The chip after power-on reset, PORn risen again: UNBOUND, with LISO inputs low and DSEL 0, HRSTn high
(R22, R32, R49, R76, R103, R124, R143, R157, R183; the pin levels DESIGN CHOICE, log 12). -/
def Chip.reset : Chip where
  mem := []
  dsel := 0
  porLow := false
  hrstLow := false
  host := none
  backlog := []
  answer := .none
  port := none
  starve := 0
  im := InternalMaster.fresh
  bind := .unbound
  seconds := 0
  refCount := 0
  plan := Vector.replicate 768 none
  sealed := false
  profiles := powerOnCodes
  latch := none
  intake := []
  points := Vector.replicate 768 (PointRecord.fresh false)
  rederivations := []
  silenceOwed := []
  silenceExempt := 0
  lisoFiltered := Vector.replicate 4 false
  lisoStable := Vector.replicate 4 0
  shiftRegister := 0
  zoneMask := 0
  zones := Vector.replicate 100 ZoneRecord.fresh
  fireCount := 0
  firePin := false
  slots := Vector.replicate 4 none
  walkOwed := []
  command := none
  overrun := false
  prepared := false
  transfer := none
  writer := Writer.fresh
  irqPin := false

/-- The machine right after reset: the chip after power-on reset, and no command waiting. -/
def State.reset : State where
  chip := Chip.reset
  pending := []

end Sys2Proof.Machine
end

