-- ==== Sys2Proof/Machine/Operands.lean ====
section
/-! DEFINITION. Every layout software sees, and the code tables (13_memory_formats.md): how the part reads the fields of a
word and how it packs a word. Bits no field uses are driven 0 (R184); each packed word below is a concatenation from bit 31
down to bit 0, so its type says that the fields fill 32 bits. -/

namespace Sys2Proof.Machine

/-! ### Fields of a word -/

/-- Bits `lo` to `lo + len − 1` of a word, as a number. -/
def field (w : Word) (lo len : Nat) : Nat := (w.extractLsb' lo len).toNat

/-- A number as a bus word; a number past 32 bits loses its upper bits. -/
def word (n : Nat) : Word := BitVec.ofNat 32 n

/-- The 32-bit sum of words, carries out of bit 31 dropped (R24, R161). -/
def sumWords (ws : List Word) : Word := ws.foldl (· + ·) 0

/-! ### Codes (R187, R188) -/

/-- STATE codes (R188). -/
def PointState.code : PointState → Nat
  | .vacant => 0 | .expected => 1 | .unplanned => 2 | .matched => 3
  | .mismatch => 4 | .conflict => 5 | .tested => 6 | .commissioned => 7

/-- The STATE a three-bit code names; all eight are legal. -/
def pointStateOf (code : BitVec 3) : PointState :=
  match code.toNat with
  | 0 => .vacant | 1 => .expected | 2 => .unplanned | 3 => .matched
  | 4 => .mismatch | 5 => .conflict | 6 => .tested | _ => .commissioned

/-- PRESENCE codes (R188). -/
def Presence.code : Presence → Nat
  | .absent => 0 | .live => 1 | .silent => 2

/-- VERDICT codes (R188). -/
def Verdict.code : Verdict → Nat
  | .none => 0 | .fire => 1 | .test => 2 | .held => 3

/-- A good status as a STATUS. -/
def GoodStatus.status : GoodStatus → Status
  | .normal => .normal | .alarm => .alarm | .fault => .fault

/-- STATUS codes (R186). -/
def Status.code : Status → Nat
  | .normal => 0 | .alarm => 1 | .fault => 2 | .garbled => 3 | .noreply => 4

/-- Flag numbers (R186). -/
def Flag.number : Flag → Nat
  | .drift => 0 | .prealarm => 1 | .sensor => 2 | .faulted => 3
  | .silenced => 4 | .serialLost => 5 | .badWrite => 6 | .classChanged => 7

/-- Walk end reason codes (R187). -/
def EndReason.code : EndReason → Nat
  | .expired => 1 | .ended => 2 | .breakout => 3 | .isolated => 4

/-- Final state codes of w6 (R187); 1 is RUNNING. -/
def FinalState.code : FinalState → Nat
  | .done => 2 | .refused => 3 | .aborted => 4

/-- Reason codes (R187). -/
def Reason.code : Reason → Nat
  | .none => 0 | .unknownCommand => 1 | .badOperand => 2 | .sealed => 3 | .lockedPoint => 4 | .notPrepared => 5
  | .badBlock => 6 | .torn => 7 | .duplicateEntry => 8 | .noSlot => 9 | .zoneBusy => 10 | .zoneNotInTest => 11
  | .zoneIsolated => 12 | .zoneInTest => 13 | .wrongState => 14 | .walkActive => 15 | .firePresent => 16

/-- BIND STATUS reason codes (R185). -/
def BindReason.code : BindReason → Nat
  | .none => 0 | .signature => 1 | .checksum => 2 | .range => 3 | .overlap => 4

/-- Kind codes of report records (R188). -/
def ReportKind.code : ReportKind → Nat
  | .found => 1 | .mismatch => 2 | .conflict => 3 | .silent => 4 | .returned => 5 | .classChanged => 6
  | .serialLost => 7 | .badWrite => 8
  | .drift => 16 | .prealarm => 17 | .sensor => 18 | .fault => 19
  | .fire => 32 | .held => 33 | .coincidence => 34
  | .testHit => 48 | .walkEnd => 49
  | .consentChanged => 64
  | .commandDone => 80

/-- The class-mask bit of a kind's class: 0 POINT, 1 MONITOR, 2 ALARM, 3 WALK, 4 CONSENT, 5 COMMAND (R185, R188). -/
def ReportKind.classBit : ReportKind → Nat
  | .found | .mismatch | .conflict | .silent | .returned | .classChanged | .serialLost | .badWrite => 0
  | .drift | .prealarm | .sensor | .fault => 1
  | .fire | .held | .coincidence => 2
  | .testHit | .walkEnd => 3
  | .consentChanged => 4
  | .commandDone => 5

/-- A report of the ALARM class. -/
def Report.isAlarm (r : Report) : Bool := r.kind.classBit == 2

/-! ### Record indexes, loops, addresses (00_scope.md, Conventions) -/

/-- The record index as a table index. Every number the rules form here is below 768 (R4, R69); a larger one wraps. -/
def recordAt (n : Nat) : Rec := Fin.ofNat 768 n

/-- The loop of a record. -/
def loopOf (r : Rec) : Loop := ⟨r.val / 192, by omega⟩

/-- The loop number of a record, 1 to 4. -/
def loopNumber (r : Rec) : Nat := r.val / 192 + 1

/-- The address number of a record, 1 to 192. -/
def addressNumber (r : Rec) : Nat := r.val % 192 + 1

/-- A real zone as a zone of the Zone Table. -/
def realZone (z : RealZone) : Zone := ⟨z.val, by omega⟩

/-- The pseudo-zone of a loop, 97 to 100 (R36). -/
def pseudoZone (l : Loop) : Zone := ⟨96 + l.val, by omega⟩

/-- A zone's number, 1 to 100. -/
def zoneNumber (z : Zone) : Nat := z.val + 1

/-! ### Overlay words (R5, R6, R186) -/

/-- The verdict word of a record. -/
def verdictWord (p : PointRecord) : Word :=
  0#4 ++ BitVec.ofNat 4 p.testCount ++ p.flags ++ 0#1 ++ BitVec.ofNat 5 p.driftRun ++ BitVec.ofBool p.suppressed
    ++ BitVec.ofBool p.armed ++ BitVec.ofNat 2 p.verdict.code ++ BitVec.ofNat 2 p.presence.code ++ 0#1
    ++ BitVec.ofNat 3 p.state.code

/-- A plan word with its low 16 bits given: LABEL in the plan word, LOOP and ADDRESS in a block's entry (R186, R189). -/
def planFields (e : PlanEntry) (low : BitVec 16) : Word :=
  0#1 ++ BitVec.ofNat 7 (e.zone.val + 1) ++ 0#1 ++ BitVec.ofNat 2 e.profile.val ++ e.cls ++ BitVec.ofBool e.enable
    ++ 1#1 ++ low

/-- The plan word of an entry; an absent entry answers all 0 (R6). -/
def planWord : Option PlanEntry → Word
  | none => 0
  | some e => planFields e e.label

/-! ### The reply word (R186) -/

/-- The reply body of a reply word with a legal STATUS, with the serial settled against the latch (R53). -/
def replyBody (w : Word) (serial : EventSerial) : Option ReplyBody :=
  let cls := w.extractLsb' 4 3
  let analog := w.extractLsb' 8 8
  match field w 0 3 with
  | 0 => some (.good .normal cls analog serial)
  | 1 => some (.good .alarm cls analog serial)
  | 2 => some (.good .fault cls analog serial)
  | 3 => some .garbled
  | 4 => some .noreply
  | _ => none

/-- SVALID of a reply word. -/
def replySvalid (w : Word) : Bool := w.getLsbD 16

/-! ### The binding descriptor (R25 to R27, R185) -/

/-- Byte address of a descriptor at a strap setting (R23). -/
def descriptorBase (location : BitVec 3) : Nat := location.toNat * 0x200000

/-- Whether descriptor word `i`, 1 to 7, is in range, unused bits 0 (R25). -/
def descriptorWordOk (i : Nat) (w : Word) : Bool :=
  match i with
  | 1 => field w 0 4 == 0 && field w 24 8 == 0
  | 2 => field w 0 6 == 0 && field w 24 8 == 0
  | 3 => field w 0 4 == 0 && field w 24 8 == 0
  | 4 => decide (8 ≤ field w 0 11 ∧ field w 0 11 ≤ 1024) && field w 11 21 == 0
  | 5 => decide (1 ≤ field w 0 3 ∧ field w 0 3 ≤ 4) && field w 3 5 == 0 && field w 9 23 == 0
  | 6 => decide (5 ≤ field w 0 8 ∧ field w 0 8 ≤ 250) && decide (1 ≤ field w 8 4) && field w 12 4 == 0
      && decide (5 ≤ field w 16 7 ∧ field w 16 7 ≤ 120) && field w 23 9 == 0
  | 7 => field w 6 2 == 0 && field w 9 23 == 0
  | _ => true

/-- The index of the first word out of range (R25). -/
def firstBadWord (words : List Word) : Option Nat :=
  [1, 2, 3, 4, 5, 6, 7].find? fun i => !descriptorWordOk i (words.getD i 0)

/-- The binding a descriptor describes; the ALARM class bit is taken as set (R25, R185). -/
def bindingOf (location : BitVec 3) (words : List Word) : Binding :=
  let w (i : Nat) : Word := words.getD i 0
  { location := location
    pointBase := field (w 1) 0 24
    mailboxBase := field (w 2) 0 24
    ringBase := field (w 3) 0 24
    capacity := field (w 4) 0 11
    loops := field (w 5) 0 3
    autoWithdraw := (w 5).getLsbD 8
    silenceTimeout := field (w 6) 0 8
    noreplyLimit := field (w 6) 8 4
    coincidenceWindow := field (w 6) 16 7
    classMask := (w 7).extractLsb' 0 6 ||| 0b000100#6
    irqEnable := (w 7).getLsbD 8 }

/-- A byte range: start and length. -/
abbrev Range := Nat × Nat

/-- Two ranges share a byte when each starts before the other ends (R27). -/
def Range.overlaps (a b : Range) : Bool := decide (a.1 < b.1 + b.2 ∧ b.1 < a.1 + a.2)

/-- The point table window (R3, R26). -/
def Binding.pointRange (b : Binding) : Range := (b.pointBase, b.loops * 3072)

/-- The mailbox window (R3). -/
def Binding.mailboxRange (b : Binding) : Range := (b.mailboxBase, 64)

/-- The report ring window (R3, R26). -/
def Binding.ringRange (b : Binding) : Range := (b.ringBase, 16 + 16 * b.capacity)

/-- The 40 bytes of the bound descriptor (R27). -/
def Binding.descriptorRange (b : Binding) : Range := (descriptorBase b.location, 40)

/-- The six pairs in their order (R27). -/
def Binding.pairs (b : Binding) : List (Nat × Range × Range) :=
  [(1, b.pointRange, b.mailboxRange), (2, b.pointRange, b.ringRange), (3, b.pointRange, b.descriptorRange),
   (4, b.mailboxRange, b.ringRange), (5, b.mailboxRange, b.descriptorRange), (6, b.ringRange, b.descriptorRange)]

/-- The four tests over the eight words read and the trigger's CHECKSUM, in order, stopping at the first that fails
(R24 to R27). -/
def checkDescriptor (location : BitVec 3) (checksum : Word) (words : List Word) :
    Except (BindReason × Nat) Binding :=
  let b := bindingOf location words
  if words.getD 0 0 ≠ Config.bindSignature then .error (.signature, 0)
  else if sumWords words + checksum ≠ 0 then .error (.checksum, 0)
  else match firstBadWord words with
    | some i => .error (.range, i)
    | none =>
      if b.pointRange.1 + b.pointRange.2 > Config.spaceEnd then .error (.range, 1)
      else if b.ringRange.1 + b.ringRange.2 > Config.spaceEnd then .error (.range, 3)
      else match b.pairs.find? fun p => p.2.1.overlaps p.2.2 with
        | some p => .error (.overlap, p.1)
        | none => .ok b

/-- BIND STATUS: state 1 BOUND or 2 REJECTED, reason, detail (R185). -/
def bindStatusWord (state : Nat) (reason : BindReason) (detail : Nat) : Word :=
  BitVec.ofNat 16 detail ++ BitVec.ofNat 8 reason.code ++ BitVec.ofNat 8 state

/-! ### Mailbox words (R187) -/

/-- The command word of a code, a tag and the ignored upper half. -/
def commandWord (code tag : BitVec 8) (upper : BitVec 16) : Word := upper ++ tag ++ code

/-- w6: state, reason, tag echo and OVERRUN. -/
def statusWord (state reason : Nat) (tag : BitVec 8) (overrun : Bool) : Word :=
  BitVec.ofBool overrun ++ 0#7 ++ tag ++ BitVec.ofNat 8 reason ++ BitVec.ofNat 8 state

/-- DETAIL of BAD BLOCK: block in 15:8, slot in 7:0; 255 stands for a snapshot header. -/
def badBlockDetail (block slot : Nat) : Word := 0#16 ++ BitVec.ofNat 8 block ++ BitVec.ofNat 8 slot

/-- Two counts in one RESULT word: the first in 15:0, the second in 31:16. -/
def countPair (first second : Nat) : Word := BitVec.ofNat 16 second ++ BitVec.ofNat 16 first

/-- QUERY's w15: slots in 7:0, seal in 15:8, pending queue in 23:16. -/
def queryTailWord (slots sealBit pending : Nat) : Word :=
  0#8 ++ BitVec.ofNat 8 pending ++ BitVec.ofNat 8 sealBit ++ BitVec.ofNat 8 slots

/-! ### Report records (R188) -/

/-- Word `i`, 0 to 3, of a record. -/
def recordWordOf (r : Report) (gap : Bool) (i : Nat) : Word :=
  match i with
  | 0 => 0#1 ++ BitVec.ofNat 7 r.zone ++ BitVec.ofNat 8 r.addr ++ 0#4 ++ BitVec.ofNat 3 r.loop
      ++ BitVec.ofBool gap ++ BitVec.ofNat 8 r.kind.code
  | 1 => word r.time
  | 2 => r.detailA
  | _ => r.detailB

/-- WALK END's DETAIL B: entries in 7:0, OVERFLOWED in bit 8. -/
def walkEndDetail (entries : Nat) (overflowed : Bool) : Word :=
  0#23 ++ BitVec.ofBool overflowed ++ BitVec.ofNat 8 entries

/-- COMMAND DONE's DETAIL A: code in 7:0, tag in 15:8. -/
def commandDoneA (code tag : BitVec 8) : Word := 0#16 ++ tag ++ code

/-- COMMAND DONE's DETAIL B: final state in 7:0, reason in 15:8. -/
def commandDoneB (final : FinalState) (reason : Reason) : Word :=
  0#16 ++ BitVec.ofNat 8 reason.code ++ BitVec.ofNat 8 final.code

/-! ### Plan block entries (R162, R189) -/

/-- An entry slot's first word, LOOP. 0 marks an empty slot. -/
def entryLoop (first : Word) : Nat := field first 0 3

/-- An entry slot's first word, ADDRESS. -/
def entryAddress (first : Word) : Nat := field first 8 8

/-- The record an entry names. -/
def entryRecord (first : Word) : Rec := recordAt ((entryLoop first - 1) * 192 + (entryAddress first - 1))

/-- PLANNED of an entry. -/
def entryPlanned (first : Word) : Bool := first.getLsbD 16

/-- The bits no field of an entry uses: 7:3, 23, 31 of the first word, 31:16 of the second. -/
def entryUnusedClear (first second : Word) : Bool :=
  field first 3 5 == 0 && field first 23 1 == 0 && field first 31 1 == 0 && field second 16 16 == 0

/-- ZONE in 1 to 96, the fields' widths giving every other range of R162. -/
def entryZoneOk (first : Word) : Bool := decide (1 ≤ field first 24 7 ∧ field first 24 7 ≤ 96)

/-- The entry an install writes: with PLANNED 0 absent, whatever the other fields hold (R37). -/
def entryOf (first second : Word) : Option PlanEntry :=
  if entryPlanned first then
    some { enable := first.getLsbD 17
           cls := first.extractLsb' 18 3
           zone := Fin.ofNat 96 (field first 24 7 - 1)
           profile := Fin.ofNat 4 (field first 21 2)
           label := second.extractLsb' 0 16 }
  else none

/-- LOOP and ADDRESS of a record as the low half of an entry's first word. -/
def entryPosition (r : Rec) : BitVec 16 :=
  BitVec.ofNat 8 (addressNumber r) ++ 0#5 ++ BitVec.ofNat 3 (loopNumber r)

/-- An entry's first word for a record; an absent entry holds only LOOP and ADDRESS (R190). -/
def entryFirst (r : Rec) : Option PlanEntry → Word
  | none => 0#16 ++ entryPosition r
  | some e => planFields e (entryPosition r)

/-- An entry's second word. -/
def entrySecond : Option PlanEntry → Word
  | none => 0
  | some e => 0#16 ++ e.label

/-! ### Snapshots (R166 to R170, R190) -/

/-- The state word of a point entry. -/
def snapshotStateWord (p : PointRecord) : Word :=
  0#20 ++ BitVec.ofNat 4 p.testCount ++ BitVec.ofBool p.foundClass.isSome ++ p.foundClass.getD 0 ++ 0#1
    ++ BitVec.ofNat 3 p.state.code

/-- The five words of a point entry. -/
def pointEntry (r : Rec) (e : Option PlanEntry) (p : PointRecord) : List Word :=
  [entryFirst r e, entrySecond e, snapshotStateWord p, p.firstSerial.getD 0, p.secondSerial.getD 0]

/-- A block's words followed by its checksum, the two's complement of their sum. -/
def withChecksum (ws : List Word) : List Word := ws ++ [-(sumWords ws)]

/-- A serial word of a point entry: 0 is absent. -/
def serialOf (w : Word) : Option Word := if w = 0 then none else some w

/-- The commissioning part of a point entry that RESTORE installs (R172). -/
structure RestoredPoint where
  entry : Option PlanEntry
  state : PointState
  foundClass : Option (BitVec 3)
  testCount : Nat
  firstSerial : Option Word
  secondSerial : Option Word
  deriving DecidableEq, Repr

/-- Word `i` of the point entry in slot `slot`, 1 to 8, of a state block. -/
def stateBlockWord (block : List Word) (slot i : Nat) : Word := block.getD (2 + 5 * (slot - 1) + i) 0

/-- The point entry of a slot, read. -/
def restoredPoint (block : List Word) (slot : Nat) : RestoredPoint :=
  let w (i : Nat) : Word := stateBlockWord block slot i
  { entry := entryOf (w 0) (w 1)
    state := pointStateOf ((w 2).extractLsb' 0 3)
    foundClass := if (w 2).getLsbD 7 then some ((w 2).extractLsb' 4 3) else none
    testCount := field (w 2) 8 4
    firstSerial := serialOf (w 3)
    secondSerial := serialOf (w 4) }

/-- The state checks of R170, made over the snapshot's own fields. -/
def RestoredPoint.consistent (q : RestoredPoint) : Bool :=
  match q.state with
  | .vacant => q.entry.isNone && q.foundClass.isNone
  | .expected => q.entry.isSome && q.foundClass.isNone
  | .unplanned => q.entry.isNone && q.foundClass.isSome
  | .mismatch => q.entry.isSome && q.foundClass.isSome && q.foundClass != q.entry.map (·.cls)
  | .matched => q.entry.isSome && q.foundClass.isSome && q.foundClass == q.entry.map (·.cls)
  | .tested => q.entry.isSome && q.foundClass.isSome && q.foundClass == q.entry.map (·.cls)
  | .commissioned => q.entry.isSome && q.foundClass.isSome && q.foundClass == q.entry.map (·.cls)
      && q.firstSerial.isSome && q.secondSerial.isNone
  | .conflict => true

/-- The checks of R170 over the point entry of a slot of block `block`. An absent entry's unused bits are not looked at
(DEDUCED, log 17). -/
def stateEntryOk (words : List Word) (block slot : Nat) : Bool :=
  let w (i : Nat) : Word := stateBlockWord words slot i
  let q := restoredPoint words slot
  let r := recordAt (8 * block + slot - 1)
  (entryLoop (w 0) == loopNumber r && entryAddress (w 0) == addressNumber r)
    && (if entryPlanned (w 0) then entryZoneOk (w 0) && entryUnusedClear (w 0) (w 1)
        else field (w 0) 17 6 == 0 && field (w 0) 24 7 == 0 && field (w 1) 0 16 == 0)
    && ((w 2).getLsbD 7 || field (w 2) 4 3 == 0) && field (w 2) 3 1 == 0 && field (w 2) 12 20 == 0
    && (q.secondSerial.isNone || (q.state == .conflict && q.firstSerial.isSome))
    && q.consistent

/-- The header of a snapshot passes its checks (R169). -/
def headerOk (ws : List Word) : Bool :=
  ws.getD 0 0 == Config.headerSignature && sumWords ws == 0 && (ws.getD 1 0).toNat == 96
    && decide (1 ≤ (ws.getD 2 0).toNat ∧ (ws.getD 2 0).toNat ≤ 4)
    && [3, 4, 5, 6].all (fun i => decide ((ws.getD i 0).toNat ≤ 15))
    && decide ((ws.getD 7 0).toNat ≤ 1)
    && [9, 10, 11, 12, 13, 14].all (fun i => ws.getD i 0 == 0)

/-- The codes, seal flag and second RESTORE keeps (R169). -/
def keptHeader (ws : List Word) : KeptHeader :=
  { codes := Table.tabulate fun i => (ws.getD (3 + i.val) 0).extractLsb' 0 4
    sealFlag := (ws.getD 7 0).toNat == 1
    second := ws.getD 8 0 }

/-- Header words 0 to 15 (R166, R190). -/
def headerWords (loops : Nat) (codes : Vector (BitVec 4) 4) (sealFlag : Bool) (second : Nat) : List Word :=
  withChecksum ([Config.headerSignature, 96, word loops] ++ codes.toList.map (fun c => word c.toNat)
    ++ [word sealFlag.toNat, word second, 0, 0, 0, 0, 0, 0])

end Sys2Proof.Machine
end

