-- ==== Sys2Proof/Machine/Ops.lean ====
section
/-! DEFINITION. The shared operations: RAM, one home for reading and changing each table, the derived fields of a point,
raising a report, the Internal Master and the arbiter. -/

namespace Sys2Proof.Machine

/-! ### RAM

A list of (address, byte), addresses strictly rising, below the end of the space, no entry equal to the fill byte (log 1). -/

/-- The byte at an address. -/
def Mem.read : List Host.Cell → Nat → Byte
  | [], _ => Config.ramFill
  | (k, x) :: t, a => if a = k then x else Mem.read t a

/-- One byte written, keeping the canonical form. -/
def Mem.write : List Host.Cell → Nat → Byte → List Host.Cell
  | [], a, b => if b = Config.ramFill then [] else [(a, b)]
  | (k, x) :: t, a, b =>
    if a < k then (if b = Config.ramFill then (k, x) :: t else (a, b) :: (k, x) :: t)
    else if a = k then (if b = Config.ramFill then t else (a, b) :: t)
    else (k, x) :: Mem.write t a b

/-- The canonical form. -/
def Mem.wf : List Host.Cell → Bool
  | [] => true
  | (k, x) :: t => decide (k < Config.spaceEnd) && x != Config.ramFill && t.all (fun c => decide (k < c.1)) && Mem.wf t

/-- The byte address of the word an address picks: the two low bits are dropped (R3). -/
def wordBase (a : Addr) : Nat := a.toNat / 4 * 4

/-- The word at a byte address: bytes lie at ascending addresses from bit 0 up (13_memory_formats.md). -/
def Mem.readWord (m : List Host.Cell) (a : Nat) : Word :=
  Mem.read m (a + 3) ++ Mem.read m (a + 2) ++ Mem.read m (a + 1) ++ Mem.read m a

/-- One byte lane written when its enable is set. -/
def Mem.writeLane (m : List Host.Cell) (a : Nat) (be : BitVec 4) (w : Word) (n : Nat) : List Host.Cell :=
  if be.getLsbD n then Mem.write m (a + n) (w.extractLsb' (8 * n) 8) else m

/-- A word written under its byte enables; enable n covers bits 8n to 8n + 7. -/
def Mem.writeWord (m : List Host.Cell) (a : Nat) (be : BitVec 4) (w : Word) : List Host.Cell :=
  [0, 1, 2, 3].foldl (fun m n => Mem.writeLane m a be w n) m

/-- What an access presented at the downstream port does to RAM: a write stores its enabled lanes (R17). -/
def HostRequest.perform (q : HostRequest) (m : List Host.Cell) : List Host.Cell :=
  match q.op with
  | .read _ => m
  | .write w be => Mem.writeWord m (wordBase q.addr) be w

/-- What an internal request presents at the downstream port: one whole word, all four byte enables (R17). -/
def MemRequest.presented (q : MemRequest) : HostRequest :=
  match q.wdata with
  | none => ⟨q.addr, .read 0xF#4⟩
  | some w => ⟨q.addr, .write w 0xF#4⟩

/-- What an internal request does to RAM (R17). -/
def MemRequest.perform (q : MemRequest) (m : List Host.Cell) : List Host.Cell := q.presented.perform m

/-! ### Tables: one home each -/

/-- A point record replaced. -/
def Chip.setPoint (c : Chip) (r : Rec) (p : PointRecord) : Chip := { c with points := c.points.set r p }

/-- A point record changed. -/
def Chip.modPoint (c : Chip) (r : Rec) (f : PointRecord → PointRecord) : Chip := c.setPoint r (f c.points[r])

/-- A plan entry replaced. -/
def Chip.setPlan (c : Chip) (r : Rec) (e : Option PlanEntry) : Chip := { c with plan := c.plan.set r e }

/-- A zone record changed. -/
def Chip.modZone (c : Chip) (z : Zone) (f : ZoneRecord → ZoneRecord) : Chip :=
  { c with zones := c.zones.set z (f c.zones[z]) }

/-- A walk slot replaced; none is FREE. -/
def Chip.setSlot (c : Chip) (k : Fin 4) (w : Option WalkSlot) : Chip := { c with slots := c.slots.set k w }

/-! ### The binding's copies -/

/-- The binding in force, when BOUND. -/
def Chip.binding (c : Chip) : Option Binding :=
  match c.bind with
  | .bound b => some b
  | _ => none

/-- AUTO WITHDRAW of the binding. With no binding there is no copy, and every point is ABSENT (R97); log 16. -/
def Chip.autoWithdraw (c : Chip) : Bool :=
  match c.bind with
  | .bound b => b.autoWithdraw
  | _ => true

/-- LOOPS of the binding; log 16 without one. -/
def Chip.loops (c : Chip) : Nat :=
  match c.bind with
  | .bound b => b.loops
  | _ => 0

/-! ### Zone, slot and levels of a point (R36, R45, R46) -/

/-- The zone a plan entry gives a record. -/
def zoneFor (r : Rec) : Option PlanEntry → Zone
  | some e => realZone e.zone
  | none => pseudoZone (loopOf r)

/-- A point's zone (R36). -/
def Chip.zoneOf (c : Chip) (r : Rec) : Zone := zoneFor r c.plan[r]

/-- A point's profile slot (R36). -/
def Chip.profileSlot (c : Chip) (r : Rec) : Fin 4 :=
  match c.plan[r] with
  | some e => e.profile
  | none => 0

/-- The drift limit of a code, 48 + 4n (R45). -/
def driftLimit (code : BitVec 4) : Nat := 48 + 4 * code.toNat

/-- The pre-alarm level of a code, 128 + 6n (R45). -/
def prealarmLevel (code : BitVec 4) : Nat := 128 + 6 * code.toNat

/-- The re-arm level of a code, 20 below its pre-alarm level (R78). -/
def rearmLevel (code : BitVec 4) : Nat := prealarmLevel code - 20

/-- The code a point is judged by (R46). -/
def Chip.pointCode (c : Chip) (r : Rec) : BitVec 4 := c.profiles[c.profileSlot r]

/-! ### Consents, SUPPRESSED and ARMED (R90 to R98) -/

/-- Plan consent is withheld (R90). -/
def planWithheld : Option PlanEntry → Bool
  | some e => !e.enable
  | none => false

/-- A zone's consent is withheld by a mask (R95); a pseudo-zone's never is. -/
def maskWithholds (mask : BitVec 96) (z : Zone) : Bool := decide (z.val < 96) && mask.getLsbD z.val

/-- SUPPRESSED by the consents as they stand (R96). -/
def Chip.suppression (c : Chip) (r : Rec) : Bool :=
  planWithheld c.plan[r] || c.lisoFiltered[loopOf r] || maskWithholds c.zoneMask (c.zoneOf r)

/-- STATE allows ARMED (R97). -/
def PointState.armable : PointState → Bool
  | .matched | .tested | .commissioned => true
  | _ => false

/-- PRESENCE allows ARMED (R97). -/
def Presence.armable (withdraw : Bool) : Presence → Bool
  | .live => true
  | .silent => !withdraw
  | .absent => false

/-- ARMED by R97. -/
def armedOf (suppressed withdraw : Bool) (p : PointRecord) : Bool :=
  !suppressed && p.state.armable && p.presence.armable withdraw

/-- A point's record with SUPPRESSED and ARMED as they now derive (R96, R97). -/
def Chip.derived (c : Chip) (r : Rec) (p : PointRecord) : PointRecord :=
  { p with suppressed := c.suppression r, armed := armedOf (c.suppression r) c.autoWithdraw p }

/-- SUPPRESSED and ARMED re-derived at a point (R98). -/
def Chip.rederive (c : Chip) (r : Rec) : Chip := c.modPoint r (c.derived r)

/-! ### The Internal Master's clients (R20) -/

/-- The bus word address of a number; every number the rules form here is below 2^24 (R26, R158). -/
def busAddr (n : Nat) : Addr := BitVec.ofNat 24 n

/-- The Command Engine issues a request. -/
def Chip.issueCommand (c : Chip) (a : Nat) (w : Option Word) : Chip :=
  { c with im := { c.im with waitCommand := some ⟨busAddr a, w⟩ } }

/-- The Report Writer issues a request. -/
def Chip.issueReport (c : Chip) (a : Nat) (w : Option Word) : Chip :=
  { c with im := { c.im with waitReport := some ⟨busAddr a, w⟩ } }

/-- The Binding Unit issues a request. -/
def Chip.issueBinding (c : Chip) (a : Nat) (w : Option Word) : Chip :=
  { c with im := { c.im with waitBinding := some ⟨busAddr a, w⟩ } }

/-! ### Raising a report (R175 to R178) -/

/-- The queue without its newest non-ALARM entry, the one nearest the tail; none when every entry is ALARM (R176). -/
def dropNewestOther : List Report → Option (List Report)
  | [] => none
  | r :: t =>
    match dropNewestOther t with
    | some t' => some (r :: t')
    | none => if r.isAlarm then none else some t

/-- A formed report arrives at the pending queue (R176, R177). -/
def Writer.arrive (w : Writer) (r : Report) : Writer :=
  if w.queue.length < Config.pendingLimit then { w with queue := w.queue ++ [r] }
  else if r.isAlarm then
    match dropNewestOther w.queue with
    | some q => { w with queue := q ++ [r], gap := true }
    | none => { w with gap := true }
  else { w with gap := true }

/-- Occupancy of a ring: published records not yet consumed (11_the_report_ring.md, "Writing the ring"). -/
def occupancy (producer consumer capacity : Nat) : Nat := (producer + capacity - consumer) % capacity

/-- The ring is full (11_the_report_ring.md, "Writing the ring"). -/
def Writer.full (w : Writer) (capacity : Nat) : Bool := (w.producer + 1) % capacity == w.consumer

/-- The address of word `i` of record slot `n` (R188). -/
def Binding.recordAddr (b : Binding) (n i : Nat) : Nat := b.ringBase + 16 + 16 * n + 4 * i

/-- The write that follows when `written` of the five of a record have finished (R178). -/
def Binding.recordWrite (b : Binding) (w : Writer) (h : RecordInHand) : Nat × Word :=
  if h.written < 4 then (b.recordAddr w.producer h.written, recordWordOf h.report h.gap h.written)
  else (b.ringBase, word ((w.producer + 1) % b.capacity))

/-- The Report Writer starts a record when it has none in hand, the queue is not empty and the ring not full (R178): the
head entry leaves the queue, takes the gap mark (R177), and the first write is issued. -/
def Chip.startRecord (c : Chip) : Chip :=
  match c.bind with
  | .bound b =>
    match c.writer.inHand, c.writer.queue with
    | none, r :: rest =>
      if c.writer.full b.capacity then c
      else
        let h : RecordInHand := { report := r, gap := c.writer.gap, written := 0 }
        let w : Writer := { c.writer with queue := rest, inHand := some h, gap := false }
        Chip.issueReport { c with writer := w } (b.recordWrite w h).1 (some (b.recordWrite w h).2)
    | _, _ => c
  | _ => c

/-- A report is formed while BOUND with its class set in the mask (R175). -/
def Chip.forms (c : Chip) (k : ReportKind) : Bool :=
  match c.bind with
  | .bound b => b.classMask.getLsbD k.classBit
  | _ => false

/-- A block raises a report: when it is formed it arrives at the queue within the event (R175, R176), and a writer that was
waiting for one starts it (R178). -/
def Chip.raise (c : Chip) (r : Report) : Chip :=
  if c.forms r.kind then Chip.startRecord { c with writer := c.writer.arrive r } else c

/-- A report about a point: its LOOP, ADDRESS and its zone as R36 gives it, TIME the counter (R68, R88, R125). -/
def Chip.raisePoint (c : Chip) (k : ReportKind) (r : Rec) (time : Nat) (a b : Word) : Chip :=
  c.raise { kind := k, loop := loopNumber r, addr := addressNumber r, zone := zoneNumber (c.zoneOf r),
            time := time, detailA := a, detailB := b }

/-- A report about a zone: LOOP and ADDRESS 0. -/
def Chip.raiseZone (c : Chip) (k : ReportKind) (z : Zone) (time : Nat) (a b : Word) : Chip :=
  c.raise { kind := k, loop := 0, addr := 0, zone := zoneNumber z, time := time, detailA := a, detailB := b }

/-! ### Walk slots and zones (R127, R133) -/

/-- The slot, RUNNING or ENDING, that a zone is linked to (R127). -/
def Chip.linkedSlot (c : Chip) (z : Zone) : Option (Fin 4) :=
  (List.finRange 4).find? fun k =>
    match c.slots[k] with
    | some w => realZone w.zone == z
    | none => false

/-- How many slots are RUNNING or ENDING (R154). -/
def Chip.activeSlots (c : Chip) : Nat := c.slots.toList.countP Option.isSome

/-- An end request reaches a slot: it records the reason in a RUNNING slot that has none, and is dropped otherwise
(R133). -/
def Chip.requestEnd (c : Chip) (k : Fin 4) (reason : EndReason) : Chip :=
  match c.slots[k] with
  | some w =>
    if !w.ending && w.reason.isNone then c.setSlot k (some { w with reason := some reason }) else c
  | none => c

/-! ### Re-derivation events (R99) -/

/-- The points among `rs` now owe a re-derivation event; reply events queued already were formed before it. A record that
owes one already keeps its earlier place: one event with the newest consents settles both (R99). -/
def Chip.oweRederivations (c : Chip) (rs : List Rec) : Chip :=
  let owed := c.rederivations.map (·.point)
  { c with rederivations := c.rederivations ++
      (rs.filter fun r => !owed.contains r).map fun r => { point := r, exempt := c.intake.length } }

/-- The owed re-derivation event at a record is made (R99). -/
def Chip.makeRederivation (c : Chip) (r : Rec) : Chip :=
  if c.rederivations.any (fun o => o.point == r) then
    Chip.rederive { c with rederivations := c.rederivations.filter (fun o => o.point != r) } r
  else c

end Sys2Proof.Machine
end

