-- ==== Sys2Proof/Machine/Flags.lean ====
section
/-! DEFINITION. Every flag and pin computation: the latched flags of a point, the FIRE count and pin, the IRQ line, ZOUT. -/

namespace Sys2Proof.Machine

/-- A point's flag is set (R186: flag n at bit n). -/
def PointRecord.hasFlag (p : PointRecord) (f : Flag) : Bool := p.flags.getLsbD f.number

/-- A point's flag latched. -/
def PointRecord.latch (p : PointRecord) (f : Flag) : PointRecord :=
  { p with flags := p.flags ||| (1#8 <<< f.number) }

/-- The flags a mask selects cleared; clearing DRIFT also sets DRIFT RUN to 0, whether the flag was set or not
(R74, R87). -/
def PointRecord.clearFlags (p : PointRecord) (mask : BitVec 8) : PointRecord :=
  { p with flags := p.flags &&& ~~~mask
           driftRun := if mask.getLsbD Flag.drift.number then 0 else p.driftRun }

/-- At least one flag of the mask is set (R74). -/
def PointRecord.anyFlag (p : PointRecord) (mask : BitVec 8) : Bool := p.flags &&& mask != 0

/-- The FIRE count after a point's verdict changes (R123). -/
def fireCountAfter (count : Nat) (old new : Verdict) : Nat :=
  if old = .fire ∧ new ≠ .fire then count - 1
  else if old ≠ .fire ∧ new = .fire then count + 1
  else count

/-- A point's VERDICT set; the FIRE count and pin change in the same event (R123). -/
def Chip.setVerdict (c : Chip) (r : Rec) (v : Verdict) : Chip :=
  let n := fireCountAfter c.fireCount c.points[r].verdict v
  { c.modPoint r (fun p => { p with verdict := v }) with fireCount := n, firePin := decide (0 < n) }

/-- IRQ as R181 gives it. -/
def Chip.irqLevel (c : Chip) : Bool :=
  match c.bind with
  | .bound b => b.irqEnable && decide (0 < occupancy c.writer.producer c.writer.consumer b.capacity)
  | _ => false

/-- The IRQ line settled (R181). -/
def Chip.settleIrq (c : Chip) : Chip := { c with irqPin := c.irqLevel }

/-- ZOUT drives position 96 of the shift register (R93). -/
def Chip.zout (c : Chip) : Bool := c.shiftRegister.getLsbD 95

end Sys2Proof.Machine
end

