-- ==== Sys2Proof/WellFormed.lean ====
section
/-! DEFINITION. When a command's operands are the ones its row speaks of, whatever the state. The meanings do not depend on
it: an access whose operands belong to another row is treated by the Window Decoder as that other access (log 5). -/

namespace Sys2Proof

/-- All four byte enables set: a whole write (00_scope.md, Conventions). -/
def wholeEnables (be : BitVec 4) : Bool := be == 0xF#4

/-- The word of a point record an address picks, 0 to 3: the point table base is a multiple of 16 (R25, R186). -/
def recordWord (addr : Addr) : Nat := addr.toNat / 4 % 4

/-- The mailbox word an address picks, 0 to 15: the mailbox base is a multiple of 64 (R25). -/
def mailboxWord (addr : Addr) : Nat := addr.toNat / 4 % 16

/-- The code of the reply word's STATUS field (R186). -/
def replyStatusCode (data : Word) : Nat := data.toNat % 8

/-- The byte address of the CHECKSUM word at a strap setting (R23). -/
def checksumAddress (dsel : BitVec 3) : Nat := dsel.toNat * 0x200000 + 0x20

/-- A command word is written at w0 of a mailbox. -/
def CommandStep.wellFormed : CommandStep → Bool
  | .word addr _ _ _ => mailboxWord addr == 0
  | .run _ => true

/-- The operands are of the kind the row names. -/
def Instr.wellFormed : Instr → Bool
  | .bindTrigger dsel addr _ _ => addr.toNat / 4 * 4 == checksumAddress dsel
  | .verdictWordRead read _ => recordWord read.addr == 2
  | .planWordRead read _ => recordWord read.addr == 3
  | .swallowedWrite addr _ _ _ => recordWord addr == 2 || recordWord addr == 3
  | .serialWordWrite addr _ _ => recordWord addr == 0
  | .replyWordWrite addr data _ => recordWord addr == 1 && decide (replyStatusCode data ≤ 4)
  | .malformedReplyWrite addr data be _ =>
    recordWord addr == 1 && (!wholeEnables be || decide (5 ≤ replyStatusCode data))
  | .mailboxOverrunWrite addr _ _ _ => decide (mailboxWord addr ≤ 5)
  | .consumerWrite addr _ _ => recordWord addr == 1
  | .unknownCommand code how => decide (17 ≤ code.toNat) && how.wellFormed
  | .planLoad how => how.wellFormed
  | .snapshot how => how.wellFormed
  | .restore how => how.wellFormed
  | .profileSet how => how.wellFormed
  | .sealPlan how => how.wellFormed
  | .walkStart how => how.wellFormed
  | .walkEnd how => how.wellFormed
  | .accept how => how.wellFormed
  | .release how => how.wellFormed
  | .adopt how => how.wellFormed
  | .clearFlags how => how.wellFormed
  | .clearVerdict how => how.wellFormed
  | .revertPrepare how => how.wellFormed
  | .revert how => how.wellFormed
  | .query how => how.wellFormed
  | .reset how => how.wellFormed
  | .passedWrite _ _ _ _ => true
  | .downstreamAccessDone => true
  | .bindRejected => true
  | .bindBound => true
  | .secondTick => true
  | .silenceExpiry _ => true
  | .walkExpiry _ => true
  | .heldReadRelease => true
  | .heldReplyWriteRelease _ => true
  | .replyEvent => true
  | .loopIsolateChange _ => true
  | .zoneLoad _ => true
  | .consentRederivation _ => true
  | .walkEndEvent _ => true
  | .walkClearEvent _ _ => true
  | .commandComplete => true
  | .reportRecordStart => true
  | .reportRecordPublish => true
  | .hostReset => true
  | .powerOnReset => true
  | .powerOnRelease _ => true
  | .zoneChainShift _ _ => true
  | .hostResetRelease => true
  | .refclkRisingEdge _ order _ => decide order.Nodup

/-- The command code a mailbox command's row writes, and the form of its step (R187); none for every other row. -/
def Instr.mailboxStep : Instr → Option (BitVec 8 × CommandStep)
  | .unknownCommand code how => some (code, how)
  | .planLoad how => some (1, how)
  | .snapshot how => some (2, how)
  | .restore how => some (3, how)
  | .profileSet how => some (4, how)
  | .sealPlan how => some (5, how)
  | .walkStart how => some (6, how)
  | .walkEnd how => some (7, how)
  | .accept how => some (8, how)
  | .release how => some (9, how)
  | .adopt how => some (10, how)
  | .clearFlags how => some (11, how)
  | .clearVerdict how => some (12, how)
  | .revertPrepare how => some (13, how)
  | .revert how => some (14, how)
  | .query how => some (15, how)
  | .reset how => some (16, how)
  | _ => none

/-- A host access's row with one more downstream access finishing after it (log 6). -/
def Instr.oneMoreAfter : Instr → Option Instr
  | .passedWrite a w be n => some (.passedWrite a w be (n + 1))
  | .bindTrigger d a w n => some (.bindTrigger d a w (n + 1))
  | .verdictWordRead r n => some (.verdictWordRead r (n + 1))
  | .planWordRead r n => some (.planWordRead r (n + 1))
  | .swallowedWrite a w be n => some (.swallowedWrite a w be (n + 1))
  | .serialWordWrite a w n => some (.serialWordWrite a w (n + 1))
  | .replyWordWrite a w n => some (.replyWordWrite a w (n + 1))
  | .heldReplyWriteRelease n => some (.heldReplyWriteRelease (n + 1))
  | .malformedReplyWrite a w be n => some (.malformedReplyWrite a w be (n + 1))
  | .mailboxOverrunWrite a w be n => some (.mailboxOverrunWrite a w be (n + 1))
  | .consumerWrite a w n => some (.consumerWrite a w (n + 1))
  | _ => none

end Sys2Proof
end

