-- ==== Sys2Proof/Machine/MemoryPath.lean ====
section
/-! DEFINITION. The memory path up to the downstream port (01_the_memory_path.md): the Window Decoder, the overlay words and
their holds, the arrival of a host access, and the settling of the path: what a hold that has ended lets go, what the host
presents next, what the Internal Master makes current, what the arbiter grants. -/

namespace Sys2Proof.Machine

/-! ### The Window Decoder (R1 to R4, R8, R9, R23) -/

/-- The window an address of a BOUND part lies in, with the word it picks. -/
inductive Window where
  | outside
  /-- Word `word`, 0 to 3, of record `r`'s point record. -/
  | point (r : Rec) (word : Nat)
  /-- Mailbox word 0 to 15. -/
  | mailbox (word : Nat)
  /-- Word of the ring window: 0 PRODUCER, 1 CONSUMER. -/
  | ring (word : Nat)
  deriving DecidableEq, Repr

/-- The window of a word's byte address (R3, R4). -/
def Binding.window (b : Binding) (a : Nat) : Window :=
  if b.pointBase ≤ a ∧ a < b.pointBase + b.loops * 3072 then
    .point (recordAt ((a - b.pointBase) / 16)) ((a - b.pointBase) / 4 % 4)
  else if b.mailboxBase ≤ a ∧ a < b.mailboxBase + 64 then .mailbox ((a - b.mailboxBase) / 4)
  else if b.ringBase ≤ a ∧ a < b.ringBase + (16 + 16 * b.capacity) then .ring ((a - b.ringBase) / 4)
  else .outside

/-- A host read's treatment inside a window (R4, R8, R9). -/
def Window.treatRead : Window → Treatment
  | .point r 2 => .verdictRead r
  | .point r 3 => .planRead r
  | _ => .passed

/-- A reply-word write forms an event when it is whole with STATUS 0 to 4; otherwise it is malformed (R4, R54). -/
def treatReply (r : Rec) (w : Word) (be : BitVec 4) : Treatment :=
  if wholeEnables be && decide (replyStatusCode w ≤ 4) then .replyWrite r else .malformedWrite r

/-- A host write's treatment inside a window; `running` is the Command Engine's phase (R4, R7, R8, R9). -/
def Window.treatWrite (running : Bool) (w : Word) (be : BitVec 4) : Window → Treatment
  | .outside => .passed
  | .point r 0 => if wholeEnables be then .serialWrite r else .passed
  | .point r 1 => treatReply r w be
  | .point _ _ => .swallowed
  | .mailbox k =>
    if running then (if k ≤ 5 then .overrun else .passed)
    else if k = 0 ∧ wholeEnables be = true ∧ field w 0 8 ≠ 0 then .commandWrite
    else .passed
  | .ring 1 => if wholeEnables be then .consumerWrite else .passed
  | .ring _ => .passed

/-- The treatment of a host access, decided on its arrival. UNBOUND: a whole write to the CHECKSUM word of the
strap-selected descriptor is a bind trigger unless HRSTn is low, and everything else passes (R1, R23); CHECKING: everything
passes (R2); BOUND: by window (R3). -/
def Chip.classify (c : Chip) (q : HostRequest) : Treatment :=
  match c.bind with
  | .unbound =>
    match q.op with
    | .write _ be =>
      if wordBase q.addr = checksumAddress c.dsel ∧ wholeEnables be = true ∧ c.hrstLow = false then .trigger c.dsel
      else .passed
    | .read _ => .passed
  | .checking _ => .passed
  | .bound b =>
    match q.op with
    | .read _ => (b.window (wordBase q.addr)).treatRead
    | .write w be => (b.window (wordBase q.addr)).treatWrite c.command.isSome w be

/-! ### Holds (R11, R12) -/

/-- A Transfer install is in progress for a point: its block has passed its re-read and its own install is not made
(R12, third condition). -/
def Chip.installing (c : Chip) (r : Rec) : Bool :=
  match c.command, c.transfer with
  | some k, some t =>
    match k.stage with
    | .working (.planInstall s) =>
      [1, 2, 3, 4, 5, 6, 7, 8].any fun i =>
        decide (s ≤ i) && entryLoop (t.words.getD (2 * i) 0) != 0 && entryRecord (t.words.getD (2 * i) 0) == r
    | .working (.restoreInstall s) =>
      match t.position with
      | some b => decide (8 * b + s - 1 ≤ r.val ∧ r.val < 8 * b + 8)
      | none => false
    | _ => false
  | _, _ => false

/-- A read hold is in force for a point (R12). A reply event is one step, so no read arrives inside its processing
(log 9). -/
def Chip.readHeld (c : Chip) (r : Rec) : Bool := c.intake.any (fun e => e.point == r) || c.installing r

/-- The Intake Queue is full (R11). -/
def Chip.intakeFull (c : Chip) : Bool := decide (Config.intakeLimit ≤ c.intake.length)

/-! ### Arrival of a host access -/

/-- A host access ends with UACK. -/
def Chip.acknowledge (c : Chip) (a : HostAnswer) : Chip := { c with host := none, answer := a }

/-- An overlay read: answered from the part's tables, or held. Its answer is the whole overlay word whatever the access's byte
enables (R5, R6, R12). -/
def Chip.overlayRead (c : Chip) (q : HostRequest) (t : Treatment) (r : Rec) (w : Word) : Chip :=
  if c.readHeld r then { c with host := some ⟨q, t, .held⟩ } else c.acknowledge (.read w)

/-- A host access is dealt with on its arrival as its treatment says (R1 to R12). -/
def Chip.treat (c : Chip) (q : HostRequest) : Treatment → Chip
  | .swallowed => c.acknowledge .written
  | .overrun => Chip.acknowledge { c with overrun := true } .written
  | .verdictRead r => c.overlayRead q (.verdictRead r) r (verdictWord c.points[r])
  | .planRead r => c.overlayRead q (.planRead r) r (planWord c.plan[r])
  | .replyWrite r => { c with host := some ⟨q, .replyWrite r, if c.intakeFull then .held else .waiting⟩ }
  | t => { c with host := some ⟨q, t, .waiting⟩ }

/-- A host access arrives at the free upstream port and is classified (R1 to R3). The answer of the access before it stands no
longer from then on (DESIGN CHOICE, log 7). -/
def Chip.arrive (c : Chip) (q : HostRequest) : Chip := Chip.treat { c with answer := .none } q (c.classify q)

/-- A hold that has ended lets its access go: a read is answered from the record as it now stands (R5, R6, R12), a reply
write goes on to the arbiter (R11, R19). -/
def Chip.releaseHeld (c : Chip) : Chip :=
  match c.host with
  | some ⟨q, .verdictRead r, .held⟩ =>
    if c.readHeld r then c else { c with host := none, answer := .read (verdictWord c.points[r]) }
  | some ⟨q, .planRead r, .held⟩ =>
    if c.readHeld r then c else { c with host := none, answer := .read (planWord c.plan[r]) }
  | some ⟨q, .replyWrite r, .held⟩ =>
    if c.intakeFull then c else { c with host := some ⟨q, .replyWrite r, .waiting⟩ }
  | _ => c

/-- The host presents its next accesses, each when the one before has its UACK and within that same event, so that the answer
of an access with another behind it stands in no state (DESIGN CHOICE, log 7). -/
def Chip.present : List HostRequest → Chip → Chip
  | [], c => { c with backlog := [] }
  | q :: rest, c =>
    if c.host.isSome then { c with backlog := q :: rest }
    else Chip.present rest (Chip.arrive c q)

/-! ### The Internal Master and the arbiter (R18, R20, R21) -/

/-- The Internal Master with a request made current. -/
def InternalMaster.serve (m : InternalMaster) (cl : Client) (q : MemRequest) : InternalMaster :=
  match cl with
  | .binding => { m with current := some (cl, q), waitBinding := none }
  | .command => { m with current := some (cl, q), waitCommand := none, lastServed := .command }
  | .report => { m with current := some (cl, q), waitReport := none, lastServed := .report }

/-- With no current request, the Internal Master makes a waiting one current: of the Command Engine and the Report Writer
the one it did not serve last (R20, R21). -/
def InternalMaster.choose (m : InternalMaster) : InternalMaster :=
  if m.current.isSome then m
  else match m.waitBinding, m.waitCommand, m.waitReport with
    | some q, _, _ => m.serve .binding q
    | none, some q, none => m.serve .command q
    | none, none, some q => m.serve .report q
    | none, some q, some q' =>
      match m.lastServed with
      | .report => m.serve .command q
      | .command => m.serve .report q'
    | none, none, none => m

/-- A host access waits at the arbiter (R18, R19). -/
def Chip.hostWaiting (c : Chip) : Bool :=
  match c.host with
  | some h => h.stage == .waiting
  | none => false

/-- The host path is granted the port. -/
def Chip.grantHost (c : Chip) (starve : Nat) : Chip :=
  match c.host with
  | some h => { c with host := some { h with stage := .atPort }, port := some .host, starve := starve }
  | none => c

/-- The Internal Master is granted the port; STARVE COUNT goes to 0 (R18). -/
def Chip.grantInternal (c : Chip) : Chip :=
  match c.im.current with
  | some (cl, q) => { c with port := some (.internal cl q), starve := 0 }
  | none => c

/-- The arbiter grants a free port; a port in use is left to the access that has it (R17, R18). -/
def Chip.grant (c : Chip) : Chip :=
  if c.port.isSome then c
  else if c.hostWaiting then
    if c.im.current.isSome then
      if c.starve < Config.starveLimit then c.grantHost (c.starve + 1) else c.grantInternal
    else c.grantHost c.starve
  else c.grantInternal

/-- The access presented at the downstream port, the same from its grant to its DACK: the host's own, with the host's address,
data and byte enables, or one whole word of the Internal Master's (R1, R17). -/
def Chip.downstream (c : Chip) : Option HostRequest :=
  match c.port with
  | none => none
  | some .host => c.host.map (·.request)
  | some (.internal _ q) => some q.presented
  | some (.orphan q) => some q.presented
  | some (.abandonedStatus q) => some q.presented

/-- The memory path settled after an event: holds that have ended, the host's next accesses, the Internal Master's choice,
the arbiter's grant. Requests that arise in one event all count as waiting at that grant, so a host access and an internal
request of one event meet as both waiting and STARVE COUNT goes up; R18 does not say which of them arrives first (DESIGN
CHOICE, log 23). -/
def Chip.settle (c : Chip) : Chip :=
  let c := c.releaseHeld
  let c := Chip.present c.backlog c
  Chip.grant { c with im := c.im.choose }

/-- An event of the part outside PORn low: nothing moves while PORn is low (R31, R92, R94, log 13). -/
def Chip.event (c : Chip) (f : Chip → Chip) : Chip := if c.porLow then c else Chip.settle (f c)

/-- The outcome of a meaning: the chip changed, the queue of waiting commands left as it is. -/
def onChip (f : Chip → Chip) (s : State) : Host.Outcome State Fault Refusal := .next { s with chip := f s.chip }

/-- HELD_READ_RELEASE (R12): the conditions are rechecked, and a held overlay read with none left is answered. The part
does so whenever a condition changes, so after every event nothing is left to release (log 8). -/
def execHeldReadRelease (s : State) : Host.Outcome State Fault Refusal := onChip (fun c => c.event id) s

end Sys2Proof.Machine
end

