-- ==== Sys2Proof/Machine/Alarm.lean ====
section
/-! DEFINITION. The Alarm Qualifier (07_alarm_qualification_and_the_zone_table.md) with the capture of a walk test
(R130, R131): onsets, coincidence and the verdicts. -/

namespace Sys2Proof.Machine

/-- Whether an onset came from a reply or from a slot's end (R107). -/
inductive OnsetKind where
  | reply | requalification
  deriving DecidableEq, Repr

/-- TEST COUNT and STATE after a capture (R130). -/
def PointRecord.captured (p : PointRecord) : PointRecord :=
  { p with state := if p.state = .matched then .tested else p.state
           testCount := min (p.testCount + 1) 15 }

/-- The hit list after a capture (R131): the point's entry one up, held at 255; or a new entry while there is room. -/
def WalkSlot.hit (w : WalkSlot) (r : Rec) : WalkSlot :=
  if w.hits.any (fun h => h.point == r) then
    { w with hits := w.hits.map fun h => if h.point = r then { h with count := min (h.count + 1) 255 } else h }
  else if w.hits.length < Config.hitListLimit then { w with hits := w.hits ++ [{ point := r, count := 1 }] }
  else { w with overflowed := true }

/-- The hit count of a point's entry, 0 when it has none (R131). -/
def WalkSlot.hitCount (w : WalkSlot) (r : Rec) : Nat :=
  match w.hits.find? (fun h => h.point == r) with
  | some h => h.count
  | none => 0

/-- The slot's part of a capture and its TEST HIT report (R131, R142). -/
def Chip.recordHit (c : Chip) (k : Fin 4) (r : Rec) (now : Nat) : Chip :=
  match c.slots[k] with
  | none => c
  | some w =>
    let w := w.hit r
    Chip.raise (c.setSlot k (some w))
      { kind := .testHit, loop := loopNumber r, addr := addressNumber r, zone := zoneNumber (realZone w.zone), time := now,
        detailA := word (w.hitCount r), detailB := word c.points[r].testCount }

/-- A capture: the point's part, then the slot's (R130, R131). -/
def Chip.capture (c : Chip) (k : Fin 4) (r : Rec) (now : Nat) : Chip :=
  Chip.recordHit ((c.setVerdict r .test).modPoint r PointRecord.captured) k r now

/-- The zone's OPENER when it is a partner for point p: present, not expired, another point, not SUPPRESSED (R113). -/
def Chip.partner (c : Chip) (z : Zone) (r : Rec) (now : Nat) : Option Rec :=
  match c.zones[z].opener with
  | some o => if now < o.expiry ∧ o.point ≠ r ∧ c.points[o.point].suppressed = false then some o.point else none
  | none => none

/-- COINCIDENCE WINDOW of the binding; log 16 without one. -/
def Chip.coincidenceWindow (c : Chip) : Nat :=
  match c.bind with
  | .bound b => b.coincidenceWindow
  | _ => 0

/-- FIRE by coincidence at one of its two points, naming the other; a point that holds FIRE keeps it with no report
(R114, R125). -/
def Chip.coincide (c : Chip) (r other : Rec) (now : Nat) : Chip :=
  if c.points[r].verdict = .fire then c
  else (c.setVerdict r .fire).raisePoint .fire r now (word 3) (word other.val)

/-- A BREAKOUT request to the slot the zone record names (R114 step 5, R136). -/
def Chip.breakout (c : Chip) (z : Zone) : Chip :=
  match c.zones[z].walkSlot with
  | some k => c.requestEnd k .breakout
  | none => c

/-- A coincidence of point p with the opener q in zone z (R114). -/
def Chip.coincidence (c : Chip) (z : Zone) (q p : Rec) (now : Nat) : Chip :=
  let c := c.raiseZone .coincidence z now (word q.val) (word p.val)
  let c := c.coincide q p now
  let c := c.coincide p q now
  let c := c.modZone z fun zr => { zr with opener := none }
  c.breakout z

/-- The coincidence check for zone z and point p (R113). -/
def Chip.coincidenceCheck (c : Chip) (z : Zone) (p : Rec) (now : Nat) : Chip :=
  match c.partner z p now with
  | some q => c.coincidence z q p now
  | none => c.modZone z fun zr =>
      { zr with opener := some { point := p, expiry := min (now + c.coincidenceWindow) Config.maxSecond } }

/-- HELD with its report (R109, R112, R125). -/
def Chip.hold (c : Chip) (r : Rec) (now cause : Nat) : Chip :=
  (c.setVerdict r .held).raisePoint .held r now (word cause) (word c.points[r].state.code)

/-- The slot that captures point p of zone z: the zone record's WALK SLOT, when p's STATE is MATCHED, TESTED or
COMMISSIONED (R108 outcome 2). -/
def Chip.capturingSlot (c : Chip) (z : Zone) (r : Rec) : Option (Fin 4) :=
  if c.points[r].state.armable then c.zones[z].walkSlot else none

/-- The qualification of an onset: the first outcome whose condition holds (R108 to R112). -/
def Chip.qualify (c : Chip) (r : Rec) (now : Nat) (kind : OnsetKind) : Chip :=
  let z := c.zoneOf r
  if c.points[r].suppressed then
    c.hold r now (match kind with | .reply => 1 | .requalification => 3)
  else
    match c.capturingSlot z r with
    | some k => (c.capture k r now).coincidenceCheck z r now
    | none =>
      if c.points[r].armed then
        (c.setVerdict r .fire).raisePoint .fire r now
          (word (match kind with | .reply => 1 | .requalification => 2)) 0
      else
        (c.hold r now (match kind with | .reply => 2 | .requalification => 4)).coincidenceCheck z r now

/-- The verdict step of a good reply (R106, R120). -/
def Chip.verdictStep (c : Chip) (r : Rec) (status : GoodStatus) (now : Nat) : Chip :=
  match status, c.points[r].verdict with
  | .alarm, .none => c.qualify r now .reply
  | .alarm, _ => c
  | _, .test => c.setVerdict r .none
  | _, _ => c

end Sys2Proof.Machine
end

