-- ==== Sys2Proof/Machine/PointEngine.lean ====
section
/-! DEFINITION. The Point Engine (04_reply_intake_and_point_state.md) with the Drift Monitor inside it
(05_drift_and_pre_alarm_monitoring.md): the eight steps of a reply event, silence, the state machine. -/

namespace Sys2Proof.Machine

/-! ### Re-derivation of STATE (R59) -/

/-- The STATE a planned or absent entry and FOUND CLASS give a point that is neither CONFLICT nor kept TESTED. -/
def stateFor (entry : Option PlanEntry) (found : Option (BitVec 3)) : PointState :=
  match entry, found with
  | none, none => .vacant
  | none, some _ => .unplanned
  | some _, none => .expected
  | some e, some f => if f = e.cls then .matched else .mismatch

/-- CLASS and ZONE of the entry are as they were before the event (R59). -/
def sameClassAndZone : Option PlanEntry → Option PlanEntry → Bool
  | some e, some e' => e.cls == e'.cls && e.zone == e'.zone
  | _, _ => false

/-- STATE re-derived from the state before, the entry before and now, FOUND CLASS, and whether the event changed it (R59).
A COMMISSIONED point never meets re-derivation; it is taken with the rows "any other". -/
def rederiveState (before : PointState) (entryBefore entry : Option PlanEntry) (found : Option (BitVec 3))
    (foundChanged : Bool) : PointState :=
  if before = .conflict then .conflict
  else if before = .tested ∧ sameClassAndZone entryBefore entry = true ∧ foundChanged = false
      ∧ stateFor entry found = .matched then .tested
  else stateFor entry found

/-! ### The steps of a reply event (R57) -/

/-- Step 1 for a good reply (R58). -/
def PointRecord.runsGood (p : PointRecord) (st : GoodStatus) (now : Nat) : PointRecord :=
  { p with lastStatus := some st.status, noreplyRun := 0, garbledRun := 0, lastGood := now }

/-- Step 1 for GARBLED (R58). -/
def PointRecord.runsGarbled (p : PointRecord) : PointRecord :=
  { p with lastStatus := some .garbled, garbledRun := min (p.garbledRun + 1) 3 }

/-- Step 1 for NOREPLY (R58). -/
def PointRecord.runsNoreply (p : PointRecord) : PointRecord :=
  { p with lastStatus := some .noreply, noreplyRun := min (p.noreplyRun + 1) 15 }

/-- Step 2 for a good reply (R64); `previous` is LAST GOOD TIME before the event. -/
def Chip.presenceGood (c : Chip) (r : Rec) (previous now : Nat) : Chip :=
  let was := c.points[r].presence
  let c := c.modPoint r fun p => { p with presence := .live }
  if was = .silent then c.raisePoint .returned r now (word (now - previous)) 0 else c

/-- A point enters SILENT by a path: 1 NOREPLY run, 2 timeout (R67, R68, R188). ARMED is re-derived by the caller. -/
def Chip.enterSilent (c : Chip) (r : Rec) (now path : Nat) : Chip :=
  Chip.raisePoint (c.modPoint r fun p => { p with presence := .silent }.latch .silenced) .silent r now (word path)
    (word c.points[r].lastGood)

/-- NOREPLY LIMIT of the binding; log 16 without one. -/
def Chip.noreplyLimit (c : Chip) : Nat :=
  match c.bind with
  | .bound b => b.noreplyLimit
  | _ => 0

/-- SILENCE TIMEOUT of the binding; log 16 without one. -/
def Chip.silenceTimeout (c : Chip) : Nat :=
  match c.bind with
  | .bound b => b.silenceTimeout
  | _ => 0

/-- Step 2 for NOREPLY (R65); `run` is NOREPLY RUN before the event, so `run + 1` is the value step 1 has just brought. -/
def Chip.presenceNoreply (c : Chip) (r : Rec) (run now : Nat) : Chip :=
  if c.points[r].presence = .live ∧ run < 15 ∧ run + 1 = c.noreplyLimit then c.enterSilent r now 1 else c

/-- A serial that differs from FIRST SERIAL and is not SECOND SERIAL (R61). -/
def Chip.serialConflict (c : Chip) (r : Rec) (s : Word) (now : Nat) : Chip :=
  Chip.raisePoint (c.modPoint r fun p => { p with secondSerial := some s, state := .conflict }) .conflict r now (word 1) s

/-- Step 3 for an event that carries SERIAL (R61). In the table's last row the state is CONFLICT already. -/
def Chip.serialPresent (c : Chip) (r : Rec) (s : Word) (now : Nat) : Chip :=
  let p := c.points[r]
  match p.firstSerial with
  | none => c.modPoint r fun p => { p with firstSerial := some s }
  | some f =>
    if s = f then c
    else if p.secondSerial = some s then c
    else if p.secondSerial.isSome then
      Chip.raisePoint (c.modPoint r fun p => { p with secondSerial := some s }) .conflict r now (word 1) s
    else c.serialConflict r s now

/-- The SERIAL LOST mark of an event (R62). -/
def Chip.serialLost (c : Chip) (r : Rec) (now : Nat) (holder : Option Rec) : Chip :=
  let c := c.modPoint r fun p => p.latch .serialLost
  match holder with
  | none => c.raisePoint .serialLost r now (word 1) 0
  | some h => c.raisePoint .serialLost r now (word 2) (word h.val)

/-- Step 3 of a good reply (R61, R62). -/
def Chip.serialStep (c : Chip) (r : Rec) (serial : EventSerial) (now : Nat) : Chip :=
  match serial with
  | .absent => c
  | .present s => c.serialPresent r s now
  | .lostEmpty => c.serialLost r now none
  | .lostOther h => c.serialLost r now (some h)

/-- First sighting (R60). -/
def Chip.firstSighting (c : Chip) (r : Rec) (cls : BitVec 3) (now : Nat) : Chip :=
  let entry := c.plan[r]
  let c := c.modPoint r fun p =>
    { p with foundClass := some cls, state := rederiveState p.state entry entry (some cls) true }
  let c := c.raisePoint .found r now (word cls.toNat) (c.points[r].firstSerial.getD 0)
  match c.points[r].state, entry with
  | .mismatch, some e => c.raisePoint .mismatch r now (word cls.toNat) (word e.cls.toNat)
  | _, _ => c

/-- Class change (R60): COMMISSIONED becomes CONFLICT, any other state is re-derived. -/
def Chip.classChange (c : Chip) (r : Rec) (old cls : BitVec 3) (now : Nat) : Chip :=
  let entry := c.plan[r]
  let c := c.modPoint r fun p => { p with foundClass := some cls }.latch .classChanged
  let c := c.raisePoint .classChanged r now (word old.toNat) (word cls.toNat)
  c.modPoint r fun p =>
    { p with state := if p.state = .commissioned then .conflict else rederiveState p.state entry entry (some cls) true }

/-- Step 4 of a good reply (R60). -/
def Chip.classStep (c : Chip) (r : Rec) (cls : BitVec 3) (now : Nat) : Chip :=
  match c.points[r].foundClass with
  | none => c.firstSighting r cls now
  | some old => if old = cls then c else c.classChange r old cls now

/-- Step 5 for GARBLED (R63); `run` is GARBLED RUN before the event. -/
def Chip.garbledStep (c : Chip) (r : Rec) (run now : Nat) : Chip :=
  if run = 2 then
    Chip.raisePoint (c.modPoint r fun p => { p with state := .conflict }) .conflict r now (word 2) 0
  else c

/-! ### The Drift Monitor (R79 to R85) -/

/-- A flag latched with its report when it was clear (R80, R81). -/
def Chip.latchWithReport (c : Chip) (r : Rec) (f : Flag) (k : ReportKind) (now : Nat) (a b : Word) : Chip :=
  if c.points[r].hasFlag f then c else Chip.raisePoint (c.modPoint r fun p => p.latch f) k r now a b

/-- DRIFT RUN after a NORMAL reading (R82). -/
def driftRunAfter (run analog limit : Nat) : Nat := if limit ≤ analog then min (run + 1) 16 else run - 1

/-- The drift check (R82, R83). -/
def Chip.driftCheck (c : Chip) (r : Rec) (analog : BitVec 8) (code : BitVec 4) (now : Nat) : Chip :=
  let run := c.points[r].driftRun
  let after := driftRunAfter run analog.toNat (driftLimit code)
  let c := c.modPoint r fun p => { p with driftRun := after }
  if run = 15 ∧ after = 16 then
    c.latchWithReport r .drift .drift now (word analog.toNat) (word (driftLimit code))
  else c

/-- The pre-alarm check of a NORMAL reply (R84). -/
def Chip.prealarmCheck (c : Chip) (r : Rec) (analog : BitVec 8) (code : BitVec 4) (now : Nat) : Chip :=
  if prealarmLevel code ≤ analog.toNat then
    if c.points[r].prealarmReady then
      Chip.raisePoint (c.modPoint r fun p => { p with prealarmReady := false }.latch .prealarm) .prealarm r now
        (word analog.toNat) (word (prealarmLevel code))
    else c
  else if analog.toNat ≤ rearmLevel code then c.modPoint r fun p => { p with prealarmReady := true }
  else c

/-- The sensor check (R81). -/
def Chip.sensorCheck (c : Chip) (r : Rec) (st : GoodStatus) (analog : BitVec 8) (now : Nat) : Chip :=
  if analog = 255#8 then c.latchWithReport r .sensor .sensor now (word st.status.code) 0 else c

/-- Step 7: fault, sensor, drift, pre-alarm, each where its row of R79 applies. -/
def Chip.driftMonitor (c : Chip) (r : Rec) (st : GoodStatus) (analog : BitVec 8) (code : BitVec 4) (now : Nat) : Chip :=
  match st with
  | .fault => (c.latchWithReport r .faulted .fault now (word analog.toNat) 0).sensorCheck r st analog now
  | .normal =>
    if analog = 255#8 then c.sensorCheck r st analog now
    else (c.driftCheck r analog code now).prealarmCheck r analog code now
  | .alarm =>
    if analog = 255#8 then c.sensorCheck r st analog now
    else c.modPoint r fun p => { p with prealarmReady := false }

/-! ### The reply event (R57) -/

/-- A good reply through its steps. The levels are those of the code standing when the event is taken (R46). -/
def Chip.goodReply (c : Chip) (r : Rec) (st : GoodStatus) (cls : BitVec 3) (analog : BitVec 8) (serial : EventSerial) :
    Chip :=
  let now := c.seconds
  let code := c.pointCode r
  let previous := c.points[r].lastGood
  let c := c.modPoint r fun p => p.runsGood st now
  let c := c.presenceGood r previous now
  let c := c.serialStep r serial now
  let c := c.classStep r cls now
  let c := c.rederive r
  let c := c.driftMonitor r st analog code now
  c.verdictStep r st now

/-- A GARBLED event through its steps. -/
def Chip.garbledReply (c : Chip) (r : Rec) : Chip :=
  let now := c.seconds
  let run := c.points[r].garbledRun
  let c := c.modPoint r PointRecord.runsGarbled
  let c := c.garbledStep r run now
  c.rederive r

/-- A NOREPLY event through its steps. -/
def Chip.noreply (c : Chip) (r : Rec) : Chip :=
  let now := c.seconds
  let run := c.points[r].noreplyRun
  let c := c.modPoint r PointRecord.runsNoreply
  let c := c.presenceNoreply r run now
  c.rederive r

/-- A reply event processed (R57). -/
def Chip.processReply (c : Chip) (e : ReplyEvent) : Chip :=
  match e.body with
  | .good st cls analog serial => c.goodReply e.point st cls analog serial
  | .garbled => c.garbledReply e.point
  | .noreply => c.noreply e.point

/-! ### Silence tests (R66, R67) -/

/-- The test of one point, with the counter as it now stands. -/
def Chip.silenceTest (c : Chip) (r : Rec) : Chip :=
  if c.points[r].presence = .live ∧ c.silenceTimeout ≤ c.seconds - c.points[r].lastGood then
    (c.enterSilent r c.seconds 2).rederive r
  else c

/-- An owed test is made (R66). -/
def Chip.makeSilenceTest (c : Chip) (r : Rec) : Chip :=
  if c.silenceOwed.contains r then
    Chip.silenceTest { c with silenceOwed := c.silenceOwed.filter (· != r) } r
  else c

/-- Every owed test is made, in ascending record order. -/
def Chip.makeAllSilenceTests (c : Chip) : Chip := c.silenceOwed.foldl Chip.makeSilenceTest c

/-- Every owed re-derivation event is made that must precede the head reply event (R99), or all of them. -/
def Chip.makeRederivations (c : Chip) (all : Bool) : Chip :=
  (c.rederivations.filter fun o => all || o.exempt == 0).foldl (fun c o => c.makeRederivation o.point) c

/-- A stretch of ACCEPT, RELEASE or REVERT runs: no reply event is taken and no silence test is made (R70). -/
def Chip.stretching (c : Chip) : Bool :=
  match c.command with
  | some k => match k.stage with
    | .working (.stretch _ _ _ _ _) => true
    | _ => false
  | none => false

/-- The head event leaves the queue; of the events formed before an owed test or re-derivation one fewer remains. -/
def Chip.dequeueReply (c : Chip) (rest : List ReplyEvent) : Chip :=
  { c with intake := rest
           rederivations := c.rederivations.map fun o => { o with exempt := o.exempt - 1 }
           silenceExempt := c.silenceExempt - 1 }

/-- The tests and re-derivations that must come before the head event: those of ticks and consent events that came before
it was formed (R66, R99; order among them log 10). -/
def Chip.makeOwedBeforeReply (c : Chip) : Chip :=
  let c := c.makeRederivations false
  if c.silenceExempt = 0 then c.makeAllSilenceTests else c

/-- The Point Engine takes the head reply event and processes it (R55, R57). -/
def Chip.takeReply (c : Chip) : Chip :=
  match c.intake with
  | [] => c
  | e :: rest => if c.stretching then c else Chip.processReply (c.makeOwedBeforeReply.dequeueReply rest) e

/-- REPLY_EVENT (R57). -/
def execReplyEvent (s : State) : Host.Outcome State Fault Refusal := onChip (fun c => c.event Chip.takeReply) s

/-- SILENCE_EXPIRY (R66): the owed test of a record, or all that are owed; none while a stretch runs (R70). -/
def execSilenceExpiry (which : Which) (s : State) : Host.Outcome State Fault Refusal :=
  onChip (fun c => c.event fun c =>
    if c.stretching then c
    else match which with
      | .one r => c.makeSilenceTest r
      | .all => c.makeAllSilenceTests) s

/-! ### Entry installs (R37, R118) -/

/-- A plan entry replaced, the old zone's opener cleared when the zone changes and the opener names the point
(R37 steps 1 and 2, R118). -/
def Chip.replaceEntry (c : Chip) (r : Rec) (entry : Option PlanEntry) : Chip :=
  let old := c.zoneOf r
  let c := c.setPlan r entry
  if zoneFor r entry = old then c
  else c.modZone old fun z =>
    { z with opener := match z.opener with
        | some o => if o.point = r then none else some o
        | none => none }

/-- An entry install (R37). -/
def Chip.installEntry (c : Chip) (r : Rec) (entry : Option PlanEntry) : Chip :=
  let before := c.plan[r]
  let c := c.replaceEntry r entry
  let c := c.modPoint r fun p => { p with state := rederiveState p.state before entry p.foundClass false }
  c.rederive r

/-- A RESTORE install of a point (R172). -/
def Chip.restorePoint (c : Chip) (r : Rec) (q : RestoredPoint) : Chip :=
  let c := c.replaceEntry r q.entry
  let c := c.modPoint r fun p =>
    { p with state := q.state, foundClass := q.foundClass, testCount := q.testCount,
             firstSerial := q.firstSerial, secondSerial := q.secondSerial }
  c.rederive r

end Sys2Proof.Machine
end

