-- ==== Sys2Proof/Machine/Intake.lean ====
section
/-! DEFINITION. The Serial Latch and the Intake (R51 to R55): what a taken point-table write does when it finishes. -/

namespace Sys2Proof.Machine

/-- A whole serial-word write finishes (R51): a nonzero value replaces the latch, 0 empties it. -/
def Chip.latchSerial (c : Chip) (r : Rec) (w : Word) : Chip := { c with latch := if w = 0 then none else some (r, w) }

/-- The serial of a good reply with SVALID 1, settled against the latch as it stood (R53, R62). -/
def settleSerial (latch : Option (Rec × Word)) (r : Rec) : EventSerial :=
  match latch with
  | some (holder, s) => if holder = r then .present s else .lostOther holder
  | none => .lostEmpty

/-- A whole reply-word write with STATUS 0 to 4 finishes (R52, R53): the event is formed, its serial settled, the latch
emptied, and the event joins the Intake Queue. -/
def Chip.formReply (c : Chip) (r : Rec) (w : Word) : Chip :=
  let serial := if replySvalid w then settleSerial c.latch r else .absent
  match replyBody w serial with
  | some body => { c with latch := none, intake := c.intake ++ [{ point := r, body := body }] }
  | none => { c with latch := none }

/-- DETAIL A and B of a BAD WRITE report (R68, R188): 1 and the byte enables for a missing byte enable, 2 and the STATUS
code for an illegal STATUS. -/
def badWriteDetail (w : Word) (be : BitVec 4) : Word × Word :=
  if wholeEnables be then (word 2, word (replyStatusCode w)) else (word 1, word be.toNat)

/-- A malformed reply-word write finishes (R52, R54). -/
def Chip.malformedReply (c : Chip) (r : Rec) (w : Word) (be : BitVec 4) : Chip :=
  let c := { c with latch := none }
  Chip.raisePoint (c.modPoint r fun p => p.latch .badWrite) .badWrite r c.seconds (badWriteDetail w be).1
    (badWriteDetail w be).2

end Sys2Proof.Machine
end

