-- ==== Sys2Proof/Machine/Walk.lean ====
section
/-! DEFINITION. The Walk-Test Unit (08_walk_tests.md): starting a slot, expiry, the end event and the clear sweep. The
completion a waiting WALK END writes is in Mailbox.lean, which this file feeds through `Chip.finishWalkEnd`. -/

namespace Sys2Proof.Machine

/-- The Command Engine goes to completion: the DETAIL write is issued (R149 step 1). -/
def Chip.complete (c : Chip) (k : Completion) : Chip :=
  match c.command, c.bind with
  | some m, .bound b =>
    Chip.issueCommand { c with command := some { m with stage := .detail k } } (b.mailboxBase + 4 * 7) (some k.detail)
  | _, _ => c

/-- DONE with DETAIL 0 (R151). -/
def done (result : List Word) : Completion := { final := .done, reason := .none, detail := 0, result := result }

/-- REFUSED with RESULT all 0 (R151). -/
def refuse (reason : Reason) (detail : Nat) : Completion :=
  { final := .refused, reason := reason, detail := word detail, result := [] }

/-- RESULT of WALK END from the slot, before its fields are emptied (R135, R138). -/
def WalkSlot.result (w : WalkSlot) : List Word :=
  [word ((w.reason.map EndReason.code).getD 0), word w.endEntries, word w.endOverflowed.toNat, word w.cleared,
   word w.handedBack]

/-- A slot returns to FREE; a WALK END waiting on it takes its RESULT in the same event (R135, R138). -/
def Chip.freeSlot (c : Chip) (k : Fin 4) (w : WalkSlot) : Chip :=
  let c := c.setSlot k none
  match c.command with
  | some m => if m.stage = .waitingSlot k then c.complete (done w.result) else c
  | none => c

/-- A slot that a tick compares: RUNNING with no reason (R134). -/
def WalkSlot.comparable (w : WalkSlot) : Bool := !w.ending && w.reason.isNone

/-- The owed comparison of a slot is made with the counter as it stands (R134). -/
def Chip.compareSlot (c : Chip) (k : Fin 4) : Chip :=
  if c.walkOwed.contains k then
    let c := { c with walkOwed := c.walkOwed.filter (· != k) }
    match c.slots[k] with
    | some w => if w.comparable && decide (w.finish ≤ c.seconds) then c.requestEnd k .expired else c
    | none => c
  else c

/-- The end event of a slot with a reason recorded (R137). -/
def Chip.endSlot (c : Chip) (k : Fin 4) : Chip :=
  match c.slots[k] with
  | some w =>
    match w.ending, w.reason with
    | false, some reason =>
      let c := c.setSlot k (some { w with ending := true, endEntries := w.hits.length, endOverflowed := w.overflowed,
                                          hits := [], overflowed := false, endNow := c.seconds, sweep := 0 })
      let c := c.modZone (realZone w.zone) fun z => { z with walkSlot := none }
      c.raiseZone .walkEnd (realZone w.zone) c.seconds (word reason.code) (walkEndDetail w.hits.length w.overflowed)
    | _, _ => c
  | none => c

/-- The next record at or after `from` whose zone is the slot's and whose verdict is TEST (R138). -/
def Chip.nextTest (c : Chip) (z : RealZone) (start : Nat) : Option Rec :=
  (List.finRange 768).find? fun r =>
    decide (start ≤ r.val) && c.points[r].verdict == .test && c.zoneOf r == realZone z

/-- A clear event at a point (R138): TEST becomes NONE, and a point still in alarm is re-qualified with the now of the end
event (R107). The slot counts it. -/
def Chip.clearTest (c : Chip) (k : Fin 4) (w : WalkSlot) (r : Rec) : Chip :=
  let again := c.points[r].lastStatus == some .alarm
  let c := c.setSlot k (some { w with cleared := w.cleared + 1, sweep := r.val + 1,
                                      handedBack := if again then w.handedBack + 1 else w.handedBack })
  let c := c.setVerdict r .none
  if again then (c.rederive r).qualify r w.endNow .requalification else c

/-- One move of an ENDING slot's sweep: the next clear event, or, past the last record, the return to FREE (R138). -/
def Chip.sweepSlot (c : Chip) (k : Fin 4) : Chip :=
  match c.slots[k] with
  | some w =>
    if w.ending then
      match c.nextTest w.zone w.sweep with
      | some r => c.clearTest k w r
      | none => c.freeSlot k w
    else c
  | none => c

/-- `n` moves of a sweep, each an event of its own (R138, log 6). -/
def Chip.sweepMoves : Nat → Fin 4 → Chip → Chip
  | 0, _, c => c
  | n + 1, k, c => Chip.sweepMoves n k (c.event fun c => c.sweepSlot k)

/-- WALK_EXPIRY (R134). -/
def execWalkExpiry (k : Fin 4) (s : State) : Host.Outcome State Fault Refusal :=
  onChip (fun c => c.event fun c => c.compareSlot k) s

/-- WALK_END_EVENT (R137). -/
def execWalkEndEvent (k : Fin 4) (s : State) : Host.Outcome State Fault Refusal :=
  onChip (fun c => c.event fun c => c.endSlot k) s

/-- WALK_CLEAR_EVENT (R138): `moves` moves of the slot's sweep. -/
def execWalkClearEvent (k : Fin 4) (moves : Nat) (s : State) : Host.Outcome State Fault Refusal :=
  onChip (Chip.sweepMoves moves k) s

end Sys2Proof.Machine
end

