-- ==== Sys2Proof/Machine/Consent.lean ====
section
/-! DEFINITION. The Consent Block (06_consents_and_arming.md) and the Timebase's edge (R33): the LISO filters, the zone
chain, consent events, second ticks. -/

namespace Sys2Proof.Machine

/-! ### Consent events (R99, R101) -/

/-- The records of a loop, ascending. -/
def loopRecords (l : Loop) : List Rec := (List.finRange 768).filter fun r => loopOf r == l

/-- A loop's consent event (R99, R101): the report, for loops 1 to LOOPS, then the re-derivations owed. -/
def Chip.loopConsentEvent (c : Chip) (l : Loop) (withheld : Bool) : Chip :=
  let c := if l.val < c.loops then
      c.raise { kind := .consentChanged, loop := l.val + 1, addr := 0, zone := zoneNumber (pseudoZone l),
                time := c.seconds, detailA := word withheld.toNat, detailB := word 1 }
    else c
  c.oweRederivations (loopRecords l)

/-- One input sampled at a reference edge (R91). -/
def Chip.sampleInput (c : Chip) (liso : BitVec 4) (l : Loop) : Chip :=
  let level := liso.getLsbD l.val
  if level = c.lisoFiltered[l] then { c with lisoStable := c.lisoStable.set l 0 }
  else if Config.stableEdges ≤ c.lisoStable[l] + 1 then
    Chip.loopConsentEvent
      { c with lisoStable := c.lisoStable.set l 0, lisoFiltered := c.lisoFiltered.set l level } l level
  else { c with lisoStable := c.lisoStable.set l (c.lisoStable[l] + 1) }

/-- The order in which the inputs' changes at one edge fall: the given ones first, then the rest (R91 gives none). -/
def sampleOrder (order : List Loop) : List Loop :=
  (order ++ List.finRange 4).foldl (fun done l => if done.contains l then done else done ++ [l]) []

/-- The four pins sampled at a reference edge. -/
def Chip.sampleInputs (c : Chip) (liso : BitVec 4) (order : List Loop) : Chip :=
  (sampleOrder order).foldl (fun c l => c.sampleInput liso l) c

/-- The zones whose mask bit a load changes, ascending (R94, R101). -/
def changedZones (old new : BitVec 96) : List RealZone :=
  (List.finRange 96).filter fun z => old.getLsbD z.val != new.getLsbD z.val

/-- A zone load's step 1 for one changed zone: the Zone Table's field and the report (R95, R99, R101). -/
def Chip.zoneConsentChange (c : Chip) (z : RealZone) : Chip :=
  let withheld := c.zoneMask.getLsbD z.val
  Chip.raiseZone (c.modZone (realZone z) fun zr => { zr with withheld := withheld }) .consentChanged (realZone z) c.seconds
    (word withheld.toNat) (word 2)

/-- A zone load's step 2 for one changed zone: an ISOLATED request to the slot it is linked to, when its consent is now
withheld (R99, R136). -/
def Chip.isolateZone (c : Chip) (z : RealZone) : Chip :=
  if c.zoneMask.getLsbD z.val then
    match c.linkedSlot (realZone z) with
    | some k => c.requestEnd k .isolated
    | none => c
  else c

/-- The records whose zone is among the changed ones, ascending (R99 step 3). -/
def Chip.recordsOf (c : Chip) (zs : List RealZone) : List Rec :=
  (List.finRange 768).filter fun r => zs.any fun z => c.zoneOf r == realZone z

/-- A zone load (R94, R95, R99). -/
def Chip.loadZones (c : Chip) : Chip :=
  let zs := changedZones c.zoneMask c.shiftRegister
  let c := { c with zoneMask := c.shiftRegister }
  let c := zs.foldl Chip.zoneConsentChange c
  let c := zs.foldl Chip.isolateZone c
  c.oweRederivations (c.recordsOf zs)

/-- A shift of the zone chain: position k to k + 1, ZDAT to position 1; position n is bit n − 1 (R92). -/
def Chip.shiftChain (c : Chip) (zdat : Bool) : Chip :=
  { c with shiftRegister := (c.shiftRegister <<< 1) ||| (BitVec.ofBool zdat).setWidth 96 }

/-! ### Second ticks (R33, R34, R66, R134) -/

/-- The points that are LIVE, ascending. -/
def Chip.livePoints (c : Chip) : List Rec := (List.finRange 768).filter fun r => c.points[r].presence == .live

/-- A tick's silence sweep: every point LIVE at the tick owes a test, unless the sweep before still has a LIVE point to test
(R66). -/
def Chip.startSweep (c : Chip) : Chip :=
  if c.silenceOwed.any (fun r => c.points[r].presence == .live) then c
  else { c with silenceOwed := c.livePoints, silenceExempt := c.intake.length }

/-- A slot that a tick compares (R134). -/
def Chip.slotComparable (c : Chip) (k : Fin 4) : Bool :=
  match c.slots[k] with
  | some w => w.comparable
  | none => false

/-- A tick's round of slot comparisons: every slot RUNNING with no reason at the tick owes one, unless the round before still
has such a slot to compare (R134). -/
def Chip.startRound (c : Chip) : Chip :=
  if c.walkOwed.any c.slotComparable then c
  else { c with walkOwed := (List.finRange 4).filter c.slotComparable }

/-- A second tick (R33, R34): the counter goes up, held at its maximum, and the two blocks get their tick. -/
def Chip.tick (c : Chip) : Chip :=
  Chip.startRound (Chip.startSweep { c with refCount := 0, seconds := min (c.seconds + 1) Config.maxSecond })

/-- The Timebase at a reference edge: it counts while BOUND alone (R33). -/
def Chip.countEdge (c : Chip) : Chip :=
  match c.bind with
  | .bound _ =>
    if Config.cyclesPerSecond ≤ c.refCount + 1 then c.tick else { c with refCount := c.refCount + 1 }
  | _ => c

/-- A reference edge (R33, R91): the Timebase and the filters, in either order. -/
def Chip.refEdge (c : Chip) (liso : BitVec 4) (order : List Loop) (tickLast : Bool) : Chip :=
  if tickLast then (c.sampleInputs liso order).countEdge else c.countEdge.sampleInputs liso order

/-- The filtered levels as pin levels. -/
def Chip.filteredLevels (c : Chip) : BitVec 4 :=
  BitVec.ofBool c.lisoFiltered[3] ++ BitVec.ofBool c.lisoFiltered[2] ++ BitVec.ofBool c.lisoFiltered[1]
    ++ BitVec.ofBool c.lisoFiltered[0]

/-- Reference edges with the pins held at given levels. -/
def Chip.refEdges (liso : BitVec 4) : Nat → Chip → Chip
  | 0, c => c
  | n + 1, c => Chip.refEdges liso n (c.refEdge liso [] false)

/-- The run of reference edges up to and with the next wrap, every LISO pin at its filtered level: each edge clears the
stable counts (R91), and the last one ticks (R33). Nothing happens unless BOUND (log 11). -/
def Chip.nextTick (c : Chip) : Chip :=
  match c.bind with
  | .bound _ => Chip.tick { c with lisoStable := Vector.replicate 4 0 }
  | _ => c

/-- The run of reference edges that takes an input to its other level: the pin of the loop held there, the others at their
filtered levels (log 11). -/
def Chip.changeInput (c : Chip) (l : Loop) : Chip :=
  Chip.refEdges (c.filteredLevels ^^^ (1#4 <<< l.val)) (Config.stableEdges - c.lisoStable[l]) c

/-- REFCLK_RISING_EDGE (R33, R91). -/
def execRefclkRisingEdge (liso : BitVec 4) (order : List Loop) (tickLast : Bool) (s : State) :
    Host.Outcome State Fault Refusal :=
  onChip (fun c => c.event fun c => c.refEdge liso order tickLast) s

/-- SECOND_TICK (R33). -/
def execSecondTick (s : State) : Host.Outcome State Fault Refusal := onChip (fun c => c.event Chip.nextTick) s

/-- LOOP_ISOLATE_CHANGE (R91, R99). -/
def execLoopIsolateChange (l : Loop) (s : State) : Host.Outcome State Fault Refusal :=
  onChip (fun c => c.event fun c => c.changeInput l) s

/-- ZONE_CHAIN_SHIFT (R92): a rising ZCLK with ZDAT and ZLOAD at the given levels; ignored while ZLOAD is low. -/
def execZoneChainShift (zdat zload : Bool) (s : State) : Host.Outcome State Fault Refusal :=
  onChip (fun c => c.event fun c => if zload then c.shiftChain zdat else c) s

/-- ZONE_LOAD (R94): a falling ZLOAD; a coinciding rising ZCLK, with ZDAT at the given level, shifts first. -/
def execZoneLoad (zclk : Option Bool) (s : State) : Host.Outcome State Fault Refusal :=
  onChip (fun c => c.event fun c => Chip.loadZones (match zclk with | some zdat => c.shiftChain zdat | none => c)) s

/-- CONSENT_REDERIVATION (R99): the owed event of a record, or all that are owed. They fall between the events of a stretch
too. -/
def execConsentRederivation (which : Which) (s : State) : Host.Outcome State Fault Refusal :=
  onChip (fun c => c.event fun c =>
    match which with
    | .one r => c.makeRederivation r
    | .all => c.makeRederivations true) s

end Sys2Proof.Machine
end

