-- ==== Sys2Proof/Machine/ReportRing.lean ====
section
/-! DEFINITION. The Report Writer (11_the_report_ring.md): a finished write, the publishing of a record, the host's consumer
index. Reports arrive through `Chip.raise` (Ops.lean). -/

namespace Sys2Proof.Machine

/-- The PRODUCER write of the record in hand finishes: the producer copy advances, the record is released, IRQ is settled,
and the writer looks at once for its next record (R178, R181). -/
def Chip.publish (c : Chip) (b : Binding) : Chip :=
  Chip.startRecord (Chip.settleIrq
    { c with writer := { c.writer with producer := (c.writer.producer + 1) % b.capacity, inHand := none } })

/-- A write of the Report Writer finishes (R178). -/
def Chip.reportWriteDone (c : Chip) : Chip :=
  match c.bind, c.writer.inHand with
  | .bound b, some h =>
    if h.written < 4 then
      let h := { h with written := h.written + 1 }
      let c := { c with writer := { c.writer with inHand := some h } }
      c.issueReport (b.recordWrite c.writer h).1 (some (b.recordWrite c.writer h).2)
    else c.publish b
  | _, _ => c

/-- A CONSUMER value is accepted when it lies circularly from the consumer copy up to the producer copy (R179). -/
def Writer.accepts (w : Writer) (capacity v : Nat) : Bool :=
  decide (v < capacity ∧ occupancy v w.consumer capacity ≤ occupancy w.producer w.consumer capacity)

/-- A whole CONSUMER write finishes; its value is bits 9:0 (R179). -/
def Chip.consumerDone (c : Chip) (data : Word) : Chip :=
  match c.bind with
  | .bound b =>
    let v := field data 0 10
    if c.writer.accepts b.capacity v then
      Chip.startRecord (Chip.settleIrq { c with writer := { c.writer with consumer := v } })
    else c
  | _ => c

/-- REPORT_RECORD_START (R178): a writer with no record in hand, a queued report and room in the ring starts it. The writer
does so within the event that makes all three true, so after every event nothing is left to start (log 8). -/
def execReportRecordStart (s : State) : Host.Outcome State Fault Refusal := onChip (fun c => c.event Chip.startRecord) s

end Sys2Proof.Machine
end

