-- ==== Sys2Proof/Machine/Unbind.lean ====
section
/-! DEFINITION. Unbinding and the resets (R16, R22, R31, R32, R49, R76, R103, R124, R143, R157, R183). -/

namespace Sys2Proof.Machine

/-- A point record after a host reset or RESET (R76). -/
def PointRecord.afterUnbind (p : PointRecord) (suppressed : Bool) : PointRecord :=
  { p with presence := .absent, verdict := .none, lastStatus := none, lastGood := 0, noreplyRun := 0, garbledRun := 0,
           driftRun := 0, prealarmReady := true, armed := false, suppressed := suppressed }

/-- What every unbinding does to the blocks: the binding and its copies go, queues, slots, openers, verdicts and the Report
Writer are emptied, the Command Engine goes IDLE with both marks clear, and points take their reset values over what is kept
(R22, R32, R52, R55, R76, R103, R124, R143, R157, R183). The plan, the seal, the profiles, the consents and the counters
stand (R32, R49, R103). -/
def Chip.unbindBlocks (c : Chip) : Chip :=
  { c with
    bind := .unbound
    starve := 0
    im := InternalMaster.fresh
    latch := none
    intake := []
    points := Table.tabulate fun r => c.points[r].afterUnbind (c.suppression r)
    rederivations := []
    silenceOwed := []
    silenceExempt := 0
    zones := Table.map (fun z => { z with walkSlot := none, opener := none }) c.zones
    fireCount := 0
    firePin := false
    slots := Vector.replicate 4 none
    walkOwed := []
    command := none
    overrun := false
    prepared := false
    transfer := none
    writer := Writer.fresh
    irqPin := false }

/-- The check in progress is at its BIND STATUS write, REJECTED or BOUND (R28, R29). -/
def BindState.answering : BindState → Bool
  | .checking k => match k.phase with
    | .rejecting _ _ | .status _ => true
    | .reading | .producer _ => false
  | .unbound | .bound _ => false

/-- A downstream access of the Internal Master already started finishes at DACK and goes to nobody (R22). `answering` says that
the Binding Unit's access is the BIND STATUS write: R31 has none written by an abandoned check, and R32 has w9 unchanged, so
that write runs to DACK with nothing written (DEDUCED, log 14). SNAPSHOT's withdrawal of the signature lands: R174's table says
that a host reset before step 2's DACK leaves the buffer as it was, while R174's own sentence lets a write in progress finish,
and the model follows the sentence and R22 (DEDUCED, log 14). -/
def PortAccess.orphaned (answering : Bool) : PortAccess → PortAccess
  | .internal .binding q => if answering then .abandonedStatus q else .orphan q
  | .internal _ q => .orphan q
  | p => p

/-- A host access crossing the part finishes, and is handed to no block (R22). -/
def HostAccess.untaken (h : HostAccess) : HostAccess := { h with treatment := .passed }

/-- The unbind of the RESET command: a held access is released and treated as an unbound one (R16, R156). -/
def Chip.unbindByCommand (c : Chip) : Chip :=
  { c.unbindBlocks with
    port := c.port.map (PortAccess.orphaned c.bind.answering)
    host := c.host.map fun h => if h.stage = .held then { h.untaken with stage := .waiting } else h.untaken }

/-- The unbind of a host reset: a held access is abandoned, and the host presents nothing of what it had in mind
(R16, R22). -/
def Chip.unbindByHostReset (c : Chip) : Chip :=
  { c.unbindBlocks with
    port := c.port.map (PortAccess.orphaned c.bind.answering)
    host := match c.host with
      | some h => if h.stage = .held then none else some h.untaken
      | none => none
    backlog := [] }

/-- Power-on reset (R22, R32, R49, R76, R103, R124, R143, R157, R183): everything at its initial value, every access
abandoned. RAM loses nothing (R174, log 2); the pins are as they are; the filtered levels are taken when PORn rises (log 13). -/
def Chip.powerOn (c : Chip) : Chip :=
  { Chip.reset with
    mem := c.mem
    dsel := c.dsel
    porLow := true
    hrstLow := c.hrstLow
    lisoFiltered := c.lisoFiltered
    points := Table.tabulate fun r => PointRecord.fresh c.lisoFiltered[loopOf r] }

/-- PORn rises: the filtered levels are taken from the pins, with no consent event, and the derived fields follow (R98, R103). -/
def Chip.powerOnRelease (c : Chip) (liso : BitVec 4) : Chip :=
  if c.porLow then
    let c := { c with porLow := false, lisoStable := Vector.replicate 4 0,
                      lisoFiltered := Table.tabulate fun l : Fin 4 => liso.getLsbD l.val }
    { c with points := Table.tabulate fun r => c.derived r c.points[r] }
  else c

/-- HOST_RESET (R31): HRSTn falls. -/
def execHostReset (s : State) : Host.Outcome State Fault Refusal :=
  onChip (fun c => Chip.event { c with hrstLow := true } Chip.unbindByHostReset) s

/-- HOST_RESET_RELEASE (R31): HRSTn rises. -/
def execHostResetRelease (s : State) : Host.Outcome State Fault Refusal := onChip (fun c => { c with hrstLow := false }) s

/-- POWER_ON_RESET (R49): PORn falls. -/
def execPowerOnReset (s : State) : Host.Outcome State Fault Refusal := onChip Chip.powerOn s

/-- POWER_ON_RELEASE (R103): PORn rises with the LISO pins at the given levels. -/
def execPowerOnRelease (liso : BitVec 4) (s : State) : Host.Outcome State Fault Refusal :=
  onChip (fun c => c.powerOnRelease liso) s

end Sys2Proof.Machine
end

