-- ==== Sys2Proof/Machine/Transfer.lean ====
section
/-! DEFINITION. The Transfer Engine (10_plan_transfer_snapshot_and_restore.md): the blocks of PLAN LOAD, SNAPSHOT and
RESTORE, their checks, installs and ends. The checks made before any block is read are in Mailbox.lean. -/

namespace Sys2Proof.Machine

/-- Operand word w`i`, i from 1 to 5. -/
def Command.operand (m : Command) (i : Nat) : Word := m.operands.getD (i - 1) 0

/-- Operand word w`i` as a number. -/
def Command.num (m : Command) (i : Nat) : Nat := (m.operand i).toNat

/-- The buffer check: a multiple of 4, inside the space, sharing no byte with the windows or the bound descriptor (R158). -/
def Binding.bufferOk (b : Binding) (start len : Nat) : Bool :=
  start % 4 == 0 && decide (start + len ≤ Config.spaceEnd)
    && [b.pointRange, b.mailboxRange, b.ringRange, b.descriptorRange].all fun w => !Range.overlaps (start, len) w

/-- The Transfer Engine as a take sets it up: VERIFY for PLAN LOAD (1) and RESTORE (3), the latter at the header, WRITE for
SNAPSHOT (2), every mark clear (R158). -/
def transferAtTake (code : BitVec 8) : Option TransferEngine :=
  let t : TransferEngine :=
    { pass := .verify, position := some 0, words := [], sum := 0, marks := [], kept := none, blocks := 0, entries := 0,
      deletions := 0, second := 0 }
  match code.toNat with
  | 1 => some t
  | 2 => some { t with pass := .write }
  | 3 => some { t with position := none }
  | _ => none

/-- The byte address of the block at the Transfer Engine's position (R158). -/
def TransferEngine.base (t : TransferEngine) (m : Command) : Nat :=
  match t.position with
  | none => m.num 1
  | some k => if m.code = 1 then m.num 1 + 80 * k else m.num 1 + 64 + 176 * k

/-- The length in words of the block at the Transfer Engine's position (R158). -/
def TransferEngine.length (t : TransferEngine) (m : Command) : Nat :=
  match t.position with
  | none => 16
  | some _ => if m.code = 1 then 20 else 44

/-- The command goes on at a stage. -/
def Chip.goto (c : Chip) (m : Command) (stage : CommandStage) : Chip := { c with command := some { m with stage := stage } }

/-- The command's next event is its own work. -/
def Chip.gotoWork (c : Chip) (m : Command) (w : Work) : Chip := c.goto m (.working w)

/-- The read of a block begins at a position (R159). -/
def Chip.startBlock (c : Chip) (m : Command) (t : TransferEngine) (position : Option Nat) : Chip :=
  let t := { t with position := position, words := [], sum := 0 }
  Chip.issueCommand (Chip.goto { c with transfer := some t } m (.transferring .read)) (t.base m) none

/-- The work that judges a block once its last word is in hand (R159). -/
def TransferEngine.judge (t : TransferEngine) (m : Command) : Work :=
  match t.position with
  | none => .restoreHeader
  | some _ => if m.code = 1 then .planBlock else .restoreBlock

/-- A word of the block being read arrives (R159). -/
def Chip.blockWord (c : Chip) (m : Command) (t : TransferEngine) (d : Word) : Chip :=
  let t := { t with words := t.words ++ [d], sum := t.sum + d }
  let c := { c with transfer := some t }
  if t.length m ≤ t.words.length then c.gotoWork m (t.judge m)
  else c.issueCommand (t.base m + 4 * t.words.length) none

/-- The block position as a number. -/
def TransferEngine.block (t : TransferEngine) : Nat := t.position.getD 0

/-- ABORTED TORN at the block in hand, with RESULT as the command gives it (R163, R171). -/
def tornAt (t : TransferEngine) (result : List Word) : Completion :=
  { final := .aborted, reason := .torn, detail := word t.block, result := result }

/-- A block or entry check fails: the verify pass refuses, the install pass is torn (R161, R162, R163, R170, R171). -/
def TransferEngine.failure (t : TransferEngine) (m : Command) (reason : Reason) (detail : Word) : Completion :=
  match t.pass with
  | .install =>
    if m.code = 1 then tornAt t [word t.block, word t.entries, word t.deletions]
    else tornAt t [word t.block, word (8 * t.block)]
  | _ => { final := .refused, reason := reason, detail := detail, result := [] }

/-! ### PLAN LOAD -/

/-- The whole-block checks of a plan block (R161). -/
def TransferEngine.planBlockOk (t : TransferEngine) : Bool :=
  t.words.getD 0 0 == Config.planSignature && t.words.getD 1 0 == word t.block && t.words.getD 18 0 == 0 && t.sum == 0

/-- The first and second word of entry slot `s`, 1 to 8. -/
def TransferEngine.entryWords (t : TransferEngine) (s : Nat) : Word × Word := (t.words.getD (2 * s) 0, t.words.getD (2 * s + 1) 0)

/-- The form checks of an entry: LOOP, ADDRESS and PLANNED, and for PLANNED 1 the other fields (R162). -/
def entryFormOk (loops : Nat) (first second : Word) : Bool :=
  decide (1 ≤ entryLoop first ∧ entryLoop first ≤ loops) && decide (1 ≤ entryAddress first ∧ entryAddress first ≤ 192)
    && (!entryPlanned first || (entryZoneOk first && entryUnusedClear first second))

/-- The current zone, or for PLANNED 1 the new one, is linked to a walk slot (R162). -/
def Chip.entryInTest (c : Chip) (first second : Word) : Bool :=
  (c.linkedSlot (c.zoneOf (entryRecord first))).isSome
    || (entryPlanned first && (c.linkedSlot (zoneFor (entryRecord first) (entryOf first second))).isSome)

/-- The checks of a non-empty entry slot, in their order; none when it passes (R162). -/
def Chip.entryFault (c : Chip) (t : TransferEngine) (s : Nat) : Option (Reason × Word) :=
  let first := (t.entryWords s).1
  let second := (t.entryWords s).2
  let r := entryRecord first
  if entryFormOk c.loops first second = false then some (.badBlock, badBlockDetail t.block s)
  else if t.marks.contains r then some (.duplicateEntry, word r.val)
  else if c.points[r].state = .commissioned then some (.lockedPoint, word r.val)
  else if c.entryInTest first second then some (.zoneInTest, word r.val)
  else none

/-- After the entry checks of a block: in the verify pass the next block, or the install pass from block 0 with every mark
clear; in the install pass the block's installs (R161 to R164). -/
def Chip.afterPlanChecks (c : Chip) (m : Command) (t : TransferEngine) : Chip :=
  match t.pass with
  | .install => Chip.gotoWork { c with transfer := some t } m (.planInstall 1)
  | _ =>
    if t.block + 1 < m.num 2 then c.startBlock m t (some (t.block + 1))
    else c.startBlock m { t with pass := .install, marks := [] } (some 0)

/-- The checks of a plan block's own words (R161). -/
def Chip.planBlock (c : Chip) (m : Command) (t : TransferEngine) : Chip :=
  if t.planBlockOk then c.gotoWork m (.planEntry 1)
  else c.complete (t.failure m .badBlock (badBlockDetail t.block 0))

/-- The checks of entry slot `s` (R162); an empty slot is passed over. -/
def Chip.planEntry (c : Chip) (m : Command) (t : TransferEngine) (s : Nat) : Chip :=
  let next (c : Chip) (t : TransferEngine) : Chip :=
    if s < 8 then Chip.gotoWork { c with transfer := some t } m (.planEntry (s + 1)) else c.afterPlanChecks m t
  if entryLoop (t.entryWords s).1 = 0 then next c t
  else match c.entryFault t s with
    | some (reason, detail) => c.complete (t.failure m reason detail)
    | none => next c { t with marks := t.marks ++ [entryRecord (t.entryWords s).1] }

/-- After the last entry of a block is installed: the next block, or DONE (R163, R165). -/
def Chip.afterPlanInstalls (c : Chip) (m : Command) (t : TransferEngine) : Chip :=
  let t := { t with blocks := t.blocks + 1 }
  if t.block + 1 < m.num 2 then c.startBlock m t (some (t.block + 1))
  else Chip.complete { c with transfer := some t } (done [word t.blocks, word t.entries, word t.deletions])

/-- The install of entry slot `s` (R164). -/
def Chip.planInstall (c : Chip) (m : Command) (t : TransferEngine) (s : Nat) : Chip :=
  let first := (t.entryWords s).1
  let second := (t.entryWords s).2
  let c' := if entryLoop first = 0 then c else c.installEntry (entryRecord first) (entryOf first second)
  let t' := if entryLoop first = 0 then t
    else { t with entries := t.entries + 1, deletions := if entryPlanned first then t.deletions else t.deletions + 1 }
  if s < 8 then Chip.gotoWork { c' with transfer := some t' } m (.planInstall (s + 1)) else c'.afterPlanInstalls m t'

/-! ### RESTORE -/

/-- The header's checks (R169). -/
def Chip.restoreHeader (c : Chip) (m : Command) (t : TransferEngine) : Chip :=
  if headerOk t.words then c.startBlock m { t with kept := some (keptHeader t.words) } (some 0)
  else c.complete (t.failure m .badBlock (badBlockDetail 255 0))

/-- The whole-block checks of a state block (R170). -/
def TransferEngine.stateBlockOk (t : TransferEngine) : Bool :=
  t.words.getD 0 0 == Config.stateSignature && t.words.getD 1 0 == word t.block
    && (match t.kept with | some h => t.words.getD 42 0 == h.second | none => false) && t.sum == 0

/-- The first slot whose point entry fails (R170). -/
def TransferEngine.firstBadEntry (t : TransferEngine) : Option Nat :=
  [1, 2, 3, 4, 5, 6, 7, 8].find? fun s => !stateEntryOk t.words t.block s

/-- The checks of a state block, in either pass (R170, R171). -/
def Chip.restoreBlock (c : Chip) (m : Command) (t : TransferEngine) : Chip :=
  if t.stateBlockOk = false then c.complete (t.failure m .badBlock (badBlockDetail t.block 0))
  else match t.firstBadEntry with
    | some s => c.complete (t.failure m .badBlock (badBlockDetail t.block s))
    | none =>
      match t.pass with
      | .install => c.gotoWork m (.restoreInstall 1)
      | _ =>
        if t.block < 95 then c.startBlock m t (some (t.block + 1))
        else c.startBlock m { t with pass := .install } (some 0)

/-- The install of the block's point in slot `s` (R172). -/
def Chip.restoreInstall (c : Chip) (m : Command) (t : TransferEngine) (s : Nat) : Chip :=
  let c := c.restorePoint (recordAt (8 * t.block + s - 1)) (restoredPoint t.words s)
  if s < 8 then c.gotoWork m (.restoreInstall (s + 1))
  else
    let t := { t with blocks := t.blocks + 1 }
    if t.block < 95 then c.startBlock m t (some (t.block + 1))
    else Chip.gotoWork { c with transfer := some t } m .restoreFinal

/-- The final event of a RESTORE (R44), then DONE (R173). -/
def Chip.restoreFinal (c : Chip) (t : TransferEngine) : Chip :=
  match t.kept with
  | some h =>
    Chip.complete { c with profiles := h.codes, sealed := c.sealed || h.sealFlag }
      (done [word t.blocks, word (8 * t.blocks), word h.sealFlag.toNat, h.second])
  | none => c

/-! ### SNAPSHOT -/

/-- A state block assembled from its eight points at one moment (R167). -/
def Chip.stateBlock (c : Chip) (k second : Nat) : List Word :=
  withChecksum ([Config.stateSignature, word k]
    ++ ([0, 1, 2, 3, 4, 5, 6, 7].flatMap fun i =>
        pointEntry (recordAt (8 * k + i)) c.plan[recordAt (8 * k + i)] c.points[recordAt (8 * k + i)])
    ++ [word second])

/-- The write of word `i` of the words in hand is issued. -/
def Chip.writeWord (c : Chip) (m : Command) (t : TransferEngine) (stage : Transfer) (i : Nat) : Chip :=
  Chip.issueCommand (Chip.goto { c with transfer := some t } m (.transferring stage)) (t.base m + 4 * i)
    (some (t.words.getD i 0))

/-- A state block is assembled and its first word issued (R166 step 3, R167). -/
def Chip.snapshotBlock (c : Chip) (m : Command) (t : TransferEngine) : Chip :=
  let ws := c.stateBlock t.block t.second
  c.writeWord m { t with words := ws, sum := sumWords ws } (.block 0) 0

/-- The header is assembled and its word 1 issued (R166 step 4). -/
def Chip.snapshotHeader (c : Chip) (m : Command) (t : TransferEngine) : Chip :=
  let ws := headerWords c.loops c.profiles c.sealed t.second
  c.writeWord m { t with position := none, words := ws, sum := sumWords ws } (.header 1) 1

/-- Word `i` of a state block is written (R166 step 3). -/
def Chip.blockWritten (c : Chip) (m : Command) (t : TransferEngine) (i : Nat) : Chip :=
  if i < 43 then c.writeWord m t (.block (i + 1)) (i + 1)
  else if t.block < 95 then Chip.gotoWork { c with transfer := some { t with position := some (t.block + 1) } } m .snapshotBlock
  else c.gotoWork m .snapshotHeader

/-- Word `i` of the header is written; word 0, the last, ends the command (R166). -/
def Chip.headerWritten (c : Chip) (m : Command) (t : TransferEngine) (i : Nat) : Chip :=
  if i = 0 then c.complete (done [word 96, word t.second])
  else if i < 15 then c.writeWord m t (.header (i + 1)) (i + 1)
  else c.writeWord m t (.header 0) 0

/-- A transfer access finishes. -/
def Chip.transferDone (c : Chip) (m : Command) (a : Transfer) (d : Word) : Chip :=
  match c.transfer with
  | none => c
  | some t =>
    match a with
    | .read => c.blockWord m t d
    | .withdraw => c.gotoWork m .snapshotBlock
    | .block i => c.blockWritten m t i
    | .header i => c.headerWritten m t i

/-- A work event of the Transfer Engine. -/
def Chip.transferWork (c : Chip) (f : TransferEngine → Chip) : Chip :=
  match c.transfer with
  | none => c
  | some t => f t

end Sys2Proof.Machine
end

