-- ==== Sys2Proof/Machine/Mailbox.lean ====
section
/-! DEFINITION. The Command Engine (09_the_command_mailbox.md) and the checks and work of the sixteen commands that the
other chapters give. The transfers' blocks are in Transfer.lean. -/

namespace Sys2Proof.Machine

/-! ### Taking a command (R146, R148) -/

/-- Byte address of mailbox word w`i` (R187). -/
def Binding.mailboxAt (b : Binding) (i : Nat) : Nat := b.mailboxBase + 4 * i

/-- A command word's write finishes: the take (R146), and the issue of STATUS RUNNING (R148 step 1). -/
def Chip.takeCommand (c : Chip) (w : Word) : Chip :=
  match c.bind with
  | .bound b =>
    let m : Command := { code := w.extractLsb' 0 8, tag := w.extractLsb' 8 8, preparedAtTake := c.prepared,
                         operands := [], stage := .announcing }
    Chip.issueCommand
      { c with command := some m, prepared := false, overrun := false, transfer := transferAtTake m.code }
      (b.mailboxAt 6) (some (statusWord 1 0 m.tag false))
  | _ => c

/-- The read of the next operand word is issued (R148 step 2). -/
def Chip.readOperand (c : Chip) (m : Command) : Chip :=
  match c.bind with
  | .bound b => Chip.issueCommand (c.goto m .operands) (b.mailboxAt (m.operands.length + 1)) none
  | _ => c

/-- An operand word arrives; with all five in hand the engine goes to its checks (R148 steps 2 and 3). -/
def Chip.operandRead (c : Chip) (m : Command) (d : Word) : Chip :=
  let m := { m with operands := m.operands ++ [d] }
  if 5 ≤ m.operands.length then c.gotoWork m .check else c.readOperand m

/-! ### Ending a command (R149, R150) -/

/-- RESULT word w(8 + i) is issued (R149 step 2). -/
def Chip.writeResult (c : Chip) (m : Command) (k : Completion) (i : Nat) : Chip :=
  match c.bind with
  | .bound b => Chip.issueCommand (c.goto m (.result k i)) (b.mailboxAt (8 + i)) (some (k.result.getD i 0))
  | _ => c

/-- The final STATUS is issued with the OVERRUN mark as it stands (R149 step 3). -/
def Chip.writeStatus (c : Chip) (m : Command) (k : Completion) : Chip :=
  match c.bind with
  | .bound b => Chip.issueCommand (c.goto m (.status k)) (b.mailboxAt 6)
      (some (statusWord k.final.code k.reason.code m.tag c.overrun))
  | _ => c

/-- The final STATUS write finishes: the return to IDLE and COMMAND DONE, or the unbind of RESET
(R149 step 4, R150, R152, R156). -/
def Chip.commandOver (c : Chip) (m : Command) (k : Completion) : Chip :=
  if m.code = 16 then c.unbindByCommand
  else
    Chip.raise { c with command := none, transfer := none,
                        prepared := if m.code = 13 ∧ k.final = .done then true else c.prepared }
      { kind := .commandDone, loop := 0, addr := 0, zone := 0, time := c.seconds,
        detailA := commandDoneA m.code m.tag, detailB := commandDoneB k.final k.reason }

/-- A memory access of the Command Engine finishes with data `d` (R148, R149, R159). -/
def Chip.commandAccessDone (c : Chip) (d : Word) : Chip :=
  match c.command with
  | none => c
  | some m =>
    match m.stage with
    | .announcing => c.readOperand m
    | .operands => c.operandRead m d
    | .transferring a => c.transferDone m a d
    | .detail k => c.writeResult m k 0
    | .result k i => if i < 7 then c.writeResult m k (i + 1) else c.writeStatus m k
    | .status k => c.commandOver m k
    | .working _ => c
    | .waitingSlot _ => c

/-! ### The seal, profiles (R41, R43, R47) -/

/-- The six commands that consult the seal (R41). -/
def sealChecked (code : BitVec 8) : Bool := [1, 3, 4, 9, 13, 14].contains code.toNat

/-- PROFILE SET (R47). -/
def Chip.checkProfileSet (c : Chip) (m : Command) : Chip :=
  if 3 < m.num 1 then c.complete (refuse .badOperand 1)
  else if 15 < m.num 2 then c.complete (refuse .badOperand 2)
  else
    let slot : Fin 4 := Fin.ofNat 4 (m.num 1)
    Chip.complete { c with profiles := c.profiles.set slot ((m.operand 2).extractLsb' 0 4) }
      (done [word c.profiles[slot].toNat])

/-- SEAL (R43). -/
def Chip.checkSeal (c : Chip) : Chip := Chip.complete { c with sealed := true } (done [word c.sealed.toNat])

/-! ### Walk tests (R128, R129, R135) -/

/-- The slot a WALK operand's zone is linked to; none outside 1 to 96. -/
def Chip.slotOfOperand (c : Chip) (zone : Nat) : Option (Fin 4) :=
  if 1 ≤ zone ∧ zone ≤ 96 then c.linkedSlot (realZone (Fin.ofNat 96 (zone - 1))) else none

/-- The lowest-numbered FREE slot (R129). -/
def Chip.freeSlotNumber (c : Chip) : Option (Fin 4) := (List.finRange 4).find? fun k => c.slots[k].isNone

/-- A slot as a start leaves it (R129). -/
def WalkSlot.started (z : RealZone) (now minutes : Nat) : WalkSlot :=
  { ending := false, zone := z, start := now, finish := now + 60 * minutes, hits := [], overflowed := false, reason := none,
    endEntries := 0, endOverflowed := false, cleared := 0, handedBack := 0, endNow := 0, sweep := 0 }

/-- END as RESULT w10: a free value where it does not fit 32 bits (log 15). -/
def endWord (finish : Nat) : Word := if finish < 2 ^ 32 then word finish else Config.walkEndOverflow finish

/-- The start of slot k (R129). A comparison still owed at the slot was of the test that has left it (R134). -/
def Chip.startWalk (c : Chip) (k : Fin 4) (z : RealZone) (minutes : Nat) : Chip :=
  let w := WalkSlot.started z c.seconds minutes
  let c := { c with walkOwed := c.walkOwed.filter (· != k) }
  Chip.complete ((c.setSlot k (some w)).modZone (realZone z) fun zr => { zr with walkSlot := some k })
    (done [word k.val, word w.start, endWord w.finish])

/-- WALK START (R128, R129). -/
def Chip.checkWalkStart (c : Chip) (m : Command) : Chip :=
  let z : RealZone := Fin.ofNat 96 (m.num 1 - 1)
  if ¬(1 ≤ m.num 1 ∧ m.num 1 ≤ 96) then c.complete (refuse .badOperand 1)
  else if ¬(1 ≤ m.num 2 ∧ m.num 2 ≤ 120) then c.complete (refuse .badOperand 2)
  else if (c.linkedSlot (realZone z)).isSome then c.complete (refuse .zoneBusy 0)
  else match c.freeSlotNumber with
    | none => c.complete (refuse .noSlot 0)
    | some k =>
      if c.zones[realZone z].withheld then c.complete (refuse .zoneIsolated 0) else c.startWalk k z (m.num 2)

/-- WALK END sends its request and waits for the slot (R135). -/
def Chip.checkWalkEnd (c : Chip) (m : Command) : Chip :=
  match c.slotOfOperand (m.num 1) with
  | some k => (c.requestEnd k .ended).goto m (.waitingSlot k)
  | none => c.complete (refuse .zoneNotInTest 1)

/-! ### Ranges (R69, R119) -/

/-- The operand of a range command at fault, in the order of the checks (R69, R119). -/
def rangeFault (loops : Nat) (m : Command) : Option Nat :=
  if ¬(1 ≤ m.num 1 ∧ m.num 1 ≤ loops) then some 1
  else if ¬(1 ≤ m.num 2 ∧ m.num 2 ≤ 192) then some 2
  else if ¬(1 ≤ m.num 3 ∧ m.num 3 ≤ 192 ∧ m.num 2 + m.num 3 - 1 ≤ 192) then some 3
  else none

/-- The first record index of a range (R69). -/
def Command.firstRecord (m : Command) : Nat := (m.num 1 - 1) * 192 + (m.num 2 - 1)

/-- The first record of a range, ascending, at which a test fails. -/
def Chip.firstFailing (c : Chip) (start count : Nat) (ok : PointRecord → Bool) : Option Nat :=
  ((List.range count).map (start + ·)).find? fun i => !ok c.points[recordAt i]

/-- A command over a range: BAD OPERAND, WRONG STATE at the first failing point, or its work (R69). -/
def Chip.checkRange (c : Chip) (m : Command) (ok : PointRecord → Bool) (work : Work) : Chip :=
  match rangeFault c.loops m with
  | some i => c.complete (refuse .badOperand i)
  | none =>
    match c.firstFailing m.firstRecord (m.num 3) ok with
    | some i => c.complete (refuse .wrongState i)
    | none => c.gotoWork m work

/-! ### ACCEPT, RELEASE, REVERT (R70 to R72, R75) -/

/-- ACCEPT makes the point COMMISSIONED (R71). -/
def PointRecord.acceptable (p : PointRecord) : Bool := p.state == .tested && p.presence == .live && p.firstSerial.isSome

/-- A stretch's change at a point; none where the point is skipped or not touched. The conditions of ACCEPT's check are the
same function, and still hold (R70). -/
def Stretch.change (k : Stretch) (p : PointRecord) : Option PointRecord :=
  match k with
  | .accept => if p.acceptable then some { p with state := .commissioned } else none
  | .release => if p.state = .commissioned then some { p with state := .tested } else none
  | .revert =>
    if p.state = .tested ∨ p.state = .commissioned then some { p with state := .matched, testCount := 0 } else none

/-- RESULT of a stretch (R71, R72, R75). -/
def Stretch.result (k : Stretch) (changed skipped : Nat) : List Word :=
  match k with
  | .accept => [word changed, word skipped]
  | _ => [word changed]

/-- One event of a stretch (R70); the last one ends the command. The points are changed in ascending record order, an order that
R70 leaves open (DESIGN CHOICE, log 22). -/
def Chip.stretchEvent (c : Chip) (m : Command) (k : Stretch) (next left changed skipped : Nat) : Chip :=
  let q := k.change c.points[recordAt next]
  let c := match q with | some p => c.setPoint (recordAt next) p | none => c
  let changed := if q.isSome then changed + 1 else changed
  let skipped := if q.isSome then skipped else skipped + 1
  if 1 < left then c.gotoWork m (.stretch k (next + 1) (left - 1) changed skipped)
  else c.complete (done (k.result changed skipped))

/-- ACCEPT (R71). -/
def Chip.checkAccept (c : Chip) (m : Command) : Chip :=
  c.checkRange m (fun p => p.state == .commissioned || p.acceptable) (.stretch .accept m.firstRecord (m.num 3) 0 0)

/-- RELEASE (R72). -/
def Chip.checkRelease (c : Chip) (m : Command) : Chip :=
  c.checkRange m (fun p => p.state == .commissioned) (.stretch .release m.firstRecord (m.num 3) 0 0)

/-- REVERT (R75, R153). -/
def Chip.checkRevert (c : Chip) (m : Command) : Chip :=
  if m.preparedAtTake then c.gotoWork m (.stretch .revert 0 768 0 0) else c.complete (refuse .notPrepared 0)

/-! ### ADOPT (R73) -/

/-- The operand of ADOPT at fault (R69). -/
def adoptFault (loops : Nat) (m : Command) : Option Nat :=
  if ¬(1 ≤ m.num 1 ∧ m.num 1 ≤ loops) then some 1
  else if ¬(1 ≤ m.num 2 ∧ m.num 2 ≤ 192) then some 2
  else if ¬(m.num 3 = 1 ∨ m.num 3 = 2) then some 3
  else none

/-- ADOPT may go on: CONFLICT, and SECOND chosen only when present (R73). -/
def PointRecord.adoptable (p : PointRecord) (second : Bool) : Bool :=
  p.state == .conflict && (!second || p.secondSerial.isSome)

/-- The point after ADOPT, before its consents (R73 steps 1 to 3). -/
def PointRecord.adopted (p : PointRecord) (entry : Option PlanEntry) (second : Bool) : PointRecord :=
  { p with firstSerial := if second then p.secondSerial else p.firstSerial
           secondSerial := none
           garbledRun := 0
           state := stateFor entry p.foundClass }

/-- ADOPT's event at a point, with RESULT the serial kept and the serial discarded (R73). -/
def Chip.adoptPoint (c : Chip) (r : Rec) (second : Bool) : Chip :=
  let p := c.points[r]
  let kept := if second then p.secondSerial else p.firstSerial
  let dropped := if second then p.firstSerial else p.secondSerial
  Chip.complete ((c.setPoint r (p.adopted c.plan[r] second)).rederive r) (done [kept.getD 0, dropped.getD 0])

/-- ADOPT (R69, R73). -/
def Chip.checkAdopt (c : Chip) (m : Command) : Chip :=
  let r := recordAt m.firstRecord
  match adoptFault c.loops m with
  | some i => c.complete (refuse .badOperand i)
  | none =>
    if c.points[r].adoptable (m.num 3 == 2) then c.adoptPoint r (m.num 3 == 2)
    else c.complete (refuse .wrongState m.firstRecord)

/-! ### CLEAR FLAGS and CLEAR VERDICT (R74, R119, R122) -/

/-- CLEAR FLAGS (R69, R74). -/
def Chip.checkClearFlags (c : Chip) (m : Command) : Chip :=
  match rangeFault c.loops m with
  | some i => c.complete (refuse .badOperand i)
  | none =>
    if 255 < m.num 4 then c.complete (refuse .badOperand 4)
    else c.gotoWork m (.clearFlags m.firstRecord (m.num 3) ((m.operand 4).extractLsb' 0 8) 0)

/-- One clear of CLEAR FLAGS (R74). The points are cleared in ascending record order, an order that R69, R74 and R87 leave open
(DESIGN CHOICE, log 22). -/
def Chip.clearFlagsEvent (c : Chip) (m : Command) (next left : Nat) (mask : BitVec 8) (count : Nat) : Chip :=
  let count := if c.points[recordAt next].anyFlag mask then count + 1 else count
  let c := c.modPoint (recordAt next) fun p => p.clearFlags mask
  if 1 < left then c.gotoWork m (.clearFlags (next + 1) (left - 1) mask count) else c.complete (done [word count])

/-- CLEAR VERDICT (R119). -/
def Chip.checkClearVerdict (c : Chip) (m : Command) : Chip :=
  match rangeFault c.loops m with
  | some i => c.complete (refuse .badOperand i)
  | none => c.gotoWork m (.clearVerdict m.firstRecord (m.num 3) 0 0)

/-- FIRE or HELD (R122). -/
def Verdict.standing : Verdict → Bool
  | .fire | .held => true
  | _ => false

/-- One clear of CLEAR VERDICT (R122). -/
def Chip.clearVerdictEvent (c : Chip) (m : Command) (next left cleared alarmed : Nat) : Chip :=
  let p := c.points[recordAt next]
  let alarm := p.verdict.standing && p.lastStatus == some .alarm
  let clear := p.verdict.standing && p.lastStatus != some .alarm
  let c := if clear then c.setVerdict (recordAt next) .none else c
  let cleared := if clear then cleared + 1 else cleared
  let alarmed := if alarm then alarmed + 1 else alarmed
  if 1 < left then c.gotoWork m (.clearVerdict (next + 1) (left - 1) cleared alarmed)
  else c.complete (done [word cleared, word alarmed])

/-! ### QUERY (R154, R155) -/

/-- The census before the first point. -/
def Census.zero : Census where
  states := Vector.replicate 8 0
  presences := Vector.replicate 3 0
  verdicts := Vector.replicate 4 0
  slots := 0
  sealBit := 0

/-- One more in a count. -/
def bump {n : Nat} (v : Vector Nat n) (i : Nat) : Vector Nat n :=
  Table.tabulate fun j => if j.val = i then v[j] + 1 else v[j]

/-- A point counted (R154). -/
def Census.add (q : Census) (p : PointRecord) : Census :=
  { q with states := bump q.states p.state.code, presences := bump q.presences p.presence.code,
           verdicts := bump q.verdicts p.verdict.code }

/-- RESULT of QUERY (R155, R187). -/
def Census.result (q : Census) (pending : Nat) : List Word :=
  [countPair q.states[0] q.states[1], countPair q.states[2] q.states[3], countPair q.states[4] q.states[5],
   countPair q.states[6] q.states[7], countPair q.presences[0] q.presences[1],
   countPair q.presences[2] q.verdicts[1], countPair q.verdicts[2] q.verdicts[3],
   queryTailWord q.slots q.sealBit pending]

/-- One read of QUERY: a point, then the three values, each at one moment (R154). R154 lists the three and does not say in
which order they are read; here they are three events in the order of its list, walk slots, seal, pending queue, and the last
of them goes to completion (DESIGN CHOICE, log 24). -/
def Chip.queryEvent (c : Chip) (m : Command) (next : Nat) (q : Census) : Chip :=
  if next < 768 then c.gotoWork m (.query (next + 1) (q.add c.points[recordAt next]))
  else if next = 768 then c.gotoWork m (.query 769 { q with slots := c.activeSlots })
  else if next = 769 then c.gotoWork m (.query 770 { q with sealBit := c.sealed.toNat })
  else c.complete (done (q.result c.writer.queue.length))

/-! ### The transfers' first checks (R160, R166, R168) -/

/-- PLAN LOAD's checks before any block is read (R160). -/
def Chip.checkPlanLoad (c : Chip) (m : Command) (b : Binding) (t : TransferEngine) : Chip :=
  if ¬(1 ≤ m.num 2 ∧ m.num 2 ≤ 96) then c.complete (refuse .badOperand 2)
  else if b.bufferOk (m.num 1) (80 * m.num 2) = false then c.complete (refuse .badOperand 1)
  else c.startBlock m t (some 0)

/-- SNAPSHOT's check, the snapshot second and the withdrawal of the old signature (R166 steps 1 and 2). -/
def Chip.checkSnapshot (c : Chip) (m : Command) (b : Binding) (t : TransferEngine) : Chip :=
  if b.bufferOk (m.num 1) 16960 = false then c.complete (refuse .badOperand 1)
  else Chip.issueCommand
    (Chip.goto { c with transfer := some { t with second := c.seconds } } m (.transferring .withdraw)) (m.num 1) (some 0)

/-- RESTORE's checks before the buffer is read (R168). -/
def Chip.checkRestore (c : Chip) (m : Command) (b : Binding) (t : TransferEngine) : Chip :=
  if b.bufferOk (m.num 1) 16960 = false then c.complete (refuse .badOperand 1)
  else if c.activeSlots ≠ 0 then c.complete (refuse .walkActive 0)
  else if c.fireCount ≠ 0 then c.complete (refuse .firePresent 0)
  else c.startBlock m t none

/-- A transfer's first checks, with the binding and the Transfer Engine its take set up. -/
def Chip.checkTransfer (c : Chip) (f : Binding → TransferEngine → Chip) : Chip :=
  match c.bind, c.transfer with
  | .bound b, some t => f b t
  | _, _ => c

/-! ### The checks and the work of the command in hand (R148 steps 3 to 5) -/

/-- The checks of the command in hand: its code, the seal, its own (R148). -/
def Chip.checkCommand (c : Chip) (m : Command) : Chip :=
  if sealChecked m.code ∧ c.sealed = true then c.complete (refuse .sealed 0)
  else match m.code.toNat with
    | 1 => c.checkTransfer (c.checkPlanLoad m)
    | 2 => c.checkTransfer (c.checkSnapshot m)
    | 3 => c.checkTransfer (c.checkRestore m)
    | 4 => c.checkProfileSet m
    | 5 => c.checkSeal
    | 6 => c.checkWalkStart m
    | 7 => c.checkWalkEnd m
    | 8 => c.checkAccept m
    | 9 => c.checkRelease m
    | 10 => c.checkAdopt m
    | 11 => c.checkClearFlags m
    | 12 => c.checkClearVerdict m
    | 13 => c.complete (done [])
    | 14 => c.checkRevert m
    | 15 => c.gotoWork m (.query 0 Census.zero)
    | 16 => c.complete (done [])
    | n => c.complete (refuse .unknownCommand n)

/-- The next event of the command in hand that needs no memory access. -/
def Chip.work (c : Chip) (m : Command) (w : Work) : Chip :=
  match w with
  | .check => c.checkCommand m
  | .stretch k next left changed skipped => c.stretchEvent m k next left changed skipped
  | .clearFlags next left mask count => c.clearFlagsEvent m next left mask count
  | .clearVerdict next left cleared alarmed => c.clearVerdictEvent m next left cleared alarmed
  | .query next q => c.queryEvent m next q
  | .planBlock => c.transferWork fun t => c.planBlock m t
  | .planEntry s => c.transferWork fun t => c.planEntry m t s
  | .planInstall s => c.transferWork fun t => c.planInstall m t s
  | .restoreHeader => c.transferWork fun t => c.restoreHeader m t
  | .restoreBlock => c.transferWork fun t => c.restoreBlock m t
  | .restoreInstall s => c.transferWork fun t => c.restoreInstall m t s
  | .restoreFinal => c.transferWork fun t => c.restoreFinal t
  | .snapshotBlock => c.transferWork fun t => c.snapshotBlock m t
  | .snapshotHeader => c.transferWork fun t => c.snapshotHeader m t

/-- The command in hand makes its own next event, when it has one. -/
def Chip.commandWork (c : Chip) : Chip :=
  match c.command with
  | some m =>
    match m.stage with
    | .working w => c.work m w
    | _ => c
  | none => c

end Sys2Proof.Machine
end

