-- ==== Sys2Proof/Machine/Binding.lean ====
section
/-! DEFINITION. The Binding Unit (02_binding_and_the_timebase.md): the check of a descriptor, its answer, and the entry into
BOUND. -/

namespace Sys2Proof.Machine

/-- Byte address of descriptor word w`i` (R23, R185). -/
def descriptorAt (location : BitVec 3) (i : Nat) : Nat := descriptorBase location + 4 * i

/-- The trigger write finishes: CHECKING, with the location the arrival sampled and the data as CHECKSUM; w0 is read first
(R1, R23, R24). -/
def Chip.startCheck (c : Chip) (location : BitVec 3) (checksum : Word) : Chip :=
  Chip.issueBinding
    { c with bind := .checking { location := location, checksum := checksum, words := [], phase := .reading } }
    (descriptorAt location 0) none

/-- The check fails: BIND STATUS REJECTED is issued (R24 to R28). -/
def Chip.rejectCheck (c : Chip) (k : Check) (reason : BindReason) (detail : Nat) : Chip :=
  Chip.issueBinding { c with bind := .checking { k with phase := .rejecting reason detail } } (descriptorAt k.location 9)
    (some (bindStatusWord 2 reason detail))

/-- The check passes: 0 is written to PRODUCER (R29). -/
def Chip.acceptCheck (c : Chip) (k : Check) (b : Binding) : Chip :=
  Chip.issueBinding { c with bind := .checking { k with phase := .producer b } } b.ringBase (some 0)

/-- A descriptor word arrives: SIGNATURE is judged alone, the rest after w7 (R24 to R27). -/
def Chip.descriptorRead (c : Chip) (k : Check) (d : Word) : Chip :=
  let k := { k with words := k.words ++ [d] }
  if k.words.length = 1 ∧ d ≠ Config.bindSignature then c.rejectCheck k .signature 0
  else if k.words.length < 8 then
    Chip.issueBinding { c with bind := .checking k } (descriptorAt k.location k.words.length) none
  else match checkDescriptor k.location k.checksum k.words with
    | .error (reason, detail) => c.rejectCheck k reason detail
    | .ok b => c.acceptCheck k b

/-- The entry into BOUND, one event (R29, R182). -/
def Chip.enterBound (c : Chip) (b : Binding) : Chip :=
  Chip.settleIrq { c with bind := .bound b, seconds := 0, refCount := 0, writer := Writer.fresh }

/-- A memory access of the Binding Unit finishes with data `d` (R24, R28, R29). -/
def Chip.bindingAccessDone (c : Chip) (d : Word) : Chip :=
  match c.bind with
  | .checking k =>
    match k.phase with
    | .reading => c.descriptorRead k d
    | .rejecting _ _ => { c with bind := .unbound }
    | .producer b =>
      Chip.issueBinding { c with bind := .checking { k with phase := .status b } } (descriptorAt k.location 9)
        (some (bindStatusWord 1 .none 0))
    | .status b => c.enterBound b
  | _ => c

end Sys2Proof.Machine
end

