-- ==== Sys2Proof/Machine/Delivery.lean ====
section
/-! DEFINITION. The end of a downstream access at DACK (R10, R17, R22): what RAM does, who gets the data or the completion,
and what the taken writes and the part's own writes then do. -/

namespace Sys2Proof.Machine

/-- A taken write reaches its block at DACK (R10). -/
def Chip.deliver (c : Chip) (t : Treatment) (w : Word) (be : BitVec 4) : Chip :=
  match t with
  | .trigger location => c.startCheck location w
  | .serialWrite r => c.latchSerial r w
  | .replyWrite r => c.formReply r w
  | .malformedWrite r => c.malformedReply r w be
  | .commandWrite => c.takeCommand w
  | .consumerWrite => c.consumerDone w
  | .passed | .swallowed | .overrun | .verdictRead _ | .planRead _ => c

/-- The host's access finishes: UACK, and for a taken write its event (R1, R10). A passed
read's enabled lanes are RAM's bytes; the lanes it does not enable, of which no rule says what they carry, answer RAM's bytes
too (DESIGN CHOICE, log 21). -/
def Chip.hostAccessDone (c : Chip) (h : HostAccess) : Chip :=
  match h.request.op with
  | .read _ => { c with port := none, host := none, answer := .read (Mem.readWord c.mem (wordBase h.request.addr)) }
  | .write w be =>
    Chip.deliver { c with mem := h.request.perform c.mem, port := none, host := none, answer := .written } h.treatment w be

/-- What an internal access brings back; a write brings completion alone. -/
def MemRequest.data (q : MemRequest) (m : List Host.Cell) : Word :=
  match q.wdata with
  | none => Mem.readWord m (wordBase q.addr)
  | some _ => 0

/-- The data or the completion of an internal access goes back to its client (R17, R20). -/
def Chip.handBack (c : Chip) (cl : Client) (d : Word) : Chip :=
  match cl with
  | .binding => c.bindingAccessDone d
  | .command => c.commandAccessDone d
  | .report => c.reportWriteDone

/-- The downstream access in progress finishes at DACK (R17); the BIND STATUS write of an abandoned check leaves w9 what it
held (R31, R32, log 14). -/
def Chip.accessDone (c : Chip) : Chip :=
  match c.port with
  | none => c
  | some .host =>
    match c.host with
    | some h => c.hostAccessDone h
    | none => { c with port := none }
  | some (.internal cl q) =>
    Chip.handBack { c with mem := q.perform c.mem, port := none, im := { c.im with current := none } } cl (q.data c.mem)
  | some (.orphan q) => { c with mem := q.perform c.mem, port := none }
  | some (.abandonedStatus _) => { c with port := none }

/-- The next `n` accesses finish, one after the other. -/
def Chip.accessDones : Nat → Chip → Chip
  | 0, c => c
  | n + 1, c => Chip.accessDones n (c.event Chip.accessDone)

/-- The command in hand has work of its own to do next. -/
def Chip.working (c : Chip) : Bool :=
  match c.command with
  | some m => match m.stage with
    | .working _ => true
    | _ => false
  | none => false

/-- One event towards the command in hand's end: its own work, or the end of the access at the port. -/
def Chip.advance (c : Chip) : Chip := c.event fun c => if c.working then c.commandWork else c.accessDone

/-- `n` such events. -/
def Chip.advances : Nat → Chip → Chip
  | 0, c => c
  | n + 1, c => Chip.advances n c.advance

/-! ### The DACK of one particular write -/

/-- The port holds the BIND STATUS REJECTED write (R28). -/
def Chip.rejectedAtPort (c : Chip) : Bool :=
  match c.port, c.bind with
  | some (.internal .binding _), .checking k => match k.phase with
    | .rejecting _ _ => true
    | _ => false
  | _, _ => false

/-- The port holds the BIND STATUS BOUND write (R29). -/
def Chip.boundAtPort (c : Chip) : Bool :=
  match c.port, c.bind with
  | some (.internal .binding _), .checking k => match k.phase with
    | .status _ => true
    | _ => false
  | _, _ => false

/-- The port holds a final STATUS write (R149). -/
def Chip.finalStatusAtPort (c : Chip) : Bool :=
  match c.port, c.command with
  | some (.internal .command _), some m => match m.stage with
    | .status _ => true
    | _ => false
  | _, _ => false

/-- The port holds a record's PRODUCER write (R178). -/
def Chip.producerAtPort (c : Chip) : Bool :=
  match c.port, c.writer.inHand with
  | some (.internal .report _), some h => h.written == 4
  | _, _ => false

/-- DOWNSTREAM_ACCESS_DONE (R17). -/
def execDownstreamAccessDone (s : State) : Host.Outcome State Fault Refusal := onChip (fun c => c.event Chip.accessDone) s

/-- BIND_REJECTED (R28): the DACK of the REJECTED write; nothing when the port does not hold it (log 3). -/
def execBindRejected (s : State) : Host.Outcome State Fault Refusal :=
  onChip (fun c => c.event fun c => if c.rejectedAtPort then c.accessDone else c) s

/-- BIND_BOUND (R29): the DACK of the BOUND write; nothing when the port does not hold it (log 3). -/
def execBindBound (s : State) : Host.Outcome State Fault Refusal :=
  onChip (fun c => c.event fun c => if c.boundAtPort then c.accessDone else c) s

/-- COMMAND_COMPLETE (R149): the DACK of the final STATUS; nothing when the port does not hold it (log 3). -/
def execCommandComplete (s : State) : Host.Outcome State Fault Refusal :=
  onChip (fun c => c.event fun c => if c.finalStatusAtPort then c.accessDone else c) s

/-- REPORT_RECORD_PUBLISH (R178): the DACK of a record's PRODUCER write; nothing when the port does not hold it (log 3). -/
def execReportRecordPublish (s : State) : Host.Outcome State Fault Refusal :=
  onChip (fun c => c.event fun c => if c.producerAtPort then c.accessDone else c) s

/-- HELD_REPLY_WRITE_RELEASE (R11): a held reply write with room in the queue goes on to the arbiter, and `after` accesses
finish. The part releases it within the event that makes the room (log 8). -/
def execHeldReplyWriteRelease (after : Nat) (s : State) : Host.Outcome State Fault Refusal :=
  onChip (fun c => Chip.accessDones after (c.event id)) s

end Sys2Proof.Machine
end

