-- ==== Sys2Proof/Machine/HostAccess.lean ====
section
/-! DEFINITION. The rows that are host accesses. Each presents its access to the Window Decoder, which alone decides how it
is treated (R1 to R9, log 5), and then lets `after` downstream accesses finish (log 6). -/

namespace Sys2Proof.Machine

/-- The host presents an access, behind those it already means to present (log 7). Nothing is presented while PORn is low
(R31). -/
def Chip.hostPresents (c : Chip) (q : HostRequest) : Chip := c.event fun c => { c with backlog := c.backlog ++ [q] }

/-- The host writes a word, and `after` downstream accesses finish. -/
def Chip.hostWrite (c : Chip) (a : Addr) (w : Word) (be : BitVec 4) (after : Nat) : Chip :=
  Chip.accessDones after (c.hostPresents ⟨a, .write w be⟩)

/-- The host reads a word, and `after` downstream accesses finish. -/
def Chip.hostRead (c : Chip) (r : BusRead) (after : Nat) : Chip :=
  Chip.accessDones after (c.hostPresents ⟨r.addr, .read r.be⟩)

/-- PASSED_WRITE (R1, R3). -/
def execPassedWrite (a : Addr) (w : Word) (be : BitVec 4) (after : Nat) (s : State) : Host.Outcome State Fault Refusal :=
  onChip (fun c => c.hostWrite a w be after) s

/-- BIND_TRIGGER (R1, R23): the strap pins at the given level as the write arrives. -/
def execBindTrigger (dsel : BitVec 3) (a : Addr) (w : Word) (after : Nat) (s : State) : Host.Outcome State Fault Refusal :=
  onChip (fun c => Chip.hostWrite { c with dsel := dsel } a w 0xF#4 after) s

/-- VERDICT_WORD_READ (R5, R12). -/
def execVerdictWordRead (r : BusRead) (after : Nat) (s : State) : Host.Outcome State Fault Refusal :=
  onChip (fun c => c.hostRead r after) s

/-- PLAN_WORD_READ (R6, R12). -/
def execPlanWordRead (r : BusRead) (after : Nat) (s : State) : Host.Outcome State Fault Refusal :=
  onChip (fun c => c.hostRead r after) s

/-- SWALLOWED_WRITE (R7). -/
def execSwallowedWrite (a : Addr) (w : Word) (be : BitVec 4) (after : Nat) (s : State) :
    Host.Outcome State Fault Refusal :=
  onChip (fun c => c.hostWrite a w be after) s

/-- SERIAL_WORD_WRITE (R51). -/
def execSerialWordWrite (a : Addr) (w : Word) (after : Nat) (s : State) : Host.Outcome State Fault Refusal :=
  onChip (fun c => c.hostWrite a w 0xF#4 after) s

/-- REPLY_WORD_WRITE (R11, R52, R53). -/
def execReplyWordWrite (a : Addr) (w : Word) (after : Nat) (s : State) : Host.Outcome State Fault Refusal :=
  onChip (fun c => c.hostWrite a w 0xF#4 after) s

/-- MALFORMED_REPLY_WRITE (R54). -/
def execMalformedReplyWrite (a : Addr) (w : Word) (be : BitVec 4) (after : Nat) (s : State) :
    Host.Outcome State Fault Refusal :=
  onChip (fun c => c.hostWrite a w be after) s

/-- MAILBOX_OVERRUN_WRITE (R8, R147). -/
def execMailboxOverrunWrite (a : Addr) (w : Word) (be : BitVec 4) (after : Nat) (s : State) :
    Host.Outcome State Fault Refusal :=
  onChip (fun c => c.hostWrite a w be after) s

/-- CONSUMER_WRITE (R9, R179). -/
def execConsumerWrite (a : Addr) (w : Word) (after : Nat) (s : State) : Host.Outcome State Fault Refusal :=
  onChip (fun c => c.hostWrite a w 0xF#4 after) s

end Sys2Proof.Machine
end

