-- ==== Sys2Proof/Machine/Commands.lean ====
section
/-! DEFINITION. The rows that are mailbox commands (R146 to R151): the host's write of the command word, or the running
command's own next events. What each code does is in Mailbox.lean and Transfer.lean. -/

namespace Sys2Proof.Machine

/-- The command in hand has the code. -/
def Chip.runs (c : Chip) (code : BitVec 8) : Bool :=
  match c.command with
  | some m => m.code == code
  | none => false

/-- A mailbox command's row (log 6): its word written by the host and `after` events towards its end; or, when the command
in hand has the row's code, that many events of its own. -/
def Chip.commandRow (c : Chip) (code : BitVec 8) (how : CommandStep) : Chip :=
  match how with
  | .word a tag upper after => Chip.advances after (c.hostPresents ⟨a, .write (commandWord code tag upper) 0xF#4⟩)
  | .run events => if c.runs code then Chip.advances events c else c

/-- UNKNOWN_COMMAND (R146, R148, R151), of a code that names no command. -/
def execUnknownCommand (code : BitVec 8) (how : CommandStep) (s : State) : Host.Outcome State Fault Refusal :=
  onChip (fun c => c.commandRow code how) s

/-- PLAN_LOAD (R160 to R165). -/
def execPlanLoad (how : CommandStep) (s : State) : Host.Outcome State Fault Refusal := onChip (fun c => c.commandRow 1 how) s

/-- SNAPSHOT (R166, R167). -/
def execSnapshot (how : CommandStep) (s : State) : Host.Outcome State Fault Refusal := onChip (fun c => c.commandRow 2 how) s

/-- RESTORE (R168 to R173). -/
def execRestore (how : CommandStep) (s : State) : Host.Outcome State Fault Refusal := onChip (fun c => c.commandRow 3 how) s

/-- PROFILE_SET (R47). -/
def execProfileSet (how : CommandStep) (s : State) : Host.Outcome State Fault Refusal := onChip (fun c => c.commandRow 4 how) s

/-- SEAL (R43). -/
def execSealPlan (how : CommandStep) (s : State) : Host.Outcome State Fault Refusal := onChip (fun c => c.commandRow 5 how) s

/-- WALK_START (R128, R129). -/
def execWalkStart (how : CommandStep) (s : State) : Host.Outcome State Fault Refusal := onChip (fun c => c.commandRow 6 how) s

/-- WALK_END (R135). -/
def execWalkEnd (how : CommandStep) (s : State) : Host.Outcome State Fault Refusal := onChip (fun c => c.commandRow 7 how) s

/-- ACCEPT (R69 to R71). -/
def execAccept (how : CommandStep) (s : State) : Host.Outcome State Fault Refusal := onChip (fun c => c.commandRow 8 how) s

/-- RELEASE (R69, R70, R72). -/
def execRelease (how : CommandStep) (s : State) : Host.Outcome State Fault Refusal := onChip (fun c => c.commandRow 9 how) s

/-- ADOPT (R69, R73). -/
def execAdopt (how : CommandStep) (s : State) : Host.Outcome State Fault Refusal := onChip (fun c => c.commandRow 10 how) s

/-- CLEAR_FLAGS (R69, R74). -/
def execClearFlags (how : CommandStep) (s : State) : Host.Outcome State Fault Refusal := onChip (fun c => c.commandRow 11 how) s

/-- CLEAR_VERDICT (R119, R122). -/
def execClearVerdict (how : CommandStep) (s : State) : Host.Outcome State Fault Refusal := onChip (fun c => c.commandRow 12 how) s

/-- REVERT_PREPARE (R152). -/
def execRevertPrepare (how : CommandStep) (s : State) : Host.Outcome State Fault Refusal := onChip (fun c => c.commandRow 13 how) s

/-- REVERT (R75, R153). -/
def execRevert (how : CommandStep) (s : State) : Host.Outcome State Fault Refusal := onChip (fun c => c.commandRow 14 how) s

/-- QUERY (R154, R155). -/
def execQuery (how : CommandStep) (s : State) : Host.Outcome State Fault Refusal := onChip (fun c => c.commandRow 15 how) s

/-- RESET (R156). -/
def execReset (how : CommandStep) (s : State) : Host.Outcome State Fault Refusal := onChip (fun c => c.commandRow 16 how) s

end Sys2Proof.Machine
end

