-- ==== Sys2Proof/Machine/Dispatch.lean ====
section
/-! DEFINITION. One arm per command. -/

namespace Sys2Proof.Machine

def exec (i : Instr) (s : State) : Host.Outcome State Fault Refusal :=
  match i with
  | .passedWrite addr data be after => Sys2Proof.Machine.execPassedWrite addr data be after s
  | .downstreamAccessDone => Sys2Proof.Machine.execDownstreamAccessDone s
  | .bindTrigger dsel addr data after => Sys2Proof.Machine.execBindTrigger dsel addr data after s
  | .bindRejected => Sys2Proof.Machine.execBindRejected s
  | .bindBound => Sys2Proof.Machine.execBindBound s
  | .secondTick => Sys2Proof.Machine.execSecondTick s
  | .silenceExpiry which => Sys2Proof.Machine.execSilenceExpiry which s
  | .walkExpiry slot => Sys2Proof.Machine.execWalkExpiry slot s
  | .verdictWordRead read after => Sys2Proof.Machine.execVerdictWordRead read after s
  | .planWordRead read after => Sys2Proof.Machine.execPlanWordRead read after s
  | .heldReadRelease => Sys2Proof.Machine.execHeldReadRelease s
  | .swallowedWrite addr data be after => Sys2Proof.Machine.execSwallowedWrite addr data be after s
  | .serialWordWrite addr data after => Sys2Proof.Machine.execSerialWordWrite addr data after s
  | .replyWordWrite addr data after => Sys2Proof.Machine.execReplyWordWrite addr data after s
  | .heldReplyWriteRelease after => Sys2Proof.Machine.execHeldReplyWriteRelease after s
  | .malformedReplyWrite addr data be after => Sys2Proof.Machine.execMalformedReplyWrite addr data be after s
  | .replyEvent => Sys2Proof.Machine.execReplyEvent s
  | .loopIsolateChange loop => Sys2Proof.Machine.execLoopIsolateChange loop s
  | .zoneLoad zclk => Sys2Proof.Machine.execZoneLoad zclk s
  | .consentRederivation which => Sys2Proof.Machine.execConsentRederivation which s
  | .walkEndEvent slot => Sys2Proof.Machine.execWalkEndEvent slot s
  | .walkClearEvent slot moves => Sys2Proof.Machine.execWalkClearEvent slot moves s
  | .mailboxOverrunWrite addr data be after => Sys2Proof.Machine.execMailboxOverrunWrite addr data be after s
  | .unknownCommand code how => Sys2Proof.Machine.execUnknownCommand code how s
  | .commandComplete => Sys2Proof.Machine.execCommandComplete s
  | .planLoad how => Sys2Proof.Machine.execPlanLoad how s
  | .snapshot how => Sys2Proof.Machine.execSnapshot how s
  | .restore how => Sys2Proof.Machine.execRestore how s
  | .profileSet how => Sys2Proof.Machine.execProfileSet how s
  | .sealPlan how => Sys2Proof.Machine.execSealPlan how s
  | .walkStart how => Sys2Proof.Machine.execWalkStart how s
  | .walkEnd how => Sys2Proof.Machine.execWalkEnd how s
  | .accept how => Sys2Proof.Machine.execAccept how s
  | .release how => Sys2Proof.Machine.execRelease how s
  | .adopt how => Sys2Proof.Machine.execAdopt how s
  | .clearFlags how => Sys2Proof.Machine.execClearFlags how s
  | .clearVerdict how => Sys2Proof.Machine.execClearVerdict how s
  | .revertPrepare how => Sys2Proof.Machine.execRevertPrepare how s
  | .revert how => Sys2Proof.Machine.execRevert how s
  | .query how => Sys2Proof.Machine.execQuery how s
  | .reset how => Sys2Proof.Machine.execReset how s
  | .consumerWrite addr data after => Sys2Proof.Machine.execConsumerWrite addr data after s
  | .reportRecordStart => Sys2Proof.Machine.execReportRecordStart s
  | .reportRecordPublish => Sys2Proof.Machine.execReportRecordPublish s
  | .hostReset => Sys2Proof.Machine.execHostReset s
  | .powerOnReset => Sys2Proof.Machine.execPowerOnReset s
  | .powerOnRelease liso => Sys2Proof.Machine.execPowerOnRelease liso s
  | .zoneChainShift zdat zload => Sys2Proof.Machine.execZoneChainShift zdat zload s
  | .hostResetRelease => Sys2Proof.Machine.execHostResetRelease s
  | .refclkRisingEdge liso order tickLast => Sys2Proof.Machine.execRefclkRisingEdge liso order tickLast s

end Sys2Proof.Machine
end

