-- ==== Sys2Proof/Machine/Step.lean ====
section
/-! DEFINITION. One step: the command at the front of the queue, or idling when none waits (log 4). -/

namespace Sys2Proof.Machine

/-- A state with the queue of waiting commands replaced. -/
def State.withPending (s : State) (p : List Instr) : State := { s with pending := p }

/-- The command at the front is taken from the queue and has its effect. On an empty queue the block idles (log 4). -/
def step (s : State) : Host.Outcome State Fault Refusal :=
  match s.pending with
  | [] => .next s
  | i :: rest => exec i (s.withPending rest)

/-- The command a word spells, put at the front of the queue; no row spells bits, so the state stands. -/
def State.withFetchWord (s : State) (nbits w : Nat) : State :=
  match Sys2Proof.decodeTableWord nbits w with
  | some i => s.withPending (i :: s.pending)
  | none => s

end Sys2Proof.Machine
end

