-- ==== Sys2Proof/Safety.lean ====
section
/-! DEFINITION. The words the claims use: what a step keeps, the memory path at rest, and the facts about the chip that the
manual says stand at every moment. -/

namespace Sys2Proof.Machine

/-- A state with its chip replaced and its queue as it was. -/
def State.withChip (s : State) (c : Chip) : State := { s with chip := c }

/-- Every step keeps a fact about the chip. -/
def StepKeeps (P : Chip → Prop) : Prop :=
  ∀ (s t : State), P s.chip → step s = .next t → P t.chip

/-- The memory path is at rest: PORn is high, no host access is in flight or to come, the port is free, and the Internal
Master has nothing current and nothing waiting. -/
structure Chip.Quiet (c : Chip) : Prop where
  powered : c.porLow = false
  noHost : c.host = none
  noBacklog : c.backlog = []
  freePort : c.port = none
  noCurrent : c.im.current = none
  noBinding : c.im.waitBinding = none
  noCommand : c.im.waitCommand = none
  noReport : c.im.waitReport = none

/-- The command in hand, with its five operands read, is at its checks (R148 step 3). -/
structure Chip.AtCheck (c : Chip) (m : Command) (b : Binding) (code : BitVec 8) : Prop where
  powered : c.porLow = false
  bound : c.bind = .bound b
  inHand : c.command = some m
  isCode : m.code = code
  stage : m.stage = .working .check

/-- The command in hand is at a work event of its own. -/
structure Chip.AtWork (c : Chip) (m : Command) (b : Binding) (code : BitVec 8) (w : Work) : Prop where
  powered : c.porLow = false
  bound : c.bind = .bound b
  inHand : c.command = some m
  isCode : m.code = code
  stage : m.stage = .working w

/-! ### A chip after one of its small changes, for the statements -/

/-- The chip after a reply word has reached RAM and formed an event: the latch is empty and the event stands last in the
queue (R52, R53). -/
def Chip.withReply (c : Chip) (a : Addr) (w : Word) (e : ReplyEvent) : Chip :=
  { c with mem := Mem.writeWord c.mem (wordBase a) 0xF#4 w, answer := .written, latch := none, intake := c.intake ++ [e] }

/-- A reply event stands at the head of the queue, no stretch runs, and nothing that must precede it is owed: every owed
re-derivation, and the owed silence tests, came after it was formed (R66, R70, R99). -/
structure Chip.HeadReply (c : Chip) (e : ReplyEvent) (rest : List ReplyEvent) : Prop where
  powered : c.porLow = false
  head : c.intake = e :: rest
  noStretch : c.stretching = false
  noRederivation : ∀ o ∈ c.rederivations, 0 < o.exempt
  noSilence : c.silenceOwed = [] ∨ 0 < c.silenceExempt

/-- The chip with the head reply event taken from the queue: what is owed has one fewer event before it. -/
def Chip.taken (c : Chip) (rest : List ReplyEvent) : Chip :=
  { c with intake := rest
           rederivations := c.rederivations.map fun o => { o with exempt := o.exempt - 1 }
           silenceExempt := c.silenceExempt - 1 }

/-- A point's record after steps 1 to 6 of a good reply that changes neither its class nor its serials, at a point not
SILENT (R57, R58, R64). -/
def Chip.afterSameReply (c : Chip) (r : Rec) (st : GoodStatus) : PointRecord :=
  c.derived r { c.points[r] with lastStatus := some st.status, noreplyRun := 0, garbledRun := 0, lastGood := c.seconds,
                                 presence := .live }

/-- The chip after the reports of a coincidence of `p` with the opener `q` in a zone: COINCIDENCE, FIRE of the opener when it did
not hold FIRE, FIRE of the other point (R114, R125). -/
def Chip.coincidenceReports (c : Chip) (z : Zone) (q p : Rec) (fresh : Bool) (now : Nat) : Chip :=
  let fire (r other : Rec) : Report :=
    { kind := .fire, loop := r.val / 192 + 1, addr := r.val % 192 + 1, zone := (c.zoneOf r).val + 1, time := now,
      detailA := 3, detailB := word other.val }
  let c := c.raise { kind := .coincidence, loop := 0, addr := 0, zone := z.val + 1, time := now, detailA := word q.val,
                     detailB := word p.val }
  let c := if fresh then c.raise (fire q p) else c
  c.raise (fire p q)

/-- Operands w1, w2 and w3 give a range of records that lies in one loop of the binding (R69). -/
structure Command.RangeOk (m : Command) (b : Binding) : Prop where
  loop : 1 ≤ m.num 1 ∧ m.num 1 ≤ b.loops
  start : 1 ≤ m.num 2
  count : 1 ≤ m.num 3
  last : m.num 2 + m.num 3 - 1 ≤ 192

/-- A record lies in the range of operands w1, w2 and w3 (R69). -/
def Command.covers (m : Command) (r : Rec) : Bool :=
  decide ((m.num 1 - 1) * 192 + (m.num 2 - 1) ≤ r.val ∧ r.val < (m.num 1 - 1) * 192 + (m.num 2 - 1) + m.num 3)

/-- A buffer passes the buffer check: word aligned, inside the space, sharing no byte with the three windows or the bound
descriptor (R158). -/
structure Binding.BufferPasses (b : Binding) (start len : Nat) : Prop where
  aligned : start % 4 = 0
  inside : start + len ≤ 0x1000000
  point : b.pointRange.overlaps (start, len) = false
  mailbox : b.mailboxRange.overlaps (start, len) = false
  ring : b.ringRange.overlaps (start, len) = false
  descriptor : b.descriptorRange.overlaps (start, len) = false

/-- How many records hold a property. -/
def countRecords (f : Rec → Bool) : Nat := (List.finRange 768).countP f

/-- REFUSED with a reason and a DETAIL, RESULT all 0 (R151). -/
def refusedWith (reason : Reason) (detail : Word) : Completion :=
  { final := .refused, reason := reason, detail := detail, result := [] }

/-- DONE with a RESULT, DETAIL 0 (R151). -/
def doneWith (result : List Word) : Completion := { final := .done, reason := .none, detail := 0, result := result }

/-- ABORTED TORN at a block, with RESULT as the command gives it (R163, R171). -/
def tornWith (block : Nat) (result : List Word) : Completion :=
  { final := .aborted, reason := .torn, detail := word block, result := result }

/-- A Transfer install is pending at a point: its block has passed its re-read and its own install is not made
(R12 condition 3). -/
def Chip.InstallPending (c : Chip) (r : Rec) : Prop :=
  ∃ (m : Command) (t : TransferEngine) (n : Nat), c.command = some m ∧ c.transfer = some t ∧
    ((m.stage = .working (.planInstall n) ∧ ∃ i, 1 ≤ i ∧ n ≤ i ∧ i ≤ 8 ∧ entryLoop (t.words.getD (2 * i) 0) ≠ 0 ∧
        entryRecord (t.words.getD (2 * i) 0) = r) ∨
      (m.stage = .working (.restoreInstall n) ∧ ∃ k, t.position = some k ∧ 8 * k + n - 1 ≤ r.val ∧ r.val < 8 * k + 8))

/-! ### Tables of the manual, in the statements' own words -/

/-- R25's ranges for descriptor word `i`, with the bits R185 gives no field 0; other words have none. -/
def DescriptorWordRight (i : Nat) (w : Word) : Prop :=
  let n := w.toNat
  match i with
  | 1 => n < 0x1000000 ∧ n % 16 = 0
  | 2 => n < 0x1000000 ∧ n % 64 = 0
  | 3 => n < 0x1000000 ∧ n % 16 = 0
  | 4 => 8 ≤ n ∧ n ≤ 1024
  | 5 => n < 512 ∧ 1 ≤ n % 8 ∧ n % 8 ≤ 4 ∧ n / 8 % 32 = 0
  | 6 => n < 0x800000 ∧ 5 ≤ n % 256 ∧ n % 256 ≤ 250 ∧ 1 ≤ n / 256 % 16 ∧ n / 4096 % 16 = 0 ∧ 5 ≤ n / 65536 ∧
      n / 65536 ≤ 120
  | 7 => n < 512 ∧ n / 64 % 4 = 0
  | _ => True

/-- An entry slot that PLAN LOAD does not pass over has the form R162 asks of it, with the bits of R189. -/
def PlanEntryRight (loops : Nat) (first second : Word) : Prop :=
  let n := first.toNat
  (1 ≤ n % 8 ∧ n % 8 ≤ loops) ∧ (1 ≤ n / 256 % 256 ∧ n / 256 % 256 ≤ 192) ∧
  (n / 65536 % 2 = 1 → (1 ≤ n / 16777216 % 128 ∧ n / 16777216 % 128 ≤ 96) ∧ n / 8 % 32 = 0 ∧ n / 8388608 % 2 = 0 ∧
    n < 0x80000000 ∧ second.toNat < 65536)

/-- R170's checks of the point entry in slot `slot` of state block `block`, with the bits of R189 and R190; an absent entry's
unused bits are not looked at (log 17). -/
def StateEntryRight (words : List Word) (block slot : Nat) : Prop :=
  let w (i : Nat) : Nat := (words.getD (2 + 5 * (slot - 1) + i) 0).toNat
  let record := 8 * block + slot - 1
  let planned : Prop := w 0 / 65536 % 2 = 1
  let found : Prop := w 2 / 128 % 2 = 1
  let sameClass : Prop := w 2 / 16 % 8 = w 0 / 262144 % 8
  w 0 % 8 = record / 192 + 1 ∧ w 0 / 256 % 256 = record % 192 + 1 ∧
  (planned → (1 ≤ w 0 / 16777216 % 128 ∧ w 0 / 16777216 % 128 ≤ 96) ∧ w 0 / 8 % 32 = 0 ∧ w 0 / 8388608 % 2 = 0 ∧
    w 0 < 0x80000000 ∧ w 1 < 65536) ∧
  (¬planned → w 0 / 131072 % 64 = 0 ∧ w 0 / 16777216 % 128 = 0 ∧ w 1 % 65536 = 0) ∧
  (¬found → w 2 / 16 % 8 = 0) ∧ w 2 / 8 % 2 = 0 ∧ w 2 < 4096 ∧
  (w 4 ≠ 0 → w 2 % 8 = 5 ∧ w 3 ≠ 0) ∧
  match w 2 % 8 with
  | 0 => ¬planned ∧ ¬found
  | 1 => planned ∧ ¬found
  | 2 => ¬planned ∧ found
  | 3 => planned ∧ found ∧ sameClass
  | 4 => planned ∧ found ∧ ¬sameClass
  | 5 => True
  | 6 => planned ∧ found ∧ sameClass
  | _ => planned ∧ found ∧ sameClass ∧ w 3 ≠ 0 ∧ w 4 = 0

/-! ### Facts that stand at every moment -/

/-- A bind trigger is in flight only while the part is UNBOUND (R1, R2). -/
def Chip.TriggerRight (c : Chip) : Prop :=
  ∀ (h : HostAccess) (l : BitVec 3), c.host = some h → h.treatment = .trigger l → c.bind = .unbound

/-- RAM keeps its canonical form (log 1). -/
def Chip.MemOk (c : Chip) : Prop := Mem.wf c.mem = true

/-- The port holds the host's access exactly when that access is at the port (R17). -/
def Chip.PortAgrees (c : Chip) : Prop := c.port = some .host ↔ ∃ h, c.host = some h ∧ h.stage = .atPort

/-- The host's access is a reply write that has been let on to the arbiter (R11). -/
def Chip.replyOnTheWay (c : Chip) : Bool :=
  match c.host with
  | some h =>
    match h.treatment with
    | .replyWrite _ => h.stage != .held
    | _ => false
  | none => false

/-- The Intake Queue never holds more than 4 events, the one on its way counted (R11, R55). -/
def Chip.IntakeBounded (c : Chip) : Prop :=
  c.PortAgrees ∧ c.intake.length + c.replyOnTheWay.toNat ≤ Config.intakeLimit

/-- The pending queue never holds more than 16 reports (R178). -/
def Chip.QueueBounded (c : Chip) : Prop := c.writer.queue.length ≤ Config.pendingLimit

/-- STARVE COUNT stays from 0 to 32 (R18). -/
def Chip.StarveBounded (c : Chip) : Prop := c.starve ≤ Config.starveLimit

/-- A hit list holds at most 32 entries (R126). -/
def Chip.HitsBounded (c : Chip) : Prop :=
  ∀ (k : Fin 4) (w : WalkSlot), c.slots[k] = some w → w.hits.length ≤ Config.hitListLimit

/-- How many points hold FIRE. -/
def Chip.fires (c : Chip) : Nat := c.points.toList.countP (fun p => p.verdict == .fire)

/-- The FIRE count counts the points holding FIRE, and the pin is up exactly while it is not 0 (R123). -/
def Chip.FireRight (c : Chip) : Prop := c.fireCount = c.fires ∧ c.firePin = decide (0 < c.fireCount)

/-- IRQ stands as R181 gives it. -/
def Chip.IrqRight (c : Chip) : Prop := c.TriggerRight ∧ c.irqPin = c.irqLevel

/-- The Zone Table and the mask never disagree (R95). -/
def Chip.ZonesFollowMask (c : Chip) : Prop := ∀ z : Zone, c.zones[z].withheld = maskWithholds c.zoneMask z

/-- A zone record names a slot exactly while that slot is RUNNING in the zone, and no two slots hold one zone
(R126, R127). -/
def Chip.SlotsLinked (c : Chip) : Prop :=
  (∀ (z : Zone) (k : Fin 4), c.zones[z].walkSlot = some k ↔
    ∃ w, c.slots[k] = some w ∧ w.ending = false ∧ realZone w.zone = z)
  ∧ ∀ (j k : Fin 4) (v w : WalkSlot), c.slots[j] = some v → c.slots[k] = some w → v.zone = w.zone → j = k

/-- A binding's values and windows are those the check passes (R25 to R27). -/
structure Binding.Legal (b : Binding) : Prop where
  pointBase : b.pointBase % 16 = 0
  mailboxBase : b.mailboxBase % 64 = 0
  ringBase : b.ringBase % 16 = 0
  capacity : 8 ≤ b.capacity ∧ b.capacity ≤ 1024
  loops : 1 ≤ b.loops ∧ b.loops ≤ 4
  silenceTimeout : 5 ≤ b.silenceTimeout ∧ b.silenceTimeout ≤ 250
  noreplyLimit : 1 ≤ b.noreplyLimit ∧ b.noreplyLimit ≤ 15
  coincidenceWindow : 5 ≤ b.coincidenceWindow ∧ b.coincidenceWindow ≤ 120
  alarmClass : b.classMask.getLsbD 2 = true
  pointEnd : b.pointBase + b.loops * 3072 ≤ Config.spaceEnd
  mailboxEnd : b.mailboxBase + 64 ≤ Config.spaceEnd
  ringEnd : b.ringBase + 16 + 16 * b.capacity ≤ Config.spaceEnd
  disjoint : ∀ p ∈ b.pairs, p.2.1.overlaps p.2.2 = false

/-- The binding in force, or the one a passed check is about to bring into force. -/
def BindState.binding : BindState → Option Binding
  | .bound b => some b
  | .checking k =>
    match k.phase with
    | .producer b => some b
    | .status b => some b
    | _ => none
  | .unbound => none

/-- A binding in force, or about to be, has passed every check (R24 to R29). -/
def Chip.BindingLegal (c : Chip) : Prop := ∀ b, c.bind.binding = some b → b.Legal

/-- What a STATE says about its point: the commissioning state table, and R59. -/
def PointRecord.StateFacts (p : PointRecord) (e : Option PlanEntry) : Prop :=
  match p.state with
  | .vacant => e = none ∧ p.foundClass = none
  | .expected => e.isSome = true ∧ p.foundClass = none
  | .unplanned => e = none ∧ p.foundClass.isSome = true
  | .matched => e.isSome = true ∧ p.foundClass = e.map (·.cls)
  | .mismatch => e.isSome = true ∧ p.foundClass.isSome = true ∧ p.foundClass ≠ e.map (·.cls)
  | .conflict => True
  | .tested => e.isSome = true ∧ p.foundClass = e.map (·.cls)
  | .commissioned => e.isSome = true ∧ p.foundClass = e.map (·.cls) ∧ p.firstSerial.isSome = true

/-- The facts of a point: its STATE's, and SECOND SERIAL only in CONFLICT beside a FIRST SERIAL (R56, R59, R61). -/
def PointRecord.Facts (p : PointRecord) (e : Option PlanEntry) : Prop :=
  p.StateFacts e ∧ (p.secondSerial.isSome = true → p.state = .conflict ∧ p.firstSerial.isSome = true)

/-- While a RESTORE installs a block, the block's entries are ones its checks passed (R170, R171). -/
def Chip.RestoreChecked (c : Chip) : Prop :=
  ∀ (m : Command) (s : Nat) (t : TransferEngine), c.command = some m → m.stage = .working (.restoreInstall s) →
    c.transfer = some t → 1 ≤ s ∧ s ≤ 8 ∧ ∀ i, 1 ≤ i → i ≤ 8 → stateEntryOk t.words t.block i = true

/-- Every point's facts stand (R59). -/
def Chip.PointsConsistent (c : Chip) : Prop :=
  c.RestoreChecked ∧ ∀ r : Rec, c.points[r].Facts c.plan[r]

/-- The ranges of the counting fields of a point (R56). -/
def PointRecord.InRange (p : PointRecord) : Prop :=
  p.noreplyRun ≤ 15 ∧ p.garbledRun ≤ 3 ∧ p.driftRun ≤ 16 ∧ p.testCount ≤ 15

/-- Every point's counts are in range (R56). -/
def Chip.PointsInRange (c : Chip) : Prop := ∀ r : Rec, c.points[r].InRange

/-- The host access in flight is one an unbound part knows: passed, or a bind trigger (R1, R2, R22). -/
def Chip.HostUntaken (c : Chip) : Prop :=
  ∀ h, c.host = some h → h.treatment = .passed ∨ ∃ l, h.treatment = .trigger l

/-- While the part is not BOUND nothing of a binding is left: no event, latch, command, mark, transfer, slot, opener, report or
owed test; every point ABSENT, unarmed and without a verdict; both output pins low
(R32, R52, R55, R76, R97, R102, R124, R143, R157, R183). -/
structure Chip.Dormant (c : Chip) : Prop where
  hostUntaken : c.HostUntaken
  latch : c.latch = none
  intake : c.intake = []
  points : ∀ r : Rec, c.points[r].presence = .absent ∧ c.points[r].verdict = .none ∧ c.points[r].armed = false
  silenceOwed : c.silenceOwed = []
  zones : ∀ z : Zone, c.zones[z].walkSlot = none ∧ c.zones[z].opener = none
  fireCount : c.fireCount = 0
  slots : ∀ k : Fin 4, c.slots[k] = none
  walkOwed : c.walkOwed = []
  command : c.command = none
  overrun : c.overrun = false
  prepared : c.prepared = false
  transfer : c.transfer = none
  writer : c.writer = Writer.fresh
  firePin : c.firePin = false
  irqPin : c.irqPin = false

/-- Not BOUND implies dormant. -/
def Chip.DormantUnbound (c : Chip) : Prop := c.TriggerRight ∧ (c.binding = none → c.Dormant)

/-- The stored SUPPRESSED and ARMED are what R96 and R97 derive, at every point that owes no re-derivation (R98, R99). The
second part stands on the first where a bind brings its AUTO WITHDRAW. -/
def Chip.FieldsDerived (c : Chip) : Prop :=
  c.DormantUnbound ∧ ∀ r : Rec, (∀ o ∈ c.rederivations, o.point ≠ r) → c.points[r] = c.derived r c.points[r]

/-- A stage of the Command Engine that leads to a change of the plan or of a code: the passes of PLAN LOAD and RESTORE. -/
def CommandStage.changesPlan : CommandStage → Bool
  | .transferring .read => true
  | .working .planBlock | .working (.planEntry _) | .working (.planInstall _) => true
  | .working .restoreHeader | .working .restoreBlock | .working (.restoreInstall _) | .working .restoreFinal => true
  | _ => false

/-- While the seal is set, no command is in such a stage (R41, R42); a command runs only while BOUND (R157). -/
def Chip.SealRespected (c : Chip) : Prop :=
  c.DormantUnbound ∧ (c.sealed = true → ∀ m, c.command = some m → m.stage.changesPlan = false)

end Sys2Proof.Machine
end

