-- ==== Sys2Proof/Certificates/Slice0/Obligations.lean ====
section
/-! DEFINITION. The statements for the provers. Each follows the rules of the manual named in its docstring, or a log entry
where the model's own choice is stated. -/

section
open Sys2Proof Sys2Proof.Machine

/-! ### The machine -/

/-- A step runs the command at the front of the queue, with the rest of the queue left (log 4). -/
def Obligations.StepRunsTheFrontCommand : Prop :=
  ∀ (c : Instr) (rest : List Instr) (s : State), step (s.withPending (c :: rest)) = exec c (s.withPending rest)

/-- No command stops the block: every step answers a next state with one command fewer waiting; on an empty queue the block
idles (log 4; INVENTORY.md, Faults). -/
def Obligations.EveryStepTakesOneCommand : Prop :=
  ∀ s : State, (∃ t, step s = .next t ∧ t.pending = s.pending.tail) ∧ (s.pending = [] → step s = .next s)

/-! ### Reset -/

/-- The machine after reset stands at the power-on values (R22, R32, R49, R76, R103, R124, R143, R157, R183); the levels of
the pins, the filtered levels and SUPPRESSED that follow them, the host's answer and the empty RAM are the model's choice
(logs 1 and 12). -/
def Obligations.ResetStandsAtPowerOnValues : Prop :=
  State.reset.pending = [] ∧
  let c := State.reset.chip
  c.mem = [] ∧ c.dsel = 0 ∧ c.porLow = false ∧ c.hrstLow = false ∧
  c.bind = .unbound ∧ c.host = none ∧ c.backlog = [] ∧ c.answer = .none ∧ c.port = none ∧ c.starve = 0 ∧
  c.im.current = none ∧ c.im.waitBinding = none ∧ c.im.waitCommand = none ∧ c.im.waitReport = none ∧
  c.im.lastServed = .report ∧
  c.seconds = 0 ∧ c.refCount = 0 ∧ c.sealed = false ∧ c.profiles = #v[2, 5, 9, 14] ∧ c.latch = none ∧ c.intake = [] ∧
  (∀ r : Rec, c.plan[r] = none ∧ c.points[r].state = .vacant ∧ c.points[r].presence = .absent ∧
    c.points[r].verdict = .none ∧ c.points[r].foundClass = none ∧ c.points[r].firstSerial = none ∧
    c.points[r].secondSerial = none ∧ c.points[r].lastStatus = none ∧ c.points[r].lastGood = 0 ∧
    c.points[r].noreplyRun = 0 ∧ c.points[r].garbledRun = 0 ∧ c.points[r].driftRun = 0 ∧
    c.points[r].prealarmReady = true ∧ c.points[r].testCount = 0 ∧ c.points[r].flags = 0 ∧ c.points[r].armed = false ∧
    c.points[r].suppressed = false) ∧
  c.rederivations = [] ∧ c.silenceOwed = [] ∧ c.walkOwed = [] ∧
  c.shiftRegister = 0 ∧ c.zout = false ∧ c.zoneMask = 0 ∧
  (∀ l : Loop, c.lisoFiltered[l] = false ∧ c.lisoStable[l] = 0) ∧
  (∀ z : Zone, c.zones[z].withheld = false ∧ c.zones[z].walkSlot = none ∧ c.zones[z].opener = none) ∧
  c.fireCount = 0 ∧ c.firePin = false ∧ (∀ k : Fin 4, c.slots[k] = none) ∧
  c.command = none ∧ c.transfer = none ∧ c.overrun = false ∧ c.prepared = false ∧
  c.writer.queue = [] ∧ c.writer.inHand = none ∧ c.writer.gap = false ∧ c.irqPin = false

/-- The machine after reset meets every fact that the steps keep. -/
def Obligations.ResetMeetsEveryFact : Prop :=
  let c := State.reset.chip
  c.MemOk ∧ c.IntakeBounded ∧ c.QueueBounded ∧ c.StarveBounded ∧ c.HitsBounded ∧ c.FireRight ∧ c.IrqRight ∧
  c.ZonesFollowMask ∧ c.SlotsLinked ∧ c.BindingLegal ∧ c.PointsConsistent ∧ c.PointsInRange ∧ c.DormantUnbound ∧
  c.SealRespected ∧ c.FieldsDerived

/-! ### Facts that every step keeps -/

/-- RAM keeps its canonical form (log 1). -/
def Obligations.MemoryStaysCanonical : Prop := StepKeeps Chip.MemOk

/-- The Intake Queue never holds more than 4 events (R11, R55), the pending queue never more than 16 reports (R176, R178),
STARVE COUNT stays within 32 (R18), and no hit list holds more than 32 entries (R126, R131). -/
def Obligations.QueuesAndCountsStayBounded : Prop :=
  StepKeeps Chip.IntakeBounded ∧ StepKeeps Chip.QueueBounded ∧ StepKeeps Chip.StarveBounded ∧ StepKeeps Chip.HitsBounded

/-- The FIRE count counts the points holding FIRE and the pin is up exactly while it is not 0 (R123); IRQ is up exactly while
BOUND, enabled and occupied (R181). -/
def Obligations.OutputPinsFollowTheirCounts : Prop := StepKeeps Chip.FireRight ∧ StepKeeps Chip.IrqRight

/-- The Zone Table's consents and the zone mask never disagree (R95); zone records and RUNNING slots name one another, and no
two slots hold one zone (R126, R127, R137). -/
def Obligations.ZonesMaskAndSlotsAgree : Prop := StepKeeps Chip.ZonesFollowMask ∧ StepKeeps Chip.SlotsLinked

/-- A binding in force has passed every check of R25 to R27. -/
def Obligations.BindingStaysLegal : Prop := StepKeeps Chip.BindingLegal

/-- The facts of the commissioning states stand through every step (R59), the counting fields of a point stay in range (R56),
and SUPPRESSED and ARMED stay what R96 and R97 derive at every point that owes no re-derivation (R98, R99). -/
def Obligations.PointFactsStand : Prop :=
  StepKeeps Chip.PointsConsistent ∧ StepKeeps Chip.PointsInRange ∧ StepKeeps Chip.FieldsDerived

/-- While the part is not BOUND every point is ABSENT and unarmed, and nothing of a binding is left: no latch, event, owed test,
slot, opener, command, mark, transfer or report, and both pins low (R32, R52, R55, R76, R97, R102, R124, R143, R157, R183). -/
def Obligations.UnboundPartStaysDormant : Prop := StepKeeps Chip.DormantUnbound

/-- With the seal set, no command is in a pass that changes the plan (R41), and no step but a power-on reset changes a plan
entry, a profile code or the seal (R40, R42). -/
def Obligations.SealKeepsThePlan : Prop :=
  StepKeeps Chip.SealRespected ∧
  ∀ (s t : State), s.chip.SealRespected → s.chip.sealed = true → s.pending.head? ≠ some .powerOnReset →
    step s = .next t → t.chip.plan = s.chip.plan ∧ t.chip.profiles = s.chip.profiles ∧ t.chip.sealed = true

/-! ### The Window Decoder -/

/-- While UNBOUND every read passes, and every write but a whole one to the CHECKSUM word of the strap-selected descriptor
with HRSTn high; in CHECKING everything passes (R1, R2, R23). -/
def Obligations.UnboundAccessesPass : Prop :=
  ∀ (c : Chip) (a : Addr) (w : Word) (be : BitVec 4),
    (∀ b, c.bind ≠ .bound b) →
    c.classify ⟨a, .read be⟩ = .passed ∧
    (∀ k, c.bind = .checking k → c.classify ⟨a, .write w be⟩ = .passed) ∧
    (c.bind = .unbound →
      c.classify ⟨a, .write w be⟩ =
        if a.toNat / 4 = (c.dsel.toNat * 0x200000 + 0x20) / 4 ∧ be = 0xF#4 ∧ c.hrstLow = false then .trigger c.dsel
        else .passed)

/-- The point table window's table (R4): record r's four words, whatever the low address bits. -/
def Obligations.PointTableAccessesSort : Prop :=
  ∀ (c : Chip) (b : Binding) (r : Rec) (a : Addr) (w : Word) (be : BitVec 4),
    c.bind = .bound b → b.Legal → r.val < 192 * b.loops →
    (wordBase a = b.pointBase + 16 * r.val → c.classify ⟨a, .read be⟩ = .passed ∧
      c.classify ⟨a, .write w be⟩ = if be = 0xF#4 then .serialWrite r else .passed) ∧
    (wordBase a = b.pointBase + 16 * r.val + 4 → c.classify ⟨a, .read be⟩ = .passed ∧
      c.classify ⟨a, .write w be⟩ =
        if be = 0xF#4 ∧ w.toNat % 8 ≤ 4 then .replyWrite r else .malformedWrite r) ∧
    (wordBase a = b.pointBase + 16 * r.val + 8 → c.classify ⟨a, .read be⟩ = .verdictRead r ∧
      c.classify ⟨a, .write w be⟩ = .swallowed) ∧
    (wordBase a = b.pointBase + 16 * r.val + 12 → c.classify ⟨a, .read be⟩ = .planRead r ∧
      c.classify ⟨a, .write w be⟩ = .swallowed)

/-- The mailbox window's table (R8, R147), the ring window's (R9), and what lies in no window (R3). -/
def Obligations.MailboxAndRingAccessesSort : Prop :=
  ∀ (c : Chip) (b : Binding) (a : Addr) (w : Word) (be : BitVec 4), c.bind = .bound b → b.Legal →
    (∀ i, i < 16 → wordBase a = b.mailboxBase + 4 * i →
      c.classify ⟨a, .read be⟩ = .passed ∧
      c.classify ⟨a, .write w be⟩ =
        if 6 ≤ i then .passed
        else if c.command ≠ none then .overrun
        else if i = 0 ∧ be = 0xF#4 ∧ w.extractLsb' 0 8 ≠ 0#8 then .commandWrite
        else .passed) ∧
    (b.ringBase ≤ wordBase a ∧ wordBase a < b.ringBase + 16 + 16 * b.capacity →
      c.classify ⟨a, .read be⟩ = .passed ∧
      c.classify ⟨a, .write w be⟩ = if wordBase a = b.ringBase + 4 ∧ be = 0xF#4 then .consumerWrite else .passed) ∧
    ((¬(b.pointBase ≤ wordBase a ∧ wordBase a < b.pointBase + 3072 * b.loops) ∧
      ¬(b.mailboxBase ≤ wordBase a ∧ wordBase a < b.mailboxBase + 64) ∧
      ¬(b.ringBase ≤ wordBase a ∧ wordBase a < b.ringBase + 16 + 16 * b.capacity)) →
      c.classify ⟨a, .read be⟩ = .passed ∧ c.classify ⟨a, .write w be⟩ = .passed)

/-- The words of the tables the part packs, field by field; bits no field uses read 0. The verdict word and the plan word (R5, R6, R186);
the four words of a record (R188); the words of a plan block's entry and of a snapshot's point entry (R189, R190); what an
entry's words are read as (R37, R189); and the codes (R185 to R188). -/
def Obligations.PackedWordsHoldTheirFields : Prop :=
  (∀ p : PointRecord, p.InRange →
    let w := (verdictWord p).toNat
    w % 8 = p.state.code ∧ w / 16 % 4 = p.presence.code ∧ w / 64 % 4 = p.verdict.code ∧
    w / 256 % 2 = p.armed.toNat ∧ w / 512 % 2 = p.suppressed.toNat ∧ w / 1024 % 32 = p.driftRun ∧
    w / 65536 % 256 = p.flags.toNat ∧ w / 16777216 % 16 = p.testCount ∧
    w / 8 % 2 = 0 ∧ w / 32768 % 2 = 0 ∧ w / 268435456 = 0) ∧
  planWord none = 0 ∧
  (∀ e : PlanEntry,
    let w := (planWord (some e)).toNat
    w % 65536 = e.label.toNat ∧ w / 65536 % 2 = 1 ∧ w / 131072 % 2 = e.enable.toNat ∧ w / 262144 % 8 = e.cls.toNat ∧
    w / 2097152 % 4 = e.profile.val ∧ w / 8388608 % 2 = 0 ∧ w / 16777216 % 128 = e.zone.val + 1 ∧ w / 2147483648 = 0) ∧
  (∀ (x : Report) (gap : Bool), x.loop < 8 → x.addr < 256 → x.zone < 128 →
    let w := (recordWordOf x gap 0).toNat
    w % 256 = x.kind.code ∧ w / 256 % 2 = gap.toNat ∧ w / 512 % 8 = x.loop ∧ w / 4096 % 16 = 0 ∧
    w / 65536 % 256 = x.addr ∧ w / 16777216 = x.zone ∧
    (recordWordOf x gap 1).toNat = x.time % 4294967296 ∧ recordWordOf x gap 2 = x.detailA ∧
    recordWordOf x gap 3 = x.detailB) ∧
  (∀ (r : Rec) (entry : Option PlanEntry) (p : PointRecord), p.InRange →
    ∃ first second codes : Word,
      pointEntry r entry p = [first, second, codes, p.firstSerial.getD 0, p.secondSerial.getD 0] ∧
      first.toNat % 65536 = (r.val / 192 + 1) + 256 * (r.val % 192 + 1) ∧
      (entry = none → first.toNat < 65536 ∧ second = 0) ∧
      (∀ e, entry = some e →
        first.toNat / 65536 = (planWord (some e)).toNat / 65536 ∧ second.toNat = e.label.toNat) ∧
      codes.toNat % 8 = p.state.code ∧ codes.toNat / 8 % 2 = 0 ∧
      codes.toNat / 16 % 8 = (p.foundClass.getD 0).toNat ∧ codes.toNat / 128 % 2 = p.foundClass.isSome.toNat ∧
      codes.toNat / 256 = p.testCount) ∧
  (∀ first second : Word,
    let n := first.toNat
    entryLoop first = n % 8 ∧
    (1 ≤ n % 8 → n % 8 ≤ 4 → 1 ≤ n / 256 % 256 → n / 256 % 256 ≤ 192 →
      (entryRecord first).val = (n % 8 - 1) * 192 + (n / 256 % 256 - 1)) ∧
    (n / 65536 % 2 = 0 → entryOf first second = none) ∧
    (n / 65536 % 2 = 1 → 1 ≤ n / 16777216 % 128 → n / 16777216 % 128 ≤ 96 →
      ∃ e, entryOf first second = some e ∧ e.enable.toNat = n / 131072 % 2 ∧ e.cls.toNat = n / 262144 % 8 ∧
        e.profile.val = n / 2097152 % 4 ∧ e.zone.val + 1 = n / 16777216 % 128 ∧
        e.label.toNat = second.toNat % 65536)) ∧
  (∀ (entries : Nat) (o : Bool), entries < 256 → walkEndDetail entries o = word (entries + 256 * o.toNat)) ∧
  [PointState.vacant, .expected, .unplanned, .matched, .mismatch, .conflict, .tested, .commissioned].map PointState.code
    = [0, 1, 2, 3, 4, 5, 6, 7] ∧
  [Presence.absent, .live, .silent].map Presence.code = [0, 1, 2] ∧
  [Verdict.none, .fire, .test, .held].map Verdict.code = [0, 1, 2, 3] ∧
  [Status.normal, .alarm, .fault, .garbled, .noreply].map Status.code = [0, 1, 2, 3, 4] ∧
  [Flag.drift, .prealarm, .sensor, .faulted, .silenced, .serialLost, .badWrite, .classChanged].map Flag.number
    = [0, 1, 2, 3, 4, 5, 6, 7] ∧
  [EndReason.expired, .ended, .breakout, .isolated].map EndReason.code = [1, 2, 3, 4] ∧
  [FinalState.done, .refused, .aborted].map FinalState.code = [2, 3, 4] ∧
  [Reason.none, .unknownCommand, .badOperand, .sealed, .lockedPoint, .notPrepared, .badBlock, .torn, .duplicateEntry,
    .noSlot, .zoneBusy, .zoneNotInTest, .zoneIsolated, .zoneInTest, .wrongState, .walkActive, .firePresent].map Reason.code
    = [0, 1, 2, 3, 4, 5, 6, 7, 8, 9, 10, 11, 12, 13, 14, 15, 16] ∧
  [BindReason.none, .signature, .checksum, .range, .overlap].map BindReason.code = [0, 1, 2, 3, 4] ∧
  [ReportKind.found, .mismatch, .conflict, .silent, .returned, .classChanged, .serialLost, .badWrite].map ReportKind.code
    = [1, 2, 3, 4, 5, 6, 7, 8] ∧
  [ReportKind.drift, .prealarm, .sensor, .fault].map ReportKind.code = [16, 17, 18, 19] ∧
  [ReportKind.fire, .held, .coincidence].map ReportKind.code = [32, 33, 34] ∧
  [ReportKind.testHit, .walkEnd, .consentChanged, .commandDone].map ReportKind.code = [48, 49, 64, 80]

/-! ### Host accesses -/

/-- PASSED_WRITE: a write no block takes reaches RAM in its enabled lanes, the host gets UACK, and nothing of the part
changes (R1, R3). SWALLOWED_WRITE and MAILBOX_OVERRUN_WRITE: acknowledged without reaching RAM; the second sets the OVERRUN
mark (R7, R8, R147). -/
def Obligations.PassedAndSwallowedWritesTakeNoBlock : Prop :=
  ∀ (s : State) (a : Addr) (w : Word) (be : BitVec 4), s.chip.Quiet →
    (s.chip.MemOk → s.chip.classify ⟨a, .write w be⟩ = .passed →
      ∃ m, exec (.passedWrite a w be 1) s = .next (s.withChip { s.chip with mem := m, answer := .written }) ∧
        ∀ i, Mem.read m i =
          if wordBase a ≤ i ∧ i < wordBase a + 4 ∧ be.getLsbD (i - wordBase a) = true then
            w.extractLsb' (8 * (i - wordBase a)) 8
          else Mem.read s.chip.mem i) ∧
    (s.chip.classify ⟨a, .write w be⟩ = .swallowed →
      exec (.swallowedWrite a w be 0) s = .next (s.withChip { s.chip with answer := .written })) ∧
    (s.chip.classify ⟨a, .write w be⟩ = .overrun →
      exec (.mailboxOverrunWrite a w be 0) s = .next (s.withChip { s.chip with answer := .written, overrun := true }))

/-- VERDICT_WORD_READ and PLAN_WORD_READ, whatever the byte enables: with no hold in force the answer, the whole word, comes at
once from the part's tables and nothing else changes; a read of a point with an event in the Intake Queue, or with a Transfer install pending, is held, and no access
finishing at the port lets it go. HELD_READ_RELEASE: a held read with no hold left is answered from the record as it stands. A
hold is in force exactly for those two causes, a reply event being one step (R5, R6, R12, R14; log 9). -/
def Obligations.OverlayReadsAnswerOrHold : Prop :=
  (∀ (s : State) (a : Addr) (be : BitVec 4) (r : Rec), s.chip.Quiet → s.chip.readHeld r = false →
    (s.chip.classify ⟨a, .read be⟩ = .verdictRead r →
      exec (.verdictWordRead ⟨a, be⟩ 0) s =
        .next (s.withChip { s.chip with answer := .read (verdictWord s.chip.points[r]) })) ∧
    (s.chip.classify ⟨a, .read be⟩ = .planRead r →
      exec (.planWordRead ⟨a, be⟩ 0) s =
        .next (s.withChip { s.chip with answer := .read (planWord s.chip.plan[r]) }))) ∧
  (∀ (c : Chip) (r : Rec), c.readHeld r = true ↔ (∃ e ∈ c.intake, e.point = r) ∨ c.InstallPending r) ∧
  (∀ (s : State) (a : Addr) (be : BitVec 4) (r : Rec) (n : Nat), s.chip.Quiet →
    ((∃ e ∈ s.chip.intake, e.point = r) ∨ s.chip.InstallPending r) →
    (s.chip.classify ⟨a, .read be⟩ = .verdictRead r →
      exec (.verdictWordRead ⟨a, be⟩ n) s =
        .next (s.withChip { s.chip with host := some ⟨⟨a, .read be⟩, .verdictRead r, .held⟩, answer := .none })) ∧
    (s.chip.classify ⟨a, .read be⟩ = .planRead r →
      exec (.planWordRead ⟨a, be⟩ n) s =
        .next (s.withChip { s.chip with host := some ⟨⟨a, .read be⟩, .planRead r, .held⟩, answer := .none }))) ∧
  (∀ (s : State) (q : HostRequest) (r : Rec), s.chip.porLow = false → s.chip.backlog = [] → s.chip.port = none →
    s.chip.im = InternalMaster.fresh → s.chip.readHeld r = false →
    (s.chip.host = some ⟨q, .verdictRead r, .held⟩ →
      exec .heldReadRelease s = .next
        (s.withChip { s.chip with host := none, answer := .read (verdictWord s.chip.points[r]) })) ∧
    (s.chip.host = some ⟨q, .planRead r, .held⟩ →
      exec .heldReadRelease s = .next
        (s.withChip { s.chip with host := none, answer := .read (planWord s.chip.plan[r]) })))

/-- SERIAL_WORD_WRITE: RAM takes the word, and the Serial Latch the record and value, or nothing for 0 (R10, R51). -/
def Obligations.SerialWriteLoadsTheLatch : Prop :=
  ∀ (s : State) (a : Addr) (w : Word) (r : Rec), s.chip.Quiet →
    s.chip.classify ⟨a, .write w 0xF#4⟩ = .serialWrite r →
    exec (.serialWordWrite a w 1) s = .next (s.withChip
      { s.chip with mem := Mem.writeWord s.chip.mem (wordBase a) 0xF#4 w, answer := .written,
                    latch := if w = 0 then none else some (r, w) })

/-- REPLY_WORD_WRITE with room in the queue: the event of each STATUS, with its serial settled against the latch
(R10, R52, R53). -/
def Obligations.ReplyWriteFormsItsEvent : Prop :=
  ∀ (s : State) (a : Addr) (w : Word) (r : Rec) (st : GoodStatus), s.chip.Quiet → s.chip.intake.length < 4 →
    s.chip.classify ⟨a, .write w 0xF#4⟩ = .replyWrite r →
    let cls := w.extractLsb' 4 3
    let analog := w.extractLsb' 8 8
    (w.toNat % 8 = 3 → exec (.replyWordWrite a w 1) s = .next (s.withChip (s.chip.withReply a w ⟨r, .garbled⟩))) ∧
    (w.toNat % 8 = 4 → exec (.replyWordWrite a w 1) s = .next (s.withChip (s.chip.withReply a w ⟨r, .noreply⟩))) ∧
    (w.toNat % 8 = st.status.code → w.getLsbD 16 = false →
      exec (.replyWordWrite a w 1) s = .next (s.withChip (s.chip.withReply a w ⟨r, .good st cls analog .absent⟩))) ∧
    (w.toNat % 8 = st.status.code → w.getLsbD 16 = true → s.chip.latch = none →
      exec (.replyWordWrite a w 1) s = .next (s.withChip (s.chip.withReply a w ⟨r, .good st cls analog .lostEmpty⟩))) ∧
    (∀ h v, w.toNat % 8 = st.status.code → w.getLsbD 16 = true → s.chip.latch = some (h, v) →
      exec (.replyWordWrite a w 1) s = .next (s.withChip (s.chip.withReply a w
        ⟨r, .good st cls analog (if h = r then .present v else .lostOther h)⟩)))

/-- A reply write at a full queue is held: neither RAM nor the latch has seen it, whatever finishes at the port.
HELD_REPLY_WRITE_RELEASE: with room in the queue it goes on to RAM and its event joins the queue (R10, R11, R14, R52). -/
def Obligations.FullIntakeHoldsTheReplyWrite : Prop :=
  (∀ (s : State) (a : Addr) (w : Word) (r : Rec) (n : Nat), s.chip.Quiet → 4 ≤ s.chip.intake.length →
    s.chip.classify ⟨a, .write w 0xF#4⟩ = .replyWrite r →
    exec (.replyWordWrite a w n) s = .next (s.withChip
      { s.chip with host := some ⟨⟨a, .write w 0xF#4⟩, .replyWrite r, .held⟩, answer := .none })) ∧
  (∀ (s : State) (a : Addr) (w : Word) (r : Rec), s.chip.porLow = false → s.chip.backlog = [] → s.chip.port = none →
    s.chip.im = InternalMaster.fresh → s.chip.intake.length < 4 →
    s.chip.host = some ⟨⟨a, .write w 0xF#4⟩, .replyWrite r, .held⟩ →
    ∀ body, replyBody w (if w.getLsbD 16 = true then settleSerial s.chip.latch r else .absent) = some body →
      exec (.heldReplyWriteRelease 1) s =
        .next (s.withChip ({ s.chip with host := none }.withReply a w ⟨r, body⟩)))

/-- MALFORMED_REPLY_WRITE: RAM takes the enabled lanes, the latch is emptied, BAD WRITE is set and its report raised, and no
event is formed (R52, R54, R68). -/
def Obligations.MalformedWriteSetsBadWrite : Prop :=
  ∀ (s : State) (a : Addr) (w : Word) (be : BitVec 4) (r : Rec), s.chip.Quiet →
    s.chip.classify ⟨a, .write w be⟩ = .malformedWrite r →
    let p := s.chip.points[r]
    let c := { s.chip with mem := Mem.writeWord s.chip.mem (wordBase a) be w, answer := .written, latch := none }
    exec (.malformedReplyWrite a w be 1) s = .next (s.withChip (Chip.settle
      ((c.setPoint r { p with flags := p.flags ||| 0x40#8 }).raisePoint .badWrite r c.seconds
        (if be = 0xF#4 then 2 else 1) (word (if be = 0xF#4 then w.toNat % 8 else be.toNat)))))

/-- CONSUMER_WRITE: the value is accepted exactly when it lies from the consumer copy up to the producer copy; then the copy
takes it, IRQ is settled and a waiting writer starts. RAM takes the word in both cases (R9, R179, R181). -/
def Obligations.ConsumerWriteIsJudged : Prop :=
  ∀ (s : State) (a : Addr) (w : Word) (b : Binding), s.chip.Quiet → s.chip.bind = .bound b →
    s.chip.classify ⟨a, .write w 0xF#4⟩ = .consumerWrite →
    let v := w.toNat % 1024
    let n := b.capacity
    let p := s.chip.writer.producer
    let k := s.chip.writer.consumer
    let c := { s.chip with mem := Mem.writeWord s.chip.mem (wordBase a) 0xF#4 w, answer := .written }
    (v < n ∧ (v + n - k) % n ≤ (p + n - k) % n →
      exec (.consumerWrite a w 1) s = .next (s.withChip (Chip.settle (Chip.startRecord
        { c with writer := { c.writer with consumer := v },
                 irqPin := b.irqEnable && decide (0 < (p + n - v) % n) })))) ∧
    (¬(v < n ∧ (v + n - k) % n ≤ (p + n - k) % n) →
      exec (.consumerWrite a w 1) s = .next (s.withChip c))

/-! ### The downstream port -/

/-- The port presents a host access with the host's own byte enables and an internal one as a whole word, keeps it until its
DACK, and grants to nobody meanwhile (R1, R17). DOWNSTREAM_ACCESS_DONE: a host read takes RAM's bytes in its enabled lanes and
frees the port; an access a reset has orphaned finishes in RAM and goes to nobody, and the BIND STATUS write of an abandoned
check finishes with nothing written (R1, R17, R22, R31, R32; the model's reading: log 14). The arbiter's table: who is granted a
free port, and what becomes of STARVE COUNT (R18). The
Internal Master's table: which waiting request is made current, and what becomes of the last-served mark (R20, R21), before
every grant. A host access's row with one more access after it is the row followed by DOWNSTREAM_ACCESS_DONE (log 6). -/
def Obligations.PortAnswersAndGrantsByItsTable : Prop :=
  (∀ (s : State) (i j : Instr), i.oneMoreAfter = some j →
    ∃ t, exec i s = .next t ∧ exec j s = exec .downstreamAccessDone t) ∧
  (∀ m : InternalMaster,
    (m.current ≠ none → m.choose = m) ∧
    (m.current = none →
      (∀ q, m.waitBinding = some q →
        m.choose = { m with current := some (.binding, q), waitBinding := none }) ∧
      (∀ q, m.waitBinding = none → m.waitCommand = some q → m.waitReport = none ∨ m.lastServed = .report →
        m.choose = { m with current := some (.command, q), waitCommand := none, lastServed := .command }) ∧
      (∀ q, m.waitBinding = none → m.waitReport = some q → m.waitCommand = none ∨ m.lastServed = .command →
        m.choose = { m with current := some (.report, q), waitReport := none, lastServed := .report }) ∧
      (m.waitBinding = none → m.waitCommand = none → m.waitReport = none → m.choose = m))) ∧
  (∀ c : Chip, c.host = none → c.backlog = [] → c.settle = Chip.grant { c with im := c.im.choose }) ∧
  (∀ (s : State), s.chip.porLow = false →
    (∀ (a : Addr) (be : BitVec 4) (t : Treatment), s.chip.port = some .host →
      s.chip.host = some ⟨⟨a, .read be⟩, t, .atPort⟩ →
      ∃ d : Word, exec .downstreamAccessDone s = .next (s.withChip (Chip.settle
          { s.chip with port := none, host := none, answer := .read d })) ∧
        ∀ n, n < 4 → be.getLsbD n = true → d.extractLsb' (8 * n) 8 = Mem.read s.chip.mem (wordBase a + n)) ∧
    (∀ q : MemRequest, s.chip.port = some (.orphan q) →
      exec .downstreamAccessDone s = .next (s.withChip (Chip.settle
        { s.chip with port := none, mem := q.perform s.chip.mem }))) ∧
    (∀ q : MemRequest, s.chip.port = some (.abandonedStatus q) →
      exec .downstreamAccessDone s = .next (s.withChip (Chip.settle { s.chip with port := none })))) ∧
  (∀ c : Chip,
    (c.port = none → c.downstream = none) ∧
    (∀ h, c.port = some .host → c.host = some h → c.downstream = some h.request) ∧
    (∀ cl q, c.port = some (.internal cl q) ∨ c.port = some (.orphan q) ∨ c.port = some (.abandonedStatus q) →
      (q.wdata = none → c.downstream = some ⟨q.addr, .read 0xF#4⟩) ∧
      (∀ w, q.wdata = some w → c.downstream = some ⟨q.addr, .write w 0xF#4⟩)) ∧
    (c.port ≠ none → c.grant = c) ∧
    (c.port ≠ none → c.PortAgrees → c.settle.port = c.port ∧ c.settle.downstream = c.downstream) ∧
    (c.hostWaiting = false → c.im.current = none → c.grant = c)) ∧
  (∀ (c : Chip) (h : HostAccess) (q : Client × MemRequest), c.port = none →
    (c.host = some h → h.stage = .waiting → c.im.current = none →
      c.grant = { c with port := some .host, host := some { h with stage := .atPort } }) ∧
    (c.hostWaiting = false → c.im.current = some q →
      c.grant = { c with port := some (.internal q.1 q.2), starve := 0 }) ∧
    (c.host = some h → h.stage = .waiting → c.im.current = some q → c.starve < 32 →
      c.grant = { c with port := some .host, host := some { h with stage := .atPort }, starve := c.starve + 1 }) ∧
    (c.host = some h → h.stage = .waiting → c.im.current = some q → 32 ≤ c.starve →
      c.grant = { c with port := some (.internal q.1 q.2), starve := 0 }))

/-! ### Binding and the timebase -/

/-- BIND_TRIGGER: the trigger reaches RAM, the location is latched, and the read of w0 takes the port. The DACK of a descriptor
word: a bad SIGNATURE, or a test that fails once w7 is in hand, issues BIND STATUS REJECTED with its reason and detail at w9;
otherwise the next word is read, or PRODUCER 0 issued, and after it BIND STATUS BOUND. BIND_REJECTED: the write at the port is
in RAM and the part is UNBOUND, nothing else changed. BIND_BOUND: the part enters BOUND with its copies, the counter and the
cycle count 0, and the Report Writer empty with both copies 0 and IRQ low (R1, R23, R24, R28, R29, R182). -/
def Obligations.BindingEventsTakeTheirSteps : Prop :=
  (∀ (s : State) (dsel : BitVec 3) (a : Addr) (w : Word), s.chip.Quiet → s.chip.bind = .unbound →
    s.chip.hrstLow = false → wordBase a = dsel.toNat * 0x200000 + 0x20 →
    let q : MemRequest := ⟨BitVec.ofNat 24 (dsel.toNat * 0x200000), none⟩
    exec (.bindTrigger dsel a w 1) s = .next (s.withChip
      { s.chip with
        dsel := dsel, mem := Mem.writeWord s.chip.mem (wordBase a) 0xF#4 w, answer := .written,
        bind := .checking { location := dsel, checksum := w, words := [], phase := .reading },
        im := { s.chip.im with current := some (.binding, q) }, port := some (.internal .binding q), starve := 0 })) ∧
  (∀ (s : State) (q : MemRequest) (k : Check), s.chip.porLow = false →
    s.chip.port = some (.internal .binding q) → s.chip.bind = .checking k →
    let at9 := BitVec.ofNat 24 (k.location.toNat * 0x200000 + 0x24)
    let goesOn (k' : Check) (next : MemRequest) : Prop :=
      exec .downstreamAccessDone s = .next (s.withChip (Chip.settle
        { s.chip with mem := q.perform s.chip.mem, port := none, bind := .checking k',
                      im := { s.chip.im with current := none, waitBinding := some next } }))
    (k.phase = .reading → q.wdata = none →
      let d := Mem.readWord s.chip.mem (wordBase q.addr)
      let ws := k.words ++ [d]
      (k.words = [] → d ≠ 0x4F544D31#32 →
        goesOn { k with words := ws, phase := .rejecting .signature 0 } ⟨at9, some 0x102#32⟩) ∧
      (k.words.length < 7 → (k.words = [] → d = 0x4F544D31#32) →
        goesOn { k with words := ws } ⟨BitVec.ofNat 24 (k.location.toNat * 0x200000 + 4 * (k.words.length + 1)), none⟩) ∧
      (∀ reason detail, k.words.length = 7 → checkDescriptor k.location k.checksum ws = .error (reason, detail) →
        goesOn { k with words := ws, phase := .rejecting reason detail }
          ⟨at9, some (word (2 + 256 * reason.code + 65536 * detail))⟩) ∧
      (∀ b, k.words.length = 7 → checkDescriptor k.location k.checksum ws = .ok b →
        goesOn { k with words := ws, phase := .producer b } ⟨BitVec.ofNat 24 b.ringBase, some 0⟩)) ∧
    (∀ b, k.phase = .producer b → goesOn { k with phase := .status b } ⟨at9, some 1⟩)) ∧
  (∀ (s : State) (q : MemRequest) (k : Check) (reason : BindReason) (detail : Nat), s.chip.porLow = false →
    s.chip.port = some (.internal .binding q) → s.chip.bind = .checking k → k.phase = .rejecting reason detail →
    exec .bindRejected s = .next (s.withChip (Chip.settle
      { s.chip with mem := q.perform s.chip.mem, port := none, im := { s.chip.im with current := none },
                    bind := .unbound }))) ∧
  (∀ (s : State) (q : MemRequest) (k : Check) (b : Binding), s.chip.porLow = false →
    s.chip.port = some (.internal .binding q) → s.chip.bind = .checking k → k.phase = .status b →
    exec .bindBound s = .next (s.withChip (Chip.settle
      { s.chip with
        mem := q.perform s.chip.mem, port := none, im := { s.chip.im with current := none },
        bind := .bound b, seconds := 0, refCount := 0,
        writer := { queue := [], inHand := none, producer := 0, consumer := 0, gap := false }, irqPin := false })))

/-- A descriptor that passes the four tests runs from the trigger to BOUND: eight reads and two writes, PRODUCER 0 and BIND
STATUS BOUND in RAM, the counter and the ring copies at 0 (R24, R29, R182). -/
def Obligations.GoodDescriptorRunsToBound : Prop :=
  ∀ (s : State) (dsel : BitVec 3) (a : Addr) (w : Word) (b : Binding), s.chip.Quiet → s.chip.MemOk →
    s.chip.bind = .unbound → s.chip.hrstLow = false → wordBase a = dsel.toNat * 0x200000 + 0x20 →
    checkDescriptor dsel w
      ((List.range 8).map fun i => Mem.readWord s.chip.mem (dsel.toNat * 0x200000 + 4 * i)) = .ok b →
    ∃ t, exec (.bindTrigger dsel a w 11) s = .next t ∧ t.chip.bind = .bound b ∧ t.chip.seconds = 0 ∧
      t.chip.refCount = 0 ∧ t.chip.writer.producer = 0 ∧ t.chip.writer.consumer = 0 ∧ t.chip.irqPin = false ∧
      Mem.readWord t.chip.mem b.ringBase = 0 ∧ Mem.readWord t.chip.mem (dsel.toNat * 0x200000 + 0x24) = 1 ∧
      t.chip.plan = s.chip.plan ∧ t.chip.points = s.chip.points ∧ t.chip.sealed = s.chip.sealed ∧
      t.chip.profiles = s.chip.profiles ∧ t.chip.zoneMask = s.chip.zoneMask

/-- The four tests in their order: SIGNATURE, CHECKSUM, RANGE at the first word whose fields are out of R25's table and then at
a window past the end of the space, OVERLAP at the first of the six pairs that shares a byte; what passes them all is the
binding of the words' fields, with legal values and disjoint windows (R24 to R27, R185). -/
def Obligations.DescriptorTestsInOrder : Prop :=
  ∀ (location : BitVec 3) (checksum : Word) (ws : List Word), ws.length = 8 →
    let check := checkDescriptor location checksum ws
    let w (i : Nat) : Nat := (ws.getD i 0).toNat
    let signed := ws.getD 0 0 = 0x4F544D31#32
    let summed := ws.foldl (· + ·) 0 + checksum = 0
    let inRange (n : Nat) : Prop := ∀ j, 1 ≤ j → j ≤ n → DescriptorWordRight j (ws.getD j 0)
    let table : Range := (w 1, 3072 * (w 5 % 8))
    let mailbox : Range := (w 2, 64)
    let ring : Range := (w 3, 16 + 16 * w 4)
    let descriptor : Range := (location.toNat * 0x200000, 40)
    let inside (x : Range) : Prop := x.1 + x.2 ≤ 0x1000000
    let meets (x y : Range) : Prop := ∃ a, (x.1 ≤ a ∧ a < x.1 + x.2) ∧ (y.1 ≤ a ∧ a < y.1 + y.2)
    let pairs := [(1, table, mailbox), (2, table, ring), (3, table, descriptor), (4, mailbox, ring),
      (5, mailbox, descriptor), (6, ring, descriptor)]
    (¬signed → check = .error (.signature, 0)) ∧
    (signed → ¬summed → check = .error (.checksum, 0)) ∧
    (∀ i, signed → summed → i < 7 → inRange i → ¬DescriptorWordRight (i + 1) (ws.getD (i + 1) 0) →
      check = .error (.range, i + 1)) ∧
    (signed → summed → inRange 7 → ¬inside table → check = .error (.range, 1)) ∧
    (signed → summed → inRange 7 → inside table → ¬inside ring → check = .error (.range, 3)) ∧
    (∀ before n x y after, signed → summed → inRange 7 → inside table → inside ring →
      pairs = before ++ (n, x, y) :: after → (∀ q ∈ before, ¬meets q.2.1 q.2.2) → meets x y →
      check = .error (.overlap, n)) ∧
    (signed → summed → inRange 7 → inside table → inside ring → (∀ q ∈ pairs, ¬meets q.2.1 q.2.2) →
      ∃ b, check = .ok b ∧ b.Legal ∧ b.location = location ∧
        b.pointBase = w 1 ∧ b.mailboxBase = w 2 ∧ b.ringBase = w 3 ∧ b.capacity = w 4 ∧
        b.loops = w 5 % 8 ∧ b.autoWithdraw = (ws.getD 5 0).getLsbD 8 ∧ b.silenceTimeout = w 6 % 256 ∧
        b.noreplyLimit = w 6 / 256 % 16 ∧ b.coincidenceWindow = w 6 / 65536 ∧
        (∀ k, k < 6 → b.classMask.getLsbD k = ((ws.getD 7 0).getLsbD k || k == 2)) ∧
        b.irqEnable = (ws.getD 7 0).getLsbD 8)

/-- SECOND_TICK: while BOUND the counter goes up by 1, held at its maximum, the cycle count returns to 0, the points LIVE at the
tick owe a silence test and the slots RUNNING with no reason a comparison, each unless the round before still has one to
make; otherwise nothing (R33, R34, R66, R134; the run of edges is log 11's).
REFCLK_RISING_EDGE: the Timebase counts while BOUND alone and ticks past 32767 (R33); each input's filter samples its pin, and
takes a level at its sixteenth edge (R91). -/
def Obligations.TimebaseCountsAndFiltersSample : Prop :=
  (∀ s : State, s.chip.porLow = false →
    (∀ b, s.chip.bind = .bound b →
      let live (r : Rec) : Bool := s.chip.points[r].presence == .live
      let running (k : Fin 4) : Bool := match s.chip.slots[k] with
        | some w => !w.ending && w.reason.isNone
        | none => false
      exec .secondTick s = .next (s.withChip (Chip.settle
        { s.chip with
          refCount := 0, seconds := min (s.chip.seconds + 1) 4294967295, lisoStable := Vector.replicate 4 0,
          silenceOwed := if s.chip.silenceOwed.any live then s.chip.silenceOwed else (List.finRange 768).filter live,
          silenceExempt := if s.chip.silenceOwed.any live then s.chip.silenceExempt else s.chip.intake.length,
          walkOwed := if s.chip.walkOwed.any running then s.chip.walkOwed else (List.finRange 4).filter running }))) ∧
    ((∀ b, s.chip.bind ≠ .bound b) → exec .secondTick s = .next (s.withChip s.chip.settle))) ∧
  (∀ (s : State) (liso : BitVec 4) (order : List Loop) (last : Bool), s.chip.porLow = false →
    ∃ t, exec (.refclkRisingEdge liso order last) s = .next t ∧
      (∀ l : Loop,
        t.chip.lisoFiltered[l] =
          (if liso.getLsbD l.val ≠ s.chip.lisoFiltered[l] ∧ 16 ≤ s.chip.lisoStable[l] + 1 then liso.getLsbD l.val
           else s.chip.lisoFiltered[l]) ∧
        t.chip.lisoStable[l] =
          (if liso.getLsbD l.val ≠ s.chip.lisoFiltered[l] ∧ s.chip.lisoStable[l] + 1 < 16 then s.chip.lisoStable[l] + 1
           else 0)) ∧
      (∀ b, s.chip.bind = .bound b → s.chip.refCount < 32767 →
        t.chip.refCount = s.chip.refCount + 1 ∧ t.chip.seconds = s.chip.seconds) ∧
      (∀ b, s.chip.bind = .bound b → 32767 ≤ s.chip.refCount →
        t.chip.refCount = 0 ∧ t.chip.seconds = min (s.chip.seconds + 1) 4294967295) ∧
      ((∀ b, s.chip.bind ≠ .bound b) → t.chip.refCount = s.chip.refCount ∧ t.chip.seconds = s.chip.seconds) ∧
      t.chip.points = s.chip.points ∧ t.chip.plan = s.chip.plan ∧ t.chip.zoneMask = s.chip.zoneMask ∧
      t.chip.shiftRegister = s.chip.shiftRegister ∧ t.chip.mem = s.chip.mem)

/-! ### Consents -/

/-- ZONE_CHAIN_SHIFT, R92 whole: while ZLOAD is high each bit moves up one position and ZDAT enters position 1, the shift
register alone changing, whatever the binding state; while ZLOAD is low the edge is ignored; a host reset leaves the
register; while PORn is low edges are ignored and the register is all zeros. -/
def Obligations.ChainShiftMovesTheRegister : Prop :=
  ∀ (s : State) (zdat : Bool),
    (s.chip.porLow = false → ∃ r : BitVec 96,
      exec (.zoneChainShift zdat true) s = .next (s.withChip (Chip.settle { s.chip with shiftRegister := r })) ∧
      r.getLsbD 0 = zdat ∧ ∀ k, 1 ≤ k → k < 96 → r.getLsbD k = s.chip.shiftRegister.getLsbD (k - 1)) ∧
    (s.chip.porLow = false → exec (.zoneChainShift zdat false) s = .next (s.withChip s.chip.settle)) ∧
    (∃ t, exec .hostReset s = .next t ∧ t.chip.shiftRegister = s.chip.shiftRegister) ∧
    (∃ t, exec .powerOnReset s = .next t ∧ t.chip.shiftRegister = 0 ∧ t.chip.porLow = true) ∧
    (s.chip.porLow = true → (∀ z, exec (.zoneChainShift zdat z) s = .next s) ∧ ∀ z, exec (.zoneLoad z) s = .next s)

/-- ZONE_LOAD: the register goes into the mask and the Zone Table's consents, with one CONSENT CHANGED for each changed zone,
ascending; every point of a changed zone then owes a re-derivation; a RUNNING slot with no reason yet whose zone loses its consent records ISOLATED; no point, plan entry or
verdict changes, and a load that changes no bit changes nothing else. With a coinciding rising ZCLK the shift comes first and
the load takes its result. ZOUT is position 96, which a load leaves (R92 to R95, R99 to R101, R136). -/
def Obligations.ZoneLoadTakesTheRegister : Prop :=
  (∀ (s : State) (zdat : Bool), s.chip.porLow = false → ∃ r : BitVec 96,
    exec (.zoneLoad (some zdat)) s = exec (.zoneLoad none) (s.withChip { s.chip with shiftRegister := r }) ∧
    r.getLsbD 0 = zdat ∧ ∀ k, 1 ≤ k → k < 96 → r.getLsbD k = s.chip.shiftRegister.getLsbD (k - 1)) ∧
  ∀ s : State, s.chip.porLow = false →
    ∃ t, exec (.zoneLoad none) s = .next t ∧
      t.chip.zoneMask = s.chip.shiftRegister ∧ t.chip.shiftRegister = s.chip.shiftRegister ∧
      (∀ z : RealZone, s.chip.zoneMask.getLsbD z.val ≠ s.chip.shiftRegister.getLsbD z.val →
        t.chip.zones[realZone z] =
          { s.chip.zones[realZone z] with withheld := s.chip.shiftRegister.getLsbD z.val } ∧
        (∀ r : Rec, s.chip.zoneOf r = realZone z → ∃ o ∈ t.chip.rederivations, o.point = r)) ∧
      (∀ z : Zone, (∀ y : RealZone, realZone y = z →
          s.chip.zoneMask.getLsbD y.val = s.chip.shiftRegister.getLsbD y.val) →
        t.chip.zones[z] = s.chip.zones[z]) ∧
      (∀ (z : RealZone) (k : Fin 4) (w : WalkSlot), s.chip.zoneMask.getLsbD z.val = false →
        s.chip.shiftRegister.getLsbD z.val = true → s.chip.linkedSlot (realZone z) = some k →
        s.chip.slots[k] = some w → w.ending = false → w.reason = none →
        t.chip.slots[k] = some { w with reason := some .isolated }) ∧
      t.chip.points = s.chip.points ∧ t.chip.plan = s.chip.plan ∧ t.chip.firePin = s.chip.firePin ∧
      t.chip.mem = s.chip.mem ∧ (∀ c : Chip, c.zout = c.shiftRegister.getLsbD 95) ∧ t.chip.zout = s.chip.zout ∧
      (let changed (z : RealZone) : Bool := s.chip.zoneMask.getLsbD z.val != s.chip.shiftRegister.getLsbD z.val
       let report (z : RealZone) : Report :=
         { kind := .consentChanged, loop := 0, addr := 0, zone := z.val + 1, time := s.chip.seconds,
           detailA := if s.chip.shiftRegister.getLsbD z.val = true then 1 else 0, detailB := 2 }
       t.chip.writer = (((List.finRange 96).filter changed).foldl (fun d z => d.raise (report z)) s.chip).writer) ∧
      (s.chip.zoneMask = s.chip.shiftRegister → t = s.withChip s.chip.settle)

/-- LOOP_ISOLATE_CHANGE: the input's filtered level turns over, its count returns to 0, CONSENT CHANGED is raised for a loop
from 1 to LOOPS of a BOUND part and for no other, every point of the loop owes a re-derivation, and no point, plan entry or
mask bit changes (R91, R99 to R101; the run of edges, with its last one's count before its sample, is log 11's). -/
def Obligations.LoopIsolateChangeTurnsTheLevel : Prop :=
  ∀ (s : State) (l : Loop), s.chip.porLow = false → s.chip.lisoStable[l] < 16 →
    ∃ t, exec (.loopIsolateChange l) s = .next t ∧
      t.chip.lisoFiltered[l] = !s.chip.lisoFiltered[l] ∧ t.chip.lisoStable[l] = 0 ∧
      (∀ k : Loop, k ≠ l → t.chip.lisoFiltered[k] = s.chip.lisoFiltered[k]) ∧
      (∀ r : Rec, loopOf r = l → ∃ o ∈ t.chip.rederivations, o.point = r) ∧
      t.chip.points = s.chip.points ∧ t.chip.plan = s.chip.plan ∧ t.chip.zoneMask = s.chip.zoneMask ∧
      t.chip.zones = s.chip.zones ∧ t.chip.slots = s.chip.slots ∧ t.chip.mem = s.chip.mem ∧
      (∀ b, s.chip.bind = .bound b → l.val + 1 ≤ b.loops →
        t.chip.writer = (s.chip.raise
          { kind := .consentChanged, loop := l.val + 1, addr := 0, zone := 97 + l.val, time := t.chip.seconds,
            detailA := if s.chip.lisoFiltered[l] = true then 0 else 1, detailB := 1 }).writer) ∧
      (((∀ b, s.chip.bind ≠ .bound b) ∨ ∃ b, s.chip.bind = .bound b ∧ b.loops < l.val + 1) →
        t.chip.writer = s.chip.writer)

/-- R96 whole: SUPPRESSED holds exactly when the plan's, the loop's or the zone's consent is withheld; it depends on no point
record and not on the binding; the verdict word shows the field in its bit 9. -/
def Obligations.SuppressedWhenAConsentIsWithheld : Prop :=
  ∀ (c : Chip) (r : Rec),
    (c.suppression r = true ↔
      (∃ e, c.plan[r] = some e ∧ e.enable = false) ∨ c.lisoFiltered[loopOf r] = true ∨
      (∃ e, c.plan[r] = some e ∧ c.zoneMask.getLsbD e.zone.val = true)) ∧
    (∀ points bind, Chip.suppression { c with points := points, bind := bind } r = c.suppression r) ∧
    ∀ p : PointRecord, (verdictWord p).getLsbD 9 = p.suppressed

/-- CONSENT_REDERIVATION: an owed event re-derives SUPPRESSED, and ARMED exactly when no consent is withheld, STATE is
MATCHED, TESTED or COMMISSIONED, and PRESENCE is LIVE, or SILENT with AUTO WITHDRAW 0; nothing else of the part changes. All
the owed events do the same at each point that owes one (R97, R98, R99, R100). While the part is UNBOUND or CHECKING, where
every point is ABSENT (UnboundPartStaysDormant), SUPPRESSED follows in the same way and ARMED is 0 (R102). -/
def Obligations.RederivationSetsSuppressedAndArmed : Prop :=
  ∀ s : State, s.chip.porLow = false →
    let owed (r : Rec) : Prop := ∃ o ∈ s.chip.rederivations, o.point = r
    let take (settled : Rec → PointRecord) : Prop :=
      (∀ r : Rec, owed r →
        exec (.consentRederivation (.one r)) s = .next (s.withChip (Chip.settle
          ({ s.chip with rederivations := s.chip.rederivations.filter (fun o => o.point != r) }.setPoint r
            (settled r))))) ∧
      ∃ v, (∀ r : Rec, (owed r → v[r] = settled r) ∧ (¬owed r → v[r] = s.chip.points[r])) ∧
        exec (.consentRederivation .all) s =
          .next (s.withChip (Chip.settle { s.chip with rederivations := [], points := v }))
    (∀ b : Binding, s.chip.bind = .bound b → take fun r =>
      let p := s.chip.points[r]
      { p with
        suppressed := s.chip.suppression r
        armed := decide (s.chip.suppression r = false ∧
          (p.state = .matched ∨ p.state = .tested ∨ p.state = .commissioned) ∧
          (p.presence = .live ∨ (p.presence = .silent ∧ b.autoWithdraw = false))) }) ∧
    (s.chip.binding = none → (∀ r, owed r → s.chip.points[r].presence = .absent) →
      take fun r => { s.chip.points[r] with suppressed := s.chip.suppression r, armed := false })

/-! ### Reply events -/

/-- REPLY_EVENT: while a stretch runs, or with no event queued, none is taken (R70). Before the head event come, each once,
the re-derivations owed from before it was formed, then the silence tests so owed; then it is taken at a chip where nothing
precedes it (R66, R67, R99; their order is log 10's).
NOREPLY: LAST STATUS and the run; a LIVE point whose run reaches the limit goes SILENT with its flag and
report, and any other such event leaves the presence. GARBLED: LAST STATUS and the run; bringing the run from 2 to 3
makes the point CONFLICT with a report (R58, R63, R65, R67). -/
def Obligations.RepliesComeAfterWhatIsOwedAndMissesCount : Prop :=
  (∀ s : State, s.chip.porLow = false → (s.chip.stretching = true ∨ s.chip.intake = []) →
     exec .replyEvent s = .next (s.withChip s.chip.settle)) ∧
  (∀ (s : State) (b : Binding) (e : ReplyEvent) (rest : List ReplyEvent), s.chip.porLow = false →
     s.chip.bind = .bound b → s.chip.stretching = false → s.chip.intake = e :: rest →
     let c := s.chip
     let due (r : Rec) : Prop := ∃ o ∈ c.rederivations, o.point = r ∧ o.exempt = 0
     let expires (r : Rec) : Bool := decide (c.silenceExempt = 0 ∧ c.points[r].presence = .live ∧
       b.silenceTimeout ≤ c.seconds - c.points[r].lastGood)
     let raised := (c.silenceOwed.filter expires).eraseDups.foldl
       (fun d r => d.raisePoint .silent r c.seconds 2 (word c.points[r].lastGood)) c
     ∃ v owed, (∀ r : Rec,
         (r ∈ c.silenceOwed → expires r = true →
           v[r] = c.derived r { c.points[r] with presence := .silent, flags := c.points[r].flags ||| 0x10#8 }) ∧
         (¬(r ∈ c.silenceOwed ∧ expires r = true) → due r → v[r] = c.derived r c.points[r]) ∧
         (¬(r ∈ c.silenceOwed ∧ expires r = true) → ¬due r → v[r] = c.points[r])) ∧
       (∀ o, o ∈ owed ↔ o ∈ c.rederivations ∧ ¬due o.point) ∧
       let d := { raised with points := v, rederivations := owed,
                              silenceOwed := if c.silenceExempt = 0 then [] else c.silenceOwed }
       d.HeadReply e rest ∧ exec .replyEvent s = exec .replyEvent (s.withChip d)) ∧
  (∀ (s : State) (r : Rec) (rest : List ReplyEvent) (b : Binding), s.chip.HeadReply ⟨r, .noreply⟩ rest →
     s.chip.bind = .bound b →
     let c := s.chip.taken rest
     let p := s.chip.points[r]
     let p' := { p with lastStatus := some .noreply, noreplyRun := min (p.noreplyRun + 1) 15 }
     (p.presence = .live → p.noreplyRun < 15 → p.noreplyRun + 1 = b.noreplyLimit →
       exec .replyEvent s = .next (s.withChip (Chip.settle
         (((c.setPoint r { p' with presence := .silent, flags := p.flags ||| 0x10#8 }).raisePoint .silent r
           s.chip.seconds 1 (word p.lastGood)).rederive r)))) ∧
     (¬(p.presence = .live ∧ p.noreplyRun < 15 ∧ p.noreplyRun + 1 = b.noreplyLimit) →
       exec .replyEvent s = .next (s.withChip (Chip.settle (c.setPoint r (c.derived r p')))))) ∧
  (∀ (s : State) (r : Rec) (rest : List ReplyEvent), s.chip.HeadReply ⟨r, .garbled⟩ rest →
     let c := s.chip.taken rest
     let p := s.chip.points[r]
     let p' := { p with lastStatus := some .garbled, garbledRun := min (p.garbledRun + 1) 3 }
     (p.garbledRun = 2 →
       exec .replyEvent s = .next (s.withChip (Chip.settle
         (((c.setPoint r { p' with state := .conflict }).raisePoint .conflict r s.chip.seconds 2 0).rederive r)))) ∧
     (p.garbledRun ≠ 2 → exec .replyEvent s = .next (s.withChip (Chip.settle (c.setPoint r (c.derived r p'))))))

/-- REPLY_EVENT, a good reply: the eight steps in their order, each with the now and the profile code of the moment the event is
taken (R46, R57, R58). Step 2: LIVE, with RETURNED from SILENT (R64). Step 8: an ALARM at VERDICT NONE is qualified, a NORMAL or
FAULT at TEST makes it NONE, and nothing else moves (R106, R120). A quiet NORMAL, a reading below the drift limit at a point not
SILENT and not in TEST, of the class found there and with no serial, moves the runs and the presence and nothing else; it
drains the drift run by one and makes the point ready for pre-alarm (R82, R84). -/
def Obligations.GoodReplyTakesItsSteps : Prop :=
  (∀ (s : State) (r : Rec) (rest : List ReplyEvent) (st : GoodStatus) (cls : BitVec 3) (analog : BitVec 8)
     (serial : EventSerial), s.chip.HeadReply ⟨r, .good st cls analog serial⟩ rest →
     let now := s.chip.seconds
     let code := s.chip.pointCode r
     let p := s.chip.points[r]
     let c := (s.chip.taken rest).setPoint r
       { p with lastStatus := some st.status, noreplyRun := 0, garbledRun := 0, lastGood := now }
     exec .replyEvent s = .next (s.withChip (Chip.settle
       ((((((c.presenceGood r p.lastGood now).serialStep r serial now).classStep r cls now).rederive r).driftMonitor r st
         analog code now).verdictStep r st now)))) ∧
  (∀ (c : Chip) (r : Rec) (previous now : Nat),
     let d := c.setPoint r { c.points[r] with presence := .live }
     (c.points[r].presence = .silent →
       c.presenceGood r previous now = d.raisePoint .returned r now (word (now - previous)) 0) ∧
     (c.points[r].presence ≠ .silent → c.presenceGood r previous now = d)) ∧
  (∀ (c : Chip) (r : Rec) (st : GoodStatus) (now : Nat),
     (c.points[r].verdict = .none → c.verdictStep r .alarm now = c.qualify r now .reply) ∧
     (c.points[r].verdict ≠ .none → c.verdictStep r .alarm now = c) ∧
     (st ≠ .alarm → c.points[r].verdict = .test → c.verdictStep r st now =
       { c.setPoint r { c.points[r] with verdict := .none } with firePin := decide (0 < c.fireCount) }) ∧
     (st ≠ .alarm → c.points[r].verdict ≠ .test → c.verdictStep r st now = c)) ∧
  ∀ (s : State) (r : Rec) (rest : List ReplyEvent) (cls : BitVec 3) (analog : BitVec 8),
    s.chip.HeadReply ⟨r, .good .normal cls analog .absent⟩ rest →
    s.chip.points[r].foundClass = some cls → s.chip.points[r].presence ≠ .silent → s.chip.points[r].verdict ≠ .test →
    analog.toNat < 48 + 4 * (s.chip.pointCode r).toNat →
    exec .replyEvent s = .next (s.withChip (Chip.settle ((s.chip.taken rest).setPoint r
      { s.chip.afterSameReply r .normal with driftRun := s.chip.points[r].driftRun - 1, prealarmReady := true })))

/-- REPLY_EVENT, an onset. Any ALARM reply at a point of VERDICT NONE, whatever its class, its serial, its ANALOG and the point's
PRESENCE, runs the steps before the last and is then qualified; a reply onset takes the first of the four outcomes whose condition
holds: HELD 1, capture, FIRE 1, or HELD 2 with the coincidence check, this last with a walk slot too where STATE is not MATCHED,
TESTED or COMMISSIONED (R57, R106, R108 to R112, R125). In full for an ALARM of the class found there, with no serial and below
full scale, at a point not SILENT: a SUPPRESSED point gives HELD and leaves the opener; one in a zone with no walk slot gives
FIRE when ARMED; an unconfirmed one gives HELD, and becomes the zone's opener where the opener is no partner, or makes FIRE of
both points where it is one, the HELD report going before those of the coincidence and a linked RUNNING slot asked for BREAKOUT
(R85, R112 to R114, R123). -/
def Obligations.OnsetIsQualified : Prop :=
  (∀ (c : Chip) (r : Rec) (now : Nat),
    let p := c.points[r]
    let z := c.zoneOf r
    let testable : Prop := p.state = .matched ∨ p.state = .tested ∨ p.state = .commissioned
    let held (cause : Nat) : Chip := (c.setVerdict r .held).raisePoint .held r now (word cause) (word p.state.code)
    (p.suppressed = true → c.qualify r now .reply = held 1) ∧
    (∀ k, p.suppressed = false → testable → c.zones[z].walkSlot = some k →
      c.qualify r now .reply = (c.capture k r now).coincidenceCheck z r now) ∧
    (p.suppressed = false → (¬testable ∨ c.zones[z].walkSlot = none) → p.armed = true →
      c.qualify r now .reply = (c.setVerdict r .fire).raisePoint .fire r now 1 0) ∧
    (p.suppressed = false → (¬testable ∨ c.zones[z].walkSlot = none) → p.armed = false →
      c.qualify r now .reply = (held 2).coincidenceCheck z r now)) ∧
  (∀ (s : State) (r : Rec) (rest : List ReplyEvent) (cls : BitVec 3) (analog : BitVec 8) (serial : EventSerial),
    s.chip.HeadReply ⟨r, .good .alarm cls analog serial⟩ rest → s.chip.points[r].verdict = .none →
    let now := s.chip.seconds
    let p := s.chip.points[r]
    let c := (s.chip.taken rest).setPoint r
      { p with lastStatus := some .alarm, noreplyRun := 0, garbledRun := 0, lastGood := now }
    let d := ((((c.presenceGood r p.lastGood now).serialStep r serial now).classStep r cls now).rederive r).driftMonitor r
      .alarm analog (s.chip.pointCode r) now
    exec .replyEvent s = .next (s.withChip (Chip.settle (d.qualify r now .reply)))) ∧
  ∀ (s : State) (r : Rec) (rest : List ReplyEvent) (cls : BitVec 3) (analog : BitVec 8) (b : Binding),
    s.chip.HeadReply ⟨r, .good .alarm cls analog .absent⟩ rest → s.chip.bind = .bound b →
    s.chip.points[r].foundClass = some cls → s.chip.points[r].presence ≠ .silent → s.chip.points[r].verdict = .none →
    analog ≠ 255#8 →
    let z := s.chip.zoneOf r
    let now := s.chip.seconds
    let p := { s.chip.afterSameReply r .alarm with prealarmReady := false }
    let c := (s.chip.taken rest).setPoint r p
    let answers (d : Chip) : Prop := exec .replyEvent s = .next (s.withChip (Chip.settle d))
    let held (cause : Nat) : Chip := (c.setVerdict r .held).raisePoint .held r now (word cause) (word p.state.code)
    let partner (o : Opener) : Prop := now < o.expiry ∧ o.point ≠ r ∧ s.chip.points[o.point].suppressed = false
    let unconfirmed : Prop := p.suppressed = false ∧ p.armed = false ∧
      (s.chip.zones[z].walkSlot = none ∨ ¬(p.state = .matched ∨ p.state = .tested ∨ p.state = .commissioned))
    (p.suppressed = true → answers (held 1)) ∧
    (p.suppressed = false → s.chip.zones[z].walkSlot = none → p.armed = true →
      answers ((c.setVerdict r .fire).raisePoint .fire r now 1 0)) ∧
    (unconfirmed → (∀ o, s.chip.zones[z].opener = some o → ¬partner o) →
      answers ((held 2).modZone z fun zr =>
        { zr with opener := some { point := r, expiry := min (now + b.coincidenceWindow) 4294967295 } })) ∧
    (∀ o, unconfirmed → s.chip.zones[z].opener = some o → partner o → ∃ t, answers t ∧
      t.points[r] = { p with verdict := .fire } ∧
      t.points[o.point] = { s.chip.points[o.point] with verdict := .fire } ∧
      (∀ i : Rec, i ≠ r → i ≠ o.point → t.points[i] = s.chip.points[i]) ∧ t.zones[z].opener = none ∧
      t.fireCount = s.chip.fireCount + (if s.chip.points[o.point].verdict = .fire then 1 else 2) ∧ t.firePin = true ∧
      t.writer =
        ((held 2).coincidenceReports z o.point r (decide (s.chip.points[o.point].verdict ≠ .fire)) now).writer ∧
      (∀ k w, s.chip.zones[z].walkSlot = some k → s.chip.slots[k] = some w → w.ending = false → w.reason = none →
        t.slots[k] = some { w with reason := some .breakout }))

/-- A capture: the point takes TEST, MATCHED becomes TESTED, TEST COUNT rises to 15 at most; the hit list takes a new entry
while it has room, raises an entry it has up to 255, and is OVERFLOWED otherwise; the report gives the entry's count, 0 for
none; and the coincidence check comes after, setting the opener, or making both points FIRE where it finds a partner
(R108 outcome 2, R110, R113, R114, R130, R131, R142). -/
def Obligations.CaptureInAZoneUnderTest : Prop :=
  ∀ (c : Chip) (r : Rec) (k : Fin 4) (w : WalkSlot) (now : Nat),
    let p := c.points[r]
    let z := c.zoneOf r
    p.suppressed = false → (p.state = .matched ∨ p.state = .tested ∨ p.state = .commissioned) → p.verdict = .none →
    c.zones[z].walkSlot = some k → c.slots[k] = some w → realZone w.zone = z →
    let p' := { p with verdict := .test, testCount := min (p.testCount + 1) 15,
                       state := if p.state = .matched then .tested else p.state }
    let c' := c.qualify r now .reply
    let report (count : Nat) : Report :=
      { kind := .testHit, loop := r.val / 192 + 1, addr := r.val % 192 + 1, zone := z.val + 1, time := now,
        detailA := word count, detailB := word p'.testCount }
    let captured (w' : WalkSlot) (count : Nat) : Prop :=
      ((∀ o, c.zones[z].opener = some o → ¬(now < o.expiry ∧ o.point ≠ r ∧ c.points[o.point].suppressed = false)) →
        c'.points[r] = p' ∧ (∀ i : Rec, i ≠ r → c'.points[i] = c.points[i]) ∧ c'.slots[k] = some w' ∧
        c'.zones[z].opener = some { point := r, expiry := min (now + c.coincidenceWindow) 4294967295 } ∧
        c'.fireCount = c.fireCount ∧ c'.writer = (c.raise (report count)).writer) ∧
      (∀ o q, c.zones[z].opener = some o → o.point = q → now < o.expiry → q ≠ r → c.points[q].suppressed = false →
        c'.points[r] = { p' with verdict := .fire } ∧ c'.points[q] = { c.points[q] with verdict := .fire } ∧
        (∀ i : Rec, i ≠ r → i ≠ q → c'.points[i] = c.points[i]) ∧ c'.zones[z].opener = none ∧
        c'.slots[k] = some (if w.ending = false ∧ w.reason = none then { w' with reason := some .breakout } else w') ∧
        c'.fireCount = c.fireCount + (if c.points[q].verdict = .fire then 1 else 2) ∧
        c'.writer = ((Chip.coincidenceReports (c.raise (report count)) z q r
          (decide (c.points[q].verdict ≠ .fire)) now)).writer)
    ((∀ h ∈ w.hits, h.point ≠ r) → w.hits.length < 32 →
      captured { w with hits := w.hits ++ [{ point := r, count := 1 }] } 1) ∧
    ((∀ h ∈ w.hits, h.point ≠ r) → 32 ≤ w.hits.length → captured { w with overflowed := true } 0) ∧
    (∀ n, (∃ h ∈ w.hits, h.point = r) → (∀ h ∈ w.hits, h.point = r → h.count = n) →
      captured { w with hits := w.hits.map fun h => if h.point = r then { h with count := min (n + 1) 255 } else h }
        (min (n + 1) 255))

/-- The coincidence check. With a partner, the zone's opener unexpired, another point and not SUPPRESSED: both points take FIRE, COINCIDENCE and the FIRE of each point that did not hold it are raised in that order,
the opener's point first; the opener goes, and a linked RUNNING slot is asked for BREAKOUT. With none the point becomes the
zone's opener, until its window from now ends (R113, R114, R123, R125). -/
def Obligations.CoincidenceMakesTwoFiresOrAnOpener : Prop :=
  (∀ (c : Chip) (z : Zone) (p : Rec) (b : Binding) (now : Nat), c.bind = .bound b →
    (∀ o, c.zones[z].opener = some o → ¬(now < o.expiry ∧ o.point ≠ p ∧ c.points[o.point].suppressed = false)) →
    let o : Opener := { point := p, expiry := min (now + b.coincidenceWindow) 4294967295 }
    c.coincidenceCheck z p now = { c with zones := c.zones.set z { c.zones[z] with opener := some o } }) ∧
  ∀ (c : Chip) (z : Zone) (p q : Rec) (o : Opener) (now : Nat),
    c.zones[z].opener = some o → o.point = q → now < o.expiry → q ≠ p → c.points[q].suppressed = false →
    c.points[p].verdict ≠ .fire →
    let c' := c.coincidenceCheck z p now
    c'.points[p] = { c.points[p] with verdict := .fire } ∧ c'.points[q] = { c.points[q] with verdict := .fire } ∧
    (∀ i : Rec, i ≠ p → i ≠ q → c'.points[i] = c.points[i]) ∧
    c'.zones[z].opener = none ∧
    c'.fireCount = c.fireCount + (if c.points[q].verdict = .fire then 1 else 2) ∧ c'.firePin = true ∧
    c'.writer = (c.coincidenceReports z q p (decide (c.points[q].verdict ≠ .fire)) now).writer ∧
    (∀ k w, c.zones[z].walkSlot = some k → c.slots[k] = some w → w.ending = false → w.reason = none →
      c'.slots[k] = some { w with reason := some .breakout })

/-- SILENCE_EXPIRY: an owed test of a LIVE point whose last good reply is SILENCE TIMEOUT or more seconds old makes it
SILENT by the timeout path, with flag, report and ARMED re-derived; any other owed test changes nothing but what is owed. All
the owed tests do the same at each record that owes one, and none is owed after; no test is made while a stretch runs
(R66, R67, R70). -/
def Obligations.SilenceExpiryTestsThePoint : Prop :=
  (∀ (s : State) (b : Binding), s.chip.porLow = false → s.chip.bind = .bound b → s.chip.stretching = false →
    ∃ t, exec (.silenceExpiry .all) s = .next t ∧ t.chip.silenceOwed = [] ∧
      (∀ r : Rec, t.chip.points[r] =
        if r ∈ s.chip.silenceOwed ∧ s.chip.points[r].presence = .live ∧
            b.silenceTimeout ≤ s.chip.seconds - s.chip.points[r].lastGood
        then s.chip.derived r { s.chip.points[r] with presence := .silent, flags := s.chip.points[r].flags ||| 0x10#8 }
        else s.chip.points[r]) ∧
      t.chip.plan = s.chip.plan ∧ t.chip.mem = s.chip.mem ∧ t.chip.intake = s.chip.intake) ∧
  (∀ (s : State) (which : Which), s.chip.porLow = false → s.chip.stretching = true →
    exec (.silenceExpiry which) s = .next (s.withChip s.chip.settle)) ∧
  ∀ (s : State) (r : Rec) (b : Binding), s.chip.porLow = false → s.chip.bind = .bound b → s.chip.stretching = false →
    r ∈ s.chip.silenceOwed →
    let p := s.chip.points[r]
    let c := { s.chip with silenceOwed := s.chip.silenceOwed.filter (· != r) }
    (p.presence = .live → b.silenceTimeout ≤ s.chip.seconds - p.lastGood →
      exec (.silenceExpiry (.one r)) s = .next (s.withChip (Chip.settle
        (((c.setPoint r { p with presence := .silent, flags := p.flags ||| 0x10#8 }).raisePoint .silent r
          s.chip.seconds 2 (word p.lastGood)).rederive r)))) ∧
    (¬(p.presence = .live ∧ b.silenceTimeout ≤ s.chip.seconds - p.lastGood) →
      exec (.silenceExpiry (.one r)) s = .next (s.withChip c.settle))

/-- The Drift Monitor's tables. Which checks a reply meets: FAULT and SENSOR for a fault, SENSOR alone for any other at full
scale, drift and pre-alarm for a NORMAL, and the spending of READY for an ALARM (R79, R85). FAULTED and SENSOR are set with
their report when they were clear (R80, R81). The drift run moves one up at or above the limit, to 16, and one down below it,
to 0, with DRIFT and its report exactly when it comes from 15 to 16 with the flag clear (R82, R83). A reading at or above the
pre-alarm level with READY sets PREALARM, raises it and spends READY, and one at the re-arm level or below gives READY back
(R78, R84). -/
def Obligations.MonitorFollowsItsTables : Prop :=
  ∀ (c : Chip) (r : Rec) (analog : BitVec 8) (code : BitVec 4) (now : Nat),
    let p := c.points[r]
    let limit := 48 + 4 * code.toNat
    let level := 128 + 6 * code.toNat
    let p' := { p with driftRun := if limit ≤ analog.toNat then min (p.driftRun + 1) 16 else p.driftRun - 1 }
    let sensed (st : Status) (d : Chip) : Chip :=
      if d.points[r].flags.getLsbD 2 = true then d
      else (d.setPoint r { d.points[r] with flags := d.points[r].flags ||| 4#8 }).raisePoint .sensor r now (word st.code) 0
    let faulted : Chip :=
      if p.flags.getLsbD 3 = true then c
      else (c.setPoint r { p with flags := p.flags ||| 8#8 }).raisePoint .fault r now (word analog.toNat) 0
    (c.driftMonitor r .fault analog code now = if analog = 255#8 then sensed .fault faulted else faulted) ∧
    (analog = 255#8 → c.driftMonitor r .normal analog code now = sensed .normal c ∧
      c.driftMonitor r .alarm analog code now = sensed .alarm c) ∧
    (analog ≠ 255#8 → c.driftMonitor r .alarm analog code now = c.setPoint r { p with prealarmReady := false } ∧
      c.driftMonitor r .normal analog code now = (c.driftCheck r analog code now).prealarmCheck r analog code now) ∧
    (c.driftCheck r analog code now =
      if p.driftRun = 15 ∧ limit ≤ analog.toNat ∧ p.flags.getLsbD 0 = false then
        (c.setPoint r { p' with flags := p.flags ||| 1#8 }).raisePoint .drift r now (word analog.toNat) (word limit)
      else c.setPoint r p') ∧
    (c.prealarmCheck r analog code now =
      if level ≤ analog.toNat ∧ p.prealarmReady = true then
        (c.setPoint r { p with prealarmReady := false, flags := p.flags ||| 2#8 }).raisePoint .prealarm r now
          (word analog.toNat) (word level)
      else if analog.toNat ≤ level - 20 then c.setPoint r { p with prealarmReady := true }
      else c)

/-- The serial step's table, for an event that carries SERIAL (R61) or the SERIAL LOST mark (R62); the class step: a first
sighting, with FOUND and MISMATCH, and a class change, which makes COMMISSIONED CONFLICT (R60); and the re-derivation table
(R59), where a COMMISSIONED point, which never meets it, falls under "any other" by the model's choice (log 19). -/
def Obligations.SerialClassAndStateFollowTheirTables : Prop :=
  (∀ (c : Chip) (r : Rec) (now : Nat),
     let d := c.setPoint r { c.points[r] with flags := c.points[r].flags ||| 0x20#8 }
     c.serialStep r .absent now = c ∧
     c.serialStep r .lostEmpty now = d.raisePoint .serialLost r now 1 0 ∧
     ∀ h : Rec, c.serialStep r (.lostOther h) now = d.raisePoint .serialLost r now 2 (word h.val)) ∧
  (∀ (c : Chip) (r : Rec) (cls : BitVec 3) (now : Nat),
     let p := c.points[r]
     let seen : PointState :=
       if p.state = .conflict then .conflict
       else match c.plan[r] with
         | none => .unplanned
         | some e => if cls = e.cls then .matched else .mismatch
     let found := (c.setPoint r { p with foundClass := some cls, state := seen }).raisePoint .found r now
       (word cls.toNat) (p.firstSerial.getD 0)
     (p.foundClass = none → seen ≠ .mismatch → c.classStep r cls now = found) ∧
     (∀ e, p.foundClass = none → seen = .mismatch → c.plan[r] = some e →
       c.classStep r cls now = found.raisePoint .mismatch r now (word cls.toNat) (word e.cls.toNat)) ∧
     (p.foundClass = some cls → c.classStep r cls now = c) ∧
     (∀ was, p.foundClass = some was → was ≠ cls →
       c.classStep r cls now =
         (c.setPoint r { p with foundClass := some cls, flags := p.flags ||| 0x80#8,
                                state := if p.state = .commissioned then .conflict else seen }).raisePoint .classChanged r
           now (word was.toNat) (word cls.toNat))) ∧
  (∀ (c : Chip) (r : Rec) (v f : Word) (now : Nat),
     let p := c.points[r]
     (p.firstSerial = none → c.serialStep r (.present v) now = c.setPoint r { p with firstSerial := some v }) ∧
     (p.firstSerial = some v → c.serialStep r (.present v) now = c) ∧
     (p.firstSerial = some f → v ≠ f → p.secondSerial = none →
       c.serialStep r (.present v) now =
         (c.setPoint r { p with secondSerial := some v, state := .conflict }).raisePoint .conflict r now 1 v) ∧
     (p.firstSerial = some f → v ≠ f → p.secondSerial = some v → c.serialStep r (.present v) now = c) ∧
     (∀ g, p.firstSerial = some f → v ≠ f → p.secondSerial = some g → v ≠ g →
       c.serialStep r (.present v) now =
         (c.setPoint r { p with secondSerial := some v }).raisePoint .conflict r now 1 v)) ∧
  (∀ (before : PointState) (old entry : Option PlanEntry) (found : Option (BitVec 3)) (changed : Bool) (e : PlanEntry)
     (f : BitVec 3),
     rederiveState .conflict old entry found changed = .conflict ∧
     (before ≠ .conflict →
       rederiveState before old none none changed = .vacant ∧
       rederiveState before old none (some f) changed = .unplanned ∧
       rederiveState before old (some e) none changed = .expected ∧
       (f ≠ e.cls → rederiveState before old (some e) (some f) changed = .mismatch)) ∧
     (∀ d, old = some d → d.cls = e.cls → d.zone = e.zone →
       rederiveState .tested old (some e) (some e.cls) false = .tested) ∧
     (before ≠ .conflict → before ≠ .tested →
       rederiveState before old (some e) (some e.cls) changed = .matched) ∧
     (rederiveState .tested old (some e) (some e.cls) true = .matched) ∧
     ((∀ d, old = some d → d.cls ≠ e.cls ∨ d.zone ≠ e.zone) →
       rederiveState .tested old (some e) (some e.cls) changed = .matched))

/-! ### Walk tests -/

/-- The table of what an end request does to a slot (R133). WALK_EXPIRY: an owed comparison of a RUNNING slot with no reason
records EXPIRED when END has been reached (R134). -/
def Obligations.EndRequestsFollowTheirTable : Prop :=
  (∀ (c : Chip) (k : Fin 4) (w : WalkSlot) (reason : EndReason),
     (c.slots[k] = none → c.requestEnd k reason = c) ∧
     (c.slots[k] = some w → w.ending = true → c.requestEnd k reason = c) ∧
     (c.slots[k] = some w → w.reason ≠ none → c.requestEnd k reason = c) ∧
     (c.slots[k] = some w → w.ending = false → w.reason = none →
       c.requestEnd k reason = c.setSlot k (some { w with reason := some reason }))) ∧
  (∀ (s : State) (k : Fin 4) (w : WalkSlot), s.chip.porLow = false → k ∈ s.chip.walkOwed → s.chip.slots[k] = some w →
     w.ending = false → w.reason = none →
     let c := { s.chip with walkOwed := s.chip.walkOwed.filter (· != k) }
     (w.finish ≤ s.chip.seconds →
       exec (.walkExpiry k) s =
         .next (s.withChip (Chip.settle (c.setSlot k (some { w with reason := some .expired }))))) ∧
     (s.chip.seconds < w.finish → exec (.walkExpiry k) s = .next (s.withChip c.settle)))

/-- WALK_END_EVENT: the slot goes to ENDING with its counts kept and its list discarded, the zone record lets go of it, and
WALK END is raised (R137, R142). -/
def Obligations.WalkEndEventEndsTheSlot : Prop :=
  ∀ (s : State) (k : Fin 4) (w : WalkSlot) (reason : EndReason), s.chip.porLow = false → s.chip.slots[k] = some w →
    w.ending = false → w.reason = some reason →
    exec (.walkEndEvent k) s = .next (s.withChip (Chip.settle
      (((s.chip.setSlot k (some { w with ending := true, endEntries := w.hits.length, endOverflowed := w.overflowed,
                                         hits := [], overflowed := false, endNow := s.chip.seconds, sweep := 0 })).modZone
        (realZone w.zone) fun zr => { zr with walkSlot := none }).raiseZone .walkEnd (realZone w.zone) s.chip.seconds
          (word reason.code) (walkEndDetail w.hits.length w.overflowed))))

/-- WALK_CLEAR_EVENT: the next record of the slot's zone with VERDICT TEST goes to NONE and is counted, and is re-qualified
with the end event's now when its LAST STATUS is ALARM; past the last such record the slot is FREE, and a WALK END waiting on
it goes to completion with its counts (R107, R135, R138). A re-qualification's outcomes: HELD with cause 3 when SUPPRESSED, a
capture as for a reply, FIRE with cause 2 when ARMED, otherwise HELD with cause 4 and the coincidence check (R107 to R112,
R125). -/
def Obligations.WalkClearEventClearsOrFrees : Prop :=
  (∀ (c : Chip) (r : Rec) (now : Nat),
    let p := c.points[r]
    let z := c.zoneOf r
    let testable : Prop := p.state = .matched ∨ p.state = .tested ∨ p.state = .commissioned
    let held (cause : Nat) : Chip := (c.setVerdict r .held).raisePoint .held r now (word cause) (word p.state.code)
    (p.suppressed = true → c.qualify r now .requalification = held 3) ∧
    (∀ k, p.suppressed = false → testable → c.zones[z].walkSlot = some k →
      c.qualify r now .requalification = (c.capture k r now).coincidenceCheck z r now ∧
      c.qualify r now .reply = c.qualify r now .requalification) ∧
    (p.suppressed = false → (¬testable ∨ c.zones[z].walkSlot = none) → p.armed = true →
      c.qualify r now .requalification = (c.setVerdict r .fire).raisePoint .fire r now 2 0) ∧
    (p.suppressed = false → (¬testable ∨ c.zones[z].walkSlot = none) → p.armed = false →
      c.qualify r now .requalification = (held 4).coincidenceCheck z r now)) ∧
  ∀ (s : State) (k : Fin 4) (w : WalkSlot) (r : Rec), s.chip.porLow = false → s.chip.slots[k] = some w →
    w.ending = true →
    let due (i : Rec) : Prop := w.sweep ≤ i.val ∧ s.chip.points[i].verdict = .test ∧ s.chip.zoneOf i = realZone w.zone
    (due r → (∀ i : Rec, i < r → ¬due i) → s.chip.points[r].lastStatus ≠ some .alarm →
      exec (.walkClearEvent k 1) s = .next (s.withChip (Chip.settle
        ((s.chip.setSlot k (some { w with cleared := w.cleared + 1, sweep := r.val + 1 })).setVerdict r .none)))) ∧
    (due r → (∀ i : Rec, i < r → ¬due i) → s.chip.points[r].lastStatus = some .alarm →
      exec (.walkClearEvent k 1) s = .next (s.withChip (Chip.settle
        ((((s.chip.setSlot k (some { w with cleared := w.cleared + 1, sweep := r.val + 1,
                                            handedBack := w.handedBack + 1 })).setVerdict r .none).rederive r).qualify r
          w.endNow .requalification)))) ∧
    ((∀ i : Rec, ¬due i) → (∀ m, s.chip.command = some m → m.stage ≠ .waitingSlot k) →
      exec (.walkClearEvent k 1) s = .next (s.withChip (Chip.settle (s.chip.setSlot k none)))) ∧
    (∀ m b reason, (∀ i : Rec, ¬due i) → s.chip.bind = .bound b → s.chip.command = some m →
      m.stage = .waitingSlot k → w.reason = some reason →
      exec (.walkClearEvent k 1) s = .next (s.withChip (Chip.settle ((s.chip.setSlot k none).complete
        { final := .done, reason := .none, detail := 0,
          result := [word reason.code, word w.endEntries, word w.endOverflowed.toNat, word w.cleared,
                     word w.handedBack] }))))

/-! ### Reports -/

/-- The pending queue's table (R176): a report is appended while fewer than 16 stand; at 16 an ALARM report displaces the
newest non-ALARM entry, and everything else that does not fit is discarded; every discard sets the gap mark. QUERY's occupancy
is this queue's length, the record in hand not counted; that QUERY reads it in its last event is the model's choice (log 24). -/
def Obligations.PendingQueueFollowsItsTable : Prop :=
  ∀ (w : Writer) (r : Report), w.queue.length ≤ 16 →
    (w.queue.length < 16 → w.arrive r = { w with queue := w.queue ++ [r] }) ∧
    (∀ front back x, w.queue.length = 16 → r.isAlarm = true → w.queue = front ++ x :: back → x.isAlarm = false →
      (∀ y ∈ back, y.isAlarm = true) → w.arrive r = { w with queue := front ++ back ++ [r], gap := true }) ∧
    (w.queue.length = 16 → r.isAlarm = true → (∀ y ∈ w.queue, y.isAlarm = true) → w.arrive r = { w with gap := true }) ∧
    (w.queue.length = 16 → r.isAlarm = false → w.arrive r = { w with gap := true }) ∧
    (∀ (c : Chip) (m : Command) (b : Binding) (q : Census), c.AtWork m b 15 (.query 770 q) →
      c.commandWork = c.complete (doneWith (q.result c.writer.queue.length)))

/-- A report is formed while BOUND with its class set in the mask, and then arrives at the pending queue and starts an idle
writer; otherwise it leaves no trace (R175). A writer starts no record while it has one in hand, has none queued, or its ring
is full. REPORT_RECORD_START: the head entry leaves the queue with the gap mark, which is cleared, and word 0 of its slot is issued.
DOWNSTREAM_ACCESS_DONE of a record's word issues the next, PRODUCER last. REPORT_RECORD_PUBLISH: the producer copy takes the
value, the record is released, IRQ is settled and the writer looks for its next record (R177, R178, R181, R188). -/
def Obligations.RecordsAreWrittenAndPublished : Prop :=
  (∀ (c : Chip) (x : Report),
    (∀ b, c.bind = .bound b → b.classMask.getLsbD (x.kind.code / 16) = true →
      c.raise x = Chip.startRecord { c with writer := c.writer.arrive x }) ∧
    (∀ b, c.bind = .bound b → b.classMask.getLsbD (x.kind.code / 16) = false → c.raise x = c) ∧
    ((∀ b, c.bind ≠ .bound b) → c.raise x = c ∧ c.startRecord = c) ∧
    (∀ b, c.bind = .bound b → (c.writer.inHand ≠ none ∨ c.writer.queue = [] ∨
      (c.writer.producer + 1) % b.capacity = c.writer.consumer) → c.startRecord = c)) ∧
  (∀ (s : State) (b : Binding) (r : Report) (rest : List Report), s.chip.porLow = false → s.chip.bind = .bound b →
    s.chip.writer.inHand = none → s.chip.writer.queue = r :: rest →
    (s.chip.writer.producer + 1) % b.capacity ≠ s.chip.writer.consumer →
    exec .reportRecordStart s = .next (s.withChip (Chip.settle
      { s.chip with
        writer := { s.chip.writer with queue := rest, gap := false,
                                       inHand := some { report := r, gap := s.chip.writer.gap, written := 0 } },
        im := { s.chip.im with
                waitReport := some ⟨BitVec.ofNat 24 (b.ringBase + 16 + 16 * s.chip.writer.producer),
                                    some (recordWordOf r s.chip.writer.gap 0)⟩ } }))) ∧
  (∀ (s : State) (b : Binding) (h : RecordInHand) (q : MemRequest), s.chip.porLow = false → s.chip.bind = .bound b →
    s.chip.port = some (.internal .report q) → s.chip.writer.inHand = some h →
    (h.written < 4 →
      exec .downstreamAccessDone s = .next (s.withChip (Chip.settle
        { s.chip with
          mem := q.perform s.chip.mem, port := none,
          writer := { s.chip.writer with inHand := some { h with written := h.written + 1 } },
          im := { s.chip.im with
                  current := none
                  waitReport := some (if h.written < 3
                    then ⟨BitVec.ofNat 24 (b.ringBase + 16 + 16 * s.chip.writer.producer + 4 * (h.written + 1)),
                          some (recordWordOf h.report h.gap (h.written + 1))⟩
                    else ⟨BitVec.ofNat 24 b.ringBase,
                          some (word ((s.chip.writer.producer + 1) % b.capacity))⟩) } }))) ∧
    (h.written = 4 →
      let p := (s.chip.writer.producer + 1) % b.capacity
      exec .reportRecordPublish s = .next (s.withChip (Chip.settle (Chip.startRecord
        { s.chip with
          mem := q.perform s.chip.mem, port := none, im := { s.chip.im with current := none },
          writer := { s.chip.writer with producer := p, inHand := none },
          irqPin := b.irqEnable && decide (0 < (p + b.capacity - s.chip.writer.consumer) % b.capacity) })))))

/-! ### Mailbox commands: taking, refusing, ending -/

/-- The host's whole write of a nonzero command word to an idle mailbox, for every command's row: RAM takes the word, the
command is in hand with its tag and the prepared mark as it stood, both marks are clear, and STATUS RUNNING is issued. Its
DACK issues the read of w1; each operand's DACK appends RAM's word and issues the read of the next, and the fifth goes to the
check; the seven events in a row leave the command at its check with RAM's w1 to w5 and STATUS RUNNING in w6
(R146, R147, R148, R187). -/
def Obligations.CommandWordIsTakenAndOperandsRead : Prop :=
  (∀ (s : State) (m : Command) (b : Binding) (q : MemRequest) (i : Instr), s.chip.porLow = false →
    s.chip.bind = .bound b → s.chip.port = some (.internal .command q) → s.chip.command = some m →
    (i = .downstreamAccessDone ∨ i.mailboxStep = some (m.code, .run 1)) →
    let c := { s.chip with mem := q.perform s.chip.mem, port := none, im := { s.chip.im with current := none } }
    let n := m.operands.length
    let reads (operands : List Word) (k : Nat) : Prop := exec i s = .next (s.withChip (Chip.settle
      { c with command := some { m with operands := operands, stage := .operands },
               im := { c.im with waitCommand := some ⟨BitVec.ofNat 24 (b.mailboxBase + 4 * k), none⟩ } }))
    (m.stage = .announcing → reads m.operands (n + 1)) ∧
    (m.stage = .operands → q.wdata = none →
      let operands := m.operands ++ [Mem.readWord s.chip.mem (wordBase q.addr)]
      (n < 4 → reads operands (n + 2)) ∧
      (4 ≤ n → exec i s = .next (s.withChip (Chip.settle
        { c with command := some { m with operands := operands, stage := .working .check } }))))) ∧
  (∀ (s : State) (b : Binding) (i : Instr) (code tag : BitVec 8) (upper : BitVec 16) (a : Addr), s.chip.Quiet →
    s.chip.MemOk → s.chip.bind = .bound b → b.Legal → s.chip.command = none →
    i.mailboxStep = some (code, .word a tag upper 7) → code ≠ 0#8 → wordBase a = b.mailboxBase →
    exec i s = .next (s.withChip
      { s.chip with
        mem := Mem.writeWord (Mem.writeWord s.chip.mem b.mailboxBase 0xF#4 (upper ++ tag ++ code)) (b.mailboxBase + 24)
          0xF#4 (0#8 ++ tag ++ 0#8 ++ 1#8),
        answer := .written,
        command := some { code := code, tag := tag, preparedAtTake := s.chip.prepared,
                          operands := [1, 2, 3, 4, 5].map fun k => Mem.readWord s.chip.mem (b.mailboxBase + 4 * k),
                          stage := .working .check },
        prepared := false, overrun := false, transfer := transferAtTake code, starve := 0,
        im := { s.chip.im with lastServed := .command } })) ∧
  ∀ (s : State) (b : Binding) (i : Instr) (code tag : BitVec 8) (upper : BitVec 16) (a : Addr), s.chip.Quiet →
    s.chip.bind = .bound b → b.Legal → s.chip.command = none → i.mailboxStep = some (code, .word a tag upper 1) →
    code ≠ 0#8 → wordBase a = b.mailboxBase →
    exec i s = .next (s.withChip (Chip.settle
      { s.chip with
        mem := Mem.writeWord s.chip.mem b.mailboxBase 0xF#4 (upper ++ tag ++ code), answer := .written,
        command := some { code := code, tag := tag, preparedAtTake := s.chip.prepared, operands := [],
                          stage := .announcing },
        prepared := false, overrun := false, transfer := transferAtTake code,
        im := { s.chip.im with
                waitCommand := some ⟨BitVec.ofNat 24 (b.mailboxBase + 24),
                                     some (0#8 ++ tag ++ 0#8 ++ 1#8)⟩ } }))

/-- The checks that turn a command away with nothing changed, each in its order: a code that names no command; the seal, for
the six that consult it; NOT PREPARED; the operands of a range and of ADOPT; WRONG STATE at the first point that fails
(R41, R69, R71 to R73, R119, R148, R151, R153). -/
def Obligations.RefusalsComeInTheirOrder : Prop :=
  ∀ (s : State) (m : Command) (b : Binding) (i : Instr) (code : BitVec 8), s.chip.AtCheck m b code →
    i.mailboxStep = some (code, .run 1) →
    let turnsAway (reason : Reason) (detail : Nat) : Prop :=
      exec i s = .next (s.withChip (Chip.settle (s.chip.complete (refusedWith reason (word detail)))))
    let first := (m.num 1 - 1) * 192 + (m.num 2 - 1)
    (¬(1 ≤ code.toNat ∧ code.toNat ≤ 16) → turnsAway .unknownCommand code.toNat) ∧
    (code.toNat ∈ [1, 3, 4, 9, 13, 14] → s.chip.sealed = true → turnsAway .sealed 0) ∧
    (code = 14 → s.chip.sealed = false → m.preparedAtTake = false → turnsAway .notPrepared 0) ∧
    (code.toNat ∈ [8, 9, 11, 12] → (code = 9 → s.chip.sealed = false) →
      (¬(1 ≤ m.num 1 ∧ m.num 1 ≤ b.loops) → turnsAway .badOperand 1) ∧
      (1 ≤ m.num 1 ∧ m.num 1 ≤ b.loops → ¬(1 ≤ m.num 2 ∧ m.num 2 ≤ 192) → turnsAway .badOperand 2) ∧
      (1 ≤ m.num 1 ∧ m.num 1 ≤ b.loops → 1 ≤ m.num 2 ∧ m.num 2 ≤ 192 →
        ¬(1 ≤ m.num 3 ∧ m.num 3 ≤ 192 ∧ m.num 2 + m.num 3 - 1 ≤ 192) → turnsAway .badOperand 3) ∧
      (m.RangeOk b → code = 11 → 255 < m.num 4 → turnsAway .badOperand 4)) ∧
    (code = 10 →
      (¬(1 ≤ m.num 1 ∧ m.num 1 ≤ b.loops) → turnsAway .badOperand 1) ∧
      (1 ≤ m.num 1 ∧ m.num 1 ≤ b.loops → ¬(1 ≤ m.num 2 ∧ m.num 2 ≤ 192) → turnsAway .badOperand 2) ∧
      (1 ≤ m.num 1 ∧ m.num 1 ≤ b.loops → 1 ≤ m.num 2 ∧ m.num 2 ≤ 192 → m.num 3 ≠ 1 → m.num 3 ≠ 2 →
        turnsAway .badOperand 3) ∧
      (∀ r : Rec, 1 ≤ m.num 1 ∧ m.num 1 ≤ b.loops → 1 ≤ m.num 2 ∧ m.num 2 ≤ 192 → r.val = first →
        (m.num 3 = 1 ∨ m.num 3 = 2) →
        (s.chip.points[r].state ≠ .conflict ∨ (m.num 3 = 2 ∧ s.chip.points[r].secondSerial = none)) →
        turnsAway .wrongState r.val)) ∧
    (∀ r : Rec, b.Legal → m.RangeOk b → m.covers r = true →
      let bad (p : PointRecord) : Prop :=
        (code = 8 ∧ p.state ≠ .commissioned ∧ ¬(p.state = .tested ∧ p.presence = .live ∧ p.firstSerial.isSome = true)) ∨
        (code = 9 ∧ p.state ≠ .commissioned)
      (code = 9 → s.chip.sealed = false) → bad s.chip.points[r] →
      (∀ i : Rec, m.covers i = true → i < r → ¬bad s.chip.points[i]) → turnsAway .wrongState r.val)

/-- A completion, from the DETAIL write to the return to IDLE: DETAIL in w7, RESULT in w8 to w15 with 0 past its end, then the
final STATUS with the reason, the tag and the OVERRUN mark in w6; no other word of RAM changes. Then COMMAND DONE is raised, and
REVERT PREPARE ended DONE leaves the prepared mark set; for RESET the part unbinds with no report, over the mailbox as its
completion has written it (R149, R150, R152, R156, R187). Ten events with nothing between them; every command's row. -/
def Obligations.CompletionReachesTheMailbox : Prop :=
  ∀ (s : State) (c : Chip) (m : Command) (b : Binding) (i : Instr) (k : Completion), c.Quiet → c.MemOk →
    c.bind = .bound b → b.Legal → c.command = some m → i.mailboxStep = some (m.code, .run 10) → k.result.length ≤ 8 →
    let answers (d : Chip) : Prop :=
      exec i (s.withChip (Chip.settle (c.complete k))) = .next (s.withChip (Chip.settle d))
    ∃ mem,
      (m.code ≠ 16 → answers (Chip.raise
        { c with mem := mem, command := none, transfer := none, starve := 0,
                 prepared := if m.code = 13 ∧ k.final = .done then true else c.prepared,
                 im := { c.im with lastServed := .command } }
        { kind := .commandDone, loop := 0, addr := 0, zone := 0, time := c.seconds,
          detailA := 0#16 ++ m.tag ++ m.code,
          detailB := word (k.final.code + 256 * k.reason.code) })) ∧
      (m.code = 16 → ∃ t : Chip, answers t ∧ t = Chip.unbindByCommand { c with mem := mem } ∧ t.mem = mem ∧
        t.bind = .unbound ∧ t.command = none ∧ t.writer.queue = [] ∧ t.writer.inHand = none) ∧
      Mem.readWord mem (b.mailboxBase + 28) = k.detail ∧
      (∀ j, j < 8 → Mem.readWord mem (b.mailboxBase + 32 + 4 * j) = k.result.getD j 0) ∧
      Mem.readWord mem (b.mailboxBase + 24) =
        BitVec.ofBool c.overrun ++ 0#7 ++ m.tag ++ BitVec.ofNat 8 k.reason.code ++ BitVec.ofNat 8 k.final.code ∧
      ∀ x, x < b.mailboxBase + 24 ∨ b.mailboxBase + 64 ≤ x → Mem.read mem x = Mem.read c.mem x

/-- COMMAND_COMPLETE: at the DACK of the final STATUS the engine returns to IDLE and COMMAND DONE is raised; for RESET the part
unbinds instead: UNBOUND, every block as after a host reset, a held access released as a passed one, and nothing of the host's
own given up (R16, R22, R32, R76, R103, R124, R143, R149, R150, R152, R156, R157, R183). REVERT PREPARE unsealed, and RESET, go
to completion DONE at their check. -/
def Obligations.FinalStatusEndsTheCommand : Prop :=
  (∀ (s : State) (m : Command) (k : Completion) (q : MemRequest), s.chip.porLow = false →
    s.chip.port = some (.internal .command q) → s.chip.command = some m → m.stage = .status k →
    let c := { s.chip with mem := q.perform s.chip.mem, port := none, im := { s.chip.im with current := none } }
    (m.code ≠ 16 → exec .commandComplete s = .next (s.withChip (Chip.settle (Chip.raise
      { c with command := none, transfer := none,
               prepared := if m.code = 13 ∧ k.final = .done then true else c.prepared }
      { kind := .commandDone, loop := 0, addr := 0, zone := 0, time := c.seconds,
        detailA := 0#16 ++ m.tag ++ m.code, detailB := word (k.final.code + 256 * k.reason.code) })))) ∧
    (m.code = 16 → ∃ t : Chip, exec .commandComplete s = .next (s.withChip (Chip.settle t)) ∧
      t.bind = .unbound ∧ t.latch = none ∧ t.intake = [] ∧ t.command = none ∧ t.transfer = none ∧ t.overrun = false ∧
      t.prepared = false ∧ t.writer.queue = [] ∧ t.writer.inHand = none ∧ t.writer.gap = false ∧ t.fireCount = 0 ∧
      t.firePin = false ∧ t.irqPin = false ∧ t.im = InternalMaster.fresh ∧ t.starve = 0 ∧ t.port = none ∧
      t.rederivations = [] ∧ t.silenceOwed = [] ∧ t.walkOwed = [] ∧ (∀ k : Fin 4, t.slots[k] = none) ∧
      (∀ z : Zone, t.zones[z] = { s.chip.zones[z] with walkSlot := none, opener := none }) ∧
      (∀ r : Rec, t.points[r] =
        { s.chip.points[r] with
          presence := .absent, verdict := .none, lastStatus := none, lastGood := 0, noreplyRun := 0, garbledRun := 0,
          driftRun := 0, prealarmReady := true, armed := false, suppressed := s.chip.suppression r }) ∧
      (s.chip.host = none → t.host = none) ∧
      (∀ h, s.chip.host = some h → h.stage = .held → t.host = some ⟨h.request, .passed, .waiting⟩) ∧
      (∀ h, s.chip.host = some h → h.stage ≠ .held → t.host = some ⟨h.request, .passed, h.stage⟩) ∧
      t.backlog = s.chip.backlog ∧ t.mem = c.mem ∧ t.plan = s.chip.plan ∧ t.sealed = s.chip.sealed ∧
      t.profiles = s.chip.profiles ∧ t.zoneMask = s.chip.zoneMask ∧ t.lisoFiltered = s.chip.lisoFiltered ∧
      t.lisoStable = s.chip.lisoStable ∧ t.shiftRegister = s.chip.shiftRegister ∧ t.seconds = s.chip.seconds ∧
      t.refCount = s.chip.refCount ∧ t.hrstLow = s.chip.hrstLow)) ∧
  (∀ (s : State) (m : Command) (b : Binding), s.chip.AtCheck m b 13 → s.chip.sealed = false →
    exec (.revertPrepare (.run 1)) s = .next (s.withChip (Chip.settle (s.chip.complete (doneWith []))))) ∧
  (∀ (s : State) (m : Command) (b : Binding), s.chip.AtCheck m b 16 →
    exec (.reset (.run 1)) s = .next (s.withChip (Chip.settle (s.chip.complete (doneWith [])))))

/-! ### Mailbox commands: their own effects -/

/-- PROFILE SET unsealed: its operands' checks, the slot's new code, and w8 the old one (R47). SEAL: the seal is set, w8 whether
it was (R43). -/
def Obligations.ProfileSetAndSealTakeEffect : Prop :=
  (∀ (s : State) (m : Command) (b : Binding), s.chip.AtCheck m b 4 → s.chip.sealed = false →
    let c := s.chip
    (3 < m.num 1 → exec (.profileSet (.run 1)) s =
      .next (s.withChip (Chip.settle (c.complete (refusedWith .badOperand 1))))) ∧
    (m.num 1 ≤ 3 → 15 < m.num 2 → exec (.profileSet (.run 1)) s =
      .next (s.withChip (Chip.settle (c.complete (refusedWith .badOperand 2))))) ∧
    (∀ k : Fin 4, m.num 1 = k.val → m.num 2 ≤ 15 → exec (.profileSet (.run 1)) s =
      .next (s.withChip (Chip.settle (Chip.complete { c with profiles := c.profiles.set k (BitVec.ofNat 4 (m.num 2)) }
        (doneWith [word c.profiles[k].toNat])))))) ∧
  (∀ (s : State) (m : Command) (b : Binding), s.chip.AtCheck m b 5 →
    exec (.sealPlan (.run 1)) s = .next (s.withChip (Chip.settle (Chip.complete { s.chip with sealed := true }
      (doneWith [if s.chip.sealed = true then 1 else 0])))))

/-- WALK START: its checks in their order, then the lowest FREE slot RUNNING in the zone until END, owing no comparison, w8 to w10 slot, START and
END, END's word open where END does not fit 32 bits (R128, R129; log 15). WALK END: refused where no slot holds the zone;
otherwise an ENDED request and the wait for the slot (R135). -/
def Obligations.WalkStartAndWalkEndTakeEffect : Prop :=
  (∀ (s : State) (m : Command) (b : Binding), s.chip.AtCheck m b 6 →
    let c := s.chip
    let turnsAway (reason : Reason) (detail : Nat) : Prop := exec (.walkStart (.run 1)) s =
      .next (s.withChip (Chip.settle (c.complete (refusedWith reason (word detail)))))
    (¬(1 ≤ m.num 1 ∧ m.num 1 ≤ 96) → turnsAway .badOperand 1) ∧
    (1 ≤ m.num 1 ∧ m.num 1 ≤ 96 → ¬(1 ≤ m.num 2 ∧ m.num 2 ≤ 120) → turnsAway .badOperand 2) ∧
    (∀ z : RealZone, m.num 1 = z.val + 1 → 1 ≤ m.num 2 ∧ m.num 2 ≤ 120 →
      ((∃ (k : Fin 4) (w : WalkSlot), c.slots[k] = some w ∧ w.zone = z) → turnsAway .zoneBusy 0) ∧
      ((∀ (k : Fin 4) (w : WalkSlot), c.slots[k] = some w → w.zone ≠ z) →
        ((∀ k : Fin 4, c.slots[k] ≠ none) → turnsAway .noSlot 0) ∧
        (∀ k : Fin 4, c.slots[k] = none → (∀ j : Fin 4, j < k → c.slots[j] ≠ none) →
          (c.zones[realZone z].withheld = true → turnsAway .zoneIsolated 0) ∧
          (c.zones[realZone z].withheld = false →
            let finish := c.seconds + 60 * m.num 2
            ∃ x : Word, (finish < 4294967296 → x = word finish) ∧
              exec (.walkStart (.run 1)) s = .next (s.withChip (Chip.settle (Chip.complete
                { c with
                  slots := c.slots.set k (some
                    { ending := false, zone := z, start := c.seconds, finish := finish, hits := [], overflowed := false,
                      reason := none, endEntries := 0, endOverflowed := false, cleared := 0, handedBack := 0,
                      endNow := 0, sweep := 0 }),
                  walkOwed := c.walkOwed.filter (· != k),
                  zones := c.zones.set (realZone z) { c.zones[realZone z] with walkSlot := some k } }
                (doneWith [word k.val, word c.seconds, x])))))))))  ∧
  (∀ (s : State) (m : Command) (b : Binding), s.chip.AtCheck m b 7 →
    ((∀ (k : Fin 4) (w : WalkSlot), s.chip.slots[k] = some w → w.zone.val + 1 ≠ m.num 1) →
      exec (.walkEnd (.run 1)) s =
        .next (s.withChip (Chip.settle (s.chip.complete (refusedWith .zoneNotInTest 1))))) ∧
    (∀ (k : Fin 4) (w : WalkSlot), s.chip.slots[k] = some w → w.zone.val + 1 = m.num 1 →
      (∀ (j : Fin 4) (v : WalkSlot), s.chip.slots[j] = some v → v.zone = w.zone → j = k) →
      exec (.walkEnd (.run 1)) s = .next (s.withChip (Chip.settle
        { s.chip.requestEnd k .ended with command := some { m with stage := .waitingSlot k } }))))

/-- ACCEPT, RELEASE and REVERT run their whole range, one event a point, and end DONE with their counts, when every point
passes the check: TESTED points become COMMISSIONED; COMMISSIONED points become TESTED; TESTED and COMMISSIONED points become
MATCHED with TEST COUNT 0. Nothing else changes (R69 to R72, R75, R153). -/
def Obligations.StretchesRunTheirRanges : Prop :=
  ∀ (s : State) (m : Command) (b : Binding), s.chip.Quiet → b.Legal →
    let c := s.chip
    (s.chip.AtCheck m b 8 → m.RangeOk b →
      (∀ r : Rec, m.covers r = true → c.points[r].state = .commissioned ∨
        (c.points[r].state = .tested ∧ c.points[r].presence = .live ∧ c.points[r].firstSerial.isSome = true)) →
      let n := countRecords fun r => m.covers r && c.points[r].state == .tested
      ∃ v, (∀ r : Rec, v[r] = if m.covers r = true then { c.points[r] with state := .commissioned } else c.points[r]) ∧
        exec (.accept (.run (m.num 3 + 1))) s = .next (s.withChip (Chip.settle (Chip.complete { c with points := v }
          (doneWith [word n, word (m.num 3 - n)]))))) ∧
    (s.chip.AtCheck m b 9 → c.sealed = false → m.RangeOk b →
      (∀ r : Rec, m.covers r = true → c.points[r].state = .commissioned) →
      ∃ v, (∀ r : Rec, v[r] = if m.covers r = true then { c.points[r] with state := .tested } else c.points[r]) ∧
        exec (.release (.run (m.num 3 + 1))) s = .next (s.withChip (Chip.settle (Chip.complete { c with points := v }
          (doneWith [word (m.num 3)]))))) ∧
    (s.chip.AtCheck m b 14 → c.sealed = false → m.preparedAtTake = true →
      let hit (p : PointRecord) : Bool := p.state == .tested || p.state == .commissioned
      ∃ v, (∀ r : Rec, v[r] = if hit c.points[r] = true then { c.points[r] with state := .matched, testCount := 0 }
          else c.points[r]) ∧
        exec (.revert (.run 769)) s = .next (s.withChip (Chip.settle (Chip.complete { c with points := v }
          (doneWith [word (countRecords fun r => hit c.points[r])])))))

/-- ADOPT of a CONFLICT point, with SECOND chosen only when present: the kept serial stands as FIRST, SECOND is absent, GARBLED
RUN is 0, STATE follows the entry and the class, SUPPRESSED and ARMED are re-derived; w8 and w9 are the serials kept and
discarded, 0 for none (R73). -/
def Obligations.AdoptSettlesTheConflict : Prop :=
  ∀ (s : State) (m : Command) (b : Binding) (r : Rec), s.chip.AtCheck m b 10 → b.Legal →
    1 ≤ m.num 1 ∧ m.num 1 ≤ b.loops → 1 ≤ m.num 2 ∧ m.num 2 ≤ 192 → r.val = (m.num 1 - 1) * 192 + (m.num 2 - 1) →
    s.chip.points[r].state = .conflict →
    let c := s.chip
    let p := c.points[r]
    let after (kept dropped : Option Word) : Prop :=
      exec (.adopt (.run 1)) s = .next (s.withChip (Chip.settle (Chip.complete
        (c.setPoint r (c.derived r { p with firstSerial := kept, secondSerial := none, garbledRun := 0,
                                            state := match c.plan[r], p.foundClass with
                                              | none, none => .vacant
                                              | none, some _ => .unplanned
                                              | some _, none => .expected
                                              | some e, some f => if f = e.cls then .matched else .mismatch }))
        (doneWith [kept.getD 0, dropped.getD 0]))))
    (m.num 3 = 1 → after p.firstSerial p.secondSerial) ∧
    (m.num 3 = 2 → p.secondSerial.isSome = true → after p.secondSerial p.firstSerial)

/-- CLEAR FLAGS runs its range, clearing the selected flags and, with DRIFT, the run; w8 counts the points that had one. CLEAR
VERDICT clears FIRE and HELD where LAST STATUS is not ALARM, the FIRE count and pin with them; w8 and w9 count what it cleared
and what stays for its alarm (R69, R74, R119, R122, R123). -/
def Obligations.ClearingCommandsRunTheirRanges : Prop :=
  ∀ (s : State) (m : Command) (b : Binding), s.chip.Quiet → b.Legal → m.RangeOk b →
    let c := s.chip
    (s.chip.AtCheck m b 11 → m.num 4 ≤ 255 →
      let mask := BitVec.ofNat 8 (m.num 4)
      ∃ v, (∀ r : Rec, v[r] = if m.covers r = true
          then { c.points[r] with flags := c.points[r].flags &&& ~~~mask,
                                  driftRun := if mask.getLsbD 0 = true then 0 else c.points[r].driftRun }
          else c.points[r]) ∧
        exec (.clearFlags (.run (m.num 3 + 1))) s = .next (s.withChip (Chip.settle (Chip.complete
          { c with points := v }
          (doneWith [word (countRecords fun r => m.covers r && c.points[r].flags &&& mask != 0)]))))) ∧
    (s.chip.AtCheck m b 12 → c.FireRight →
      let stands (p : PointRecord) : Bool := p.verdict == .fire || p.verdict == .held
      let clears (r : Rec) : Bool := m.covers r && stands c.points[r] && c.points[r].lastStatus != some .alarm
      let stays (r : Rec) : Bool := m.covers r && stands c.points[r] && c.points[r].lastStatus == some .alarm
      let fires := countRecords fun r => c.points[r].verdict == .fire && !clears r
      ∃ v, (∀ r : Rec, v[r] = if clears r = true then { c.points[r] with verdict := .none } else c.points[r]) ∧
        exec (.clearVerdict (.run (m.num 3 + 1))) s = .next (s.withChip (Chip.settle (Chip.complete
          { c with points := v, fireCount := fires, firePin := decide (0 < fires) }
          (doneWith [word (countRecords clears), word (countRecords stays)])))))

/-- QUERY reads every point and the three values and ends DONE with their counts; nothing else changes (R154, R155, R187).
That the three values are three events after the records' is the model's choice (log 24). -/
def Obligations.QueryCountsEveryPoint : Prop :=
  ∀ (s : State) (m : Command) (b : Binding), s.chip.Quiet → s.chip.AtCheck m b 15 →
    let c := s.chip
    let st (x : PointState) := countRecords fun r => c.points[r].state == x
    let pr (x : Presence) := countRecords fun r => c.points[r].presence == x
    let ve (x : Verdict) := countRecords fun r => c.points[r].verdict == x
    let active := (List.finRange 4).countP fun k => c.slots[k].isSome
    exec (.query (.run 772)) s = .next (s.withChip (Chip.settle (c.complete (doneWith
      [word (st .vacant + 65536 * st .expected), word (st .unplanned + 65536 * st .matched),
       word (st .mismatch + 65536 * st .conflict), word (st .tested + 65536 * st .commissioned),
       word (pr .absent + 65536 * pr .live), word (pr .silent + 65536 * ve .fire), word (ve .test + 65536 * ve .held),
       word (active % 256 + 256 * c.sealed.toNat + 65536 * (c.writer.queue.length % 256))]))))

/-! ### Transfers -/

/-- PLAN LOAD unsealed: its first checks, then the read of block 0. Each word's DACK appends RAM's word, adds it to the sum and
issues the next word's read; the twentieth goes to the checks. A block's own checks, then each entry's in their order; a
failure refuses in the verify pass and is TORN in the install pass; a block that passes leads to the next block, to the install
pass from block 0 with every mark clear, or to its own installs. An entry's install, with STATE and the derived fields over the
new entry, the old zone's opener let go and the counts; after the last slot the next block's read, or DONE
(R37, R118, R158, R159, R160 to R165, R189). -/
def Obligations.PlanLoadTakesEffect : Prop :=
  (∀ (s : State) (m : Command) (b : Binding) (t : TransferEngine), s.chip.AtCheck m b 1 → s.chip.sealed = false →
    s.chip.transfer = some t →
    let c := s.chip
    (¬(1 ≤ m.num 2 ∧ m.num 2 ≤ 96) → exec (.planLoad (.run 1)) s =
      .next (s.withChip (Chip.settle (c.complete (refusedWith .badOperand 2))))) ∧
    (1 ≤ m.num 2 ∧ m.num 2 ≤ 96 → ¬b.BufferPasses (m.num 1) (80 * m.num 2) → exec (.planLoad (.run 1)) s =
      .next (s.withChip (Chip.settle (c.complete (refusedWith .badOperand 1))))) ∧
    (1 ≤ m.num 2 ∧ m.num 2 ≤ 96 → b.BufferPasses (m.num 1) (80 * m.num 2) →
      exec (.planLoad (.run 1)) s = .next (s.withChip (Chip.settle
        { c with transfer := some { t with position := some 0, words := [], sum := 0 },
                 command := some { m with stage := .transferring .read },
                 im := { c.im with waitCommand := some ⟨BitVec.ofNat 24 (m.num 1), none⟩ } })))) ∧
  (∀ (s : State) (m : Command) (t : TransferEngine) (q : MemRequest) (k : Nat), s.chip.porLow = false →
    s.chip.port = some (.internal .command q) → s.chip.command = some m → m.code = 1 →
    m.stage = .transferring .read → s.chip.transfer = some t → t.position = some k → q.wdata = none →
    let x := Mem.readWord s.chip.mem (wordBase q.addr)
    let n := t.words.length + 1
    let c := { s.chip with port := none, transfer := some { t with words := t.words ++ [x], sum := t.sum + x },
                           im := { s.chip.im with current := none } }
    (n < 20 → exec (.planLoad (.run 1)) s = .next (s.withChip (Chip.settle
      { c with im := { c.im with waitCommand := some ⟨BitVec.ofNat 24 (m.num 1 + 80 * k + 4 * n), none⟩ } }))) ∧
    (20 ≤ n → exec (.planLoad (.run 1)) s =
      .next (s.withChip (Chip.settle { c with command := some { m with stage := .working .planBlock } })))) ∧
  (∀ (s : State) (m : Command) (b : Binding) (t : TransferEngine) (k : Nat), s.chip.AtWork m b 1 .planBlock →
    s.chip.transfer = some t → t.position = some k → k < 96 →
    let c := s.chip
    let right := t.words.getD 0 0 = 0x4F54504C#32 ∧ t.words.getD 1 0 = word k ∧ t.words.getD 18 0 = 0 ∧ t.sum = 0
    (right → exec (.planLoad (.run 1)) s =
      .next (s.withChip (Chip.settle { c with command := some { m with stage := .working (.planEntry 1) } }))) ∧
    (¬right → t.pass ≠ .install → exec (.planLoad (.run 1)) s =
      .next (s.withChip (Chip.settle (c.complete (refusedWith .badBlock (word (256 * k))))))) ∧
    (¬right → t.pass = .install → exec (.planLoad (.run 1)) s =
      .next (s.withChip (Chip.settle (c.complete (tornWith k [word k, word t.entries, word t.deletions])))))) ∧
  (∀ (s : State) (m : Command) (b : Binding) (t : TransferEngine) (k n : Nat), s.chip.AtWork m b 1 (.planEntry n) →
    s.chip.transfer = some t → t.position = some k → k < 96 → 1 ≤ n → n ≤ 8 →
    let c := s.chip
    let first := t.words.getD (2 * n) 0
    let second := t.words.getD (2 * n + 1) 0
    let r := entryRecord first
    let answers (d : Chip) : Prop := exec (.planLoad (.run 1)) s = .next (s.withChip (Chip.settle d))
    let fails (reason : Reason) (detail : Nat) : Prop :=
      (t.pass ≠ .install → answers (c.complete (refusedWith reason (word detail)))) ∧
      (t.pass = .install → answers (c.complete (tornWith k [word k, word t.entries, word t.deletions])))
    let reads (t' : TransferEngine) (j : Nat) : Prop := answers
      { c with transfer := some { t' with position := some j, words := [], sum := 0 },
               command := some { m with stage := .transferring .read },
               im := { c.im with waitCommand := some ⟨BitVec.ofNat 24 (m.num 1 + 80 * j), none⟩ } }
    let goesOn (t' : TransferEngine) : Prop :=
      (n < 8 → answers { c with transfer := some t', command := some { m with stage := .working (.planEntry (n + 1)) } }) ∧
      (n = 8 → t.pass = .install →
        answers { c with transfer := some t', command := some { m with stage := .working (.planInstall 1) } }) ∧
      (n = 8 → t.pass ≠ .install → k + 1 < m.num 2 → reads t' (k + 1)) ∧
      (n = 8 → t.pass ≠ .install → m.num 2 ≤ k + 1 → reads { t' with pass := .install, marks := [] } 0)
    let right := PlanEntryRight b.loops first second
    let inTest : Prop := ∃ (j : Fin 4) (w : WalkSlot), c.slots[j] = some w ∧
      (realZone w.zone = c.zoneOf r ∨ (first.getLsbD 16 = true ∧ realZone w.zone = zoneFor r (entryOf first second)))
    (first.toNat % 8 = 0 → goesOn t) ∧
    (first.toNat % 8 ≠ 0 →
      (¬right → fails .badBlock (256 * k + n)) ∧
      (right → r ∈ t.marks → fails .duplicateEntry r.val) ∧
      (right → r ∉ t.marks → c.points[r].state = .commissioned → fails .lockedPoint r.val) ∧
      (right → r ∉ t.marks → c.points[r].state ≠ .commissioned → inTest → fails .zoneInTest r.val) ∧
      (right → r ∉ t.marks → c.points[r].state ≠ .commissioned → ¬inTest →
        goesOn { t with marks := t.marks ++ [r] }))) ∧
  (∀ (s : State) (m : Command) (b : Binding) (t : TransferEngine) (k n : Nat), s.chip.AtWork m b 1 (.planInstall n) →
    s.chip.transfer = some t → t.position = some k → 1 ≤ n → n ≤ 8 →
    let c := s.chip
    let first := t.words.getD (2 * n) 0
    let second := t.words.getD (2 * n + 1) 0
    let answers (d : Chip) : Prop := exec (.planLoad (.run 1)) s = .next (s.withChip (Chip.settle d))
    let goesOn (d : Chip) (t' : TransferEngine) : Prop :=
      (n < 8 →
        answers { d with transfer := some t', command := some { m with stage := .working (.planInstall (n + 1)) } }) ∧
      (n = 8 → k + 1 < m.num 2 → answers
        { d with transfer := some { t' with blocks := t.blocks + 1, position := some (k + 1), words := [], sum := 0 },
                 command := some { m with stage := .transferring .read },
                 im := { c.im with waitCommand := some ⟨BitVec.ofNat 24 (m.num 1 + 80 * (k + 1)), none⟩ } }) ∧
      (n = 8 → m.num 2 ≤ k + 1 → answers (Chip.complete { d with transfer := some { t' with blocks := t.blocks + 1 } }
        (doneWith [word (t.blocks + 1), word t'.entries, word t'.deletions])))
    (entryLoop first = 0 → goesOn c t) ∧
    (∀ r : Rec, entryLoop first ≠ 0 → entryRecord first = r →
      let e := entryOf first second
      let d := { c with plan := c.plan.set r e }
      let p := c.points[r]
      ∃ zones, (∀ z : Zone, zones[z] =
          if z = c.zoneOf r ∧ z ≠ d.zoneOf r ∧ c.zones[z].opener.map (·.point) = some r
          then { c.zones[z] with opener := none } else c.zones[z]) ∧
        goesOn
          { d with zones := zones
                   points := c.points.set r
                     (d.derived r { p with state := rederiveState p.state c.plan[r] e p.foundClass false }) }
          { t with entries := t.entries + 1
                   deletions := if first.getLsbD 16 = true then t.deletions else t.deletions + 1 }))

/-- SNAPSHOT: its one check, then the snapshot second and the withdrawal of the header's signature; a block's 44 words
assembled from its eight points, with a sum of 0, and issued one after the other; after block 95 the header's sixteen words,
with a sum of 0, from word 1 to word 15 and word 0 last; DONE with w8 96 and w9 the second once the signature is in RAM
(R158, R166, R167, R190). -/
def Obligations.SnapshotTakesEffect : Prop :=
  (∀ (s : State) (m : Command) (b : Binding) (t : TransferEngine), s.chip.AtCheck m b 2 → s.chip.transfer = some t →
    (¬b.BufferPasses (m.num 1) 16960 → exec (.snapshot (.run 1)) s =
      .next (s.withChip (Chip.settle (s.chip.complete (refusedWith .badOperand 1))))) ∧
    (b.BufferPasses (m.num 1) 16960 → exec (.snapshot (.run 1)) s = .next (s.withChip (Chip.settle
      { s.chip with transfer := some { t with second := s.chip.seconds },
                    command := some { m with stage := .transferring .withdraw },
                    im := { s.chip.im with waitCommand := some ⟨BitVec.ofNat 24 (m.num 1), some 0⟩ } })))) ∧
  (∀ (s : State) (m : Command) (b : Binding) (t : TransferEngine) (k : Nat), s.chip.AtWork m b 2 .snapshotBlock →
    s.chip.transfer = some t → t.position = some k → k < 96 →
    ∃ ws : List Word,
      exec (.snapshot (.run 1)) s = .next (s.withChip (Chip.settle
        { s.chip with transfer := some { t with words := ws, sum := 0 },
                      command := some { m with stage := .transferring (.block 0) },
                      im := { s.chip.im with
                              waitCommand := some ⟨BitVec.ofNat 24 (m.num 1 + 64 + 176 * k), some 0x4F545342#32⟩ } })) ∧
      ws.length = 44 ∧ ws.foldl (· + ·) 0 = 0 ∧ ws.getD 0 0 = 0x4F545342#32 ∧ ws.getD 1 0 = word k ∧
      ws.getD 42 0 = word t.second ∧
      ∀ (i : Nat) (r : Rec), i < 8 → r.val = 8 * k + i →
        (ws.drop (2 + 5 * i)).take 5 = pointEntry r s.chip.plan[r] s.chip.points[r]) ∧
  (∀ (s : State) (m : Command) (t : TransferEngine) (q : MemRequest) (i : Nat), s.chip.porLow = false →
    s.chip.port = some (.internal .command q) → s.chip.command = some m → m.code = 2 → s.chip.transfer = some t →
    let c := { s.chip with mem := q.perform s.chip.mem, port := none, im := { s.chip.im with current := none } }
    let answers (d : Chip) : Prop := exec (.snapshot (.run 1)) s = .next (s.withChip (Chip.settle d))
    let issues (stage : Transfer) (addr j : Nat) : Prop := answers
      { c with command := some { m with stage := .transferring stage },
               im := { c.im with waitCommand := some ⟨BitVec.ofNat 24 addr, some (t.words.getD j 0)⟩ } }
    (m.stage = .transferring .withdraw → answers { c with command := some { m with stage := .working .snapshotBlock } }) ∧
    (∀ k, m.stage = .transferring (.block i) → t.position = some k →
      (i < 43 → issues (.block (i + 1)) (m.num 1 + 64 + 176 * k + 4 * (i + 1)) (i + 1)) ∧
      (43 ≤ i → k < 95 → answers { c with transfer := some { t with position := some (k + 1) },
                                          command := some { m with stage := .working .snapshotBlock } }) ∧
      (43 ≤ i → 95 ≤ k → answers { c with command := some { m with stage := .working .snapshotHeader } })) ∧
    (m.stage = .transferring (.header i) → t.position = none →
      (1 ≤ i → i < 15 → issues (.header (i + 1)) (m.num 1 + 4 * (i + 1)) (i + 1)) ∧
      (15 ≤ i → issues (.header 0) (m.num 1) 0))) ∧
  (∀ (s : State) (m : Command) (b : Binding) (t : TransferEngine), s.chip.AtWork m b 2 .snapshotHeader →
    s.chip.transfer = some t →
    ∃ ws : List Word,
      exec (.snapshot (.run 1)) s = .next (s.withChip (Chip.settle
        { s.chip with transfer := some { t with position := none, words := ws, sum := 0 },
                      command := some { m with stage := .transferring (.header 1) },
                      im := { s.chip.im with waitCommand := some ⟨BitVec.ofNat 24 (m.num 1 + 4), some 96⟩ } })) ∧
      ws.length = 16 ∧ ws.foldl (· + ·) 0 = 0 ∧ ws.getD 0 0 = 0x4F545348#32 ∧ ws.getD 1 0 = 96 ∧
      ws.getD 2 0 = word b.loops ∧ (∀ k : Fin 4, ws.getD (3 + k.val) 0 = word s.chip.profiles[k].toNat) ∧
      ws.getD 7 0 = word s.chip.sealed.toNat ∧ ws.getD 8 0 = word t.second ∧
      ∀ i, 9 ≤ i → i ≤ 14 → ws.getD i 0 = 0) ∧
  (∀ (s : State) (m : Command) (t : TransferEngine) (q : MemRequest), s.chip.porLow = false →
    s.chip.port = some (.internal .command q) → s.chip.command = some m → m.code = 2 →
    m.stage = .transferring (.header 0) → s.chip.transfer = some t →
    exec (.snapshot (.run 1)) s = .next (s.withChip (Chip.settle (Chip.complete
      { s.chip with mem := q.perform s.chip.mem, port := none, im := { s.chip.im with current := none } }
      (doneWith [word 96, word t.second])))))

/-- RESTORE: its checks in their order, then the read of the header; each word's DACK appends RAM's word, adds it to the sum and
issues the next word's read, and the header's sixteenth or a block's forty-fourth goes to the checks; the header's checks; a state block's own checks, then each
point entry's; a failure refuses in the verify pass and is TORN in the install pass; a block that passes leads to the next
block, to the install pass from block 0, or to its own installs. A point's install, and after the last slot the next block's
read or the final event; the final event and DONE (R44, R118, R158, R159, R168 to R173, R190; an absent entry's unused bits:
log 17). -/
def Obligations.RestoreTakesEffect : Prop :=
  (∀ (s : State) (m : Command) (b : Binding) (t : TransferEngine), s.chip.AtCheck m b 3 → s.chip.sealed = false →
    s.chip.transfer = some t →
    let c := s.chip
    let turnsAway (reason : Reason) (detail : Nat) : Prop := exec (.restore (.run 1)) s =
      .next (s.withChip (Chip.settle (c.complete (refusedWith reason (word detail)))))
    (¬b.BufferPasses (m.num 1) 16960 → turnsAway .badOperand 1) ∧
    (b.BufferPasses (m.num 1) 16960 →
      ((∃ k : Fin 4, c.slots[k] ≠ none) → turnsAway .walkActive 0) ∧
      ((∀ k : Fin 4, c.slots[k] = none) →
        (c.fireCount ≠ 0 → turnsAway .firePresent 0) ∧
        (c.fireCount = 0 → exec (.restore (.run 1)) s = .next (s.withChip (Chip.settle
          { c with transfer := some { t with position := none, words := [], sum := 0 },
                   command := some { m with stage := .transferring .read },
                   im := { c.im with waitCommand := some ⟨BitVec.ofNat 24 (m.num 1), none⟩ } })))))) ∧
  (∀ (s : State) (m : Command) (t : TransferEngine) (q : MemRequest), s.chip.porLow = false →
    s.chip.port = some (.internal .command q) → s.chip.command = some m → m.code = 3 →
    m.stage = .transferring .read → s.chip.transfer = some t → q.wdata = none →
    let x := Mem.readWord s.chip.mem (wordBase q.addr)
    let n := t.words.length + 1
    let c := { s.chip with port := none, transfer := some { t with words := t.words ++ [x], sum := t.sum + x },
                           im := { s.chip.im with current := none } }
    let block (base length : Nat) (checks : Work) : Prop :=
      (n < length → exec (.restore (.run 1)) s = .next (s.withChip (Chip.settle
        { c with im := { c.im with waitCommand := some ⟨BitVec.ofNat 24 (base + 4 * n), none⟩ } }))) ∧
      (length ≤ n → exec (.restore (.run 1)) s =
        .next (s.withChip (Chip.settle { c with command := some { m with stage := .working checks } })))
    (t.position = none → block (m.num 1) 16 .restoreHeader) ∧
    (∀ k, t.position = some k → block (m.num 1 + 64 + 176 * k) 44 .restoreBlock)) ∧
  (∀ (s : State) (m : Command) (b : Binding) (t : TransferEngine), s.chip.AtWork m b 3 .restoreHeader →
    s.chip.transfer = some t →
    let c := s.chip
    let w (i : Nat) : Nat := (t.words.getD i 0).toNat
    let right := t.words.getD 0 0 = 0x4F545348#32 ∧ t.words.foldl (· + ·) 0 = 0 ∧ w 1 = 96 ∧ (1 ≤ w 2 ∧ w 2 ≤ 4) ∧
      (∀ i, 3 ≤ i → i ≤ 6 → w i ≤ 15) ∧ w 7 ≤ 1 ∧ ∀ i, 9 ≤ i → i ≤ 14 → w i = 0
    (right → ∃ h : KeptHeader, (∀ i : Fin 4, h.codes[i].toNat = w (3 + i.val)) ∧ h.sealFlag.toNat = w 7 ∧
      h.second = t.words.getD 8 0 ∧
      exec (.restore (.run 1)) s = .next (s.withChip (Chip.settle
        { c with transfer := some { t with kept := some h, position := some 0, words := [], sum := 0 },
                 command := some { m with stage := .transferring .read },
                 im := { c.im with waitCommand := some ⟨BitVec.ofNat 24 (m.num 1 + 64), none⟩ } }))) ∧
    (¬right → t.pass ≠ .install → exec (.restore (.run 1)) s =
      .next (s.withChip (Chip.settle (c.complete (refusedWith .badBlock 0xFF00#32)))))) ∧
  (∀ (s : State) (m : Command) (b : Binding) (t : TransferEngine) (k : Nat), s.chip.AtWork m b 3 .restoreBlock →
    s.chip.transfer = some t → t.position = some k → k < 96 →
    let c := s.chip
    let answers (d : Chip) : Prop := exec (.restore (.run 1)) s = .next (s.withChip (Chip.settle d))
    let fails (slot : Nat) : Prop :=
      (t.pass ≠ .install → answers (c.complete (refusedWith .badBlock (word (256 * k + slot))))) ∧
      (t.pass = .install → answers (c.complete (tornWith k [word k, word (8 * k)])))
    let reads (t' : TransferEngine) (j : Nat) : Prop := answers
      { c with transfer := some { t' with position := some j, words := [], sum := 0 },
               command := some { m with stage := .transferring .read },
               im := { c.im with waitCommand := some ⟨BitVec.ofNat 24 (m.num 1 + 64 + 176 * j), none⟩ } }
    let whole : Prop := t.words.getD 0 0 = 0x4F545342#32 ∧ t.words.getD 1 0 = word k ∧
      t.kept.map (·.second) = some (t.words.getD 42 0) ∧ t.sum = 0
    let right (n : Nat) : Prop := ∀ i, 1 ≤ i → i ≤ n → StateEntryRight t.words k i
    (¬whole → fails 0) ∧
    (∀ n, whole → n < 8 → right n → ¬StateEntryRight t.words k (n + 1) → fails (n + 1)) ∧
    (whole → right 8 → t.pass = .install →
      answers { c with command := some { m with stage := .working (.restoreInstall 1) } }) ∧
    (whole → right 8 → t.pass ≠ .install → k < 95 → reads t (k + 1)) ∧
    (whole → right 8 → t.pass ≠ .install → k = 95 → reads { t with pass := .install } 0)) ∧
  (∀ (s : State) (m : Command) (b : Binding) (t : TransferEngine) (k n : Nat) (r : Rec),
    s.chip.AtWork m b 3 (.restoreInstall n) → s.chip.transfer = some t → t.position = some k → 1 ≤ n → n ≤ 8 →
    r.val = 8 * k + n - 1 →
    let c := s.chip
    let q := restoredPoint t.words n
    let d := { c with plan := c.plan.set r q.entry }
    let p := c.points[r]
    let answers (d : Chip) : Prop := exec (.restore (.run 1)) s = .next (s.withChip (Chip.settle d))
    ∃ zones, (∀ z : Zone, zones[z] =
        if z = c.zoneOf r ∧ z ≠ d.zoneOf r ∧ c.zones[z].opener.map (·.point) = some r
        then { c.zones[z] with opener := none } else c.zones[z]) ∧
      let e : Chip :=
        { d with
          zones := zones,
          points := c.points.set r (d.derived r { p with state := q.state, foundClass := q.foundClass,
                                                         testCount := q.testCount, firstSerial := q.firstSerial,
                                                         secondSerial := q.secondSerial }) }
      (n < 8 → answers { e with command := some { m with stage := .working (.restoreInstall (n + 1)) } }) ∧
      (n = 8 → k < 95 → answers
        { e with transfer := some { t with blocks := t.blocks + 1, position := some (k + 1), words := [], sum := 0 },
                 command := some { m with stage := .transferring .read },
                 im := { c.im with waitCommand := some ⟨BitVec.ofNat 24 (m.num 1 + 64 + 176 * (k + 1)), none⟩ } }) ∧
      (n = 8 → 95 ≤ k → answers
        { e with transfer := some { t with blocks := t.blocks + 1 },
                 command := some { m with stage := .working .restoreFinal } })) ∧
  (∀ (t : TransferEngine) (n : Nat), 1 ≤ n → n ≤ 8 →
    let w (i : Nat) : Word := t.words.getD (2 + 5 * (n - 1) + i) 0
    let q := restoredPoint t.words n
    q.entry = entryOf (w 0) (w 1) ∧ q.state.code = (w 2).toNat % 8 ∧
    q.foundClass = (if (w 2).getLsbD 7 = true then some ((w 2).extractLsb' 4 3) else none) ∧
    q.testCount = (w 2).toNat / 256 % 16 ∧ q.firstSerial = (if w 3 = 0 then none else some (w 3)) ∧
    q.secondSerial = (if w 4 = 0 then none else some (w 4))) ∧
  (∀ (s : State) (m : Command) (b : Binding) (t : TransferEngine) (h : KeptHeader), s.chip.AtWork m b 3 .restoreFinal →
    s.chip.transfer = some t → t.kept = some h →
    exec (.restore (.run 1)) s = .next (s.withChip (Chip.settle (Chip.complete
      { s.chip with profiles := h.codes, sealed := s.chip.sealed || h.sealFlag }
      (doneWith [word t.blocks, word (8 * t.blocks), if h.sealFlag = true then 1 else 0, h.second])))))

/-! ### Resets -/

/-- HOST_RESET: the part is UNBOUND with HRSTn low; queues, slots, openers, the command, the Report Writer and both pins are
cleared; every point keeps its commissioning fields and flags and loses the rest; the plan, the seal, the profiles, the consents, the counters
and RAM stand, the LISO counts with them; a held access is abandoned, any other goes on as a passed one, an internal access at
the port finishes there and goes to nobody, STARVE COUNT is 0 and nothing is owed. A BIND STATUS write at the port keeps it
until DACK, and RAM, w9 included, is then as it was at the reset (the model's reading of R22 and R31: log 14).
HOST_RESET_RELEASE lets HRSTn rise. POWER_ON_RESET: the power-on values over RAM and the pins as they stand;
POWER_ON_RELEASE takes the filtered levels from the pins, and the derived fields follow (R16, R22, R31, R32, R49, R76, R98,
R103, R124, R143, R157, R174, R183). The model's own: RAM standing through POWER_ON_RESET (log 2), the host's backlog given up at
HOST_RESET (log 7), what becomes of an access that waits at the arbiter (log 14), the pins while PORn is low (log 13). -/
def Obligations.ResetsTakeEffect : Prop :=
  ∀ s : State,
    (s.chip.porLow = false → ∃ u t : Chip, exec .hostReset s = .next (s.withChip t) ∧ t = u.grant ∧
      (s.chip.host = none → u.host = none) ∧
      (∀ h, s.chip.host = some h → h.stage = .held → u.host = none) ∧
      (∀ h, s.chip.host = some h → h.stage ≠ .held → u.host = some ⟨h.request, .passed, h.stage⟩) ∧
      (∀ cl q, s.chip.port = some (.internal cl q) →
        let answers : Prop := cl = .binding ∧ ∃ k, s.chip.bind = .checking k ∧
          ((∃ reason detail, k.phase = .rejecting reason detail) ∨ ∃ b, k.phase = .status b)
        (¬answers → u.port = some (.orphan q)) ∧
        (answers → u.port = some (.abandonedStatus q) ∧
          ∃ v, exec .downstreamAccessDone (s.withChip t) = .next (s.withChip v) ∧ v.mem = s.chip.mem)) ∧
      ((∀ cl q, s.chip.port ≠ some (.internal cl q)) → u.port = s.chip.port) ∧
      u.im = InternalMaster.fresh ∧ t.im = InternalMaster.fresh ∧ t.starve = 0 ∧ t.backlog = [] ∧
      t.answer = s.chip.answer ∧ t.hrstLow = true ∧ t.bind = .unbound ∧
      t.latch = none ∧ t.intake = [] ∧ t.command = none ∧ t.transfer = none ∧ t.overrun = false ∧ t.prepared = false ∧
      t.writer.queue = [] ∧ t.writer.inHand = none ∧ t.writer.gap = false ∧ t.fireCount = 0 ∧ t.firePin = false ∧
      t.irqPin = false ∧ t.rederivations = [] ∧ t.silenceOwed = [] ∧ t.walkOwed = [] ∧
      (∀ k : Fin 4, t.slots[k] = none) ∧
      (∀ z : Zone, t.zones[z] = { s.chip.zones[z] with walkSlot := none, opener := none }) ∧
      (∀ r : Rec, t.points[r] =
        { s.chip.points[r] with
          presence := .absent, verdict := .none, lastStatus := none, lastGood := 0, noreplyRun := 0, garbledRun := 0,
          driftRun := 0, prealarmReady := true, armed := false, suppressed := s.chip.suppression r }) ∧
      t.plan = s.chip.plan ∧ t.sealed = s.chip.sealed ∧ t.profiles = s.chip.profiles ∧ t.zoneMask = s.chip.zoneMask ∧
      t.lisoFiltered = s.chip.lisoFiltered ∧ t.lisoStable = s.chip.lisoStable ∧
      t.shiftRegister = s.chip.shiftRegister ∧ t.seconds = s.chip.seconds ∧ t.refCount = s.chip.refCount ∧
      t.mem = s.chip.mem ∧ t.dsel = s.chip.dsel ∧ t.porLow = false) ∧
    exec .hostResetRelease s = .next (s.withChip { s.chip with hrstLow := false }) ∧
    (∃ v, (∀ r : Rec, v[r] = PointRecord.fresh s.chip.lisoFiltered[loopOf r]) ∧
      exec .powerOnReset s = .next (s.withChip
        { Chip.reset with mem := s.chip.mem, dsel := s.chip.dsel, porLow := true, hrstLow := s.chip.hrstLow,
                          lisoFiltered := s.chip.lisoFiltered, points := v })) ∧
    (s.chip.porLow = true → ∀ liso : BitVec 4, ∃ t, exec (.powerOnRelease liso) s = .next (s.withChip t) ∧
      t.porLow = false ∧ (∀ l : Loop, t.lisoFiltered[l] = liso.getLsbD l.val ∧ t.lisoStable[l] = 0) ∧
      (∀ r : Rec, t.points[r] = t.derived r s.chip.points[r]) ∧
      t = { s.chip with porLow := false, lisoFiltered := t.lisoFiltered, lisoStable := t.lisoStable,
                        points := t.points })

end
end

