-- ==== Sys2Proof/Laws/State.lean ====
section
/-! SUPPORT. What each primitive update of the chip leaves alone, and what the changed table reads as. One frame lemma per
update, its fields in one conjunction, which simp takes apart. -/

namespace Sys2Proof.Machine

/-- `setPoint` changes points alone. -/
@[simp] theorem Chip.setPoint_frame (c : Chip) (r : Rec) (p : PointRecord) :
    (c.setPoint r p).mem = c.mem ∧ (c.setPoint r p).dsel = c.dsel ∧ (c.setPoint r p).porLow = c.porLow ∧
    (c.setPoint r p).hrstLow = c.hrstLow ∧ (c.setPoint r p).host = c.host ∧ (c.setPoint r p).backlog = c.backlog ∧
    (c.setPoint r p).answer = c.answer ∧ (c.setPoint r p).port = c.port ∧ (c.setPoint r p).starve = c.starve ∧
    (c.setPoint r p).im = c.im ∧ (c.setPoint r p).bind = c.bind ∧ (c.setPoint r p).seconds = c.seconds ∧
    (c.setPoint r p).refCount = c.refCount ∧ (c.setPoint r p).plan = c.plan ∧ (c.setPoint r p).sealed = c.sealed ∧
    (c.setPoint r p).profiles = c.profiles ∧ (c.setPoint r p).latch = c.latch ∧
    (c.setPoint r p).intake = c.intake ∧ (c.setPoint r p).rederivations = c.rederivations ∧
    (c.setPoint r p).silenceOwed = c.silenceOwed ∧ (c.setPoint r p).silenceExempt = c.silenceExempt ∧
    (c.setPoint r p).lisoFiltered = c.lisoFiltered ∧ (c.setPoint r p).lisoStable = c.lisoStable ∧
    (c.setPoint r p).shiftRegister = c.shiftRegister ∧ (c.setPoint r p).zoneMask = c.zoneMask ∧
    (c.setPoint r p).zones = c.zones ∧ (c.setPoint r p).fireCount = c.fireCount ∧
    (c.setPoint r p).firePin = c.firePin ∧ (c.setPoint r p).slots = c.slots ∧
    (c.setPoint r p).walkOwed = c.walkOwed ∧ (c.setPoint r p).command = c.command ∧
    (c.setPoint r p).overrun = c.overrun ∧ (c.setPoint r p).prepared = c.prepared ∧
    (c.setPoint r p).transfer = c.transfer ∧ (c.setPoint r p).writer = c.writer ∧ (c.setPoint r p).irqPin = c.irqPin := by
  and_intros <;> rfl

/-- `modPoint` changes points alone. -/
@[simp] theorem Chip.modPoint_frame (c : Chip) (r : Rec) (f : PointRecord → PointRecord) :
    (c.modPoint r f).mem = c.mem ∧ (c.modPoint r f).dsel = c.dsel ∧ (c.modPoint r f).porLow = c.porLow ∧
    (c.modPoint r f).hrstLow = c.hrstLow ∧ (c.modPoint r f).host = c.host ∧ (c.modPoint r f).backlog = c.backlog ∧
    (c.modPoint r f).answer = c.answer ∧ (c.modPoint r f).port = c.port ∧ (c.modPoint r f).starve = c.starve ∧
    (c.modPoint r f).im = c.im ∧ (c.modPoint r f).bind = c.bind ∧ (c.modPoint r f).seconds = c.seconds ∧
    (c.modPoint r f).refCount = c.refCount ∧ (c.modPoint r f).plan = c.plan ∧ (c.modPoint r f).sealed = c.sealed ∧
    (c.modPoint r f).profiles = c.profiles ∧ (c.modPoint r f).latch = c.latch ∧
    (c.modPoint r f).intake = c.intake ∧ (c.modPoint r f).rederivations = c.rederivations ∧
    (c.modPoint r f).silenceOwed = c.silenceOwed ∧ (c.modPoint r f).silenceExempt = c.silenceExempt ∧
    (c.modPoint r f).lisoFiltered = c.lisoFiltered ∧ (c.modPoint r f).lisoStable = c.lisoStable ∧
    (c.modPoint r f).shiftRegister = c.shiftRegister ∧ (c.modPoint r f).zoneMask = c.zoneMask ∧
    (c.modPoint r f).zones = c.zones ∧ (c.modPoint r f).fireCount = c.fireCount ∧
    (c.modPoint r f).firePin = c.firePin ∧ (c.modPoint r f).slots = c.slots ∧
    (c.modPoint r f).walkOwed = c.walkOwed ∧ (c.modPoint r f).command = c.command ∧
    (c.modPoint r f).overrun = c.overrun ∧ (c.modPoint r f).prepared = c.prepared ∧
    (c.modPoint r f).transfer = c.transfer ∧ (c.modPoint r f).writer = c.writer ∧ (c.modPoint r f).irqPin = c.irqPin := by
  and_intros <;> rfl

/-- `setPlan` changes plan alone. -/
@[simp] theorem Chip.setPlan_frame (c : Chip) (r : Rec) (e : Option PlanEntry) :
    (c.setPlan r e).mem = c.mem ∧ (c.setPlan r e).dsel = c.dsel ∧ (c.setPlan r e).porLow = c.porLow ∧
    (c.setPlan r e).hrstLow = c.hrstLow ∧ (c.setPlan r e).host = c.host ∧ (c.setPlan r e).backlog = c.backlog ∧
    (c.setPlan r e).answer = c.answer ∧ (c.setPlan r e).port = c.port ∧ (c.setPlan r e).starve = c.starve ∧
    (c.setPlan r e).im = c.im ∧ (c.setPlan r e).bind = c.bind ∧ (c.setPlan r e).seconds = c.seconds ∧
    (c.setPlan r e).refCount = c.refCount ∧ (c.setPlan r e).sealed = c.sealed ∧
    (c.setPlan r e).profiles = c.profiles ∧ (c.setPlan r e).latch = c.latch ∧ (c.setPlan r e).intake = c.intake ∧
    (c.setPlan r e).points = c.points ∧ (c.setPlan r e).rederivations = c.rederivations ∧
    (c.setPlan r e).silenceOwed = c.silenceOwed ∧ (c.setPlan r e).silenceExempt = c.silenceExempt ∧
    (c.setPlan r e).lisoFiltered = c.lisoFiltered ∧ (c.setPlan r e).lisoStable = c.lisoStable ∧
    (c.setPlan r e).shiftRegister = c.shiftRegister ∧ (c.setPlan r e).zoneMask = c.zoneMask ∧
    (c.setPlan r e).zones = c.zones ∧ (c.setPlan r e).fireCount = c.fireCount ∧
    (c.setPlan r e).firePin = c.firePin ∧ (c.setPlan r e).slots = c.slots ∧ (c.setPlan r e).walkOwed = c.walkOwed ∧
    (c.setPlan r e).command = c.command ∧ (c.setPlan r e).overrun = c.overrun ∧
    (c.setPlan r e).prepared = c.prepared ∧ (c.setPlan r e).transfer = c.transfer ∧
    (c.setPlan r e).writer = c.writer ∧ (c.setPlan r e).irqPin = c.irqPin := by
  and_intros <;> rfl

/-- `modZone` changes zones alone. -/
@[simp] theorem Chip.modZone_frame (c : Chip) (z : Zone) (f : ZoneRecord → ZoneRecord) :
    (c.modZone z f).mem = c.mem ∧ (c.modZone z f).dsel = c.dsel ∧ (c.modZone z f).porLow = c.porLow ∧
    (c.modZone z f).hrstLow = c.hrstLow ∧ (c.modZone z f).host = c.host ∧ (c.modZone z f).backlog = c.backlog ∧
    (c.modZone z f).answer = c.answer ∧ (c.modZone z f).port = c.port ∧ (c.modZone z f).starve = c.starve ∧
    (c.modZone z f).im = c.im ∧ (c.modZone z f).bind = c.bind ∧ (c.modZone z f).seconds = c.seconds ∧
    (c.modZone z f).refCount = c.refCount ∧ (c.modZone z f).plan = c.plan ∧ (c.modZone z f).sealed = c.sealed ∧
    (c.modZone z f).profiles = c.profiles ∧ (c.modZone z f).latch = c.latch ∧ (c.modZone z f).intake = c.intake ∧
    (c.modZone z f).points = c.points ∧ (c.modZone z f).rederivations = c.rederivations ∧
    (c.modZone z f).silenceOwed = c.silenceOwed ∧ (c.modZone z f).silenceExempt = c.silenceExempt ∧
    (c.modZone z f).lisoFiltered = c.lisoFiltered ∧ (c.modZone z f).lisoStable = c.lisoStable ∧
    (c.modZone z f).shiftRegister = c.shiftRegister ∧ (c.modZone z f).zoneMask = c.zoneMask ∧
    (c.modZone z f).fireCount = c.fireCount ∧ (c.modZone z f).firePin = c.firePin ∧
    (c.modZone z f).slots = c.slots ∧ (c.modZone z f).walkOwed = c.walkOwed ∧ (c.modZone z f).command = c.command ∧
    (c.modZone z f).overrun = c.overrun ∧ (c.modZone z f).prepared = c.prepared ∧
    (c.modZone z f).transfer = c.transfer ∧ (c.modZone z f).writer = c.writer ∧ (c.modZone z f).irqPin = c.irqPin := by
  and_intros <;> rfl

/-- `setSlot` changes slots alone. -/
@[simp] theorem Chip.setSlot_frame (c : Chip) (k : Fin 4) (w : Option WalkSlot) :
    (c.setSlot k w).mem = c.mem ∧ (c.setSlot k w).dsel = c.dsel ∧ (c.setSlot k w).porLow = c.porLow ∧
    (c.setSlot k w).hrstLow = c.hrstLow ∧ (c.setSlot k w).host = c.host ∧ (c.setSlot k w).backlog = c.backlog ∧
    (c.setSlot k w).answer = c.answer ∧ (c.setSlot k w).port = c.port ∧ (c.setSlot k w).starve = c.starve ∧
    (c.setSlot k w).im = c.im ∧ (c.setSlot k w).bind = c.bind ∧ (c.setSlot k w).seconds = c.seconds ∧
    (c.setSlot k w).refCount = c.refCount ∧ (c.setSlot k w).plan = c.plan ∧ (c.setSlot k w).sealed = c.sealed ∧
    (c.setSlot k w).profiles = c.profiles ∧ (c.setSlot k w).latch = c.latch ∧ (c.setSlot k w).intake = c.intake ∧
    (c.setSlot k w).points = c.points ∧ (c.setSlot k w).rederivations = c.rederivations ∧
    (c.setSlot k w).silenceOwed = c.silenceOwed ∧ (c.setSlot k w).silenceExempt = c.silenceExempt ∧
    (c.setSlot k w).lisoFiltered = c.lisoFiltered ∧ (c.setSlot k w).lisoStable = c.lisoStable ∧
    (c.setSlot k w).shiftRegister = c.shiftRegister ∧ (c.setSlot k w).zoneMask = c.zoneMask ∧
    (c.setSlot k w).zones = c.zones ∧ (c.setSlot k w).fireCount = c.fireCount ∧
    (c.setSlot k w).firePin = c.firePin ∧ (c.setSlot k w).walkOwed = c.walkOwed ∧
    (c.setSlot k w).command = c.command ∧ (c.setSlot k w).overrun = c.overrun ∧
    (c.setSlot k w).prepared = c.prepared ∧ (c.setSlot k w).transfer = c.transfer ∧
    (c.setSlot k w).writer = c.writer ∧ (c.setSlot k w).irqPin = c.irqPin := by
  and_intros <;> rfl

/-- `issueCommand` changes im alone. -/
@[simp] theorem Chip.issueCommand_frame (c : Chip) (a : Nat) (w : Option Word) :
    (c.issueCommand a w).mem = c.mem ∧ (c.issueCommand a w).dsel = c.dsel ∧
    (c.issueCommand a w).porLow = c.porLow ∧ (c.issueCommand a w).hrstLow = c.hrstLow ∧
    (c.issueCommand a w).host = c.host ∧ (c.issueCommand a w).backlog = c.backlog ∧
    (c.issueCommand a w).answer = c.answer ∧ (c.issueCommand a w).port = c.port ∧
    (c.issueCommand a w).starve = c.starve ∧ (c.issueCommand a w).bind = c.bind ∧
    (c.issueCommand a w).seconds = c.seconds ∧ (c.issueCommand a w).refCount = c.refCount ∧
    (c.issueCommand a w).plan = c.plan ∧ (c.issueCommand a w).sealed = c.sealed ∧
    (c.issueCommand a w).profiles = c.profiles ∧ (c.issueCommand a w).latch = c.latch ∧
    (c.issueCommand a w).intake = c.intake ∧ (c.issueCommand a w).points = c.points ∧
    (c.issueCommand a w).rederivations = c.rederivations ∧ (c.issueCommand a w).silenceOwed = c.silenceOwed ∧
    (c.issueCommand a w).silenceExempt = c.silenceExempt ∧ (c.issueCommand a w).lisoFiltered = c.lisoFiltered ∧
    (c.issueCommand a w).lisoStable = c.lisoStable ∧ (c.issueCommand a w).shiftRegister = c.shiftRegister ∧
    (c.issueCommand a w).zoneMask = c.zoneMask ∧ (c.issueCommand a w).zones = c.zones ∧
    (c.issueCommand a w).fireCount = c.fireCount ∧ (c.issueCommand a w).firePin = c.firePin ∧
    (c.issueCommand a w).slots = c.slots ∧ (c.issueCommand a w).walkOwed = c.walkOwed ∧
    (c.issueCommand a w).command = c.command ∧ (c.issueCommand a w).overrun = c.overrun ∧
    (c.issueCommand a w).prepared = c.prepared ∧ (c.issueCommand a w).transfer = c.transfer ∧
    (c.issueCommand a w).writer = c.writer ∧ (c.issueCommand a w).irqPin = c.irqPin := by
  and_intros <;> rfl

/-- `issueReport` changes im alone. -/
@[simp] theorem Chip.issueReport_frame (c : Chip) (a : Nat) (w : Option Word) :
    (c.issueReport a w).mem = c.mem ∧ (c.issueReport a w).dsel = c.dsel ∧ (c.issueReport a w).porLow = c.porLow ∧
    (c.issueReport a w).hrstLow = c.hrstLow ∧ (c.issueReport a w).host = c.host ∧
    (c.issueReport a w).backlog = c.backlog ∧ (c.issueReport a w).answer = c.answer ∧
    (c.issueReport a w).port = c.port ∧ (c.issueReport a w).starve = c.starve ∧ (c.issueReport a w).bind = c.bind ∧
    (c.issueReport a w).seconds = c.seconds ∧ (c.issueReport a w).refCount = c.refCount ∧
    (c.issueReport a w).plan = c.plan ∧ (c.issueReport a w).sealed = c.sealed ∧
    (c.issueReport a w).profiles = c.profiles ∧ (c.issueReport a w).latch = c.latch ∧
    (c.issueReport a w).intake = c.intake ∧ (c.issueReport a w).points = c.points ∧
    (c.issueReport a w).rederivations = c.rederivations ∧ (c.issueReport a w).silenceOwed = c.silenceOwed ∧
    (c.issueReport a w).silenceExempt = c.silenceExempt ∧ (c.issueReport a w).lisoFiltered = c.lisoFiltered ∧
    (c.issueReport a w).lisoStable = c.lisoStable ∧ (c.issueReport a w).shiftRegister = c.shiftRegister ∧
    (c.issueReport a w).zoneMask = c.zoneMask ∧ (c.issueReport a w).zones = c.zones ∧
    (c.issueReport a w).fireCount = c.fireCount ∧ (c.issueReport a w).firePin = c.firePin ∧
    (c.issueReport a w).slots = c.slots ∧ (c.issueReport a w).walkOwed = c.walkOwed ∧
    (c.issueReport a w).command = c.command ∧ (c.issueReport a w).overrun = c.overrun ∧
    (c.issueReport a w).prepared = c.prepared ∧ (c.issueReport a w).transfer = c.transfer ∧
    (c.issueReport a w).writer = c.writer ∧ (c.issueReport a w).irqPin = c.irqPin := by
  and_intros <;> rfl

/-- `issueBinding` changes im alone. -/
@[simp] theorem Chip.issueBinding_frame (c : Chip) (a : Nat) (w : Option Word) :
    (c.issueBinding a w).mem = c.mem ∧ (c.issueBinding a w).dsel = c.dsel ∧
    (c.issueBinding a w).porLow = c.porLow ∧ (c.issueBinding a w).hrstLow = c.hrstLow ∧
    (c.issueBinding a w).host = c.host ∧ (c.issueBinding a w).backlog = c.backlog ∧
    (c.issueBinding a w).answer = c.answer ∧ (c.issueBinding a w).port = c.port ∧
    (c.issueBinding a w).starve = c.starve ∧ (c.issueBinding a w).bind = c.bind ∧
    (c.issueBinding a w).seconds = c.seconds ∧ (c.issueBinding a w).refCount = c.refCount ∧
    (c.issueBinding a w).plan = c.plan ∧ (c.issueBinding a w).sealed = c.sealed ∧
    (c.issueBinding a w).profiles = c.profiles ∧ (c.issueBinding a w).latch = c.latch ∧
    (c.issueBinding a w).intake = c.intake ∧ (c.issueBinding a w).points = c.points ∧
    (c.issueBinding a w).rederivations = c.rederivations ∧ (c.issueBinding a w).silenceOwed = c.silenceOwed ∧
    (c.issueBinding a w).silenceExempt = c.silenceExempt ∧ (c.issueBinding a w).lisoFiltered = c.lisoFiltered ∧
    (c.issueBinding a w).lisoStable = c.lisoStable ∧ (c.issueBinding a w).shiftRegister = c.shiftRegister ∧
    (c.issueBinding a w).zoneMask = c.zoneMask ∧ (c.issueBinding a w).zones = c.zones ∧
    (c.issueBinding a w).fireCount = c.fireCount ∧ (c.issueBinding a w).firePin = c.firePin ∧
    (c.issueBinding a w).slots = c.slots ∧ (c.issueBinding a w).walkOwed = c.walkOwed ∧
    (c.issueBinding a w).command = c.command ∧ (c.issueBinding a w).overrun = c.overrun ∧
    (c.issueBinding a w).prepared = c.prepared ∧ (c.issueBinding a w).transfer = c.transfer ∧
    (c.issueBinding a w).writer = c.writer ∧ (c.issueBinding a w).irqPin = c.irqPin := by
  and_intros <;> rfl

/-- `goto` changes command alone. -/
@[simp] theorem Chip.goto_frame (c : Chip) (m : Command) (g : CommandStage) :
    (c.goto m g).mem = c.mem ∧ (c.goto m g).dsel = c.dsel ∧ (c.goto m g).porLow = c.porLow ∧
    (c.goto m g).hrstLow = c.hrstLow ∧ (c.goto m g).host = c.host ∧ (c.goto m g).backlog = c.backlog ∧
    (c.goto m g).answer = c.answer ∧ (c.goto m g).port = c.port ∧ (c.goto m g).starve = c.starve ∧
    (c.goto m g).im = c.im ∧ (c.goto m g).bind = c.bind ∧ (c.goto m g).seconds = c.seconds ∧
    (c.goto m g).refCount = c.refCount ∧ (c.goto m g).plan = c.plan ∧ (c.goto m g).sealed = c.sealed ∧
    (c.goto m g).profiles = c.profiles ∧ (c.goto m g).latch = c.latch ∧ (c.goto m g).intake = c.intake ∧
    (c.goto m g).points = c.points ∧ (c.goto m g).rederivations = c.rederivations ∧
    (c.goto m g).silenceOwed = c.silenceOwed ∧ (c.goto m g).silenceExempt = c.silenceExempt ∧
    (c.goto m g).lisoFiltered = c.lisoFiltered ∧ (c.goto m g).lisoStable = c.lisoStable ∧
    (c.goto m g).shiftRegister = c.shiftRegister ∧ (c.goto m g).zoneMask = c.zoneMask ∧
    (c.goto m g).zones = c.zones ∧ (c.goto m g).fireCount = c.fireCount ∧ (c.goto m g).firePin = c.firePin ∧
    (c.goto m g).slots = c.slots ∧ (c.goto m g).walkOwed = c.walkOwed ∧ (c.goto m g).overrun = c.overrun ∧
    (c.goto m g).prepared = c.prepared ∧ (c.goto m g).transfer = c.transfer ∧ (c.goto m g).writer = c.writer ∧
    (c.goto m g).irqPin = c.irqPin := by
  and_intros <;> rfl

/-- `gotoWork` changes command alone. -/
@[simp] theorem Chip.gotoWork_frame (c : Chip) (m : Command) (w : Work) :
    (c.gotoWork m w).mem = c.mem ∧ (c.gotoWork m w).dsel = c.dsel ∧ (c.gotoWork m w).porLow = c.porLow ∧
    (c.gotoWork m w).hrstLow = c.hrstLow ∧ (c.gotoWork m w).host = c.host ∧ (c.gotoWork m w).backlog = c.backlog ∧
    (c.gotoWork m w).answer = c.answer ∧ (c.gotoWork m w).port = c.port ∧ (c.gotoWork m w).starve = c.starve ∧
    (c.gotoWork m w).im = c.im ∧ (c.gotoWork m w).bind = c.bind ∧ (c.gotoWork m w).seconds = c.seconds ∧
    (c.gotoWork m w).refCount = c.refCount ∧ (c.gotoWork m w).plan = c.plan ∧ (c.gotoWork m w).sealed = c.sealed ∧
    (c.gotoWork m w).profiles = c.profiles ∧ (c.gotoWork m w).latch = c.latch ∧
    (c.gotoWork m w).intake = c.intake ∧ (c.gotoWork m w).points = c.points ∧
    (c.gotoWork m w).rederivations = c.rederivations ∧ (c.gotoWork m w).silenceOwed = c.silenceOwed ∧
    (c.gotoWork m w).silenceExempt = c.silenceExempt ∧ (c.gotoWork m w).lisoFiltered = c.lisoFiltered ∧
    (c.gotoWork m w).lisoStable = c.lisoStable ∧ (c.gotoWork m w).shiftRegister = c.shiftRegister ∧
    (c.gotoWork m w).zoneMask = c.zoneMask ∧ (c.gotoWork m w).zones = c.zones ∧
    (c.gotoWork m w).fireCount = c.fireCount ∧ (c.gotoWork m w).firePin = c.firePin ∧
    (c.gotoWork m w).slots = c.slots ∧ (c.gotoWork m w).walkOwed = c.walkOwed ∧
    (c.gotoWork m w).overrun = c.overrun ∧ (c.gotoWork m w).prepared = c.prepared ∧
    (c.gotoWork m w).transfer = c.transfer ∧ (c.gotoWork m w).writer = c.writer ∧ (c.gotoWork m w).irqPin = c.irqPin := by
  and_intros <;> rfl

/-- `acknowledge` changes host, answer alone. -/
@[simp] theorem Chip.acknowledge_frame (c : Chip) (a : HostAnswer) :
    (c.acknowledge a).mem = c.mem ∧ (c.acknowledge a).dsel = c.dsel ∧ (c.acknowledge a).porLow = c.porLow ∧
    (c.acknowledge a).hrstLow = c.hrstLow ∧ (c.acknowledge a).backlog = c.backlog ∧
    (c.acknowledge a).port = c.port ∧ (c.acknowledge a).starve = c.starve ∧ (c.acknowledge a).im = c.im ∧
    (c.acknowledge a).bind = c.bind ∧ (c.acknowledge a).seconds = c.seconds ∧
    (c.acknowledge a).refCount = c.refCount ∧ (c.acknowledge a).plan = c.plan ∧
    (c.acknowledge a).sealed = c.sealed ∧ (c.acknowledge a).profiles = c.profiles ∧
    (c.acknowledge a).latch = c.latch ∧ (c.acknowledge a).intake = c.intake ∧ (c.acknowledge a).points = c.points ∧
    (c.acknowledge a).rederivations = c.rederivations ∧ (c.acknowledge a).silenceOwed = c.silenceOwed ∧
    (c.acknowledge a).silenceExempt = c.silenceExempt ∧ (c.acknowledge a).lisoFiltered = c.lisoFiltered ∧
    (c.acknowledge a).lisoStable = c.lisoStable ∧ (c.acknowledge a).shiftRegister = c.shiftRegister ∧
    (c.acknowledge a).zoneMask = c.zoneMask ∧ (c.acknowledge a).zones = c.zones ∧
    (c.acknowledge a).fireCount = c.fireCount ∧ (c.acknowledge a).firePin = c.firePin ∧
    (c.acknowledge a).slots = c.slots ∧ (c.acknowledge a).walkOwed = c.walkOwed ∧
    (c.acknowledge a).command = c.command ∧ (c.acknowledge a).overrun = c.overrun ∧
    (c.acknowledge a).prepared = c.prepared ∧ (c.acknowledge a).transfer = c.transfer ∧
    (c.acknowledge a).writer = c.writer ∧ (c.acknowledge a).irqPin = c.irqPin := by
  and_intros <;> rfl

/-- `latchSerial` changes latch alone. -/
@[simp] theorem Chip.latchSerial_frame (c : Chip) (r : Rec) (w : Word) :
    (c.latchSerial r w).mem = c.mem ∧ (c.latchSerial r w).dsel = c.dsel ∧ (c.latchSerial r w).porLow = c.porLow ∧
    (c.latchSerial r w).hrstLow = c.hrstLow ∧ (c.latchSerial r w).host = c.host ∧
    (c.latchSerial r w).backlog = c.backlog ∧ (c.latchSerial r w).answer = c.answer ∧
    (c.latchSerial r w).port = c.port ∧ (c.latchSerial r w).starve = c.starve ∧ (c.latchSerial r w).im = c.im ∧
    (c.latchSerial r w).bind = c.bind ∧ (c.latchSerial r w).seconds = c.seconds ∧
    (c.latchSerial r w).refCount = c.refCount ∧ (c.latchSerial r w).plan = c.plan ∧
    (c.latchSerial r w).sealed = c.sealed ∧ (c.latchSerial r w).profiles = c.profiles ∧
    (c.latchSerial r w).intake = c.intake ∧ (c.latchSerial r w).points = c.points ∧
    (c.latchSerial r w).rederivations = c.rederivations ∧ (c.latchSerial r w).silenceOwed = c.silenceOwed ∧
    (c.latchSerial r w).silenceExempt = c.silenceExempt ∧ (c.latchSerial r w).lisoFiltered = c.lisoFiltered ∧
    (c.latchSerial r w).lisoStable = c.lisoStable ∧ (c.latchSerial r w).shiftRegister = c.shiftRegister ∧
    (c.latchSerial r w).zoneMask = c.zoneMask ∧ (c.latchSerial r w).zones = c.zones ∧
    (c.latchSerial r w).fireCount = c.fireCount ∧ (c.latchSerial r w).firePin = c.firePin ∧
    (c.latchSerial r w).slots = c.slots ∧ (c.latchSerial r w).walkOwed = c.walkOwed ∧
    (c.latchSerial r w).command = c.command ∧ (c.latchSerial r w).overrun = c.overrun ∧
    (c.latchSerial r w).prepared = c.prepared ∧ (c.latchSerial r w).transfer = c.transfer ∧
    (c.latchSerial r w).writer = c.writer ∧ (c.latchSerial r w).irqPin = c.irqPin := by
  and_intros <;> rfl

/-- `oweRederivations` changes rederivations alone. -/
@[simp] theorem Chip.oweRederivations_frame (c : Chip) (rs : List Rec) :
    (c.oweRederivations rs).mem = c.mem ∧ (c.oweRederivations rs).dsel = c.dsel ∧
    (c.oweRederivations rs).porLow = c.porLow ∧ (c.oweRederivations rs).hrstLow = c.hrstLow ∧
    (c.oweRederivations rs).host = c.host ∧ (c.oweRederivations rs).backlog = c.backlog ∧
    (c.oweRederivations rs).answer = c.answer ∧ (c.oweRederivations rs).port = c.port ∧
    (c.oweRederivations rs).starve = c.starve ∧ (c.oweRederivations rs).im = c.im ∧
    (c.oweRederivations rs).bind = c.bind ∧ (c.oweRederivations rs).seconds = c.seconds ∧
    (c.oweRederivations rs).refCount = c.refCount ∧ (c.oweRederivations rs).plan = c.plan ∧
    (c.oweRederivations rs).sealed = c.sealed ∧ (c.oweRederivations rs).profiles = c.profiles ∧
    (c.oweRederivations rs).latch = c.latch ∧ (c.oweRederivations rs).intake = c.intake ∧
    (c.oweRederivations rs).points = c.points ∧ (c.oweRederivations rs).silenceOwed = c.silenceOwed ∧
    (c.oweRederivations rs).silenceExempt = c.silenceExempt ∧
    (c.oweRederivations rs).lisoFiltered = c.lisoFiltered ∧ (c.oweRederivations rs).lisoStable = c.lisoStable ∧
    (c.oweRederivations rs).shiftRegister = c.shiftRegister ∧ (c.oweRederivations rs).zoneMask = c.zoneMask ∧
    (c.oweRederivations rs).zones = c.zones ∧ (c.oweRederivations rs).fireCount = c.fireCount ∧
    (c.oweRederivations rs).firePin = c.firePin ∧ (c.oweRederivations rs).slots = c.slots ∧
    (c.oweRederivations rs).walkOwed = c.walkOwed ∧ (c.oweRederivations rs).command = c.command ∧
    (c.oweRederivations rs).overrun = c.overrun ∧ (c.oweRederivations rs).prepared = c.prepared ∧
    (c.oweRederivations rs).transfer = c.transfer ∧ (c.oweRederivations rs).writer = c.writer ∧
    (c.oweRederivations rs).irqPin = c.irqPin := by
  and_intros <;> rfl

/-- `settleIrq` changes irqPin alone. -/
@[simp] theorem Chip.settleIrq_frame (c : Chip) :
    (c.settleIrq).mem = c.mem ∧ (c.settleIrq).dsel = c.dsel ∧ (c.settleIrq).porLow = c.porLow ∧
    (c.settleIrq).hrstLow = c.hrstLow ∧ (c.settleIrq).host = c.host ∧ (c.settleIrq).backlog = c.backlog ∧
    (c.settleIrq).answer = c.answer ∧ (c.settleIrq).port = c.port ∧ (c.settleIrq).starve = c.starve ∧
    (c.settleIrq).im = c.im ∧ (c.settleIrq).bind = c.bind ∧ (c.settleIrq).seconds = c.seconds ∧
    (c.settleIrq).refCount = c.refCount ∧ (c.settleIrq).plan = c.plan ∧ (c.settleIrq).sealed = c.sealed ∧
    (c.settleIrq).profiles = c.profiles ∧ (c.settleIrq).latch = c.latch ∧ (c.settleIrq).intake = c.intake ∧
    (c.settleIrq).points = c.points ∧ (c.settleIrq).rederivations = c.rederivations ∧
    (c.settleIrq).silenceOwed = c.silenceOwed ∧ (c.settleIrq).silenceExempt = c.silenceExempt ∧
    (c.settleIrq).lisoFiltered = c.lisoFiltered ∧ (c.settleIrq).lisoStable = c.lisoStable ∧
    (c.settleIrq).shiftRegister = c.shiftRegister ∧ (c.settleIrq).zoneMask = c.zoneMask ∧
    (c.settleIrq).zones = c.zones ∧ (c.settleIrq).fireCount = c.fireCount ∧ (c.settleIrq).firePin = c.firePin ∧
    (c.settleIrq).slots = c.slots ∧ (c.settleIrq).walkOwed = c.walkOwed ∧ (c.settleIrq).command = c.command ∧
    (c.settleIrq).overrun = c.overrun ∧ (c.settleIrq).prepared = c.prepared ∧ (c.settleIrq).transfer = c.transfer ∧
    (c.settleIrq).writer = c.writer := by
  and_intros <;> rfl

/-- `rederive` changes points alone. -/
@[simp] theorem Chip.rederive_frame (c : Chip) (r : Rec) :
    (c.rederive r).mem = c.mem ∧ (c.rederive r).dsel = c.dsel ∧ (c.rederive r).porLow = c.porLow ∧
    (c.rederive r).hrstLow = c.hrstLow ∧ (c.rederive r).host = c.host ∧ (c.rederive r).backlog = c.backlog ∧
    (c.rederive r).answer = c.answer ∧ (c.rederive r).port = c.port ∧ (c.rederive r).starve = c.starve ∧
    (c.rederive r).im = c.im ∧ (c.rederive r).bind = c.bind ∧ (c.rederive r).seconds = c.seconds ∧
    (c.rederive r).refCount = c.refCount ∧ (c.rederive r).plan = c.plan ∧ (c.rederive r).sealed = c.sealed ∧
    (c.rederive r).profiles = c.profiles ∧ (c.rederive r).latch = c.latch ∧ (c.rederive r).intake = c.intake ∧
    (c.rederive r).rederivations = c.rederivations ∧ (c.rederive r).silenceOwed = c.silenceOwed ∧
    (c.rederive r).silenceExempt = c.silenceExempt ∧ (c.rederive r).lisoFiltered = c.lisoFiltered ∧
    (c.rederive r).lisoStable = c.lisoStable ∧ (c.rederive r).shiftRegister = c.shiftRegister ∧
    (c.rederive r).zoneMask = c.zoneMask ∧ (c.rederive r).zones = c.zones ∧
    (c.rederive r).fireCount = c.fireCount ∧ (c.rederive r).firePin = c.firePin ∧ (c.rederive r).slots = c.slots ∧
    (c.rederive r).walkOwed = c.walkOwed ∧ (c.rederive r).command = c.command ∧
    (c.rederive r).overrun = c.overrun ∧ (c.rederive r).prepared = c.prepared ∧
    (c.rederive r).transfer = c.transfer ∧ (c.rederive r).writer = c.writer ∧ (c.rederive r).irqPin = c.irqPin := by
  and_intros <;> rfl

/-- `setVerdict` changes points, fireCount, firePin alone. -/
@[simp] theorem Chip.setVerdict_frame (c : Chip) (r : Rec) (v : Verdict) :
    (c.setVerdict r v).mem = c.mem ∧ (c.setVerdict r v).dsel = c.dsel ∧ (c.setVerdict r v).porLow = c.porLow ∧
    (c.setVerdict r v).hrstLow = c.hrstLow ∧ (c.setVerdict r v).host = c.host ∧
    (c.setVerdict r v).backlog = c.backlog ∧ (c.setVerdict r v).answer = c.answer ∧
    (c.setVerdict r v).port = c.port ∧ (c.setVerdict r v).starve = c.starve ∧ (c.setVerdict r v).im = c.im ∧
    (c.setVerdict r v).bind = c.bind ∧ (c.setVerdict r v).seconds = c.seconds ∧
    (c.setVerdict r v).refCount = c.refCount ∧ (c.setVerdict r v).plan = c.plan ∧
    (c.setVerdict r v).sealed = c.sealed ∧ (c.setVerdict r v).profiles = c.profiles ∧
    (c.setVerdict r v).latch = c.latch ∧ (c.setVerdict r v).intake = c.intake ∧
    (c.setVerdict r v).rederivations = c.rederivations ∧ (c.setVerdict r v).silenceOwed = c.silenceOwed ∧
    (c.setVerdict r v).silenceExempt = c.silenceExempt ∧ (c.setVerdict r v).lisoFiltered = c.lisoFiltered ∧
    (c.setVerdict r v).lisoStable = c.lisoStable ∧ (c.setVerdict r v).shiftRegister = c.shiftRegister ∧
    (c.setVerdict r v).zoneMask = c.zoneMask ∧ (c.setVerdict r v).zones = c.zones ∧
    (c.setVerdict r v).slots = c.slots ∧ (c.setVerdict r v).walkOwed = c.walkOwed ∧
    (c.setVerdict r v).command = c.command ∧ (c.setVerdict r v).overrun = c.overrun ∧
    (c.setVerdict r v).prepared = c.prepared ∧ (c.setVerdict r v).transfer = c.transfer ∧
    (c.setVerdict r v).writer = c.writer ∧ (c.setVerdict r v).irqPin = c.irqPin := by
  and_intros <;> rfl

/-- `shiftChain` changes shiftRegister alone. -/
@[simp] theorem Chip.shiftChain_frame (c : Chip) (b : Bool) :
    (c.shiftChain b).mem = c.mem ∧ (c.shiftChain b).dsel = c.dsel ∧ (c.shiftChain b).porLow = c.porLow ∧
    (c.shiftChain b).hrstLow = c.hrstLow ∧ (c.shiftChain b).host = c.host ∧ (c.shiftChain b).backlog = c.backlog ∧
    (c.shiftChain b).answer = c.answer ∧ (c.shiftChain b).port = c.port ∧ (c.shiftChain b).starve = c.starve ∧
    (c.shiftChain b).im = c.im ∧ (c.shiftChain b).bind = c.bind ∧ (c.shiftChain b).seconds = c.seconds ∧
    (c.shiftChain b).refCount = c.refCount ∧ (c.shiftChain b).plan = c.plan ∧ (c.shiftChain b).sealed = c.sealed ∧
    (c.shiftChain b).profiles = c.profiles ∧ (c.shiftChain b).latch = c.latch ∧
    (c.shiftChain b).intake = c.intake ∧ (c.shiftChain b).points = c.points ∧
    (c.shiftChain b).rederivations = c.rederivations ∧ (c.shiftChain b).silenceOwed = c.silenceOwed ∧
    (c.shiftChain b).silenceExempt = c.silenceExempt ∧ (c.shiftChain b).lisoFiltered = c.lisoFiltered ∧
    (c.shiftChain b).lisoStable = c.lisoStable ∧ (c.shiftChain b).zoneMask = c.zoneMask ∧
    (c.shiftChain b).zones = c.zones ∧ (c.shiftChain b).fireCount = c.fireCount ∧
    (c.shiftChain b).firePin = c.firePin ∧ (c.shiftChain b).slots = c.slots ∧
    (c.shiftChain b).walkOwed = c.walkOwed ∧ (c.shiftChain b).command = c.command ∧
    (c.shiftChain b).overrun = c.overrun ∧ (c.shiftChain b).prepared = c.prepared ∧
    (c.shiftChain b).transfer = c.transfer ∧ (c.shiftChain b).writer = c.writer ∧ (c.shiftChain b).irqPin = c.irqPin := by
  and_intros <;> rfl

/-! ### What the changed table reads as

The index is a number, the form simp brings a table read to. -/

/-- The record replaced reads as its replacement, every other as before. -/
@[simp] theorem Chip.setPoint_points (c : Chip) (r : Rec) (p : PointRecord) (i : Nat) (h : i < 768) :
    (c.setPoint r p).points[i] = if r.val = i then p else c.points[i] := by
  simp [Chip.setPoint, Vector.getElem_set]

/-- The record changed reads as its image, every other as before. -/
@[simp] theorem Chip.modPoint_points (c : Chip) (r : Rec) (f : PointRecord → PointRecord) (i : Nat) (h : i < 768) :
    (c.modPoint r f).points[i] = if r.val = i then f c.points[r] else c.points[i] := by
  simp [Chip.modPoint]

/-- The entry replaced reads as its replacement, every other as before. -/
@[simp] theorem Chip.setPlan_plan (c : Chip) (r : Rec) (e : Option PlanEntry) (i : Nat) (h : i < 768) :
    (c.setPlan r e).plan[i] = if r.val = i then e else c.plan[i] := by
  simp [Chip.setPlan, Vector.getElem_set]

/-- The zone record changed reads as its image, every other as before. -/
@[simp] theorem Chip.modZone_zones (c : Chip) (z : Zone) (f : ZoneRecord → ZoneRecord) (i : Nat) (h : i < 100) :
    (c.modZone z f).zones[i] = if z.val = i then f c.zones[z] else c.zones[i] := by
  simp [Chip.modZone, Vector.getElem_set]

/-- The slot replaced reads as its replacement, every other as before. -/
@[simp] theorem Chip.setSlot_slots (c : Chip) (k : Fin 4) (w : Option WalkSlot) (i : Nat) (h : i < 4) :
    (c.setSlot k w).slots[i] = if k.val = i then w else c.slots[i] := by
  simp [Chip.setSlot, Vector.getElem_set]

/-- A table made from its entries reads them. -/
@[simp] theorem getElem_tabulate {α : Type} {n : Nat} (f : Fin n → α) (i : Nat) (h : i < n) :
    (Table.tabulate f)[i] = f ⟨i, h⟩ := by
  simp [Table.tabulate]

/-- A table mapped reads its entries' images. -/
@[simp] theorem getElem_tableMap {α β : Type} {n : Nat} (f : α → β) (v : Vector α n) (i : Nat) (h : i < n) :
    (Table.map f v)[i] = f v[i] := by
  simp [Table.map]

end Sys2Proof.Machine
end

