-- ==== Sys2Proof/Laws/Ops.lean ====
section
/-! SUPPORT. The shared operations: the shape of each one's result, which says every field it can change, and its frame. -/

namespace Sys2Proof.Machine

/-- Starting a record changes the writer and its client's request alone. -/
theorem Chip.startRecord_shape (c : Chip) : ∃ w i, c.startRecord = { c with writer := w, im := i } := by
  unfold Chip.startRecord
  split
  · split
    · split
      · exact ⟨_, _, rfl⟩
      · exact ⟨_, _, rfl⟩
    · exact ⟨_, _, rfl⟩
  · exact ⟨_, _, rfl⟩

/-- Raising a report changes the writer and its client's request alone. -/
theorem Chip.raise_shape (c : Chip) (r : Report) : ∃ w i, c.raise r = { c with writer := w, im := i } := by
  unfold Chip.raise
  split
  · obtain ⟨w, i, h⟩ := Chip.startRecord_shape { c with writer := c.writer.arrive r }
    exact ⟨w, i, h⟩
  · exact ⟨_, _, rfl⟩

/-- A point report does no more. -/
theorem Chip.raisePoint_shape (c : Chip) (k : ReportKind) (r : Rec) (time : Nat) (a b : Word) :
    ∃ w i, c.raisePoint k r time a b = { c with writer := w, im := i } := c.raise_shape _

/-- A zone report does no more. -/
theorem Chip.raiseZone_shape (c : Chip) (k : ReportKind) (z : Zone) (time : Nat) (a b : Word) :
    ∃ w i, c.raiseZone k z time a b = { c with writer := w, im := i } := c.raise_shape _

/-- An end request changes slots alone. -/
theorem Chip.requestEnd_shape (c : Chip) (k : Fin 4) (reason : EndReason) :
    ∃ v, c.requestEnd k reason = { c with slots := v } := by
  unfold Chip.requestEnd
  split
  · split
    · exact ⟨_, rfl⟩
    · exact ⟨_, rfl⟩
  · exact ⟨_, rfl⟩

/-- Going to completion changes the command in hand and its client's request alone. -/
theorem Chip.complete_shape (c : Chip) (k : Completion) : ∃ m i, c.complete k = { c with command := m, im := i } := by
  unfold Chip.complete
  split
  · exact ⟨_, _, rfl⟩
  · exact ⟨_, _, rfl⟩

/-- An owed re-derivation changes the point's two derived fields and what is owed. -/
theorem Chip.makeRederivation_shape (c : Chip) (r : Rec) :
    ∃ p o, c.makeRederivation r = { c with points := p, rederivations := o } := by
  unfold Chip.makeRederivation
  split
  · exact ⟨_, _, rfl⟩
  · exact ⟨_, _, rfl⟩

/-- `startRecord` leaves every other field alone. -/
@[simp] theorem Chip.startRecord_frame (c : Chip) :
    (c.startRecord).mem = c.mem ∧ (c.startRecord).dsel = c.dsel ∧ (c.startRecord).porLow = c.porLow ∧
    (c.startRecord).hrstLow = c.hrstLow ∧ (c.startRecord).host = c.host ∧ (c.startRecord).backlog = c.backlog ∧
    (c.startRecord).answer = c.answer ∧ (c.startRecord).port = c.port ∧ (c.startRecord).starve = c.starve ∧
    (c.startRecord).bind = c.bind ∧ (c.startRecord).seconds = c.seconds ∧ (c.startRecord).refCount = c.refCount ∧
    (c.startRecord).plan = c.plan ∧ (c.startRecord).sealed = c.sealed ∧ (c.startRecord).profiles = c.profiles ∧
    (c.startRecord).latch = c.latch ∧ (c.startRecord).intake = c.intake ∧ (c.startRecord).points = c.points ∧
    (c.startRecord).rederivations = c.rederivations ∧ (c.startRecord).silenceOwed = c.silenceOwed ∧
    (c.startRecord).silenceExempt = c.silenceExempt ∧ (c.startRecord).lisoFiltered = c.lisoFiltered ∧
    (c.startRecord).lisoStable = c.lisoStable ∧ (c.startRecord).shiftRegister = c.shiftRegister ∧
    (c.startRecord).zoneMask = c.zoneMask ∧ (c.startRecord).zones = c.zones ∧
    (c.startRecord).fireCount = c.fireCount ∧ (c.startRecord).firePin = c.firePin ∧
    (c.startRecord).slots = c.slots ∧ (c.startRecord).walkOwed = c.walkOwed ∧ (c.startRecord).command = c.command ∧
    (c.startRecord).overrun = c.overrun ∧ (c.startRecord).prepared = c.prepared ∧
    (c.startRecord).transfer = c.transfer ∧ (c.startRecord).irqPin = c.irqPin := by
  obtain ⟨_, _, h⟩ := c.startRecord_shape
  rw [h]
  and_intros <;> rfl

/-- `raise` leaves every other field alone. -/
@[simp] theorem Chip.raise_frame (c : Chip) (r : Report) :
    (c.raise r).mem = c.mem ∧ (c.raise r).dsel = c.dsel ∧ (c.raise r).porLow = c.porLow ∧
    (c.raise r).hrstLow = c.hrstLow ∧ (c.raise r).host = c.host ∧ (c.raise r).backlog = c.backlog ∧
    (c.raise r).answer = c.answer ∧ (c.raise r).port = c.port ∧ (c.raise r).starve = c.starve ∧
    (c.raise r).bind = c.bind ∧ (c.raise r).seconds = c.seconds ∧ (c.raise r).refCount = c.refCount ∧
    (c.raise r).plan = c.plan ∧ (c.raise r).sealed = c.sealed ∧ (c.raise r).profiles = c.profiles ∧
    (c.raise r).latch = c.latch ∧ (c.raise r).intake = c.intake ∧ (c.raise r).points = c.points ∧
    (c.raise r).rederivations = c.rederivations ∧ (c.raise r).silenceOwed = c.silenceOwed ∧
    (c.raise r).silenceExempt = c.silenceExempt ∧ (c.raise r).lisoFiltered = c.lisoFiltered ∧
    (c.raise r).lisoStable = c.lisoStable ∧ (c.raise r).shiftRegister = c.shiftRegister ∧
    (c.raise r).zoneMask = c.zoneMask ∧ (c.raise r).zones = c.zones ∧ (c.raise r).fireCount = c.fireCount ∧
    (c.raise r).firePin = c.firePin ∧ (c.raise r).slots = c.slots ∧ (c.raise r).walkOwed = c.walkOwed ∧
    (c.raise r).command = c.command ∧ (c.raise r).overrun = c.overrun ∧ (c.raise r).prepared = c.prepared ∧
    (c.raise r).transfer = c.transfer ∧ (c.raise r).irqPin = c.irqPin := by
  obtain ⟨_, _, h⟩ := c.raise_shape r
  rw [h]
  and_intros <;> rfl

/-- `raisePoint` leaves every other field alone. -/
@[simp] theorem Chip.raisePoint_frame (c : Chip) (k : ReportKind) (r : Rec) (time : Nat) (a b : Word) :
    (c.raisePoint k r time a b).mem = c.mem ∧ (c.raisePoint k r time a b).dsel = c.dsel ∧
    (c.raisePoint k r time a b).porLow = c.porLow ∧ (c.raisePoint k r time a b).hrstLow = c.hrstLow ∧
    (c.raisePoint k r time a b).host = c.host ∧ (c.raisePoint k r time a b).backlog = c.backlog ∧
    (c.raisePoint k r time a b).answer = c.answer ∧ (c.raisePoint k r time a b).port = c.port ∧
    (c.raisePoint k r time a b).starve = c.starve ∧ (c.raisePoint k r time a b).bind = c.bind ∧
    (c.raisePoint k r time a b).seconds = c.seconds ∧ (c.raisePoint k r time a b).refCount = c.refCount ∧
    (c.raisePoint k r time a b).plan = c.plan ∧ (c.raisePoint k r time a b).sealed = c.sealed ∧
    (c.raisePoint k r time a b).profiles = c.profiles ∧ (c.raisePoint k r time a b).latch = c.latch ∧
    (c.raisePoint k r time a b).intake = c.intake ∧ (c.raisePoint k r time a b).points = c.points ∧
    (c.raisePoint k r time a b).rederivations = c.rederivations ∧
    (c.raisePoint k r time a b).silenceOwed = c.silenceOwed ∧
    (c.raisePoint k r time a b).silenceExempt = c.silenceExempt ∧
    (c.raisePoint k r time a b).lisoFiltered = c.lisoFiltered ∧
    (c.raisePoint k r time a b).lisoStable = c.lisoStable ∧
    (c.raisePoint k r time a b).shiftRegister = c.shiftRegister ∧
    (c.raisePoint k r time a b).zoneMask = c.zoneMask ∧ (c.raisePoint k r time a b).zones = c.zones ∧
    (c.raisePoint k r time a b).fireCount = c.fireCount ∧ (c.raisePoint k r time a b).firePin = c.firePin ∧
    (c.raisePoint k r time a b).slots = c.slots ∧ (c.raisePoint k r time a b).walkOwed = c.walkOwed ∧
    (c.raisePoint k r time a b).command = c.command ∧ (c.raisePoint k r time a b).overrun = c.overrun ∧
    (c.raisePoint k r time a b).prepared = c.prepared ∧ (c.raisePoint k r time a b).transfer = c.transfer ∧
    (c.raisePoint k r time a b).irqPin = c.irqPin := by
  obtain ⟨_, _, h⟩ := c.raisePoint_shape k r time a b
  rw [h]
  and_intros <;> rfl

/-- `raiseZone` leaves every other field alone. -/
@[simp] theorem Chip.raiseZone_frame (c : Chip) (k : ReportKind) (z : Zone) (time : Nat) (a b : Word) :
    (c.raiseZone k z time a b).mem = c.mem ∧ (c.raiseZone k z time a b).dsel = c.dsel ∧
    (c.raiseZone k z time a b).porLow = c.porLow ∧ (c.raiseZone k z time a b).hrstLow = c.hrstLow ∧
    (c.raiseZone k z time a b).host = c.host ∧ (c.raiseZone k z time a b).backlog = c.backlog ∧
    (c.raiseZone k z time a b).answer = c.answer ∧ (c.raiseZone k z time a b).port = c.port ∧
    (c.raiseZone k z time a b).starve = c.starve ∧ (c.raiseZone k z time a b).bind = c.bind ∧
    (c.raiseZone k z time a b).seconds = c.seconds ∧ (c.raiseZone k z time a b).refCount = c.refCount ∧
    (c.raiseZone k z time a b).plan = c.plan ∧ (c.raiseZone k z time a b).sealed = c.sealed ∧
    (c.raiseZone k z time a b).profiles = c.profiles ∧ (c.raiseZone k z time a b).latch = c.latch ∧
    (c.raiseZone k z time a b).intake = c.intake ∧ (c.raiseZone k z time a b).points = c.points ∧
    (c.raiseZone k z time a b).rederivations = c.rederivations ∧
    (c.raiseZone k z time a b).silenceOwed = c.silenceOwed ∧
    (c.raiseZone k z time a b).silenceExempt = c.silenceExempt ∧
    (c.raiseZone k z time a b).lisoFiltered = c.lisoFiltered ∧
    (c.raiseZone k z time a b).lisoStable = c.lisoStable ∧
    (c.raiseZone k z time a b).shiftRegister = c.shiftRegister ∧ (c.raiseZone k z time a b).zoneMask = c.zoneMask ∧
    (c.raiseZone k z time a b).zones = c.zones ∧ (c.raiseZone k z time a b).fireCount = c.fireCount ∧
    (c.raiseZone k z time a b).firePin = c.firePin ∧ (c.raiseZone k z time a b).slots = c.slots ∧
    (c.raiseZone k z time a b).walkOwed = c.walkOwed ∧ (c.raiseZone k z time a b).command = c.command ∧
    (c.raiseZone k z time a b).overrun = c.overrun ∧ (c.raiseZone k z time a b).prepared = c.prepared ∧
    (c.raiseZone k z time a b).transfer = c.transfer ∧ (c.raiseZone k z time a b).irqPin = c.irqPin := by
  obtain ⟨_, _, h⟩ := c.raiseZone_shape k z time a b
  rw [h]
  and_intros <;> rfl

/-- `requestEnd` leaves every other field alone. -/
@[simp] theorem Chip.requestEnd_frame (c : Chip) (k : Fin 4) (reason : EndReason) :
    (c.requestEnd k reason).mem = c.mem ∧ (c.requestEnd k reason).dsel = c.dsel ∧
    (c.requestEnd k reason).porLow = c.porLow ∧ (c.requestEnd k reason).hrstLow = c.hrstLow ∧
    (c.requestEnd k reason).host = c.host ∧ (c.requestEnd k reason).backlog = c.backlog ∧
    (c.requestEnd k reason).answer = c.answer ∧ (c.requestEnd k reason).port = c.port ∧
    (c.requestEnd k reason).starve = c.starve ∧ (c.requestEnd k reason).im = c.im ∧
    (c.requestEnd k reason).bind = c.bind ∧ (c.requestEnd k reason).seconds = c.seconds ∧
    (c.requestEnd k reason).refCount = c.refCount ∧ (c.requestEnd k reason).plan = c.plan ∧
    (c.requestEnd k reason).sealed = c.sealed ∧ (c.requestEnd k reason).profiles = c.profiles ∧
    (c.requestEnd k reason).latch = c.latch ∧ (c.requestEnd k reason).intake = c.intake ∧
    (c.requestEnd k reason).points = c.points ∧ (c.requestEnd k reason).rederivations = c.rederivations ∧
    (c.requestEnd k reason).silenceOwed = c.silenceOwed ∧ (c.requestEnd k reason).silenceExempt = c.silenceExempt ∧
    (c.requestEnd k reason).lisoFiltered = c.lisoFiltered ∧ (c.requestEnd k reason).lisoStable = c.lisoStable ∧
    (c.requestEnd k reason).shiftRegister = c.shiftRegister ∧ (c.requestEnd k reason).zoneMask = c.zoneMask ∧
    (c.requestEnd k reason).zones = c.zones ∧ (c.requestEnd k reason).fireCount = c.fireCount ∧
    (c.requestEnd k reason).firePin = c.firePin ∧ (c.requestEnd k reason).walkOwed = c.walkOwed ∧
    (c.requestEnd k reason).command = c.command ∧ (c.requestEnd k reason).overrun = c.overrun ∧
    (c.requestEnd k reason).prepared = c.prepared ∧ (c.requestEnd k reason).transfer = c.transfer ∧
    (c.requestEnd k reason).writer = c.writer ∧ (c.requestEnd k reason).irqPin = c.irqPin := by
  obtain ⟨_, h⟩ := c.requestEnd_shape k reason
  rw [h]
  and_intros <;> rfl

/-- `complete` leaves every other field alone. -/
@[simp] theorem Chip.complete_frame (c : Chip) (k : Completion) :
    (c.complete k).mem = c.mem ∧ (c.complete k).dsel = c.dsel ∧ (c.complete k).porLow = c.porLow ∧
    (c.complete k).hrstLow = c.hrstLow ∧ (c.complete k).host = c.host ∧ (c.complete k).backlog = c.backlog ∧
    (c.complete k).answer = c.answer ∧ (c.complete k).port = c.port ∧ (c.complete k).starve = c.starve ∧
    (c.complete k).bind = c.bind ∧ (c.complete k).seconds = c.seconds ∧ (c.complete k).refCount = c.refCount ∧
    (c.complete k).plan = c.plan ∧ (c.complete k).sealed = c.sealed ∧ (c.complete k).profiles = c.profiles ∧
    (c.complete k).latch = c.latch ∧ (c.complete k).intake = c.intake ∧ (c.complete k).points = c.points ∧
    (c.complete k).rederivations = c.rederivations ∧ (c.complete k).silenceOwed = c.silenceOwed ∧
    (c.complete k).silenceExempt = c.silenceExempt ∧ (c.complete k).lisoFiltered = c.lisoFiltered ∧
    (c.complete k).lisoStable = c.lisoStable ∧ (c.complete k).shiftRegister = c.shiftRegister ∧
    (c.complete k).zoneMask = c.zoneMask ∧ (c.complete k).zones = c.zones ∧
    (c.complete k).fireCount = c.fireCount ∧ (c.complete k).firePin = c.firePin ∧ (c.complete k).slots = c.slots ∧
    (c.complete k).walkOwed = c.walkOwed ∧ (c.complete k).overrun = c.overrun ∧
    (c.complete k).prepared = c.prepared ∧ (c.complete k).transfer = c.transfer ∧
    (c.complete k).writer = c.writer ∧ (c.complete k).irqPin = c.irqPin := by
  obtain ⟨_, _, h⟩ := c.complete_shape k
  rw [h]
  and_intros <;> rfl

/-! ### The pending queue (R176, R177) -/

/-- Dropping the newest other entry shortens a queue by one. -/
theorem dropNewestOther_length (q q' : List Report) (h : dropNewestOther q = some q') : q'.length + 1 = q.length := by
  induction q generalizing q' with
  | nil => simp [dropNewestOther] at h
  | cons r t ih =>
    simp only [dropNewestOther] at h
    split at h
    · rename_i t' ht; cases h; simpa using ih t' ht
    · split at h
      · cases h
      · cases h; rfl

/-- An arrival keeps the pending queue at 16 or fewer. -/
theorem Writer.arrive_length (w : Writer) (r : Report) (h : w.queue.length ≤ Config.pendingLimit) :
    (w.arrive r).queue.length ≤ Config.pendingLimit := by
  unfold Writer.arrive
  split
  · rename_i hl; simpa using hl
  · split
    · split
      · rename_i q hq; have := dropNewestOther_length _ _ hq; simp; omega
      · exact h
    · exact h

/-- An arrival leaves the copies and the record in hand alone. -/
@[simp] theorem Writer.arrive_frame (w : Writer) (r : Report) :
    (w.arrive r).producer = w.producer ∧ (w.arrive r).consumer = w.consumer ∧ (w.arrive r).inHand = w.inHand := by
  unfold Writer.arrive
  split
  · exact ⟨rfl, rfl, rfl⟩
  · split
    · split <;> exact ⟨rfl, rfl, rfl⟩
    · exact ⟨rfl, rfl, rfl⟩

/-- Starting a record moves no copy and does not lengthen the queue. -/
theorem Chip.startRecord_writer (c : Chip) : c.startRecord.writer.producer = c.writer.producer ∧
    c.startRecord.writer.consumer = c.writer.consumer ∧ c.startRecord.writer.queue.length ≤ c.writer.queue.length := by
  unfold Chip.startRecord
  split
  · split
    · rename_i hq
      split
      · exact ⟨rfl, rfl, Nat.le_refl _⟩
      · exact ⟨rfl, rfl, by rw [hq]; exact Nat.le_succ _⟩
    · exact ⟨rfl, rfl, Nat.le_refl _⟩
  · exact ⟨rfl, rfl, Nat.le_refl _⟩

/-- Raising a report moves no copy and keeps the pending queue at 16 or fewer. -/
theorem Chip.raise_writer (c : Chip) (r : Report) : (c.raise r).writer.producer = c.writer.producer ∧
    (c.raise r).writer.consumer = c.writer.consumer ∧
    (c.writer.queue.length ≤ Config.pendingLimit → (c.raise r).writer.queue.length ≤ Config.pendingLimit) := by
  unfold Chip.raise
  split
  · obtain ⟨h1, h2, h3⟩ := Chip.startRecord_writer { c with writer := c.writer.arrive r }
    exact ⟨h1.trans (by simp), h2.trans (by simp), fun h => Nat.le_trans h3 (Writer.arrive_length _ _ h)⟩
  · exact ⟨rfl, rfl, id⟩

/-! ### The FIRE count (R123) -/

/-- What the Report Writer becomes depends on the binding and the writer alone. -/
theorem Chip.startRecord_writer_congr (c d : Chip) (hb : c.bind = d.bind) (hw : c.writer = d.writer) :
    c.startRecord.writer = d.startRecord.writer := by
  unfold Chip.startRecord
  rw [hb, hw]
  cases d.bind with
  | bound b =>
    simp only
    split
    · split
      · exact hw
      · rfl
    · exact hw
  | _ => exact hw

/-- The same of a raised report. -/
theorem Chip.raise_writer_congr (c d : Chip) (r : Report) (hb : c.bind = d.bind) (hw : c.writer = d.writer) :
    (c.raise r).writer = (d.raise r).writer := by
  have e : c.forms r.kind = d.forms r.kind := by unfold Chip.forms; rw [hb]
  unfold Chip.raise
  rw [e]
  split
  · exact Chip.startRecord_writer_congr _ _ hb (congrArg (Writer.arrive · r) hw)
  · exact hw

/-- The pin after a verdict is set. -/
@[simp] theorem Chip.setVerdict_firePin (c : Chip) (r : Rec) (v : Verdict) :
    (c.setVerdict r v).firePin = decide (0 < (c.setVerdict r v).fireCount) := rfl

/-- The count after a verdict is set. -/
theorem Chip.setVerdict_fireCount (c : Chip) (r : Rec) (v : Verdict) :
    (c.setVerdict r v).fireCount = fireCountAfter c.fireCount c.points[r].verdict v := rfl

/-- The point whose verdict is set has it and is otherwise as before; no other point changes. -/
@[simp] theorem Chip.setVerdict_points (c : Chip) (r : Rec) (v : Verdict) (i : Nat) (h : i < 768) :
    (c.setVerdict r v).points[i] = if r.val = i then { c.points[r] with verdict := v } else c.points[i] := by
  simp [Chip.setVerdict]

/-- Re-derivation at a point writes its two derived fields; no other point changes. -/
@[simp] theorem Chip.rederive_points (c : Chip) (r : Rec) (i : Nat) (h : i < 768) :
    (c.rederive r).points[i] = if r.val = i then c.derived r c.points[r] else c.points[i] := by
  simp [Chip.rederive]

/-- A derived record: its two derived fields, and the fields it keeps. -/
@[simp] theorem Chip.derived_fields (c : Chip) (r : Rec) (p : PointRecord) :
    (c.derived r p).suppressed = c.suppression r ∧
    (c.derived r p).armed = armedOf (c.suppression r) c.autoWithdraw p ∧
    (c.derived r p).state = p.state ∧ (c.derived r p).presence = p.presence ∧ (c.derived r p).verdict = p.verdict ∧
    (c.derived r p).foundClass = p.foundClass ∧ (c.derived r p).firstSerial = p.firstSerial ∧
    (c.derived r p).secondSerial = p.secondSerial ∧ (c.derived r p).lastStatus = p.lastStatus ∧
    (c.derived r p).lastGood = p.lastGood ∧ (c.derived r p).noreplyRun = p.noreplyRun ∧
    (c.derived r p).garbledRun = p.garbledRun ∧ (c.derived r p).driftRun = p.driftRun ∧
    (c.derived r p).prealarmReady = p.prealarmReady ∧ (c.derived r p).testCount = p.testCount ∧
    (c.derived r p).flags = p.flags := ⟨rfl, rfl, rfl, rfl, rfl, rfl, rfl, rfl, rfl, rfl, rfl, rfl, rfl, rfl, rfl, rfl⟩

/-- SUPPRESSED and ARMED look at no other derived field, so deriving twice is deriving once. -/
@[simp] theorem Chip.derived_derived (c : Chip) (r : Rec) (p : PointRecord) :
    c.derived r (c.derived r p) = c.derived r p := rfl

end Sys2Proof.Machine
end

