-- ==== Sys2Proof/Laws/Path.lean ====
section
/-! SUPPORT. The settling of the memory path: it changes the path alone, and does nothing at rest. -/

namespace Sys2Proof.Machine

/-- Releasing a held access changes the access and its answer alone. -/
theorem Chip.releaseHeld_shape (c : Chip) : ∃ h a, c.releaseHeld = { c with host := h, answer := a } := by
  unfold Chip.releaseHeld
  split
  · split <;> exact ⟨_, _, rfl⟩
  · split <;> exact ⟨_, _, rfl⟩
  · split <;> exact ⟨_, _, rfl⟩
  · exact ⟨_, _, rfl⟩

/-- An overlay read changes the access and its answer alone. -/
theorem Chip.overlayRead_shape (c : Chip) (q : HostRequest) (t : Treatment) (r : Rec) (w : Word) :
    ∃ h a o, c.overlayRead q t r w = { c with host := h, answer := a, overrun := o } := by
  unfold Chip.overlayRead; split <;> exact ⟨_, _, _, rfl⟩

/-- An admission changes the access, its answer and the OVERRUN mark alone. -/
theorem Chip.treat_shape (c : Chip) (q : HostRequest) (t : Treatment) :
    ∃ h a o, c.treat q t = { c with host := h, answer := a, overrun := o } := by
  cases t
  case verdictRead r => exact c.overlayRead_shape _ _ _ _
  case planRead r => exact c.overlayRead_shape _ _ _ _
  all_goals exact ⟨_, _, _, rfl⟩

/-- An arrival changes the same. -/
theorem Chip.arrive_shape (c : Chip) (q : HostRequest) :
    ∃ h a o, c.arrive q = { c with host := h, answer := a, overrun := o } := by
  obtain ⟨h, a, o, e⟩ := Chip.treat_shape { c with answer := .none } q (c.classify q)
  exact ⟨h, a, o, by rw [Chip.arrive, e]⟩

/-- The host's next accesses change the same and the backlog. -/
theorem Chip.present_shape (l : List HostRequest) (c : Chip) :
    ∃ h b a o, Chip.present l c = { c with host := h, backlog := b, answer := a, overrun := o } := by
  induction l generalizing c with
  | nil => exact ⟨_, _, _, _, rfl⟩
  | cons q t ih =>
    unfold Chip.present
    split
    · exact ⟨_, _, _, _, rfl⟩
    · obtain ⟨h, a, o, e⟩ := c.arrive_shape q
      obtain ⟨h', b', a', o', e'⟩ := ih (c.arrive q)
      exact ⟨h', b', a', o', by rw [e', e]⟩

/-- A grant changes the access's stage, the port and STARVE COUNT alone. -/
theorem Chip.grant_shape (c : Chip) : ∃ h p n, c.grant = { c with host := h, port := p, starve := n } := by
  unfold Chip.grant Chip.grantHost Chip.grantInternal
  repeat' split
  all_goals exact ⟨_, _, _, rfl⟩

/-- Settling changes the memory path and the OVERRUN mark alone (R5, R11, R18 to R21). -/
theorem Chip.settle_shape (c : Chip) : ∃ h b a p n i o,
    c.settle = { c with host := h, backlog := b, answer := a, port := p, starve := n, im := i, overrun := o } := by
  unfold Chip.settle
  obtain ⟨h, a, e⟩ := c.releaseHeld_shape
  obtain ⟨h', b', a', o', e'⟩ := Chip.present_shape c.releaseHeld.backlog c.releaseHeld
  obtain ⟨h2, p2, n2, e2⟩ := Chip.grant_shape { Chip.present c.releaseHeld.backlog c.releaseHeld with
    im := (Chip.present c.releaseHeld.backlog c.releaseHeld).im.choose }
  exact ⟨h2, b', a', p2, n2, (Chip.present c.releaseHeld.backlog c.releaseHeld).im.choose, o', by rw [e2, e', e]⟩

/-- `settle` leaves every other field alone. -/
@[simp] theorem Chip.settle_frame (c : Chip) :
    (c.settle).mem = c.mem ∧ (c.settle).dsel = c.dsel ∧ (c.settle).porLow = c.porLow ∧
    (c.settle).hrstLow = c.hrstLow ∧ (c.settle).bind = c.bind ∧ (c.settle).seconds = c.seconds ∧
    (c.settle).refCount = c.refCount ∧ (c.settle).plan = c.plan ∧ (c.settle).sealed = c.sealed ∧
    (c.settle).profiles = c.profiles ∧ (c.settle).latch = c.latch ∧ (c.settle).intake = c.intake ∧
    (c.settle).points = c.points ∧ (c.settle).rederivations = c.rederivations ∧
    (c.settle).silenceOwed = c.silenceOwed ∧ (c.settle).silenceExempt = c.silenceExempt ∧
    (c.settle).lisoFiltered = c.lisoFiltered ∧ (c.settle).lisoStable = c.lisoStable ∧
    (c.settle).shiftRegister = c.shiftRegister ∧ (c.settle).zoneMask = c.zoneMask ∧ (c.settle).zones = c.zones ∧
    (c.settle).fireCount = c.fireCount ∧ (c.settle).firePin = c.firePin ∧ (c.settle).slots = c.slots ∧
    (c.settle).walkOwed = c.walkOwed ∧ (c.settle).command = c.command ∧ (c.settle).prepared = c.prepared ∧
    (c.settle).transfer = c.transfer ∧ (c.settle).writer = c.writer ∧ (c.settle).irqPin = c.irqPin := by
  obtain ⟨_, _, _, _, _, _, _, h⟩ := c.settle_shape
  rw [h]
  and_intros <;> rfl

/-- At rest, settling does nothing. -/
theorem Chip.settle_quiet (c : Chip) (h : c.Quiet) : c.settle = c := by
  obtain ⟨_, h1, h2, h3, h4, h5, h6, h7⟩ := h
  have hr : c.releaseHeld = c := by simp [Chip.releaseHeld, h1]
  have hp : Chip.present c.backlog c = c := by rw [h2]; simp only [Chip.present]; rw [← h2]
  have hc : c.im.choose = c.im := by simp [InternalMaster.choose, h4, h5, h6, h7]
  have hg : c.grant = c := by simp [Chip.grant, Chip.hostWaiting, Chip.grantInternal, h1, h3, h4]
  simp only [Chip.settle, hr, hp, hc]
  exact hg

/-- An event while PORn is high is its effect, then the settling. -/
theorem Chip.event_high (c : Chip) (f : Chip → Chip) (h : c.porLow = false) : c.event f = (f c).settle := by
  simp [Chip.event, h]

/-- While PORn is low an event is nothing. -/
theorem Chip.event_low (c : Chip) (f : Chip → Chip) (h : c.porLow = true) : c.event f = c := by
  simp [Chip.event, h]

end Sys2Proof.Machine
end

