-- ==== Sys2Proof/Laws/Step.lean ====
section
/-! SUPPORT. What a step can do, said once: every meaning is a run of the events below, each followed by the settling of the
memory path. A fact that each of them keeps is kept by every step. -/

namespace Sys2Proof.Machine

/-- A fact about the chip that every event and every part of the settling keeps. -/
structure Kept (P : Chip → Prop) : Prop where
  releaseHeld : ∀ c, P c → P c.releaseHeld
  backlog : ∀ c l, P c → P { c with backlog := l }
  arrive : ∀ c q, c.host = none → P c → P (c.arrive q)
  choose : ∀ c, P c → P { c with im := c.im.choose }
  grant : ∀ c, P c → P c.grant
  accessDone : ∀ c, P c → P c.accessDone
  commandWork : ∀ c, P c → P c.commandWork
  takeReply : ∀ c, P c → P c.takeReply
  makeSilenceTest : ∀ c r, P c → P (c.makeSilenceTest r)
  makeRederivation : ∀ c r, P c → P (c.makeRederivation r)
  compareSlot : ∀ c k, P c → P (c.compareSlot k)
  endSlot : ∀ c k, P c → P (c.endSlot k)
  sweepSlot : ∀ c k, P c → P (c.sweepSlot k)
  startRecord : ∀ c, P c → P c.startRecord
  sampleInput : ∀ c liso l, P c → P (c.sampleInput liso l)
  countEdge : ∀ c, P c → P c.countEdge
  nextTick : ∀ c, P c → P c.nextTick
  loadZones : ∀ c, P c → P c.loadZones
  shiftChain : ∀ c b, P c → P (c.shiftChain b)
  unbindByHostReset : ∀ c, P c → P c.unbindByHostReset
  dsel : ∀ c d, P c → P { c with dsel := d }
  hrstLow : ∀ c b, P c → P { c with hrstLow := b }
  powerOn : ∀ c, P c → P c.powerOn
  powerOnRelease : ∀ c liso, P c → P (c.powerOnRelease liso)

variable {P : Chip → Prop}

/-- A fold of kept moves keeps. -/
theorem kept_foldl {α : Type} (f : Chip → α → Chip) (h : ∀ c a, P c → P (f c a)) (l : List α) (c : Chip) (hc : P c) :
    P (l.foldl f c) := by
  induction l generalizing c with
  | nil => exact hc
  | cons a t ih => exact ih _ (h c a hc)

/-- The host's next accesses keep. -/
theorem Kept.present (k : Kept P) (l : List HostRequest) (c : Chip) (hc : P c) : P (Chip.present l c) := by
  induction l generalizing c with
  | nil => exact k.backlog _ _ hc
  | cons q t ih =>
    unfold Chip.present
    split
    · exact k.backlog _ _ hc
    · rename_i h
      exact ih _ (k.arrive _ _ (by simpa using h) hc)

/-- The settling keeps. -/
theorem Kept.settle (k : Kept P) (c : Chip) (hc : P c) : P c.settle :=
  k.grant _ (k.choose _ (k.present _ _ (k.releaseHeld _ hc)))

/-- An event keeps when its effect does. -/
theorem Kept.event (k : Kept P) (f : Chip → Chip) (hf : ∀ c, P c → P (f c)) (c : Chip) (hc : P c) : P (c.event f) := by
  unfold Chip.event
  split
  · exact hc
  · exact k.settle _ (hf _ hc)

/-- Accesses finishing one after the other keep. -/
theorem Kept.accessDones (k : Kept P) (n : Nat) (c : Chip) (hc : P c) : P (Chip.accessDones n c) := by
  induction n generalizing c with
  | zero => exact hc
  | succ n ih => exact ih _ (k.event _ k.accessDone _ hc)

/-- The command's events keep. -/
theorem Kept.advances (k : Kept P) (n : Nat) (c : Chip) (hc : P c) : P (Chip.advances n c) := by
  induction n generalizing c with
  | zero => exact hc
  | succ n ih =>
    refine ih _ (k.event _ (fun c hc => ?_) _ hc)
    show P (if c.working then c.commandWork else c.accessDone)
    split
    · exact k.commandWork _ hc
    · exact k.accessDone _ hc

/-- The host presenting an access keeps. -/
theorem Kept.hostPresents (k : Kept P) (c : Chip) (q : HostRequest) (hc : P c) : P (c.hostPresents q) :=
  k.event _ (fun c h => k.backlog c _ h) _ hc

/-- A mailbox command's row keeps. -/
theorem Kept.commandRow (k : Kept P) (c : Chip) (code : BitVec 8) (how : CommandStep) (hc : P c) :
    P (c.commandRow code how) := by
  cases how with
  | word a tag upper after => exact k.advances _ _ (k.hostPresents _ _ hc)
  | run n =>
    show P (if c.runs code then Chip.advances n c else c)
    split
    · exact k.advances _ _ hc
    · exact hc

/-- The reference edges keep. -/
theorem Kept.refEdge (k : Kept P) (c : Chip) (liso : BitVec 4) (order : List Loop) (last : Bool) (hc : P c) :
    P (c.refEdge liso order last) := by
  unfold Chip.refEdge Chip.sampleInputs
  split
  · exact k.countEdge _ (kept_foldl _ (fun c l h => k.sampleInput c liso l h) _ _ hc)
  · exact kept_foldl _ (fun c l h => k.sampleInput c liso l h) _ _ (k.countEdge _ hc)

/-- A run of reference edges keeps. -/
theorem Kept.refEdges (k : Kept P) (liso : BitVec 4) (n : Nat) (c : Chip) (hc : P c) : P (Chip.refEdges liso n c) := by
  induction n generalizing c with
  | zero => exact hc
  | succ n ih => exact ih _ (k.refEdge _ _ _ _ hc)

/-- A sweep's moves keep. -/
theorem Kept.sweepMoves (k : Kept P) (n : Nat) (j : Fin 4) (c : Chip) (hc : P c) : P (Chip.sweepMoves n j c) := by
  induction n generalizing c with
  | zero => exact hc
  | succ n ih => exact ih _ (k.event _ (fun c h => k.sweepSlot c j h) _ hc)

/-- Every meaning answers a next state whose chip keeps the fact. -/
theorem Kept.exec (k : Kept P) (i : Instr) (s : State) (h : P s.chip) :
    ∃ c, exec i s = .next (s.withChip c) ∧ P c := by
  cases i <;> refine ⟨_, rfl, ?_⟩
  case passedWrite => exact k.accessDones _ _ (k.hostPresents _ _ h)
  case downstreamAccessDone => exact k.event _ k.accessDone _ h
  case bindTrigger => exact k.accessDones _ _ (k.hostPresents _ _ (k.dsel _ _ h))
  case bindRejected =>
    refine k.event _ (fun c hc => ?_) _ h
    show P (if c.rejectedAtPort then c.accessDone else c)
    split
    · exact k.accessDone _ hc
    · exact hc
  case bindBound =>
    refine k.event _ (fun c hc => ?_) _ h
    show P (if c.boundAtPort then c.accessDone else c)
    split
    · exact k.accessDone _ hc
    · exact hc
  case secondTick => exact k.event _ k.nextTick _ h
  case silenceExpiry which =>
    refine k.event _ (fun c hc => ?_) _ h
    show P (if c.stretching then c else match which with
      | .one r => c.makeSilenceTest r
      | .all => c.makeAllSilenceTests)
    split
    · exact hc
    · cases which with
      | one r => exact k.makeSilenceTest _ _ hc
      | all => exact kept_foldl _ k.makeSilenceTest _ _ hc
  case walkExpiry j => exact k.event _ (fun c hc => k.compareSlot _ j hc) _ h
  case verdictWordRead => exact k.accessDones _ _ (k.hostPresents _ _ h)
  case planWordRead => exact k.accessDones _ _ (k.hostPresents _ _ h)
  case heldReadRelease => exact k.event _ (fun _ hc => hc) _ h
  case swallowedWrite => exact k.accessDones _ _ (k.hostPresents _ _ h)
  case serialWordWrite => exact k.accessDones _ _ (k.hostPresents _ _ h)
  case replyWordWrite => exact k.accessDones _ _ (k.hostPresents _ _ h)
  case heldReplyWriteRelease => exact k.accessDones _ _ (k.event _ (fun _ hc => hc) _ h)
  case malformedReplyWrite => exact k.accessDones _ _ (k.hostPresents _ _ h)
  case replyEvent => exact k.event _ k.takeReply _ h
  case loopIsolateChange l => exact k.event _ (fun c hc => k.refEdges _ _ _ hc) _ h
  case zoneLoad z =>
    refine k.event _ (fun c hc => ?_) _ h
    cases z with
    | none => exact k.loadZones _ hc
    | some b => exact k.loadZones _ (k.shiftChain _ _ hc)
  case consentRederivation which =>
    refine k.event _ (fun c hc => ?_) _ h
    cases which with
    | one r => exact k.makeRederivation _ _ hc
    | all => exact kept_foldl _ (fun c o hc => k.makeRederivation c o.point hc) _ _ hc
  case walkEndEvent j => exact k.event _ (fun c hc => k.endSlot _ j hc) _ h
  case walkClearEvent j n => exact k.sweepMoves n j _ h
  case mailboxOverrunWrite => exact k.accessDones _ _ (k.hostPresents _ _ h)
  case commandComplete =>
    refine k.event _ (fun c hc => ?_) _ h
    show P (if c.finalStatusAtPort then c.accessDone else c)
    split
    · exact k.accessDone _ hc
    · exact hc
  case consumerWrite => exact k.accessDones _ _ (k.hostPresents _ _ h)
  case reportRecordStart => exact k.event _ k.startRecord _ h
  case reportRecordPublish =>
    refine k.event _ (fun c hc => ?_) _ h
    show P (if c.producerAtPort then c.accessDone else c)
    split
    · exact k.accessDone _ hc
    · exact hc
  case hostReset => exact k.event _ k.unbindByHostReset _ (k.hrstLow _ _ h)
  case powerOnReset => exact k.powerOn _ h
  case powerOnRelease => exact k.powerOnRelease _ _ h
  case zoneChainShift d z =>
    refine k.event _ (fun c hc => ?_) _ h
    show P (if z then c.shiftChain d else c)
    split
    · exact k.shiftChain _ _ hc
    · exact hc
  case hostResetRelease => exact k.hrstLow _ _ h
  case refclkRisingEdge liso order last => exact k.event _ (fun c hc => k.refEdge _ _ _ _ hc) _ h
  all_goals exact k.commandRow _ _ _ h

/-- A kept fact is kept by every step. -/
theorem Kept.stepKeeps (k : Kept P) : StepKeeps P := by
  intro s t h e
  unfold step at e
  split at e
  · cases e; exact h
  · rename_i i rest _
    obtain ⟨c, hc, hP⟩ := k.exec i (s.withPending rest) h
    rw [hc] at e
    cases e
    exact hP

/-- Every meaning answers a next state with the queue it was given. -/
theorem exec_next (i : Instr) (s : State) : ∃ c, exec i s = .next (s.withChip c) := by
  cases i <;> exact ⟨_, rfl⟩

end Sys2Proof.Machine
end

