-- ==== Sys2Proof/Laws/Access.lean ====
section
/-! SUPPORT. A host access at a chip at rest: where its arrival puts it, and what its DACK does. -/

namespace Sys2Proof.Machine

/-- The arrival, said of the chip it meets: the settling of a chip at rest that is presented an access. -/
theorem Chip.hostPresents_quiet (c : Chip) (q : HostRequest) (h : c.Quiet) :
    c.hostPresents q = Chip.grant { Chip.present [] (Chip.arrive { c with backlog := [] ++ [q] } q) with
      im := (Chip.present [] (Chip.arrive { c with backlog := [] ++ [q] } q)).im.choose } := by
  rw [Chip.hostPresents, Chip.event_high _ _ h.powered]
  have e : Chip.releaseHeld { c with backlog := c.backlog ++ [q] } = { c with backlog := [] ++ [q] } := by
    simp [Chip.releaseHeld, h.noHost, h.noBacklog]
  simp only [Chip.settle, e]
  simp [Chip.present, h.noHost]

/-- The kinds of treatment that wait at the arbiter from their arrival. -/
def Treatment.waits (c : Chip) : Treatment → Bool
  | .passed | .trigger _ | .serialWrite _ | .malformedWrite _ | .commandWrite | .consumerWrite => true
  | .replyWrite _ => !c.intakeFull
  | .swallowed | .overrun | .verdictRead _ | .planRead _ => false

/-- An access that waits is granted the port at once. -/
theorem Chip.hostPresents_waits (c : Chip) (q : HostRequest) (t : Treatment) (h : c.Quiet) (ht : c.classify q = t)
    (hw : t.waits c = true) :
    c.hostPresents q = { c with host := some ⟨q, t, .atPort⟩, port := some .host, answer := .none } := by
  have hc : Chip.classify { c with backlog := [] ++ [q] } q = t := ht
  rw [c.hostPresents_quiet q h]
  obtain ⟨h0, h1, h2, h3, h4, h5, h6, h7⟩ := h
  rw [Chip.arrive, hc]
  cases t <;>
    simp_all [Treatment.waits, Chip.treat, Chip.present, Chip.grant, Chip.hostWaiting, Chip.grantHost,
      InternalMaster.choose, Chip.intakeFull]

/-- A reply write at a full Intake Queue is held. -/
theorem Chip.hostPresents_heldReply (c : Chip) (q : HostRequest) (r : Rec) (h : c.Quiet)
    (ht : c.classify q = .replyWrite r) (hf : c.intakeFull = true) :
    c.hostPresents q = { c with host := some ⟨q, .replyWrite r, .held⟩, answer := .none } := by
  have hc : Chip.classify { c with backlog := [] ++ [q] } q = .replyWrite r := ht
  rw [c.hostPresents_quiet q h]
  obtain ⟨h0, h1, h2, h3, h4, h5, h6, h7⟩ := h
  rw [Chip.arrive, hc]
  simp_all [Chip.treat, Chip.present, Chip.grant, Chip.hostWaiting, Chip.grantInternal, InternalMaster.choose,
    Chip.intakeFull]

/-- An overlay read under a hold is held; without one it is answered. -/
theorem Chip.hostPresents_overlay (c : Chip) (q : HostRequest) (t : Treatment) (r : Rec) (w : Word) (h : c.Quiet)
    (ht : c.classify q = t)
    (hr : (t = .verdictRead r ∧ w = verdictWord c.points[r]) ∨ (t = .planRead r ∧ w = planWord c.plan[r])) :
    c.hostPresents q = if c.readHeld r then { c with host := some ⟨q, t, .held⟩, answer := .none }
      else { c with answer := .read w } := by
  have hc : Chip.classify { c with backlog := [] ++ [q] } q = t := ht
  rw [c.hostPresents_quiet q h]
  obtain ⟨h0, h1, h2, h3, h4, h5, h6, h7⟩ := h
  rw [Chip.arrive, hc]
  by_cases hh : c.readHeld r = true
  · have hh' : Chip.readHeld { c with backlog := [] ++ [q], answer := .none } r = true := hh
    rcases hr with ⟨rfl, rfl⟩ | ⟨rfl, rfl⟩ <;>
      simp_all [Chip.treat, Chip.overlayRead, Chip.present, Chip.grant, Chip.hostWaiting, Chip.grantInternal,
        InternalMaster.choose]
  · have hf : c.readHeld r = false := by simpa using hh
    have hh' : Chip.readHeld { c with backlog := [] ++ [q], answer := .none } r = false := hf
    rcases hr with ⟨rfl, rfl⟩ | ⟨rfl, rfl⟩ <;>
      simp_all [Chip.treat, Chip.overlayRead, Chip.present, Chip.grant, Chip.hostWaiting, Chip.grantInternal,
        InternalMaster.choose, Chip.acknowledge]

/-- A swallowed access is acknowledged and does nothing more, the OVERRUN mark apart. -/
theorem Chip.hostPresents_swallowed (c : Chip) (q : HostRequest) (h : c.Quiet) (ht : c.classify q = .swallowed) :
    c.hostPresents q = { c with answer := .written } := by
  have hc : Chip.classify { c with backlog := [] ++ [q] } q = .swallowed := ht
  rw [c.hostPresents_quiet q h]
  obtain ⟨h0, h1, h2, h3, h4, h5, h6, h7⟩ := h
  rw [Chip.arrive, hc]
  simp_all [Chip.treat, Chip.present, Chip.grant, Chip.hostWaiting, Chip.grantInternal, InternalMaster.choose,
    Chip.acknowledge]

/-- A write that sets the OVERRUN mark. -/
theorem Chip.hostPresents_overrun (c : Chip) (q : HostRequest) (h : c.Quiet) (ht : c.classify q = .overrun) :
    c.hostPresents q = { c with answer := .written, overrun := true } := by
  have hc : Chip.classify { c with backlog := [] ++ [q] } q = .overrun := ht
  rw [c.hostPresents_quiet q h]
  obtain ⟨h0, h1, h2, h3, h4, h5, h6, h7⟩ := h
  rw [Chip.arrive, hc]
  simp_all [Chip.treat, Chip.present, Chip.grant, Chip.hostWaiting, Chip.grantInternal, InternalMaster.choose,
    Chip.acknowledge]

/-- At its DACK a write that crossed the part alone reaches RAM, and its block takes it (R10). -/
theorem Chip.accessDone_write (c : Chip) (a : Addr) (w : Word) (be : BitVec 4) (t : Treatment)
    (hp : c.port = some .host) (hh : c.host = some ⟨⟨a, .write w be⟩, t, .atPort⟩) :
    c.accessDone = Chip.deliver
      { c with mem := Mem.writeWord c.mem (wordBase a) be w, port := none, host := none, answer := .written } t w be := by
  simp [Chip.accessDone, hp, hh, Chip.hostAccessDone, HostRequest.perform]

/-- A whole host write at rest whose treatment waits: its arrival, its DACK, its block's event, and the settling. -/
theorem Chip.hostWrite_waits (c : Chip) (a : Addr) (w : Word) (be : BitVec 4) (t : Treatment) (h : c.Quiet)
    (ht : c.classify ⟨a, .write w be⟩ = t) (hw : t.waits c = true) :
    c.hostWrite a w be 1 = Chip.settle (Chip.deliver
      { c with mem := Mem.writeWord c.mem (wordBase a) be w, answer := .written } t w be) := by
  rw [Chip.hostWrite, c.hostPresents_waits _ t h ht hw, Chip.accessDones, Chip.accessDones,
    Chip.event_high _ _ (by exact h.powered), Chip.accessDone_write _ a w be t rfl rfl]
  have e : ({ { c with host := some ⟨⟨a, .write w be⟩, t, .atPort⟩, port := some .host, answer := .none } with
      mem := Mem.writeWord c.mem (wordBase a) be w, port := none, host := none, answer := .written } : Chip)
      = { c with mem := Mem.writeWord c.mem (wordBase a) be w, answer := .written } := by
    rw [← h.noHost, ← h.freePort]
  exact congrArg (fun d : Chip => (d.deliver t w be).settle) e

/-- A chip at rest stays at rest under changes outside the memory path. -/
theorem Chip.Quiet.of_path {c d : Chip} (h : c.Quiet) (e : d.porLow = c.porLow ∧ d.host = c.host ∧ d.backlog = c.backlog ∧
    d.port = c.port ∧ d.im = c.im) : d.Quiet := by
  obtain ⟨h0, h1, h2, h3, h4, h5, h6, h7⟩ := h
  obtain ⟨e0, e1, e2, e3, e4⟩ := e
  exact ⟨by rw [e0, h0], by rw [e1, h1], by rw [e2, h2], by rw [e3, h3], by rw [e4, h4], by rw [e4, h5], by rw [e4, h6],
    by rw [e4, h7]⟩

/-- At rest, a request the Command Engine issues is made current and granted the port (R18, R20, R21). -/
theorem Chip.settle_issueCommand (c : Chip) (h : c.Quiet) (q : MemRequest) :
    Chip.settle { c with im := { c.im with waitCommand := some q } } =
      { c with port := some (.internal .command q), starve := 0,
               im := { c.im with current := some (.command, q), lastServed := .command } } := by
  obtain ⟨h0, h1, h2, h3, h4, h5, h6, h7⟩ := h
  generalize hX : ({ c with im := { c.im with waitCommand := some q } } : Chip) = X
  have x1 : X.host = none := by rw [← hX]; exact h1
  have x2 : X.backlog = [] := by rw [← hX]; exact h2
  have x3 : X.port = none := by rw [← hX]; exact h3
  have x4 : X.im.choose = { c.im with current := some (.command, q), lastServed := .command } := by
    rw [← hX]; simp [InternalMaster.choose, h4, h5, h6, h7, InternalMaster.serve]
  have hr : X.releaseHeld = X := by simp [Chip.releaseHeld, x1]
  have hp : Chip.present X.backlog X = X := by rw [x2]; simp only [Chip.present]; rw [← x2]
  show Chip.grant { Chip.present X.releaseHeld.backlog X.releaseHeld with
    im := (Chip.present X.releaseHeld.backlog X.releaseHeld).im.choose } = _
  rw [hr, hp, x4]
  unfold Chip.grant
  rw [if_neg (by show ¬ X.port.isSome = true; rw [x3]; decide)]
  rw [if_neg (by
    unfold Chip.hostWaiting
    show ¬ (match X.host with | some h => h.stage == .waiting | none => false) = true
    rw [x1]; decide)]
  unfold Chip.grantInternal
  simp only
  rw [← hX]

/-- With the port free and nothing waiting anywhere, an access finishing is nothing. -/
theorem Chip.accessDones_idle (c : Chip) (n : Nat) (hp : c.port = none) (hs : c.settle = c) :
    Chip.accessDones n c = c := by
  induction n with
  | zero => rfl
  | succ n ih =>
    rw [Chip.accessDones]
    have e : c.event Chip.accessDone = c := by
      unfold Chip.event
      split
      · rfl
      · rw [show c.accessDone = c by simp [Chip.accessDone, hp], hs]
    rw [e, ih]

end Sys2Proof.Machine
end

