-- ==== Sys2Proof/Laws/Mem.lean ====
section
/-! SUPPORT. RAM: every write keeps the canonical form, and what a read gives after a write. -/

namespace Sys2Proof.Machine

/-- The canonical form of a list with a first entry. -/
theorem Mem.wf_cons (k : Nat) (x : Byte) (t : List Host.Cell) : Mem.wf ((k, x) :: t) = true ↔
    k < Config.spaceEnd ∧ x ≠ Config.ramFill ∧ (∀ c ∈ t, k < c.1) ∧ Mem.wf t = true := by
  simp only [Mem.wf, Bool.and_eq_true, decide_eq_true_eq, bne_iff_ne, List.all_eq_true, and_assoc]

/-- A write lists no address but the one written and those listed before. -/
theorem Mem.write_mem (m : List Host.Cell) (a : Nat) (b : Byte) (c : Host.Cell) (h : c ∈ Mem.write m a b) :
    c.1 = a ∨ c ∈ m := by
  induction m with
  | nil =>
    simp only [Mem.write] at h
    split at h
    · cases h
    · rw [List.mem_singleton] at h; exact .inl (by rw [h])
  | cons d t ih =>
    obtain ⟨x, y⟩ := d
    simp only [Mem.write] at h
    split at h
    · split at h
      · exact .inr h
      · rcases List.mem_cons.mp h with h | h
        · exact .inl (by rw [h])
        · exact .inr h
    · split at h
      · split at h
        · exact .inr (List.mem_cons_of_mem _ h)
        · rcases List.mem_cons.mp h with h | h
          · exact .inl (by rw [h])
          · exact .inr (List.mem_cons_of_mem _ h)
      · rcases List.mem_cons.mp h with h | h
        · exact .inr (h ▸ List.mem_cons_self ..)
        · exact (ih h).imp id (List.mem_cons_of_mem _)

/-- A write keeps the canonical form. -/
theorem Mem.write_wf (m : List Host.Cell) (a : Nat) (b : Byte) (ha : a < Config.spaceEnd) (hm : Mem.wf m = true) :
    Mem.wf (Mem.write m a b) = true := by
  induction m with
  | nil =>
    simp only [Mem.write]
    split
    · rfl
    · rename_i hb; exact (Mem.wf_cons ..).mpr ⟨ha, hb, (fun c hc => absurd hc List.not_mem_nil), rfl⟩
  | cons c t ih =>
    obtain ⟨x, y⟩ := c
    have ⟨h1, h2, h3, h4⟩ := (Mem.wf_cons ..).mp hm
    simp only [Mem.write]
    split
    · rename_i hlt
      split
      · exact hm
      · rename_i hb
        refine (Mem.wf_cons ..).mpr ⟨ha, hb, fun c hc => ?_, hm⟩
        rcases List.mem_cons.mp hc with rfl | hc
        · exact hlt
        · exact Nat.lt_trans hlt (h3 c hc)
    · split
      · rename_i h5
        split
        · exact h4
        · rename_i hb; exact (Mem.wf_cons ..).mpr ⟨ha, hb, h5 ▸ h3, h4⟩
      · refine (Mem.wf_cons ..).mpr ⟨h1, h2, fun c hc => ?_, ih h4⟩
        rcases Mem.write_mem _ _ _ _ hc with hc | hc
        · omega
        · exact h3 c hc

/-- In the canonical form, an address below every listed one reads the fill byte. -/
theorem Mem.read_below (m : List Host.Cell) (a : Nat) (h : ∀ c ∈ m, a < c.1) : Mem.read m a = Config.ramFill := by
  induction m with
  | nil => rfl
  | cons c t ih =>
    have := h c (List.mem_cons_self ..)
    obtain ⟨x, y⟩ := c
    simp only [Mem.read, if_neg (show ¬a = x by simp at this; omega)]
    exact ih fun c hc => h c (List.mem_cons_of_mem _ hc)

/-- A read after a write: the byte written at its address, the old byte elsewhere. -/
theorem Mem.read_write (m : List Host.Cell) (a i : Nat) (b : Byte) (hm : Mem.wf m = true) :
    Mem.read (Mem.write m a b) i = if i = a then b else Mem.read m i := by
  induction m with
  | nil => simp only [Mem.write]; split <;> simp_all [Mem.read]
  | cons c t ih =>
    obtain ⟨x, y⟩ := c
    have ⟨h1, h2, h3, h4⟩ := (Mem.wf_cons ..).mp hm
    have below : ∀ j, j ≤ x → Mem.read t j = Config.ramFill := fun j hj =>
      Mem.read_below t j fun c hc => Nat.lt_of_le_of_lt hj (h3 c hc)
    simp only [Mem.write]
    split
    · rename_i hlt
      have := below a (by omega)
      split
      · rename_i hb; by_cases hi : i = a
        · subst hi; simp [Mem.read, this, hb]; omega
        · simp [hi]
      · by_cases hi : i = a <;> simp [Mem.read, hi]
    · split
      · rename_i h5 h6; subst h6
        split
        · rename_i hb; by_cases hi : i = a
          · subst hi; simp [hb, below]
          · simp [Mem.read, hi]
        · by_cases hi : i = a <;> simp [Mem.read, hi]
      · rename_i h5 h6
        by_cases hi : i = x
        · simp [Mem.read, hi]; omega
        · simp [Mem.read, hi, ih h4]

/-- A lane written keeps the canonical form. -/
theorem Mem.writeLane_wf (m : List Host.Cell) (a : Nat) (be : BitVec 4) (w : Word) (n : Nat) (ha : a + n < Config.spaceEnd)
    (hm : Mem.wf m = true) : Mem.wf (Mem.writeLane m a be w n) = true := by
  unfold Mem.writeLane; split
  · exact Mem.write_wf m _ _ ha hm
  · exact hm

/-- A read after a lane is written. -/
theorem Mem.read_writeLane (m : List Host.Cell) (a i : Nat) (be : BitVec 4) (w : Word) (n : Nat) (hm : Mem.wf m = true) :
    Mem.read (Mem.writeLane m a be w n) i =
      if be.getLsbD n = true ∧ i = a + n then w.extractLsb' (8 * n) 8 else Mem.read m i := by
  unfold Mem.writeLane; split
  · rw [Mem.read_write m _ _ _ hm]; simp_all
  · simp_all

/-- A word written keeps the canonical form. -/
theorem Mem.writeWord_wf (m : List Host.Cell) (a : Nat) (be : BitVec 4) (w : Word) (ha : a + 3 < Config.spaceEnd)
    (hm : Mem.wf m = true) : Mem.wf (Mem.writeWord m a be w) = true := by
  simp only [Mem.writeWord, List.foldl_cons, List.foldl_nil]
  exact Mem.writeLane_wf _ _ _ _ _ (by omega) (Mem.writeLane_wf _ _ _ _ _ (by omega)
    (Mem.writeLane_wf _ _ _ _ _ (by omega) (Mem.writeLane_wf _ _ _ _ _ (by omega) hm)))

/-- The base of a word lies four bytes or more below the end of the space. -/
theorem wordBase_lt (a : Addr) : wordBase a + 3 < Config.spaceEnd := by
  have := a.isLt; simp only [wordBase, Config.spaceEnd]; omega

/-- A read after a word is written: the lanes enabled give the word's bytes, every other byte is as before. -/
theorem Mem.read_writeWord (m : List Host.Cell) (a i : Nat) (be : BitVec 4) (w : Word) (ha : a + 3 < Config.spaceEnd)
    (hm : Mem.wf m = true) :
    Mem.read (Mem.writeWord m a be w) i =
      if a ≤ i ∧ i < a + 4 ∧ be.getLsbD (i - a) = true then w.extractLsb' (8 * (i - a)) 8 else Mem.read m i := by
  have w0 := Mem.writeLane_wf m a be w 0 (by omega) hm
  have w1 := Mem.writeLane_wf _ a be w 1 (by omega) w0
  have w2 := Mem.writeLane_wf _ a be w 2 (by omega) w1
  simp only [Mem.writeWord, List.foldl_cons, List.foldl_nil]
  rw [Mem.read_writeLane _ _ _ _ _ _ w2, Mem.read_writeLane _ _ _ _ _ _ w1, Mem.read_writeLane _ _ _ _ _ _ w0,
    Mem.read_writeLane _ _ _ _ _ _ hm]
  by_cases h : a ≤ i ∧ i < a + 4
  · obtain ⟨d, rfl⟩ : ∃ d, i = a + d := ⟨i - a, by omega⟩
    have hd : d = 0 ∨ d = 1 ∨ d = 2 ∨ d = 3 := by omega
    rcases hd with rfl | rfl | rfl | rfl <;> simp
  · have h0 : ¬i = a := by omega
    have h1 : ¬i = a + 1 := by omega
    have h2 : ¬i = a + 2 := by omega
    have h3 : ¬i = a + 3 := by omega
    simp only [Nat.add_zero, h0, h1, h2, h3, and_false, if_false]
    rw [if_neg (by omega)]

/-- A word's four bytes make it up. -/
theorem word_bytes (w : Word) :
    (w.extractLsb' 24 8 ++ w.extractLsb' 16 8 ++ w.extractLsb' 8 8 ++ w.extractLsb' 0 8 : BitVec 32) = w := by
  ext i hi
  simp only [BitVec.getElem_append, BitVec.getElem_extractLsb']
  split <;> rename_i h0
  · simp [BitVec.getLsbD_eq_getElem hi]
  · split <;> rename_i h1
    · rw [show 8 + (i - 8) = i by omega, BitVec.getLsbD_eq_getElem hi]
    · split <;> rename_i h2
      · rw [show 16 + (i - 8 - 8) = i by omega, BitVec.getLsbD_eq_getElem hi]
      · rw [show 24 + (i - 8 - 8 - 8) = i by omega, BitVec.getLsbD_eq_getElem hi]

/-- A word written whole reads back. -/
theorem Mem.readWord_writeWord (m : List Host.Cell) (a : Nat) (w : Word) (ha : a + 3 < Config.spaceEnd)
    (hm : Mem.wf m = true) : Mem.readWord (Mem.writeWord m a 0xF#4 w) a = w := by
  have lane (n : Nat) (hn : n < 4) : Mem.read (Mem.writeWord m a 0xF#4 w) (a + n) = w.extractLsb' (8 * n) 8 := by
    rw [Mem.read_writeWord m a _ _ _ ha hm, if_pos]
    · simp
    · refine ⟨by omega, by omega, ?_⟩
      rw [Nat.add_sub_cancel_left]
      revert n; decide
  have h := word_bytes w
  simp only [Mem.readWord, lane 1 (by omega), lane 2 (by omega), lane 3 (by omega)]
  rw [show Mem.read (Mem.writeWord m a 0xF#4 w) a = w.extractLsb' 0 8 from lane 0 (by omega)]
  exact h

/-- A whole word written elsewhere leaves a word's reading as it was. -/
theorem Mem.readWord_writeWord_other (m : List Host.Cell) (a b : Nat) (w : Word) (ha : a + 3 < Config.spaceEnd)
    (hm : Mem.wf m = true) (h : b + 3 < a ∨ a + 3 < b) : Mem.readWord (Mem.writeWord m a 0xF#4 w) b = Mem.readWord m b := by
  have lane (j : Nat) (hj : j < 4) : Mem.read (Mem.writeWord m a 0xF#4 w) (b + j) = Mem.read m (b + j) := by
    rw [Mem.read_writeWord _ _ _ _ _ ha hm, if_neg (by omega)]
  have l0 := lane 0 (by omega)
  rw [Nat.add_zero] at l0
  simp only [Mem.readWord, l0, lane 1 (by omega), lane 2 (by omega), lane 3 (by omega)]

/-- Byte `n` of the word at an address is the byte at `n` past it. -/
theorem Mem.readWord_byte (m : List Host.Cell) (a n : Nat) (h : n < 4) :
    (Mem.readWord m a).extractLsb' (8 * n) 8 = Mem.read m (a + n) := by
  have key (x y z w : Byte) (i : Nat) (hi : i < 8) : (x ++ y ++ z ++ w : Word).getLsbD i = w.getLsbD i ∧
      (x ++ y ++ z ++ w : Word).getLsbD (8 + i) = z.getLsbD i ∧ (x ++ y ++ z ++ w : Word).getLsbD (16 + i) = y.getLsbD i ∧
      (x ++ y ++ z ++ w : Word).getLsbD (24 + i) = x.getLsbD i := by
    simp only [BitVec.getLsbD_append]
    refine ⟨by rw [if_pos hi], ?_, ?_, ?_⟩
    · rw [if_neg (by omega), if_pos (by omega)]; congr 1; omega
    · rw [if_neg (by omega), if_neg (by omega), if_pos (by omega)]; congr 1; omega
    · rw [if_neg (by omega), if_neg (by omega), if_neg (by omega)]; congr 1; omega
  apply BitVec.eq_of_getLsbD_eq
  intro i hi
  rw [BitVec.getLsbD_extractLsb', decide_eq_true hi, Bool.true_and, Mem.readWord]
  obtain ⟨k0, k1, k2, k3⟩ := key (Mem.read m (a + 3)) (Mem.read m (a + 2)) (Mem.read m (a + 1)) (Mem.read m a) i hi
  match n, h with
  | 0, _ => simpa using k0
  | 1, _ => exact k1
  | 2, _ => exact k2
  | 3, _ => exact k3

/-- A host access keeps the canonical form. -/
theorem HostRequest.perform_wf (q : HostRequest) (m : List Host.Cell) (hm : Mem.wf m = true) :
    Mem.wf (q.perform m) = true := by
  unfold HostRequest.perform; split
  · exact hm
  · exact Mem.writeWord_wf _ _ _ _ (wordBase_lt _) hm

/-- An internal request keeps the canonical form. -/
theorem MemRequest.perform_wf (q : MemRequest) (m : List Host.Cell) (hm : Mem.wf m = true) : Mem.wf (q.perform m) = true :=
  HostRequest.perform_wf _ _ hm

/-- An internal read leaves RAM as it is. -/
theorem MemRequest.perform_read (a : Addr) (m : List Host.Cell) : (⟨a, none⟩ : MemRequest).perform m = m := rfl

/-- An internal write stores the whole word. -/
theorem MemRequest.perform_write (a : Addr) (w : Word) (m : List Host.Cell) :
    (⟨a, some w⟩ : MemRequest).perform m = Mem.writeWord m (wordBase a) 0xF#4 w := rfl

end Sys2Proof.Machine
end

