-- ==== Sys2Proof/Laws/Moves.lean ====
section
/-! SUPPORT. The larger moves of the part's blocks: the shape of each one's result, which names every field it can change. -/

namespace Sys2Proof.Machine

/-! ### What a point's own steps change: the points, and the Report Writer by what they raise -/

/-- A chip whose points, writer and Internal Master may differ. -/
def Chip.AlterPoints (c d : Chip) : Prop := ∃ p w i, d = { c with points := p, writer := w, im := i }

/-- A chip whose points, zones, slots, fires, writer and Internal Master may differ. -/
def Chip.AlterAlarm (c d : Chip) : Prop :=
  ∃ p z s n f w i, d = { c with points := p, zones := z, slots := s, fireCount := n, firePin := f, writer := w, im := i }

theorem Chip.AlterPoints.refl (c : Chip) : c.AlterPoints c := ⟨_, _, _, rfl⟩

theorem Chip.AlterPoints.trans {c d e : Chip} (h : c.AlterPoints d) (g : d.AlterPoints e) : c.AlterPoints e := by
  obtain ⟨_, _, _, rfl⟩ := h; obtain ⟨_, _, _, rfl⟩ := g; exact ⟨_, _, _, rfl⟩

theorem Chip.AlterAlarm.refl (c : Chip) : c.AlterAlarm c := ⟨_, _, _, _, _, _, _, rfl⟩

theorem Chip.AlterAlarm.trans {c d e : Chip} (h : c.AlterAlarm d) (g : d.AlterAlarm e) : c.AlterAlarm e := by
  obtain ⟨_, _, _, _, _, _, _, rfl⟩ := h; obtain ⟨_, _, _, _, _, _, _, rfl⟩ := g; exact ⟨_, _, _, _, _, _, _, rfl⟩

theorem Chip.AlterPoints.alarm {c d : Chip} (h : c.AlterPoints d) : c.AlterAlarm d := by
  obtain ⟨_, _, _, rfl⟩ := h; exact ⟨_, _, _, _, _, _, _, rfl⟩

theorem Chip.setPoint_alter (c : Chip) (r : Rec) (p : PointRecord) : c.AlterPoints (c.setPoint r p) := ⟨_, _, _, rfl⟩

theorem Chip.modPoint_alter (c : Chip) (r : Rec) (f : PointRecord → PointRecord) : c.AlterPoints (c.modPoint r f) :=
  ⟨_, _, _, rfl⟩

theorem Chip.rederive_alter (c : Chip) (r : Rec) : c.AlterPoints (c.rederive r) := ⟨_, _, _, rfl⟩

theorem Chip.raise_alter (c : Chip) (r : Report) : c.AlterPoints (c.raise r) := by
  obtain ⟨w, i, h⟩ := c.raise_shape r; exact ⟨_, w, i, h⟩

theorem Chip.raisePoint_alter (c : Chip) (k : ReportKind) (r : Rec) (time : Nat) (a b : Word) :
    c.AlterPoints (c.raisePoint k r time a b) := c.raise_alter _

theorem Chip.raiseZone_alter (c : Chip) (k : ReportKind) (z : Zone) (time : Nat) (a b : Word) :
    c.AlterPoints (c.raiseZone k z time a b) := c.raise_alter _

/-- A point changed and a report about it raised. -/
theorem Chip.modRaise_alter (c : Chip) (q : Rec) (f : PointRecord → PointRecord) (k : ReportKind) (r : Rec) (time : Nat)
    (a b : Word) : c.AlterPoints ((c.modPoint q f).raisePoint k r time a b) :=
  (c.modPoint_alter q f).trans (Chip.raisePoint_alter _ _ _ _ _ _)

theorem Chip.presenceGood_alter (c : Chip) (r : Rec) (p now : Nat) : c.AlterPoints (c.presenceGood r p now) := by
  unfold Chip.presenceGood; dsimp only; split
  · exact c.modRaise_alter _ _ _ _ _ _ _
  · exact c.modPoint_alter _ _

theorem Chip.enterSilent_alter (c : Chip) (r : Rec) (now p : Nat) : c.AlterPoints (c.enterSilent r now p) :=
  c.modRaise_alter _ _ _ _ _ _ _

theorem Chip.presenceNoreply_alter (c : Chip) (r : Rec) (n now : Nat) : c.AlterPoints (c.presenceNoreply r n now) := by
  unfold Chip.presenceNoreply; split
  · exact c.enterSilent_alter _ _ _
  · exact .refl c

theorem Chip.serialStep_alter (c : Chip) (r : Rec) (e : EventSerial) (now : Nat) : c.AlterPoints (c.serialStep r e now) := by
  cases e with
  | absent => exact .refl c
  | lostEmpty => exact c.modRaise_alter _ _ _ _ _ _ _
  | lostOther h => exact c.modRaise_alter _ _ _ _ _ _ _
  | present s =>
    show c.AlterPoints (c.serialPresent r s now)
    unfold Chip.serialPresent; dsimp only
    split
    · exact c.modPoint_alter _ _
    · split
      · exact .refl c
      · split
        · exact .refl c
        · split
          · exact c.modRaise_alter _ _ _ _ _ _ _
          · exact c.modRaise_alter _ _ _ _ _ _ _

theorem Chip.classStep_alter (c : Chip) (r : Rec) (k : BitVec 3) (now : Nat) : c.AlterPoints (c.classStep r k now) := by
  unfold Chip.classStep; split
  · unfold Chip.firstSighting; dsimp only; split
    · exact (c.modRaise_alter _ _ _ _ _ _ _).trans (Chip.raisePoint_alter _ _ _ _ _ _)
    · exact c.modRaise_alter _ _ _ _ _ _ _
  · split
    · exact .refl c
    · unfold Chip.classChange; dsimp only
      exact (c.modRaise_alter _ _ _ _ _ _ _).trans (Chip.modPoint_alter _ _ _)

theorem Chip.garbledStep_alter (c : Chip) (r : Rec) (n now : Nat) : c.AlterPoints (c.garbledStep r n now) := by
  unfold Chip.garbledStep; split
  · exact c.modRaise_alter _ _ _ _ _ _ _
  · exact .refl c

theorem Chip.latchWithReport_alter (c : Chip) (r : Rec) (f : Flag) (k : ReportKind) (now : Nat) (a b : Word) :
    c.AlterPoints (c.latchWithReport r f k now a b) := by
  unfold Chip.latchWithReport; split
  · exact .refl c
  · exact c.modRaise_alter _ _ _ _ _ _ _

theorem Chip.driftCheck_alter (c : Chip) (r : Rec) (a : BitVec 8) (code : BitVec 4) (now : Nat) :
    c.AlterPoints (c.driftCheck r a code now) := by
  unfold Chip.driftCheck; dsimp only; split
  · exact (c.modPoint_alter _ _).trans (Chip.latchWithReport_alter _ _ _ _ _ _ _)
  · exact c.modPoint_alter _ _

theorem Chip.prealarmCheck_alter (c : Chip) (r : Rec) (a : BitVec 8) (code : BitVec 4) (now : Nat) :
    c.AlterPoints (c.prealarmCheck r a code now) := by
  unfold Chip.prealarmCheck; split
  · split
    · exact c.modRaise_alter _ _ _ _ _ _ _
    · exact .refl c
  · split
    · exact c.modPoint_alter _ _
    · exact .refl c

theorem Chip.sensorCheck_alter (c : Chip) (r : Rec) (s : GoodStatus) (a : BitVec 8) (now : Nat) :
    c.AlterPoints (c.sensorCheck r s a now) := by
  unfold Chip.sensorCheck; split
  · exact c.latchWithReport_alter _ _ _ _ _ _
  · exact .refl c

theorem Chip.driftMonitor_alter (c : Chip) (r : Rec) (s : GoodStatus) (a : BitVec 8) (code : BitVec 4) (now : Nat) :
    c.AlterPoints (c.driftMonitor r s a code now) := by
  cases s with
  | fault => exact (c.latchWithReport_alter _ _ _ _ _ _).trans (Chip.sensorCheck_alter _ _ _ _ _)
  | normal =>
    show c.AlterPoints (if a = 255#8 then _ else _)
    split
    · exact c.sensorCheck_alter _ _ _ _
    · exact (c.driftCheck_alter _ _ _ _).trans (Chip.prealarmCheck_alter _ _ _ _ _)
  | alarm =>
    show c.AlterPoints (if a = 255#8 then _ else _)
    split
    · exact c.sensorCheck_alter _ _ _ _
    · exact c.modPoint_alter _ _

/-! ### The Alarm Qualifier -/

theorem Chip.setVerdict_alter (c : Chip) (r : Rec) (v : Verdict) : c.AlterAlarm (c.setVerdict r v) :=
  ⟨_, _, _, _, _, _, _, rfl⟩

theorem Chip.modZone_alter (c : Chip) (z : Zone) (f : ZoneRecord → ZoneRecord) : c.AlterAlarm (c.modZone z f) :=
  ⟨_, _, _, _, _, _, _, rfl⟩

theorem Chip.setSlot_alter (c : Chip) (k : Fin 4) (w : Option WalkSlot) : c.AlterAlarm (c.setSlot k w) :=
  ⟨_, _, _, _, _, _, _, rfl⟩

theorem Chip.requestEnd_alter (c : Chip) (k : Fin 4) (reason : EndReason) : c.AlterAlarm (c.requestEnd k reason) := by
  obtain ⟨v, h⟩ := c.requestEnd_shape k reason; rw [h]; exact ⟨_, _, _, _, _, _, _, rfl⟩

theorem Chip.hold_alter (c : Chip) (r : Rec) (now cause : Nat) : c.AlterAlarm (c.hold r now cause) :=
  (c.setVerdict_alter _ _).trans (Chip.raisePoint_alter _ _ _ _ _ _).alarm

theorem Chip.coincide_alter (c : Chip) (r other : Rec) (now : Nat) : c.AlterAlarm (c.coincide r other now) := by
  unfold Chip.coincide; split
  · exact .refl c
  · exact (c.setVerdict_alter _ _).trans (Chip.raisePoint_alter _ _ _ _ _ _).alarm

theorem Chip.recordHit_alter (c : Chip) (k : Fin 4) (r : Rec) (now : Nat) : c.AlterAlarm (c.recordHit k r now) := by
  unfold Chip.recordHit; split
  · exact .refl c
  · exact (c.setSlot_alter _ _).trans (Chip.raise_alter _ _).alarm

theorem Chip.capture_alter (c : Chip) (k : Fin 4) (r : Rec) (now : Nat) : c.AlterAlarm (c.capture k r now) :=
  ((c.setVerdict_alter _ _).trans (Chip.modPoint_alter _ _ _).alarm).trans (Chip.recordHit_alter _ _ _ _)

theorem Chip.breakout_alter (c : Chip) (z : Zone) : c.AlterAlarm (c.breakout z) := by
  unfold Chip.breakout; split
  · exact c.requestEnd_alter _ _
  · exact .refl c

theorem Chip.coincidence_alter (c : Chip) (z : Zone) (q p : Rec) (now : Nat) : c.AlterAlarm (c.coincidence z q p now) := by
  unfold Chip.coincidence; dsimp only
  exact ((((c.raiseZone_alter _ _ _ _ _).alarm.trans (Chip.coincide_alter _ _ _ _)).trans
    (Chip.coincide_alter _ _ _ _)).trans (Chip.modZone_alter _ _ _)).trans (Chip.breakout_alter _ _)

theorem Chip.coincidenceCheck_alter (c : Chip) (z : Zone) (p : Rec) (now : Nat) :
    c.AlterAlarm (c.coincidenceCheck z p now) := by
  unfold Chip.coincidenceCheck; split
  · exact c.coincidence_alter _ _ _ _
  · exact c.modZone_alter _ _

/-- The qualification of an onset changes points, zones, slots, the fires and what it reports, and nothing else. -/
theorem Chip.qualify_alter (c : Chip) (r : Rec) (now : Nat) (kind : OnsetKind) : c.AlterAlarm (c.qualify r now kind) := by
  unfold Chip.qualify; dsimp only; split
  · exact c.hold_alter _ _ _
  · split
    · exact (c.capture_alter _ _ _).trans (Chip.coincidenceCheck_alter _ _ _ _)
    · split
      · exact (c.setVerdict_alter _ _).trans (Chip.raisePoint_alter _ _ _ _ _ _).alarm
      · exact (c.hold_alter _ _ _).trans (Chip.coincidenceCheck_alter _ _ _ _)

theorem Chip.verdictStep_alter (c : Chip) (r : Rec) (s : GoodStatus) (now : Nat) : c.AlterAlarm (c.verdictStep r s now) := by
  unfold Chip.verdictStep; split
  · exact c.qualify_alter _ _ _
  · exact .refl c
  · exact c.setVerdict_alter _ _
  · exact .refl c

/-- A reply event changes points, zones, slots, the fires and what it reports, and nothing else (R57). -/
theorem Chip.processReply_alter (c : Chip) (e : ReplyEvent) : c.AlterAlarm (c.processReply e) := by
  unfold Chip.processReply; split
  · exact ((((((c.modPoint_alter _ _).trans (Chip.presenceGood_alter _ _ _ _)).trans (Chip.serialStep_alter _ _ _ _)).trans
      (Chip.classStep_alter _ _ _ _)).trans (Chip.rederive_alter _ _)).trans
      (Chip.driftMonitor_alter _ _ _ _ _ _)).alarm.trans (Chip.verdictStep_alter _ _ _ _)
  · exact (((c.modPoint_alter _ _).trans (Chip.garbledStep_alter _ _ _ _)).trans (Chip.rederive_alter _ _)).alarm
  · exact (((c.modPoint_alter _ _).trans (Chip.presenceNoreply_alter _ _ _ _)).trans (Chip.rederive_alter _ _)).alarm

/-- A silence test changes points and what it reports, and nothing else (R66, R67). -/
theorem Chip.silenceTest_alter (c : Chip) (r : Rec) : c.AlterPoints (c.silenceTest r) := by
  unfold Chip.silenceTest; split
  · exact (c.enterSilent_alter _ _ _).trans (Chip.rederive_alter _ _)
  · exact .refl c

/-! ### Walk slots, consents, ticks -/

/-- An end event changes slots, zones and what it reports, and nothing else (R137). -/
theorem Chip.endSlot_alter (c : Chip) (k : Fin 4) : c.AlterAlarm (c.endSlot k) := by
  unfold Chip.endSlot; split
  · split
    · exact ((c.setSlot_alter _ _).trans (Chip.modZone_alter _ _ _)).trans (Chip.raiseZone_alter _ _ _ _ _ _).alarm
    · exact .refl c
  · exact .refl c

/-- A move of a sweep changes the alarm side, or frees the slot and may send a waiting WALK END to completion (R138). -/
theorem Chip.sweepSlot_shape (c : Chip) (k : Fin 4) : ∃ d, c.AlterAlarm d ∧
    (c.sweepSlot k = d ∨ ∃ f, c.sweepSlot k = d.complete f) := by
  unfold Chip.sweepSlot; split
  · split
    · split
      · refine ⟨_, ?_, .inl rfl⟩
        unfold Chip.clearTest; dsimp only; split
        · exact (((c.setSlot_alter _ _).trans (Chip.setVerdict_alter _ _ _)).trans (Chip.rederive_alter _ _).alarm).trans
            (Chip.qualify_alter _ _ _ _)
        · exact (c.setSlot_alter _ _).trans (Chip.setVerdict_alter _ _ _)
      · unfold Chip.freeSlot; dsimp only; split
        · split
          · exact ⟨_, c.setSlot_alter _ _, .inr ⟨_, rfl⟩⟩
          · exact ⟨_, c.setSlot_alter _ _, .inl rfl⟩
        · exact ⟨_, c.setSlot_alter _ _, .inl rfl⟩
    · exact ⟨_, .refl c, .inl rfl⟩
  · exact ⟨_, .refl c, .inl rfl⟩

/-- A slot's comparison changes slots and what is owed, and nothing else (R134). -/
theorem Chip.compareSlot_shape (c : Chip) (k : Fin 4) : ∃ s o, c.compareSlot k = { c with slots := s, walkOwed := o } := by
  unfold Chip.compareSlot; split
  · dsimp only; split
    · split
      · obtain ⟨v, h⟩ := Chip.requestEnd_shape { c with walkOwed := c.walkOwed.filter (· != k) } k .expired
        exact ⟨v, _, h⟩
      · exact ⟨_, _, rfl⟩
    · exact ⟨_, _, rfl⟩
  · exact ⟨_, _, rfl⟩

/-- A sample of an input changes its filter, what is owed and what is reported, and nothing else (R91, R99). -/
theorem Chip.sampleInput_shape (c : Chip) (liso : BitVec 4) (l : Loop) : ∃ f n o w i, c.sampleInput liso l =
    { c with lisoFiltered := f, lisoStable := n, rederivations := o, writer := w, im := i } := by
  unfold Chip.sampleInput; dsimp only; split
  · exact ⟨_, _, _, _, _, rfl⟩
  · split
    · unfold Chip.loopConsentEvent Chip.oweRederivations; dsimp only; split
      · obtain ⟨w, i, h⟩ := Chip.raise_shape _ _
        rw [h]; exact ⟨_, _, _, _, _, rfl⟩
      · exact ⟨_, _, _, _, _, rfl⟩
    · exact ⟨_, _, _, _, _, rfl⟩

/-- The points a sweep tests are those LIVE at its tick (R66). -/
@[simp] theorem Chip.mem_livePoints (c : Chip) (r : Rec) : r ∈ c.livePoints ↔ c.points[r].presence = .live := by
  simp [Chip.livePoints, List.mem_finRange]

/-- A slot is compared exactly when it is RUNNING with no reason recorded (R134). -/
@[simp] theorem Chip.slotComparable_iff (c : Chip) (k : Fin 4) :
    c.slotComparable k = true ↔ ∃ w, c.slots[k] = some w ∧ w.ending = false ∧ w.reason = none := by
  unfold Chip.slotComparable WalkSlot.comparable
  cases h : c.slots[k] <;> simp

/-- A tick moves the timebase and what is owed, and nothing else (R33, R66, R134). -/
theorem Chip.tick_shape (c : Chip) : ∃ s x o, c.tick =
    { c with refCount := 0, seconds := min (c.seconds + 1) Config.maxSecond, silenceOwed := s, silenceExempt := x,
             walkOwed := o } := by
  unfold Chip.tick Chip.startRound Chip.startSweep
  repeat' split
  all_goals exact ⟨_, _, _, rfl⟩

/-- A zone load changes the mask, zones, slots, what is owed and what is reported, and nothing else (R94, R99). -/
theorem Chip.loadZones_shape (c : Chip) : ∃ z s o w i, c.loadZones =
    { c with zoneMask := c.shiftRegister, zones := z, slots := s, rederivations := o, writer := w, im := i } := by
  have h1 : ∀ (l : List RealZone) (d : Chip), ∃ z w i, l.foldl Chip.zoneConsentChange d =
      { d with zones := z, writer := w, im := i } := by
    intro l
    induction l with
    | nil => exact fun d => ⟨_, _, _, rfl⟩
    | cons a t ih =>
      intro d
      obtain ⟨w, i, e⟩ := Chip.raiseZone_shape (d.modZone (realZone a) fun zr =>
        { zr with withheld := d.zoneMask.getLsbD a.val }) .consentChanged (realZone a) d.seconds
        (word (d.zoneMask.getLsbD a.val).toNat) (word 2)
      obtain ⟨z', w', i', e'⟩ := ih (d.zoneConsentChange a)
      have e2 : d.zoneConsentChange a = { d with
          zones := (d.modZone (realZone a) fun zr => { zr with withheld := d.zoneMask.getLsbD a.val }).zones,
          writer := w, im := i } := e
      exact ⟨z', w', i', by rw [List.foldl_cons, e', e2]⟩
  have h2 : ∀ (l : List RealZone) (d : Chip), ∃ s, l.foldl Chip.isolateZone d = { d with slots := s } := by
    intro l
    induction l with
    | nil => exact fun d => ⟨_, rfl⟩
    | cons a t ih =>
      intro d
      have e : ∃ s, d.isolateZone a = { d with slots := s } := by
        unfold Chip.isolateZone; split
        · split
          · exact Chip.requestEnd_shape _ _ _
          · exact ⟨_, rfl⟩
        · exact ⟨_, rfl⟩
      obtain ⟨s, e⟩ := e
      obtain ⟨s', e'⟩ := ih (d.isolateZone a)
      exact ⟨s', by rw [List.foldl_cons, e', e]⟩
  obtain ⟨z, w, i, e⟩ := h1 (changedZones c.zoneMask c.shiftRegister) { c with zoneMask := c.shiftRegister }
  obtain ⟨s, e'⟩ := h2 (changedZones c.zoneMask c.shiftRegister)
    ((changedZones c.zoneMask c.shiftRegister).foldl Chip.zoneConsentChange { c with zoneMask := c.shiftRegister })
  unfold Chip.loadZones Chip.oweRederivations
  dsimp only
  rw [e', e]
  exact ⟨_, _, _, _, _, rfl⟩

/-! ### The Command Engine -/

/-- What the command in hand changes by its own work: the plan, the codes, the seal, points, zones, slots with what they owe, the fires, itself
and its client's request. It touches no memory and raises no report. -/
def Chip.AlterWork (c d : Chip) : Prop :=
  ∃ pl pr se p z s o n f m t i, d = { c with
    plan := pl, profiles := pr, sealed := se, points := p, zones := z, slots := s, walkOwed := o, fireCount := n,
    firePin := f, command := m, transfer := t, im := i }

theorem Chip.AlterWork.refl (c : Chip) : c.AlterWork c := ⟨_, _, _, _, _, _, _, _, _, _, _, _, rfl⟩

theorem Chip.AlterWork.trans {c d e : Chip} (h : c.AlterWork d) (g : d.AlterWork e) : c.AlterWork e := by
  obtain ⟨_, _, _, _, _, _, _, _, _, _, _, _, rfl⟩ := h
  obtain ⟨_, _, _, _, _, _, _, _, _, _, _, _, rfl⟩ := g
  exact ⟨_, _, _, _, _, _, _, _, _, _, _, _, rfl⟩

theorem Chip.complete_work (c : Chip) (k : Completion) : c.AlterWork (c.complete k) := by
  obtain ⟨m, i, h⟩ := c.complete_shape k; rw [h]; exact ⟨_, _, _, _, _, _, _, _, _, _, _, _, rfl⟩

theorem Chip.goto_work (c : Chip) (m : Command) (g : CommandStage) : c.AlterWork (c.goto m g) :=
  ⟨_, _, _, _, _, _, _, _, _, _, _, _, rfl⟩

theorem Chip.gotoWork_work (c : Chip) (m : Command) (w : Work) : c.AlterWork (c.gotoWork m w) := c.goto_work _ _

theorem Chip.startBlock_work (c : Chip) (m : Command) (t : TransferEngine) (p : Option Nat) :
    c.AlterWork (c.startBlock m t p) := ⟨_, _, _, _, _, _, _, _, _, _, _, _, rfl⟩

theorem Chip.writeWord_work (c : Chip) (m : Command) (t : TransferEngine) (g : Transfer) (i : Nat) :
    c.AlterWork (c.writeWord m t g i) := ⟨_, _, _, _, _, _, _, _, _, _, _, _, rfl⟩

theorem Chip.replaceEntry_work (c : Chip) (r : Rec) (e : Option PlanEntry) : c.AlterWork (c.replaceEntry r e) := by
  unfold Chip.replaceEntry; dsimp only; split <;> exact ⟨_, _, _, _, _, _, _, _, _, _, _, _, rfl⟩

theorem Chip.modPoint_work (c : Chip) (r : Rec) (f : PointRecord → PointRecord) : c.AlterWork (c.modPoint r f) :=
  ⟨_, _, _, _, _, _, _, _, _, _, _, _, rfl⟩

theorem Chip.rederive_work (c : Chip) (r : Rec) : c.AlterWork (c.rederive r) := ⟨_, _, _, _, _, _, _, _, _, _, _, _, rfl⟩

theorem Chip.installEntry_work (c : Chip) (r : Rec) (e : Option PlanEntry) : c.AlterWork (c.installEntry r e) :=
  ((c.replaceEntry_work r e).trans (Chip.modPoint_work _ _ _)).trans (Chip.rederive_work _ _)

theorem Chip.restorePoint_work (c : Chip) (r : Rec) (q : RestoredPoint) : c.AlterWork (c.restorePoint r q) :=
  ((c.replaceEntry_work r q.entry).trans (Chip.modPoint_work _ _ _)).trans (Chip.rederive_work _ _)

theorem Chip.requestEnd_work (c : Chip) (k : Fin 4) (reason : EndReason) : c.AlterWork (c.requestEnd k reason) := by
  obtain ⟨v, h⟩ := c.requestEnd_shape k reason; rw [h]; exact ⟨_, _, _, _, _, _, _, _, _, _, _, _, rfl⟩

/-- A chip whose plan, codes, seal, points, zones, slots, fires, command, transfer or client request was replaced. -/
theorem Chip.replaced_work (c : Chip) (pl : Vector (Option PlanEntry) 768) (pr : Vector (BitVec 4) 4) (se : Bool)
    (p : Vector PointRecord 768) (z : Vector ZoneRecord 100) (s : Vector (Option WalkSlot) 4) (n : Nat) (f : Bool)
    (m : Option Command) (t : Option TransferEngine) (i : InternalMaster) :
    c.AlterWork { c with plan := pl, profiles := pr, sealed := se, points := p, zones := z, slots := s, fireCount := n,
                         firePin := f, command := m, transfer := t, im := i } := ⟨_, _, _, _, _, _, _, _, _, _, _, _, rfl⟩

theorem Chip.stretchEvent_work (c : Chip) (m : Command) (k : Stretch) (a b x y : Nat) :
    c.AlterWork (c.stretchEvent m k a b x y) := by
  unfold Chip.stretchEvent
  cases k.change c.points[recordAt a] with
  | none =>
    dsimp only; split
    · exact Chip.gotoWork_work _ _ _
    · exact Chip.complete_work _ _
  | some p =>
    dsimp only
    refine Chip.AlterWork.trans (d := c.setPoint (recordAt a) p) ⟨_, _, _, _, _, _, _, _, _, _, _, _, rfl⟩ ?_
    split
    · exact Chip.gotoWork_work _ _ _
    · exact Chip.complete_work _ _

theorem Chip.clearFlagsEvent_work (c : Chip) (m : Command) (a b : Nat) (k : BitVec 8) (n : Nat) :
    c.AlterWork (c.clearFlagsEvent m a b k n) := by
  unfold Chip.clearFlagsEvent; dsimp only
  refine (c.modPoint_work (recordAt a) fun p => p.clearFlags k).trans ?_
  split
  · exact Chip.gotoWork_work _ _ _
  · exact Chip.complete_work _ _

theorem Chip.clearVerdictEvent_work (c : Chip) (m : Command) (a b x y : Nat) :
    c.AlterWork (c.clearVerdictEvent m a b x y) := by
  unfold Chip.clearVerdictEvent; dsimp only
  generalize (c.points[recordAt a].verdict.standing && c.points[recordAt a].lastStatus != some .alarm) = clear
  cases clear
  · by_cases h : 1 < b
    · rw [if_pos h]; exact c.gotoWork_work _ _
    · rw [if_neg h]; exact c.complete_work _
  · refine Chip.AlterWork.trans (d := c.setVerdict (recordAt a) .none) ⟨_, _, _, _, _, _, _, _, _, _, _, _, rfl⟩ ?_
    by_cases h : 1 < b
    · rw [if_pos h]; exact Chip.gotoWork_work _ _ _
    · rw [if_neg h]; exact Chip.complete_work _ _

theorem Chip.queryEvent_work (c : Chip) (m : Command) (n : Nat) (q : Census) : c.AlterWork (c.queryEvent m n q) := by
  unfold Chip.queryEvent
  repeat' split
  all_goals first | exact Chip.gotoWork_work _ _ _ | exact Chip.complete_work _ _

theorem Chip.afterPlanChecks_work (c : Chip) (m : Command) (t : TransferEngine) : c.AlterWork (c.afterPlanChecks m t) := by
  unfold Chip.afterPlanChecks
  repeat' split
  all_goals exact ⟨_, _, _, _, _, _, _, _, _, _, _, _, rfl⟩

theorem Chip.planEntry_work (c : Chip) (m : Command) (t : TransferEngine) (n : Nat) : c.AlterWork (c.planEntry m t n) := by
  unfold Chip.planEntry; dsimp only
  repeat' split
  all_goals first
    | exact Chip.afterPlanChecks_work _ _ _
    | exact Chip.complete_work _ _
    | exact ⟨_, _, _, _, _, _, _, _, _, _, _, _, rfl⟩

theorem Chip.afterPlanInstalls_work (c : Chip) (m : Command) (t : TransferEngine) :
    c.AlterWork (c.afterPlanInstalls m t) := by
  unfold Chip.afterPlanInstalls; dsimp only; split
  · exact Chip.startBlock_work _ _ _ _
  · exact Chip.AlterWork.trans (d := { c with transfer := _ }) ⟨_, _, _, _, _, _, _, _, _, _, _, _, rfl⟩ (Chip.complete_work _ _)

theorem Chip.planInstall_work (c : Chip) (m : Command) (t : TransferEngine) (n : Nat) :
    c.AlterWork (c.planInstall m t n) := by
  unfold Chip.planInstall; dsimp only
  by_cases h : entryLoop (t.entryWords n).1 = 0
  · simp only [if_pos h]
    by_cases g : n < 8
    · rw [if_pos g]; exact ⟨_, _, _, _, _, _, _, _, _, _, _, _, rfl⟩
    · rw [if_neg g]; exact c.afterPlanInstalls_work _ _
  · simp only [if_neg h]
    refine (c.installEntry_work (entryRecord (t.entryWords n).1)
      (entryOf (t.entryWords n).1 (t.entryWords n).2)).trans ?_
    by_cases g : n < 8
    · rw [if_pos g]; exact ⟨_, _, _, _, _, _, _, _, _, _, _, _, rfl⟩
    · rw [if_neg g]; exact Chip.afterPlanInstalls_work _ _ _

theorem Chip.restoreBlock_work (c : Chip) (m : Command) (t : TransferEngine) : c.AlterWork (c.restoreBlock m t) := by
  unfold Chip.restoreBlock
  repeat' split
  all_goals first
    | exact Chip.complete_work _ _
    | exact Chip.gotoWork_work _ _ _
    | exact Chip.startBlock_work _ _ _ _

theorem Chip.restoreInstall_work (c : Chip) (m : Command) (t : TransferEngine) (n : Nat) :
    c.AlterWork (c.restoreInstall m t n) := by
  unfold Chip.restoreInstall; dsimp only
  have h := c.restorePoint_work (recordAt (8 * t.block + n - 1)) (restoredPoint t.words n)
  generalize c.restorePoint (recordAt (8 * t.block + n - 1)) (restoredPoint t.words n) = d at h ⊢
  refine h.trans ?_
  by_cases h1 : n < 8
  · rw [if_pos h1]; exact d.gotoWork_work _ _
  · rw [if_neg h1]
    by_cases h2 : TransferEngine.block { t with blocks := t.blocks + 1 } < 95
    · rw [if_pos h2]; exact d.startBlock_work _ _ _
    · rw [if_neg h2]; exact ⟨_, _, _, _, _, _, _, _, _, _, _, _, rfl⟩

theorem Chip.restoreFinal_work (c : Chip) (t : TransferEngine) : c.AlterWork (c.restoreFinal t) := by
  unfold Chip.restoreFinal; split
  · exact Chip.AlterWork.trans (d := { c with profiles := _, sealed := _ }) ⟨_, _, _, _, _, _, _, _, _, _, _, _, rfl⟩
      (Chip.complete_work _ _)
  · exact .refl c

theorem Chip.checkRange_work (c : Chip) (m : Command) (ok : PointRecord → Bool) (w : Work) :
    c.AlterWork (c.checkRange m ok w) := by
  unfold Chip.checkRange
  repeat' split
  all_goals first | exact Chip.complete_work _ _ | exact Chip.gotoWork_work _ _ _

theorem Chip.checkWalkStart_work (c : Chip) (m : Command) : c.AlterWork (c.checkWalkStart m) := by
  unfold Chip.checkWalkStart Chip.startWalk; dsimp only
  split
  · exact c.complete_work _
  · split
    · exact c.complete_work _
    · split
      · exact c.complete_work _
      · split
        · exact c.complete_work _
        · split
          · exact c.complete_work _
          · exact Chip.AlterWork.trans ⟨_, _, _, _, _, _, _, _, _, _, _, _, rfl⟩ (Chip.complete_work _ _)

theorem Chip.checkPlanLoad_work (c : Chip) (m : Command) (b : Binding) (t : TransferEngine) :
    c.AlterWork (c.checkPlanLoad m b t) := by
  unfold Chip.checkPlanLoad; split
  · exact c.complete_work _
  · split
    · exact c.complete_work _
    · exact c.startBlock_work _ _ _

theorem Chip.checkSnapshot_work (c : Chip) (m : Command) (b : Binding) (t : TransferEngine) :
    c.AlterWork (c.checkSnapshot m b t) := by
  unfold Chip.checkSnapshot; split
  · exact c.complete_work _
  · exact ⟨_, _, _, _, _, _, _, _, _, _, _, _, rfl⟩

theorem Chip.checkRestore_work (c : Chip) (m : Command) (b : Binding) (t : TransferEngine) :
    c.AlterWork (c.checkRestore m b t) := by
  unfold Chip.checkRestore; split
  · exact c.complete_work _
  · split
    · exact c.complete_work _
    · split
      · exact c.complete_work _
      · exact c.startBlock_work _ _ _

theorem Chip.checkTransfer_work (c : Chip) (f : Binding → TransferEngine → Chip) (h : ∀ b t, c.AlterWork (f b t)) :
    c.AlterWork (c.checkTransfer f) := by
  unfold Chip.checkTransfer; split
  · exact h _ _
  · exact .refl c

theorem Chip.checkProfileSet_work (c : Chip) (m : Command) : c.AlterWork (c.checkProfileSet m) := by
  unfold Chip.checkProfileSet; dsimp only; split
  · exact c.complete_work _
  · split
    · exact c.complete_work _
    · exact Chip.AlterWork.trans ⟨_, _, _, _, _, _, _, _, _, _, _, _, rfl⟩ (Chip.complete_work _ _)

theorem Chip.checkAdopt_work (c : Chip) (m : Command) : c.AlterWork (c.checkAdopt m) := by
  unfold Chip.checkAdopt Chip.adoptPoint; dsimp only; split
  · exact c.complete_work _
  · split
    · exact Chip.AlterWork.trans ⟨_, _, _, _, _, _, _, _, _, _, _, _, rfl⟩ (Chip.complete_work _ _)
    · exact c.complete_work _

theorem Chip.checkClearFlags_work (c : Chip) (m : Command) : c.AlterWork (c.checkClearFlags m) := by
  unfold Chip.checkClearFlags; split
  · exact c.complete_work _
  · split
    · exact c.complete_work _
    · exact c.gotoWork_work _ _

theorem Chip.checkCommand_work (c : Chip) (m : Command) : c.AlterWork (c.checkCommand m) := by
  unfold Chip.checkCommand; split
  · exact c.complete_work _
  · split
    · exact c.checkTransfer_work _ (c.checkPlanLoad_work m)
    · exact c.checkTransfer_work _ (c.checkSnapshot_work m)
    · exact c.checkTransfer_work _ (c.checkRestore_work m)
    · exact c.checkProfileSet_work m
    · exact Chip.AlterWork.trans (d := { c with sealed := true }) ⟨_, _, _, _, _, _, _, _, _, _, _, _, rfl⟩
        (Chip.complete_work _ _)
    · exact c.checkWalkStart_work m
    · unfold Chip.checkWalkEnd; split
      · exact (c.requestEnd_work _ _).trans (Chip.goto_work _ _ _)
      · exact c.complete_work _
    · exact c.checkRange_work _ _ _
    · exact c.checkRange_work _ _ _
    · exact c.checkAdopt_work m
    · exact c.checkClearFlags_work m
    · unfold Chip.checkClearVerdict; split
      · exact c.complete_work _
      · exact c.gotoWork_work _ _
    · exact c.complete_work _
    · unfold Chip.checkRevert; split
      · exact c.gotoWork_work _ _
      · exact c.complete_work _
    · exact c.gotoWork_work _ _
    · exact c.complete_work _
    · exact c.complete_work _

/-- The command in hand's own next event (R148 steps 3 to 5) changes what `AlterWork` names, and nothing else. -/
theorem Chip.commandWork_work (c : Chip) : c.AlterWork c.commandWork := by
  unfold Chip.commandWork; split
  · split
    · rename_i w _
      unfold Chip.work Chip.transferWork
      cases w
      case check => exact c.checkCommand_work _
      case stretch => exact c.stretchEvent_work _ _ _ _ _ _
      case clearFlags => exact c.clearFlagsEvent_work _ _ _ _ _
      case clearVerdict => exact c.clearVerdictEvent_work _ _ _ _ _
      case query => exact c.queryEvent_work _ _ _
      case planBlock =>
        dsimp only; split
        · exact .refl c
        · unfold Chip.planBlock; split
          · exact c.gotoWork_work _ _
          · exact c.complete_work _
      case planEntry => dsimp only; split; exact .refl c; exact c.planEntry_work _ _ _
      case planInstall => dsimp only; split; exact .refl c; exact c.planInstall_work _ _ _
      case restoreHeader =>
        dsimp only; split
        · exact .refl c
        · unfold Chip.restoreHeader; split
          · exact c.startBlock_work _ _ _
          · exact c.complete_work _
      case restoreBlock => dsimp only; split; exact .refl c; exact c.restoreBlock_work _ _
      case restoreInstall => dsimp only; split; exact .refl c; exact c.restoreInstall_work _ _ _
      case restoreFinal => dsimp only; split; exact .refl c; exact c.restoreFinal_work _
      case snapshotBlock => dsimp only; split; exact .refl c; exact c.writeWord_work _ _ _ _
      case snapshotHeader => dsimp only; split; exact .refl c; exact c.writeWord_work _ _ _ _
    · exact .refl c
  · exact .refl c

end Sys2Proof.Machine
end

