-- ==== Sys2Proof/Laws/PerInstr.lean ====
section
/-! SUPPORT. Statements for all commands, made per command: family MailboxCode says that a well-formed mailbox row never
writes code 0, which the Command Engine does not take (R146). -/

namespace Sys2Proof.Laws.MailboxCode

/-- A well-formed command that writes a command word writes a nonzero code. -/
def Statement (i : Instr) : Prop :=
  i.wellFormed = true → ∀ code how, i.mailboxStep = some (code, how) → code ≠ 0#8

theorem passedWrite (addr : Addr) (data : Word) (be : BitVec 4) (after : Nat) : Statement (.passedWrite addr data be after) := by
  intro _ k g e; cases e

theorem downstreamAccessDone : Statement .downstreamAccessDone := by
  intro _ k g e; cases e

theorem bindTrigger (dsel : BitVec 3) (addr : Addr) (data : Word) (after : Nat) : Statement (.bindTrigger dsel addr data after) := by
  intro _ k g e; cases e

theorem bindRejected : Statement .bindRejected := by
  intro _ k g e; cases e

theorem bindBound : Statement .bindBound := by
  intro _ k g e; cases e

theorem secondTick : Statement .secondTick := by
  intro _ k g e; cases e

theorem silenceExpiry (which : Which) : Statement (.silenceExpiry which) := by
  intro _ k g e; cases e

theorem walkExpiry (slot : Fin 4) : Statement (.walkExpiry slot) := by
  intro _ k g e; cases e

theorem verdictWordRead (read : BusRead) (after : Nat) : Statement (.verdictWordRead read after) := by
  intro _ k g e; cases e

theorem planWordRead (read : BusRead) (after : Nat) : Statement (.planWordRead read after) := by
  intro _ k g e; cases e

theorem heldReadRelease : Statement .heldReadRelease := by
  intro _ k g e; cases e

theorem swallowedWrite (addr : Addr) (data : Word) (be : BitVec 4) (after : Nat) : Statement (.swallowedWrite addr data be after) := by
  intro _ k g e; cases e

theorem serialWordWrite (addr : Addr) (data : Word) (after : Nat) : Statement (.serialWordWrite addr data after) := by
  intro _ k g e; cases e

theorem replyWordWrite (addr : Addr) (data : Word) (after : Nat) : Statement (.replyWordWrite addr data after) := by
  intro _ k g e; cases e

theorem heldReplyWriteRelease (after : Nat) : Statement (.heldReplyWriteRelease after) := by
  intro _ k g e; cases e

theorem malformedReplyWrite (addr : Addr) (data : Word) (be : BitVec 4) (after : Nat) : Statement (.malformedReplyWrite addr data be after) := by
  intro _ k g e; cases e

theorem replyEvent : Statement .replyEvent := by
  intro _ k g e; cases e

theorem loopIsolateChange (loop : Loop) : Statement (.loopIsolateChange loop) := by
  intro _ k g e; cases e

theorem zoneLoad (zclk : Option Bool) : Statement (.zoneLoad zclk) := by
  intro _ k g e; cases e

theorem consentRederivation (which : Which) : Statement (.consentRederivation which) := by
  intro _ k g e; cases e

theorem walkEndEvent (slot : Fin 4) : Statement (.walkEndEvent slot) := by
  intro _ k g e; cases e

theorem walkClearEvent (slot : Fin 4) (moves : Nat) : Statement (.walkClearEvent slot moves) := by
  intro _ k g e; cases e

theorem mailboxOverrunWrite (addr : Addr) (data : Word) (be : BitVec 4) (after : Nat) : Statement (.mailboxOverrunWrite addr data be after) := by
  intro _ k g e; cases e

theorem unknownCommand (code : BitVec 8) (how : CommandStep) : Statement (.unknownCommand code how) := by
  intro h k g e z
  simp only [Instr.mailboxStep, Option.some.injEq, Prod.mk.injEq] at e
  simp only [Instr.wellFormed, Bool.and_eq_true, decide_eq_true_eq] at h
  rw [e.1, z] at h
  simp at h

theorem commandComplete : Statement .commandComplete := by
  intro _ k g e; cases e

theorem planLoad (how : CommandStep) : Statement (.planLoad how) := by
  intro _ k g e
  simp only [Instr.mailboxStep, Option.some.injEq, Prod.mk.injEq] at e
  rw [← e.1]; decide

theorem snapshot (how : CommandStep) : Statement (.snapshot how) := by
  intro _ k g e
  simp only [Instr.mailboxStep, Option.some.injEq, Prod.mk.injEq] at e
  rw [← e.1]; decide

theorem restore (how : CommandStep) : Statement (.restore how) := by
  intro _ k g e
  simp only [Instr.mailboxStep, Option.some.injEq, Prod.mk.injEq] at e
  rw [← e.1]; decide

theorem profileSet (how : CommandStep) : Statement (.profileSet how) := by
  intro _ k g e
  simp only [Instr.mailboxStep, Option.some.injEq, Prod.mk.injEq] at e
  rw [← e.1]; decide

theorem sealPlan (how : CommandStep) : Statement (.sealPlan how) := by
  intro _ k g e
  simp only [Instr.mailboxStep, Option.some.injEq, Prod.mk.injEq] at e
  rw [← e.1]; decide

theorem walkStart (how : CommandStep) : Statement (.walkStart how) := by
  intro _ k g e
  simp only [Instr.mailboxStep, Option.some.injEq, Prod.mk.injEq] at e
  rw [← e.1]; decide

theorem walkEnd (how : CommandStep) : Statement (.walkEnd how) := by
  intro _ k g e
  simp only [Instr.mailboxStep, Option.some.injEq, Prod.mk.injEq] at e
  rw [← e.1]; decide

theorem accept (how : CommandStep) : Statement (.accept how) := by
  intro _ k g e
  simp only [Instr.mailboxStep, Option.some.injEq, Prod.mk.injEq] at e
  rw [← e.1]; decide

theorem release (how : CommandStep) : Statement (.release how) := by
  intro _ k g e
  simp only [Instr.mailboxStep, Option.some.injEq, Prod.mk.injEq] at e
  rw [← e.1]; decide

theorem adopt (how : CommandStep) : Statement (.adopt how) := by
  intro _ k g e
  simp only [Instr.mailboxStep, Option.some.injEq, Prod.mk.injEq] at e
  rw [← e.1]; decide

theorem clearFlags (how : CommandStep) : Statement (.clearFlags how) := by
  intro _ k g e
  simp only [Instr.mailboxStep, Option.some.injEq, Prod.mk.injEq] at e
  rw [← e.1]; decide

theorem clearVerdict (how : CommandStep) : Statement (.clearVerdict how) := by
  intro _ k g e
  simp only [Instr.mailboxStep, Option.some.injEq, Prod.mk.injEq] at e
  rw [← e.1]; decide

theorem revertPrepare (how : CommandStep) : Statement (.revertPrepare how) := by
  intro _ k g e
  simp only [Instr.mailboxStep, Option.some.injEq, Prod.mk.injEq] at e
  rw [← e.1]; decide

theorem revert (how : CommandStep) : Statement (.revert how) := by
  intro _ k g e
  simp only [Instr.mailboxStep, Option.some.injEq, Prod.mk.injEq] at e
  rw [← e.1]; decide

theorem query (how : CommandStep) : Statement (.query how) := by
  intro _ k g e
  simp only [Instr.mailboxStep, Option.some.injEq, Prod.mk.injEq] at e
  rw [← e.1]; decide

theorem reset (how : CommandStep) : Statement (.reset how) := by
  intro _ k g e
  simp only [Instr.mailboxStep, Option.some.injEq, Prod.mk.injEq] at e
  rw [← e.1]; decide

theorem consumerWrite (addr : Addr) (data : Word) (after : Nat) : Statement (.consumerWrite addr data after) := by
  intro _ k g e; cases e

theorem reportRecordStart : Statement .reportRecordStart := by
  intro _ k g e; cases e

theorem reportRecordPublish : Statement .reportRecordPublish := by
  intro _ k g e; cases e

theorem hostReset : Statement .hostReset := by
  intro _ k g e; cases e

theorem powerOnReset : Statement .powerOnReset := by
  intro _ k g e; cases e

theorem powerOnRelease (liso : BitVec 4) : Statement (.powerOnRelease liso) := by
  intro _ k g e; cases e

theorem zoneChainShift (zdat zload : Bool) : Statement (.zoneChainShift zdat zload) := by
  intro _ k g e; cases e

theorem hostResetRelease : Statement .hostResetRelease := by
  intro _ k g e; cases e

theorem refclkRisingEdge (liso : BitVec 4) (order : List Loop) (tickLast : Bool) : Statement (.refclkRisingEdge liso order tickLast) := by
  intro _ k g e; cases e

end Sys2Proof.Laws.MailboxCode
end

