-- ==== Sys2Proof/Tests/Slice0.lean ====
section
/-! SUPPORT. Tests: each check of WellFormed refuses an ill-formed command; values the manual works out; and for every
obligation with hypotheses a concrete state and operands that meet them, clause by clause. -/

namespace Sys2Proof.Tests
open Sys2Proof Sys2Proof.Machine

/-! ### WellFormed refuses -/

theorem test_wf_bindTrigger : Instr.wellFormed (.bindTrigger 0 0x24#24 0 1) = false := by decide
theorem test_wf_verdictWordRead : Instr.wellFormed (.verdictWordRead ⟨0x1000C#24, 15⟩ 0) = false := by decide
theorem test_wf_planWordRead : Instr.wellFormed (.planWordRead ⟨0x10008#24, 15⟩ 0) = false := by decide
theorem test_wf_swallowedWrite : Instr.wellFormed (.swallowedWrite 0x10004#24 0 15 0) = false := by decide
theorem test_wf_serialWordWrite : Instr.wellFormed (.serialWordWrite 0x10004#24 1 1) = false := by decide
theorem test_wf_replyWordWrite_word : Instr.wellFormed (.replyWordWrite 0x10000#24 0 1) = false := by decide
theorem test_wf_replyWordWrite_status : Instr.wellFormed (.replyWordWrite 0x10004#24 5 1) = false := by decide
theorem test_wf_malformedReplyWrite : Instr.wellFormed (.malformedReplyWrite 0x10004#24 0 15 1) = false := by decide
theorem test_wf_mailboxOverrunWrite : Instr.wellFormed (.mailboxOverrunWrite 0x20018#24 0 15 0) = false := by decide
theorem test_wf_consumerWrite : Instr.wellFormed (.consumerWrite 0x30000#24 0 1) = false := by decide
theorem test_wf_unknownCommand_code : Instr.wellFormed (.unknownCommand 16 (.run 1)) = false := by decide
theorem test_wf_commandWord : Instr.wellFormed (.query (.word 0x20004#24 0 0 1)) = false := by decide
theorem test_wf_refclkRisingEdge : Instr.wellFormed (.refclkRisingEdge 0 [1, 1] false) = false := by decide
theorem test_decode_none : decodeTableWord 16 0x1234 = none := rfl

/-! ### Values the manual works out -/

/-- A point as the manual's worked verdict word has it (13_memory_formats.md): COMMISSIONED, LIVE, ARMED, TEST COUNT 3. -/
def workedPoint : PointRecord :=
  { PointRecord.fresh false with state := .commissioned, presence := .live, armed := true, testCount := 3 }

theorem test_verdictWord_worked : verdictWord workedPoint = 0x03000117#32 := by decide
theorem test_planWord_absent : planWord none = 0 := rfl
theorem test_planWord_worked :
    planWord (some { enable := true, cls := 0, zone := 13, profile := 1, label := 0x0A25 }) = 0x0E230A25#32 := by decide
theorem test_statusWord_running : statusWord 1 0 0x21 false = 0x00210001#32 := by decide
theorem test_bindStatus_range : bindStatusWord 2 .range 3 = 0x00030302#32 := by decide
theorem test_record_word0 :
    recordWordOf { kind := .fire, loop := 2, addr := 37, zone := 14, time := 0, detailA := 0, detailB := 0 } true 0
      = 0x0E250520#32 := by decide
theorem test_levels : (driftLimit 15, prealarmLevel 15, rearmLevel 15) = (108, 218, 198) := by decide
theorem test_occupancy : (occupancy 3 0 8, occupancy 1 6 8) = (3, 3) := by decide
theorem test_pseudoZone : zoneNumber (zoneFor 400 none) = 99 := by decide

/-! ### Small states -/

/-- A legal binding: descriptor at 0, windows at 0x10000, 0x20000 and 0x30000. -/
def tb : Binding :=
  { location := 0, pointBase := 0x10000, mailboxBase := 0x20000, ringBase := 0x30000, capacity := 8, loops := 4,
    autoWithdraw := false, silenceTimeout := 5, noreplyLimit := 2, coincidenceWindow := 5, classMask := 63,
    irqEnable := true }

theorem tb_legal : tb.Legal := by constructor <;> decide

/-- The chip after reset, bound. -/
def bc : Chip := { Chip.reset with bind := .bound tb }

theorem bc_quiet : bc.Quiet := ⟨rfl, rfl, rfl, rfl, rfl, rfl, rfl, rfl⟩

/-- A state of a chip with nothing waiting. -/
def st (c : Chip) : State := { chip := c, pending := [] }

/-- The chip after one command; the chip itself where the command stops. -/
def after (i : Instr) (c : Chip) : Chip :=
  match exec i (st c) with
  | .next t => t.chip
  | _ => c

/-- A command in hand at its check, with operands. -/
def cmd (code : BitVec 8) (ops : List Word) (w : Work) : Command :=
  { code := code, tag := 1, preparedAtTake := true, operands := ops, stage := .working w }

/-- The bound chip with a command in hand. -/
def cc (m : Command) : Chip := { bc with command := some m }

theorem cc_quiet (m : Command) : (cc m).Quiet := ⟨rfl, rfl, rfl, rfl, rfl, rfl, rfl, rfl⟩

theorem cc_atCheck (code : BitVec 8) (ops : List Word) : (cc (cmd code ops .check)).AtCheck (cmd code ops .check) tb code :=
  ⟨rfl, rfl, rfl, rfl, rfl⟩

theorem cc_atWork (code : BitVec 8) (w : Work) : (cc (cmd code [] w)).AtWork (cmd code [] w) tb code w :=
  ⟨rfl, rfl, rfl, rfl, rfl⟩

/-- A plan entry: OPTICAL, zone 1, slot 0. -/
def pe : PlanEntry := { enable := true, cls := 0, zone := 0, profile := 0, label := 0 }

/-- A LIVE, MATCHED point of class 0. -/
def lp : PointRecord := { PointRecord.fresh false with state := .matched, presence := .live, foundClass := some 0 }

/-- A RUNNING slot on zone 1. -/
def ws : WalkSlot :=
  { ending := false, zone := 0, start := 0, finish := 60, hits := [], overflowed := false, reason := none, endEntries := 0,
    endOverflowed := false, cleared := 0, handedBack := 0, endNow := 0, sweep := 0 }

/-! ### One step of some commands -/

theorem test_secondTick : (after .secondTick bc).seconds = 1 := by decide
theorem test_zoneChainShift : (after (.zoneChainShift true true) Chip.reset).shiftRegister = 1 := by decide
theorem test_serialWordWrite : (after (.serialWordWrite 0x10E40#24 0x00C4E017 1) bc).latch = some (228, 0x00C4E017#32) := by
  decide
theorem test_replyWordWrite :
    (after (.replyWordWrite 0x10E44#24 0x1F00#32 1) bc).intake = [⟨228, .good .normal 0 31 .absent⟩] := by decide
theorem test_replyEvent :
    (after .replyEvent { bc with intake := [⟨228, .good .normal 0 31 (.present 7)⟩] }).points[(228 : Rec)].state = .unplanned := by
  decide
theorem test_read_is_presented_with_its_enables :
    (after (.verdictWordRead ⟨0x40002#24, 3⟩ 0) bc).downstream = some ⟨0x40002#24, .read 3⟩ := by decide
theorem test_query_word : ((after (.query (.word 0x20000#24 9 0 1)) bc).command.map (·.code)) = some 15#8 := by decide
theorem test_walkStart :
    (after (.walkStart (.run 1)) (cc (cmd 6 [1, 10, 0, 0, 0] .check))).zones[(0 : Zone)].walkSlot = some 0 := by decide
theorem test_hostReset : (after .hostReset bc).bind = .unbound := by decide

/-! ### Hypotheses that can be met -/

theorem test_hyp_EveryStepTakesOneCommand : State.reset.pending = [] := rfl

/-- A bound chip with a report queued and a command waiting, for the facts every step keeps. -/
def keeper : State := { chip := { bc with seconds := 7 }, pending := [.secondTick] }

theorem test_hyp_steps : ∃ t, step keeper = .next t := ⟨_, rfl⟩
theorem test_hyp_MemoryStaysCanonical : keeper.chip.MemOk := rfl
theorem test_hyp_QueuesAndCountsStayBounded :
    keeper.chip.IntakeBounded ∧ keeper.chip.QueueBounded ∧ keeper.chip.StarveBounded ∧ keeper.chip.HitsBounded := by
  refine ⟨⟨⟨fun h => ?_, fun h => ?_⟩, by decide⟩, Nat.zero_le _, Nat.zero_le _, fun k w h => ?_⟩
  · exact absurd h (by decide)
  · obtain ⟨_, h, _⟩ := h; exact absurd h (by simp [keeper, bc, Chip.reset])
  · simp [keeper, bc, Chip.reset] at h
theorem test_hyp_OutputPinsFollowTheirCounts : keeper.chip.FireRight ∧ keeper.chip.IrqRight := by
  refine ⟨⟨by decide +kernel, by decide +kernel⟩, fun h l e => ?_, by decide +kernel⟩
  simp [keeper, bc, Chip.reset] at e
theorem test_hyp_ZonesMaskAndSlotsAgree : keeper.chip.ZonesFollowMask ∧ keeper.chip.SlotsLinked := by
  refine ⟨fun z => ?_, fun z k => ⟨fun h => ?_, fun h => ?_⟩, fun j k v w h => ?_⟩
  · simp [keeper, bc, Chip.reset, ZoneRecord.fresh, maskWithholds]
  · simp [keeper, bc, Chip.reset, ZoneRecord.fresh] at h
  · obtain ⟨w, h, _⟩ := h; simp [keeper, bc, Chip.reset] at h
  · simp [keeper, bc, Chip.reset] at h
theorem test_hyp_BindingStaysLegal : keeper.chip.bind.binding = some tb ∧ keeper.chip.BindingLegal := by
  refine ⟨rfl, fun b h => ?_⟩
  cases h; exact tb_legal
theorem keeper_dormantUnbound : keeper.chip.DormantUnbound := by
  refine ⟨fun h l e => ?_, fun h => ?_⟩
  · simp [keeper, bc, Chip.reset] at e
  · simp [keeper, bc, Chip.binding] at h
theorem test_hyp_PointFactsStand :
    keeper.chip.PointsConsistent ∧ keeper.chip.PointsInRange ∧ keeper.chip.FieldsDerived := by
  refine ⟨⟨fun m s t h => ?_, fun r => ?_⟩, fun r => ?_, keeper_dormantUnbound, fun r _ => ?_⟩
  · simp [keeper, bc, Chip.reset] at h
  · simp [keeper, bc, Chip.reset, PointRecord.fresh, PointRecord.Facts, PointRecord.StateFacts]
  · simp [keeper, bc, Chip.reset, PointRecord.fresh, PointRecord.InRange]
  · simp [keeper, bc, Chip.reset, PointRecord.fresh, Chip.derived, Chip.suppression, planWithheld, maskWithholds, armedOf,
      PointState.armable]
theorem test_hyp_UnboundPartStaysDormant :
    Chip.DormantUnbound { Chip.reset with seconds := 7 } ∧ Chip.binding { Chip.reset with seconds := 7 } = none := by
  refine ⟨⟨fun h l e => ?_, fun _ => ⟨fun h e => ?_, rfl, rfl, fun r => ?_, rfl, fun z => ?_, rfl, fun k => ?_, rfl, rfl, rfl,
    rfl, rfl, rfl, rfl, rfl⟩⟩, rfl⟩
  · simp [Chip.reset] at e
  · simp [Chip.reset] at e
  · simp [Chip.reset, PointRecord.fresh]
  · simp [Chip.reset, ZoneRecord.fresh]
  · simp [Chip.reset]
theorem test_hyp_SealKeepsThePlan :
    Chip.SealRespected { bc with sealed := true } ∧ ([.secondTick] : List Instr).head? ≠ some .powerOnReset := by
  refine ⟨⟨⟨fun h l e => ?_, fun h => ?_⟩, fun _ m h => ?_⟩, by decide⟩
  · simp [bc, Chip.reset] at e
  · simp [bc, Chip.binding] at h
  · simp [bc, Chip.reset] at h

theorem test_hyp_UnboundAccessesPass :
    (∀ b, Chip.reset.bind ≠ .bound b) ∧ Chip.reset.bind = .unbound ∧
    (∀ b, BindState.checking { location := 0, checksum := 0, words := [], phase := .reading } ≠ .bound b) := by
  refine ⟨fun b h => ?_, rfl, fun b h => ?_⟩ <;> cases h
theorem test_hyp_PointTableAccessesSort :
    bc.bind = .bound tb ∧ tb.Legal ∧ (767 : Rec).val < 192 * tb.loops ∧
    wordBase 0x12FF0#24 = tb.pointBase + 16 * (767 : Rec).val ∧ wordBase 0x12FF7#24 = tb.pointBase + 16 * (767 : Rec).val + 4 ∧
    wordBase 0x12FF8#24 = tb.pointBase + 16 * (767 : Rec).val + 8 ∧
    wordBase 0x12FFD#24 = tb.pointBase + 16 * (767 : Rec).val + 12 :=
  ⟨rfl, tb_legal, by decide, by decide, by decide, by decide, by decide⟩
theorem test_hyp_MailboxAndRingAccessesSort :
    wordBase 0x20000#24 = tb.mailboxBase + 4 * 0 ∧ wordBase 0x20014#24 = tb.mailboxBase + 4 * 5 ∧
    wordBase 0x2003C#24 = tb.mailboxBase + 4 * 15 ∧
    (tb.ringBase ≤ wordBase 0x3008C#24 ∧ wordBase 0x3008C#24 < tb.ringBase + 16 + 16 * tb.capacity) ∧
    (¬(tb.pointBase ≤ wordBase 0x30090#24 ∧ wordBase 0x30090#24 < tb.pointBase + 3072 * tb.loops) ∧
     ¬(tb.mailboxBase ≤ wordBase 0x30090#24 ∧ wordBase 0x30090#24 < tb.mailboxBase + 64) ∧
     ¬(tb.ringBase ≤ wordBase 0x30090#24 ∧ wordBase 0x30090#24 < tb.ringBase + 16 + 16 * tb.capacity)) := by decide
theorem test_hyp_PackedWordsHoldTheirFields :
    workedPoint.InRange ∧ PointRecord.InRange { workedPoint with noreplyRun := 15, garbledRun := 3, driftRun := 16,
                                                                 testCount := 15 } ∧
    ((4 : Nat) < 8 ∧ (192 : Nat) < 256 ∧ (100 : Nat) < 128 ∧ (255 : Nat) < 256) ∧
    (let n := (0x6003C004#32).toNat; 1 ≤ n % 8 ∧ n % 8 ≤ 4 ∧ 1 ≤ n / 256 % 256 ∧ n / 256 % 256 ≤ 192 ∧
      n / 65536 % 2 = 1 ∧ 1 ≤ n / 16777216 % 128 ∧ n / 16777216 % 128 ≤ 96) ∧
    (0x0001#32).toNat / 65536 % 2 = 0 :=
  ⟨by constructor <;> decide, by constructor <;> decide, by decide, by decide, by decide⟩
theorem test_hyp_PassedAndSwallowedWritesTakeNoBlock :
    bc.Quiet ∧ bc.MemOk ∧ bc.classify ⟨0x40000#24, .write 1 15⟩ = .passed ∧
    bc.classify ⟨0x10008#24, .write 1 15⟩ = .swallowed ∧
    (cc (cmd 15 [] .check)).classify ⟨0x20000#24, .write 1 15⟩ = .overrun ∧ (cc (cmd 15 [] .check)).Quiet :=
  ⟨bc_quiet, rfl, by decide, by decide, by decide, cc_quiet _⟩

/-- The bound chip with one reply event queued. -/
def withEvent (e : ReplyEvent) : Chip := { bc with intake := [e] }

theorem withEvent_quiet (e : ReplyEvent) : (withEvent e).Quiet := ⟨rfl, rfl, rfl, rfl, rfl, rfl, rfl, rfl⟩

theorem test_hyp_OverlayReadsAnswerOrHold :
    (bc.readHeld 1 = false ∧ bc.classify ⟨0x10018#24, .read 3⟩ = .verdictRead 1 ∧
      bc.classify ⟨0x1001C#24, .read 3⟩ = .planRead 1) ∧
    ((withEvent ⟨1, .noreply⟩).Quiet ∧ ⟨1, .noreply⟩ ∈ (withEvent ⟨1, .noreply⟩).intake ∧
      (withEvent ⟨1, .noreply⟩).classify ⟨0x10018#24, .read 3⟩ = .verdictRead 1 ∧
      (withEvent ⟨1, .noreply⟩).classify ⟨0x1001C#24, .read 3⟩ = .planRead 1) ∧
    (∀ t : Treatment, let c : Chip := { bc with host := some ⟨⟨0x10018#24, .read 3⟩, t, .held⟩ };
      c.porLow = false ∧ c.backlog = [] ∧ c.port = none ∧ c.im = InternalMaster.fresh ∧ c.readHeld 1 = false) := by
  refine ⟨by decide, ⟨withEvent_quiet _, by decide, by decide, by decide⟩,
    fun t => ⟨rfl, rfl, rfl, rfl, rfl⟩⟩

/-- A Transfer Engine at a block. -/
def te : TransferEngine :=
  { pass := .install, position := some 0, words := [0, 0, 0x01010101#32, 0], sum := 0, marks := [],
    kept := some { codes := #v[1, 2, 3, 4], sealFlag := true, second := 5 }, blocks := 0, entries := 0, deletions := 0,
    second := 9 }

/-- An install is pending at record 0 of a plan block, and at records 761 and 767 of the last block of a restore. -/
theorem test_hyp_OverlayReadsAnswerOrHold_install :
    Chip.InstallPending { cc (cmd 1 [] (.planInstall 1)) with transfer := some te } 0 ∧
    (∀ r : Rec, 761 ≤ r.val → Chip.InstallPending
      { cc (cmd 3 [] (.restoreInstall 2)) with transfer := some { te with position := some 95 } } r) :=
  ⟨⟨_, _, 1, rfl, rfl, .inl ⟨rfl, 1, by decide, by decide, by decide, by decide, by decide⟩⟩,
    fun r h => ⟨_, _, 2, rfl, rfl, .inr ⟨rfl, 95, rfl, h, r.isLt⟩⟩⟩
theorem test_hyp_SerialWriteLoadsTheLatch :
    bc.Quiet ∧ bc.classify ⟨0x10010#24, .write 7 15⟩ = .serialWrite 1 := ⟨bc_quiet, by decide⟩
theorem test_hyp_ReplyWriteFormsItsEvent :
    bc.Quiet ∧ bc.intake.length < 4 ∧ bc.classify ⟨0x10014#24, .write 3 15⟩ = .replyWrite 1 ∧
    bc.classify ⟨0x10014#24, .write 4 15⟩ = .replyWrite 1 ∧ bc.classify ⟨0x10014#24, .write 1 15⟩ = .replyWrite 1 ∧
    bc.classify ⟨0x10014#24, .write 0x10002 15⟩ = .replyWrite 1 ∧
    (3#32).toNat % 8 = 3 ∧ (4#32).toNat % 8 = 4 ∧
    ((1#32).toNat % 8 = GoodStatus.alarm.status.code ∧ (1#32).getLsbD 16 = false) ∧
    ((0x10002#32).toNat % 8 = GoodStatus.fault.status.code ∧ (0x10002#32).getLsbD 16 = true) ∧ bc.latch = none ∧
    (let c : Chip := { bc with latch := some (1, 7) }; c.Quiet ∧ c.latch = some (1, 7)) :=
  ⟨bc_quiet, by decide, by decide, by decide, by decide, by decide, by decide,
    by decide, by decide, by decide, rfl, ⟨rfl, rfl, rfl, rfl, rfl, rfl, rfl, rfl⟩, rfl⟩
theorem test_hyp_FullIntakeHoldsTheReplyWrite :
    (let c : Chip := { bc with intake := List.replicate 4 ⟨2, .noreply⟩ };
      c.Quiet ∧ 4 ≤ c.intake.length ∧ c.classify ⟨0x10014#24, .write 4 15⟩ = .replyWrite 1) ∧
    (let c : Chip := { bc with host := some ⟨⟨0x10014#24, .write 4 15⟩, .replyWrite 1, .held⟩ };
      c.porLow = false ∧ c.backlog = [] ∧ c.port = none ∧ c.im = InternalMaster.fresh ∧ c.intake.length < 4 ∧
      replyBody 4 (if (4#32).getLsbD 16 = true then settleSerial c.latch 1 else .absent) = some .noreply) :=
  ⟨⟨⟨rfl, rfl, rfl, rfl, rfl, rfl, rfl, rfl⟩, by decide, by decide⟩,
    rfl, rfl, rfl, rfl, by decide, by decide⟩
theorem test_hyp_MalformedWriteSetsBadWrite :
    bc.Quiet ∧ bc.classify ⟨0x10014#24, .write 5 15⟩ = .malformedWrite 1 ∧
    bc.classify ⟨0x10014#24, .write 0 3⟩ = .malformedWrite 1 := ⟨bc_quiet, by decide, by decide⟩
theorem test_hyp_ConsumerWriteIsJudged :
    bc.Quiet ∧ bc.classify ⟨0x30004#24, .write 0 15⟩ = .consumerWrite ∧
    (let n := tb.capacity;
      ((0 : Nat) < n ∧ (0 + n - 0) % n ≤ (0 + n - 0) % n) ∧ ¬((1 : Nat) < n ∧ (1 + n - 0) % n ≤ (0 + n - 0) % n)) :=
  ⟨bc_quiet, by decide, by decide⟩
theorem test_hyp_PortAnswersAndGrantsByItsTable :
    Instr.oneMoreAfter (.planWordRead ⟨0x1001C#24, 3⟩ 0) = some (.planWordRead ⟨0x1001C#24, 3⟩ 1) ∧
    (let h : HostAccess := ⟨⟨0x40000#24, .read 3⟩, .passed, .atPort⟩;
      let c : Chip := { bc with port := some .host, host := some h };
      c.porLow = false ∧ c.port = some .host ∧ c.host = some h) ∧
    (let q : MemRequest := ⟨0, none⟩;
      let c : Chip := { bc with port := some (.orphan q) };
      c.porLow = false ∧ c.port = some (.orphan q)) ∧
    (let q : MemRequest := ⟨0x24#24, some 1⟩;
      let c : Chip := { bc with port := some (.abandonedStatus q) };
      c.porLow = false ∧ c.port = some (.abandonedStatus q)) ∧
    (let h : HostAccess := ⟨⟨0x40000#24, .read 3⟩, .passed, .waiting⟩;
      let q : Client × MemRequest := (.report, ⟨0, none⟩);
      bc.port = none ∧ bc.hostWaiting = false ∧ h.stage = .waiting ∧ bc.im.current = none ∧
      (let c : Chip := { bc with host := some h, im := { bc.im with current := some q }, starve := 31 };
        c.port = none ∧ c.im.current = some q ∧ c.starve < 32 ∧ 32 ≤ Chip.starve { c with starve := 32 })) := by
  refine ⟨rfl, ⟨rfl, rfl, rfl⟩, ⟨rfl, rfl⟩, ⟨rfl, rfl⟩, rfl, rfl, rfl, rfl, rfl, rfl, by decide, by decide⟩
/-- A port that agrees with the host's access, one with an internal read, and one with an internal write. -/
theorem test_hyp_PortAnswersAndGrantsByItsTable_port :
    (let h : HostAccess := ⟨⟨0x40000#24, .read 3⟩, .passed, .atPort⟩;
      let c : Chip := { bc with port := some .host, host := some h };
      c.port ≠ none ∧ c.PortAgrees ∧ (3 : Nat) < 4 ∧ (8#4).getLsbD 3 = true) ∧
    (∀ w : Option Word, (⟨0, w⟩ : MemRequest).wdata = w) ∧
    (bc.port = none ∧ bc.hostWaiting = false ∧ bc.im.current = none) :=
  ⟨⟨by decide, ⟨fun _ => ⟨_, rfl, rfl⟩, fun _ => rfl⟩, by decide, by decide⟩, fun _ => rfl, rfl, rfl, rfl⟩
/-- The rows of the Internal Master's table: both wait after a report, then after a command; one waits alone. -/
theorem test_hyp_PortAnswersAndGrantsByItsTable_choose :
    (let q : MemRequest := ⟨0, none⟩;
      let both : InternalMaster := { InternalMaster.fresh with waitCommand := some q, waitReport := some q };
      InternalMaster.current { both with current := some (.report, q) } ≠ none ∧
      InternalMaster.waitBinding { both with waitBinding := some q } = some q ∧
      (both.current = none ∧ both.waitBinding = none ∧ both.waitCommand = some q ∧ both.lastServed = .report) ∧
      (let m := { both with lastServed := .command };
        m.waitBinding = none ∧ m.waitReport = some q ∧ m.lastServed = .command) ∧
      (let m := { both with waitReport := none }; m.waitCommand = some q ∧ m.waitReport = none) ∧
      (let m := { both with waitCommand := none }; m.waitReport = some q ∧ m.waitCommand = none)) ∧
    (bc.host = none ∧ bc.backlog = []) := by decide
theorem test_hyp_BindingEventsTakeTheirSteps :
    Chip.reset.Quiet ∧ Chip.reset.bind = .unbound ∧ Chip.reset.hrstLow = false ∧
    wordBase 0xE00023#24 = (7#3).toNat * 0x200000 + 0x20 ∧
    (∀ k : Check, let c : Chip := { Chip.reset with bind := .checking k, port := some (.internal .binding ⟨0, none⟩) };
      c.porLow = false ∧ c.port = some (.internal .binding ⟨0, none⟩) ∧ c.bind = .checking k) :=
  ⟨⟨rfl, rfl, rfl, rfl, rfl, rfl, rfl, rfl⟩, rfl, rfl, by decide, fun _ => ⟨rfl, rfl, rfl⟩⟩

/-- The words of a descriptor that passes. -/
def goodWords : List Word := [0x4F544D31, 0x10000, 0x20000, 0x30000, 8, 4, 0x00050205, 0x13F]

/-- RAM with that descriptor at 0. -/
def goodMem : List Host.Cell := (List.range 8).foldl (fun m i => Mem.writeWord m (4 * i) 15 (goodWords.getD i 0)) []

/-- The four answers to a descriptor word: SIGNATURE wrong at w0, a next read, a test that fails and one that passes at w7. -/
theorem test_hyp_BindingEventsTakeTheirSteps_words :
    Mem.readWord [] 0 ≠ 0x4F544D31#32 ∧ Mem.readWord goodMem 0 = 0x4F544D31#32 ∧
    (goodWords.take 7).length = 7 ∧ goodWords.take 7 ++ [Mem.readWord goodMem 28] = goodWords ∧
    (let good := checkDescriptor 0 (-(goodWords.foldl (· + ·) 0)) goodWords;
      let bad := checkDescriptor 0 0 goodWords;
      good.toOption = some tb ∧ bad.toOption = none) := by decide
theorem test_hyp_GoodDescriptorRunsToBound :
    (let c : Chip := { Chip.reset with mem := goodMem };
      c.Quiet ∧ c.MemOk ∧ c.bind = .unbound ∧ c.hrstLow = false) ∧
    wordBase 0x20#24 = (0#3).toNat * 0x200000 + 0x20 ∧
    ((List.range 8).map fun i => Mem.readWord goodMem ((0#3).toNat * 0x200000 + 4 * i)) = goodWords ∧
    (checkDescriptor 0 (-(goodWords.foldl (· + ·) 0)) goodWords).toOption = some tb :=
  ⟨⟨⟨rfl, rfl, rfl, rfl, rfl, rfl, rfl, rfl⟩, by show Mem.wf goodMem = true; decide, rfl, rfl⟩, by decide,
    by decide, by decide⟩
theorem test_hyp_DescriptorTestsInOrder :
    goodWords.length = 8 ∧ goodWords.getD 0 0 = 0x4F544D31#32 ∧ goodWords.foldl (· + ·) 0 + 0 ≠ 0 ∧
    (List.replicate 8 (0 : Word)).getD 0 0 ≠ 0x4F544D31#32 := by decide
/-- Words that pass the two first tests with a CHECKSUM of their own. -/
def summedWords (ws : List Word) : Bool := ws.length == 8 && ws.getD 0 0 == 0x4F544D31#32 && ws.foldl (· + ·) 0 + -(ws.foldl (· + ·) 0) == 0
theorem test_hyp_DescriptorTestsInOrder_range :
    summedWords (goodWords.set 7 0x40) = true ∧ ¬DescriptorWordRight 7 0x40#32 ∧
    (∀ ws ∈ [goodWords, goodWords.set 1 0xFFFFF0, goodWords.set 3 0xFFFFF0, goodWords.set 2 0x10000],
      summedWords ws = true ∧ ∀ j, 1 ≤ j → j ≤ 7 → DescriptorWordRight j (ws.getD j 0)) ∧
    ¬(0xFFFFF0 + 3072 * ((4#32).toNat % 8) ≤ 0x1000000) ∧ ¬(0xFFFFF0 + (16 + 16 * (8#32).toNat) ≤ 0x1000000) := by
  refine ⟨by decide, by simp [DescriptorWordRight], fun ws h => ⟨?_, fun j h1 h2 => ?_⟩, by decide, by decide⟩
  · revert ws; decide
  · simp only [List.mem_cons, List.not_mem_nil, or_false] at h
    rcases h with rfl | rfl | rfl | rfl <;> interval_cases j <;> simp [DescriptorWordRight, goodWords]
/-- A mailbox at the point table's base shares its first byte and with nothing else meets; the good windows meet nowhere. -/
theorem test_hyp_DescriptorTestsInOrder_overlap :
    (let table : Range := (0x10000, 3072 * 4);
      let ring : Range := (0x30000, 16 + 16 * 8);
      let descriptor : Range := (0, 40);
      let pairs (mailbox : Range) := [(table, mailbox), (table, ring), (table, descriptor), (mailbox, ring),
        (mailbox, descriptor), (ring, descriptor)];
      (table.1 ≤ 0x10000 ∧ 0x10000 < table.1 + table.2) ∧
      (∀ q ∈ pairs (0x20000, 64), ¬(q.1.1 < q.2.1 + q.2.2 ∧ q.2.1 < q.1.1 + q.1.2))) := by decide
theorem test_hyp_TimebaseCountsAndFiltersSample :
    bc.porLow = false ∧ bc.bind = .bound tb ∧ bc.refCount < 32767 ∧
    Chip.reset.porLow = false ∧ (∀ b, Chip.reset.bind ≠ .bound b) ∧
    (let c : Chip := { bc with refCount := 32767 }; c.bind = .bound tb ∧ 32767 ≤ c.refCount) := by
  refine ⟨rfl, rfl, by decide, rfl, fun b h => ?_, rfl, by decide⟩
  cases h
/-- A start leaves its slot owing no comparison, and a round goes by the slots RUNNING at its tick (R134). -/
theorem test_round_after_a_start :
    (Chip.startWalk { bc with walkOwed := [0, 3] } 0 0 1).walkOwed = [3] ∧
    (Chip.startRound { bc with slots := (bc.slots.set 0 (some ws)).set 3 (some { ws with zone := 5 }),
                               walkOwed := [1] }).walkOwed = [0, 3] := by decide

theorem test_hyp_ChainShiftMovesTheRegister :
    Chip.reset.porLow = false ∧ Chip.porLow { Chip.reset with porLow := true } = true := ⟨rfl, rfl⟩
theorem test_hyp_ZoneLoadTakesTheRegister :
    (let c : Chip := { bc with shiftRegister := 1, slots := bc.slots.set 2 (some ws) };
      c.porLow = false ∧ c.zoneMask.getLsbD 0 ≠ c.shiftRegister.getLsbD 0 ∧ c.zoneMask.getLsbD 0 = false ∧
      c.shiftRegister.getLsbD 0 = true ∧ c.linkedSlot (realZone 0) = some 2 ∧ c.slots[(2 : Fin 4)] = some ws ∧
      ws.ending = false ∧ ws.reason = none) ∧ bc.zoneMask = bc.shiftRegister := by decide
/-- A load that changes zone 2 raises its report. -/
theorem test_zoneLoad_report :
    ((after (.zoneLoad none) { bc with shiftRegister := 2 }).writer.inHand.map (·.report)) =
      some { kind := .consentChanged, loop := 0, addr := 0, zone := 2, time := 0, detailA := 1, detailB := 2 } := by decide
theorem test_hyp_LoopIsolateChangeTurnsTheLevel :
    bc.porLow = false ∧ bc.lisoStable[(3 : Loop)] < 16 ∧ (3 : Loop).val + 1 ≤ tb.loops ∧
    Binding.loops { tb with loops := 3 } < (3 : Loop).val + 1 ∧ (∀ b, Chip.reset.bind ≠ .bound b) :=
  ⟨rfl, by decide, by decide, by decide, fun _ h => by cases h⟩
theorem test_hyp_RederivationSetsSuppressedAndArmed :
    (let c : Chip := { bc with rederivations := [⟨5, 0⟩] };
      c.porLow = false ∧ c.bind = .bound tb ∧ (∃ o ∈ c.rederivations, o.point = 5) ∧ ∀ o ∈ c.rederivations, o.point ≠ 6) ∧
    (let c : Chip := { Chip.reset with rederivations := [⟨5, 0⟩] };
      c.porLow = false ∧ c.binding = none ∧ (∃ o ∈ c.rederivations, o.point = 5) ∧
      ∀ r : Rec, (∃ o ∈ c.rederivations, o.point = r) → c.points[r].presence = .absent) := by
  refine ⟨⟨rfl, rfl, ⟨⟨5, 0⟩, List.mem_singleton.mpr rfl, rfl⟩, by decide⟩,
    rfl, rfl, ⟨⟨5, 0⟩, List.mem_singleton.mpr rfl, rfl⟩, ?_⟩
  rintro r ⟨o, ho, rfl⟩
  rw [List.mem_singleton.mp ho]
  decide

/-! #### Reply events -/

/-- The bound chip with a point's record and entry and a reply event queued. -/
def rc (p : PointRecord) (e : ReplyEvent) : Chip :=
  { bc with points := bc.points.set 1 p, plan := bc.plan.set 1 (some pe), intake := [e], seconds := 9 }

theorem rc_head (p : PointRecord) (e : ReplyEvent) : (rc p e).HeadReply e [] :=
  ⟨rfl, rfl, rfl, fun _ h => (by cases h), .inl rfl⟩

theorem rc_point (p : PointRecord) (e : ReplyEvent) : (rc p e).points[(1 : Rec)] = p := by
  simp [rc]

/-- Record 1 owes a test and a re-derivation from before the event was formed, record 2 a re-derivation from after it; and
an event at the head with what came after it still owed. -/
theorem test_hyp_RepliesComeAfterWhatIsOwedAndMissesCount_owed :
    (let e : ReplyEvent := ⟨1, .noreply⟩;
      let c : Chip := { rc lp e with rederivations := [⟨1, 0⟩, ⟨2, 1⟩], silenceOwed := [1, 3], silenceExempt := 0 };
      (c.porLow = false ∧ c.bind = .bound tb ∧ c.stretching = false ∧ c.intake = [e]) ∧
      (c.points[(1 : Rec)].presence = .live ∧ tb.silenceTimeout ≤ c.seconds - c.points[(1 : Rec)].lastGood) ∧
      c.points[(3 : Rec)].presence ≠ .live ∧ c.rederivations.any (fun o => o.point == 2 && o.exempt == 0) = false ∧
      Chip.HeadReply { rc lp e with rederivations := [⟨2, 1⟩], silenceOwed := [3], silenceExempt := 1 } e []) ∧
    (cc (cmd 8 [] (.stretch .accept 0 1 0 0))).stretching = true ∧ bc.intake = [] :=
  ⟨⟨⟨rfl, rfl, rfl, rfl⟩, by decide, by decide, by decide,
    ⟨rfl, rfl, rfl, by decide, .inr (by decide)⟩⟩, rfl, rfl⟩
theorem test_hyp_RepliesComeAfterWhatIsOwedAndMissesCount :
    (rc lp ⟨1, .noreply⟩).HeadReply ⟨1, .noreply⟩ [] ∧ (rc lp ⟨1, .noreply⟩).bind = .bound tb ∧
    (let p := { lp with noreplyRun := 1 };
      p.presence = .live ∧ p.noreplyRun < 15 ∧ p.noreplyRun + 1 = tb.noreplyLimit) ∧
    ¬(lp.presence = .live ∧ lp.noreplyRun < 15 ∧ lp.noreplyRun + 1 = tb.noreplyLimit) ∧
    (rc lp ⟨1, .garbled⟩).HeadReply ⟨1, .garbled⟩ [] ∧ PointRecord.garbledRun { lp with garbledRun := 2 } = 2 ∧
    lp.garbledRun ≠ 2 :=
  ⟨rc_head _ _, rfl, by decide, by decide, rc_head _ _, rfl, by decide⟩
theorem test_hyp_GoodReplyTakesItsSteps :
    (let e : ReplyEvent := ⟨1, .good .normal 0 31 .absent⟩;
      (rc lp e).HeadReply e [] ∧ (31#8).toNat < 48 + 4 * ((rc lp e).pointCode 1).toNat) ∧
    lp.foundClass = some 0 ∧ lp.presence ≠ .silent ∧ lp.verdict ≠ .test ∧ lp.verdict = .none ∧
    PointRecord.presence { lp with presence := .silent } = .silent ∧
    PointRecord.verdict { lp with verdict := .test } = .test ∧ (GoodStatus.fault ≠ .alarm) :=
  ⟨⟨rc_head _ _, by decide⟩, rfl, by decide, by decide, rfl, rfl, rfl, by decide⟩
theorem test_hyp_OnsetIsQualified :
    (let e : ReplyEvent := ⟨1, .good .alarm 0 200 .absent⟩;
      (rc lp e).HeadReply e [] ∧ (rc lp e).bind = .bound tb ∧ lp.foundClass = some 0 ∧ lp.presence ≠ .silent ∧
      lp.verdict = .none ∧ (200#8 ≠ 255#8) ∧
      (Chip.afterSameReply { rc lp e with zoneMask := 1 } 1 .alarm).suppressed = true ∧
      (let c := rc lp e;
        (c.afterSameReply 1 .alarm).suppressed = false ∧ c.zones[c.zoneOf 1].walkSlot = none ∧
        (c.afterSameReply 1 .alarm).armed = true) ∧
      (let c := rc { lp with state := .conflict } e;
        (c.afterSameReply 1 .alarm).suppressed = false ∧ c.zones[c.zoneOf 1].walkSlot = none ∧
        (c.afterSameReply 1 .alarm).armed = false ∧ c.zones[c.zoneOf 1].opener = none)) :=
  ⟨rc_head _ _, rfl, rfl, by decide, rfl, by decide, by decide, by decide, by decide⟩
/-- Outcome 4 under test: a CONFLICT point in a zone with a walk slot, whose opener is a partner at the last second before its
expiry and none at that second; a first sighting with a serial at full scale from SILENT; and a point captured there. -/
theorem test_hyp_OnsetIsQualified_unconfirmed :
    (let e : ReplyEvent := ⟨1, .good .alarm 0 200 .absent⟩;
      let zr (expiry : Nat) : ZoneRecord :=
        { ZoneRecord.fresh with walkSlot := some 2, opener := some { point := 4, expiry := expiry } };
      let c (expiry : Nat) : Chip :=
        { rc { lp with state := .conflict } e with slots := bc.slots.set 2 (some ws), zones := bc.zones.set 0 (zr expiry) };
      ((c 10).zones[(c 10).zoneOf 1].opener = some { point := 4, expiry := 10 } ∧ (c 10).seconds < 10 ∧ (4 : Rec) ≠ 1 ∧
        (c 10).points[(4 : Rec)].suppressed = false ∧ ¬(c 9).seconds < 9) ∧
      (((c 10).afterSameReply 1 .alarm).suppressed = false ∧ ((c 10).afterSameReply 1 .alarm).armed = false ∧
        ((c 10).afterSameReply 1 .alarm).state = .conflict) ∧
      (c 10).zones[(c 10).zoneOf 1].walkSlot = some 2 ∧ (c 10).slots[(2 : Fin 4)] = some ws ∧ ws.ending = false ∧
      ws.reason = none) ∧
    (let e : ReplyEvent := ⟨1, .good .alarm 3 255 (.present 7)⟩;
      (rc { lp with foundClass := none, presence := .silent } e).HeadReply e [] ∧
      ((rc { lp with foundClass := none, presence := .silent } e).points[(1 : Rec)]).verdict = .none) ∧
    (let c : Chip := { rc lp ⟨1, .noreply⟩ with zones := bc.zones.set 0 { ZoneRecord.fresh with walkSlot := some 2 } };
      c.points[(1 : Rec)].suppressed = false ∧ c.points[(1 : Rec)].state = .matched ∧
      c.zones[c.zoneOf 1].walkSlot = some 2) :=
  ⟨by decide, ⟨rc_head _ _, by decide⟩, by decide⟩
theorem test_hyp_CaptureInAZoneUnderTest :
    (let c : Chip := { rc lp ⟨1, .noreply⟩ with
        slots := bc.slots.set 2 (some ws), zones := bc.zones.set 0 { ZoneRecord.fresh with walkSlot := some 2 } };
      c.points[(1 : Rec)].suppressed = false ∧ c.points[(1 : Rec)].state = .matched ∧
      c.points[(1 : Rec)].verdict = .none ∧ c.zones[c.zoneOf 1].walkSlot = some 2 ∧ c.slots[(2 : Fin 4)] = some ws ∧
      realZone ws.zone = c.zoneOf 1 ∧ c.zones[c.zoneOf 1].opener = none ∧ ws.hits.length < 32) ∧
    (∀ h ∈ ws.hits, h.point ≠ 1) := by decide
/-- The list's other cases, an entry there and the list full; and an opener that is a partner at the last second before it
expires, and none at that second. -/
theorem test_hyp_CaptureInAZoneUnderTest_cases :
    (let w := { ws with hits := [{ point := 1, count := 255 }] };
      (∃ h ∈ w.hits, h.point = 1) ∧ (∀ h ∈ w.hits, h.point = 1 → h.count = 255)) ∧
    (let w := { ws with hits := (List.replicate 32 { point := 5, count := 1 }) };
      (∀ h ∈ w.hits, h.point ≠ 1) ∧ 32 ≤ w.hits.length) ∧
    (let c : Chip := { rc lp ⟨1, .noreply⟩ with
        zones := bc.zones.set 0 { ZoneRecord.fresh with walkSlot := some 2, opener := some { point := 4, expiry := 10 } } };
      c.zones[c.zoneOf 1].opener = some { point := 4, expiry := 10 } ∧ (9 : Nat) < 10 ∧ ¬(10 : Nat) < 10 ∧ (4 : Rec) ≠ 1 ∧
      c.points[(4 : Rec)].suppressed = false) := by decide
/-- No partner: no opener, one whose expiry has come, the point itself, and a SUPPRESSED one. -/
theorem test_hyp_CoincidenceMakesTwoFiresOrAnOpener_none :
    (let c (o : Option Opener) (suppressed : Bool) : Chip :=
        { bc with zones := bc.zones.set 0 { ZoneRecord.fresh with opener := o },
                  points := bc.points.set 4 { lp with suppressed := suppressed } };
      let partner (o : Opener) (suppressed : Bool) (now : Nat) : Prop :=
        now < o.expiry ∧ o.point ≠ 1 ∧ (c (some o) suppressed).points[o.point].suppressed = false;
      (c none false).zones[(0 : Zone)].opener = none ∧ partner ⟨4, 10⟩ false 9 ∧ ¬partner ⟨4, 9⟩ false 9 ∧
      ¬partner ⟨1, 10⟩ false 9 ∧ ¬partner ⟨4, 10⟩ true 9) := by decide
theorem test_hyp_CoincidenceMakesTwoFiresOrAnOpener :
    (let c : Chip := { rc lp ⟨1, .noreply⟩ with
        slots := bc.slots.set 2 (some ws),
        zones := bc.zones.set 0 { ZoneRecord.fresh with walkSlot := some 2, opener := some { point := 4, expiry := 12 } } };
      c.zones[(0 : Zone)].opener = some { point := 4, expiry := 12 } ∧ (9 : Nat) < 12 ∧ (4 : Rec) ≠ 1 ∧
      c.points[(4 : Rec)].suppressed = false ∧ c.points[(1 : Rec)].verdict ≠ .fire ∧
      c.zones[(0 : Zone)].walkSlot = some 2 ∧ c.slots[(2 : Fin 4)] = some ws ∧ ws.ending = false ∧ ws.reason = none) := by
  decide
theorem test_hyp_SilenceExpiryTestsThePoint :
    (let c : Chip := { rc lp ⟨1, .noreply⟩ with silenceOwed := [1, 2] };
      c.porLow = false ∧ c.bind = .bound tb ∧ c.stretching = false ∧ (1 : Rec) ∈ c.silenceOwed ∧ (2 : Rec) ∈ c.silenceOwed ∧
      c.points[(1 : Rec)].presence = .live ∧ tb.silenceTimeout ≤ c.seconds - c.points[(1 : Rec)].lastGood ∧
      ¬(c.points[(2 : Rec)].presence = .live ∧ tb.silenceTimeout ≤ c.seconds - c.points[(2 : Rec)].lastGood)) ∧
    (cc (cmd 8 [] (.stretch .accept 0 1 0 0))).stretching = true := by decide
theorem test_hyp_MonitorFollowsItsTables : (255#8 = 255#8) ∧ (254#8 ≠ 255#8) := by decide
/-- What the class step sees of a point: MATCHED, MISMATCH and UNPLANNED, the same class and another. -/
theorem test_hyp_SerialClassAndStateFollowTheirTables_class :
    (let c := rc { lp with foundClass := none } ⟨1, .noreply⟩;
      c.points[(1 : Rec)].foundClass = none ∧ c.points[(1 : Rec)].state ≠ .conflict ∧ c.plan[(1 : Rec)] = some pe ∧
      (0#3 = pe.cls) ∧ (1#3 ≠ pe.cls) ∧ c.plan[(2 : Rec)] = none) ∧
    lp.foundClass = some 0 ∧ (0#3 ≠ 1#3) := by decide
theorem test_hyp_SerialClassAndStateFollowTheirTables :
    lp.firstSerial = none ∧ PointRecord.firstSerial { lp with firstSerial := some 7 } = some 7 ∧ lp.secondSerial = none ∧
    (8#32 ≠ 7#32) ∧ PointRecord.secondSerial { lp with firstSerial := some 7, secondSerial := some 8 } = some 8 ∧
    (9#32 ≠ 8#32) ∧ (PointState.matched ≠ .conflict) ∧ (PointState.matched ≠ .tested) ∧ (1#3 ≠ pe.cls) ∧
    pe.cls = pe.cls ∧ (∀ d, (none : Option PlanEntry) = some d → d.cls ≠ pe.cls ∨ d.zone ≠ pe.zone) :=
  ⟨rfl, rfl, rfl, by decide, rfl, by decide, by decide, by decide, by decide, rfl, fun _ h => by cases h⟩

/-! #### Walk tests -/

theorem test_hyp_EndRequestsFollowTheirTable :
    bc.slots[(0 : Fin 4)] = none ∧ WalkSlot.ending { ws with ending := true } = true ∧
    WalkSlot.reason { ws with reason := some .ended } ≠ none ∧
    (let c : Chip := { bc with slots := bc.slots.set 2 (some ws), walkOwed := [2], seconds := 60 };
      c.porLow = false ∧ (2 : Fin 4) ∈ c.walkOwed ∧ c.slots[(2 : Fin 4)] = some ws ∧ ws.ending = false ∧ ws.reason = none ∧
      ws.finish ≤ c.seconds ∧ Chip.seconds { c with seconds := 59 } < ws.finish) := by decide
theorem test_hyp_WalkEndEventEndsTheSlot :
    (let w := { ws with reason := some .expired };
      let c : Chip := { bc with slots := bc.slots.set 2 (some w) };
      c.porLow = false ∧ c.slots[(2 : Fin 4)] = some w ∧ w.ending = false ∧ w.reason = some .expired) := by decide
theorem test_hyp_WalkClearEventClearsOrFrees :
    (let w := { ws with ending := true, reason := some .ended };
      let c : Chip := { rc { lp with verdict := .test } ⟨1, .noreply⟩ with slots := bc.slots.set 2 (some w) };
      (c.porLow = false ∧ c.slots[(2 : Fin 4)] = some w ∧ w.ending = true) ∧
      (w.sweep ≤ (1 : Rec).val ∧ c.points[(1 : Rec)].verdict = .test ∧ c.zoneOf 1 = realZone w.zone) ∧
      (∀ i : Rec, i < 1 → ¬(w.sweep ≤ i.val ∧ c.points[i].verdict = .test ∧ c.zoneOf i = realZone w.zone)) ∧
      c.points[(1 : Rec)].lastStatus ≠ some .alarm ∧
      (rc { lp with verdict := .test, lastStatus := some .alarm } ⟨1, .noreply⟩).points[(1 : Rec)].lastStatus = some .alarm ∧
      (∀ i : Rec, ¬(768 ≤ i.val ∧ c.points[i].verdict = .test)) ∧ c.command = none ∧
      (let m : Command := { cmd 7 [1] .check with stage := .waitingSlot 2 };
        (cc m).command = some m ∧ m.stage = .waitingSlot 2 ∧ w.reason = some .ended)) := by decide +kernel

/-- The four outcomes of a re-qualification: SUPPRESSED, captured, ARMED, and neither. -/
theorem test_hyp_WalkClearEventClearsOrFrees_requalification :
    (let z : ZoneRecord := { ZoneRecord.fresh with walkSlot := some 2 };
      PointRecord.suppressed { lp with suppressed := true } = true ∧ lp.suppressed = false ∧ lp.state = .matched ∧
      Chip.zones { bc with zones := bc.zones.set 0 z } = bc.zones.set 0 z ∧ (bc.zones.set 0 z)[(0 : Zone)].walkSlot = some 2 ∧
      bc.zones[(0 : Zone)].walkSlot = none ∧ PointRecord.armed { lp with armed := true } = true ∧ lp.armed = false ∧
      ¬(PointState.conflict = .matched ∨ PointState.conflict = .tested ∨ PointState.conflict = .commissioned)) :=
  ⟨rfl, rfl, rfl, rfl, by decide, by decide, rfl, rfl, by decide⟩

/-! #### Reports -/

/-- A FIRE report and a HELD one are of the ALARM class; a COMMAND DONE one is not. -/
def rep (k : ReportKind) : Report := { kind := k, loop := 0, addr := 0, zone := 0, time := 0, detailA := 0, detailB := 0 }

theorem test_hyp_PendingQueueFollowsItsTable :
    Writer.fresh.queue.length < 16 ∧ (rep .fire).isAlarm = true ∧ (rep .commandDone).isAlarm = false ∧
    (List.replicate 15 (rep .fire) ++ rep .commandDone :: []).length = 16 ∧
    (∀ y ∈ List.replicate 16 (rep .fire), y.isAlarm = true) ∧
    (cc (cmd 15 [] (.query 770 Census.zero))).command = some (cmd 15 [] (.query 770 Census.zero)) := by decide
/-- The class bit of FIRE is set in the mask, and clear in a mask of its own; reset is not BOUND; and the three ways a writer
starts nothing. -/
theorem test_hyp_RecordsAreWrittenAndPublished_raise :
    tb.classMask.getLsbD ((rep .fire).kind.code / 16) = true ∧ (0b011111#6).getLsbD ((rep .commandDone).kind.code / 16) = false ∧
    (∀ b, Chip.reset.bind ≠ .bound b) ∧
    Writer.inHand { Writer.fresh with inHand := some { report := rep .fire, gap := false, written := 0 } } ≠ none ∧
    Writer.fresh.queue = [] ∧ (7 + 1) % tb.capacity = Writer.fresh.consumer :=
  ⟨by decide, by decide, fun _ h => (by cases h), by decide, rfl, by decide⟩
theorem test_hyp_RecordsAreWrittenAndPublished :
    (let c : Chip := { bc with writer := { Writer.fresh with queue := [rep .fire] } };
      c.porLow = false ∧ c.bind = .bound tb ∧ c.writer.inHand = none ∧ c.writer.queue = [rep .fire] ∧
      (c.writer.producer + 1) % tb.capacity ≠ c.writer.consumer) ∧
    (∀ n : Fin 5, let h : RecordInHand := { report := rep .fire, gap := false, written := n.val };
      let c : Chip := { bc with writer := { Writer.fresh with inHand := some h }, port := some (.internal .report ⟨0, some 0⟩) };
      c.porLow = false ∧ c.bind = .bound tb ∧ c.port = some (.internal .report ⟨0, some 0⟩) ∧ c.writer.inHand = some h ∧
      (h.written < 4 ∨ h.written = 4)) := by decide

/-! #### Mailbox commands -/

theorem test_hyp_CommandWordIsTakenAndOperandsRead :
    bc.Quiet ∧ bc.MemOk ∧ bc.bind = .bound tb ∧ tb.Legal ∧ bc.command = none ∧
    Instr.mailboxStep (.query (.word 0x20001#24 9 0 1)) = some (15, .word 0x20001#24 9 0 1) ∧
    Instr.mailboxStep (.query (.word 0x20001#24 9 0 7)) = some (15, .word 0x20001#24 9 0 7) ∧
    wordBase 0x20001#24 = tb.mailboxBase := ⟨bc_quiet, rfl, rfl, tb_legal, rfl, rfl, rfl, by decide⟩
/-- The DACK of STATUS RUNNING, and of the fourth and the fifth operand's read. -/
theorem test_hyp_CommandWordIsTakenAndOperandsRead_operands :
    (∀ (g : CommandStage) (ops : List Word), let m : Command := { cmd 15 ops .check with stage := g };
      let c : Chip := { cc m with port := some (.internal .command ⟨0x20010#24, none⟩) };
      c.porLow = false ∧ c.bind = .bound tb ∧ c.port = some (.internal .command ⟨0x20010#24, none⟩) ∧
      c.command = some m ∧ m.stage = g ∧ m.operands = ops ∧ (Instr.query (.run 1)).mailboxStep = some (m.code, .run 1)) ∧
    ([1, 2, 3] : List Word).length < 4 ∧ 4 ≤ ([1, 2, 3, 4] : List Word).length :=
  ⟨fun _ _ => ⟨rfl, rfl, rfl, rfl, rfl, rfl, rfl⟩, by decide, by decide⟩
theorem test_hyp_RefusalsComeInTheirOrder :
    (∀ code ops, (cc (cmd code ops .check)).AtCheck (cmd code ops .check) tb code) ∧
    Instr.mailboxStep (.unknownCommand 200 (.run 1)) = some (200, .run 1) ∧ ¬(1 ≤ (200#8).toNat ∧ (200#8).toNat ≤ 16) ∧
    Chip.sealed { cc (cmd 14 [] .check) with sealed := true } = true ∧ (cc (cmd 14 [] .check)).sealed = false ∧
    Command.preparedAtTake { cmd 14 [] .check with preparedAtTake := false } = false ∧
    (let m := cmd 8 [5, 1, 1] .check; ¬(1 ≤ m.num 1 ∧ m.num 1 ≤ tb.loops)) ∧
    (let m := cmd 8 [4, 193, 1] .check; 1 ≤ m.num 1 ∧ m.num 1 ≤ tb.loops ∧ ¬(1 ≤ m.num 2 ∧ m.num 2 ≤ 192)) ∧
    (let m := cmd 8 [4, 192, 2] .check; (1 ≤ m.num 2 ∧ m.num 2 ≤ 192) ∧
      ¬(1 ≤ m.num 3 ∧ m.num 3 ≤ 192 ∧ m.num 2 + m.num 3 - 1 ≤ 192)) ∧
    (let m := cmd 11 [4, 192, 1, 256] .check; 255 < m.num 4) ∧
    (let m := cmd 10 [4, 192, 3] .check; m.num 3 ≠ 1 ∧ m.num 3 ≠ 2 ∧
      (767 : Rec).val = (m.num 1 - 1) * 192 + (m.num 2 - 1)) ∧
    (let m := cmd 9 [4, 192, 1] .check; m.covers 767 = true ∧ (∀ i : Rec, m.covers i = true → ¬i < 767) ∧
      (cc m).points[(767 : Rec)].state ≠ .commissioned ∧ (cc m).points[(767 : Rec)].state ≠ .conflict) := by
  refine ⟨cc_atCheck, rfl, by decide, rfl, rfl, rfl, by decide, by decide, by decide, by decide, by decide, ?_⟩
  decide +kernel
theorem test_rangeOk : (cmd 8 [4, 192, 1, 255] .check).RangeOk tb := by constructor <;> decide
theorem test_hyp_CompletionReachesTheMailbox :
    (∀ m, (cc m).Quiet ∧ (cc m).MemOk ∧ (cc m).bind = .bound tb ∧ tb.Legal ∧ (cc m).command = some m) ∧
    (Instr.mailboxStep (.query (.run 10)) = some ((cmd 15 [] .check).code, .run 10) ∧ (cmd 15 [] .check).code ≠ 16 ∧
      (doneWith [1, 2]).result.length ≤ 8) ∧
    (Instr.mailboxStep (.reset (.run 10)) = some ((cmd 16 [] .check).code, .run 10) ∧ (cmd 16 [] .check).code = 16 ∧
      (doneWith []).result.length ≤ 8) :=
  ⟨fun m => ⟨cc_quiet m, rfl, rfl, tb_legal, rfl⟩, ⟨rfl, by decide, by decide⟩, rfl, rfl, by decide⟩
theorem test_hyp_FinalStatusEndsTheCommand :
    (∀ (code : BitVec 8) (host : Option HostAccess), let m : Command := { cmd code [] .check with stage := .status (doneWith []) };
      let c : Chip := { cc m with port := some (.internal .command ⟨0, some 0⟩), host := host };
      c.porLow = false ∧ c.port = some (.internal .command ⟨0, some 0⟩) ∧ c.command = some m ∧
      m.stage = .status (doneWith []) ∧ m.code = code ∧ c.host = host) ∧
    (let h : HostAccess := ⟨⟨0x10018#24, .read 3⟩, .verdictRead 1, .held⟩;
      h.stage = .held ∧ HostAccess.stage { h with stage := .waiting } ≠ .held) ∧
    (cc (cmd 13 [] .check)).AtCheck (cmd 13 [] .check) tb 13 ∧ (cc (cmd 13 [] .check)).sealed = false ∧
    (cc (cmd 16 [] .check)).AtCheck (cmd 16 [] .check) tb 16 :=
  ⟨fun _ _ => ⟨rfl, rfl, rfl, rfl, rfl, rfl⟩, ⟨rfl, by decide⟩, cc_atCheck _ _, rfl, cc_atCheck _ _⟩
theorem test_hyp_ProfileSetAndSealTakeEffect :
    (∀ code ops, (cc (cmd code ops .check)).AtCheck (cmd code ops .check) tb code) ∧
    (∀ code ops, (cc (cmd code ops .check)).sealed = false) ∧
    3 < (cmd 4 [4, 0] .check).num 1 ∧ ((cmd 4 [3, 16] .check).num 1 ≤ 3 ∧ 15 < (cmd 4 [3, 16] .check).num 2) ∧
    ((cmd 4 [3, 15] .check).num 1 = (3 : Fin 4).val ∧ (cmd 4 [3, 15] .check).num 2 ≤ 15) :=
  ⟨cc_atCheck, fun _ _ => rfl, by decide, by decide, by decide⟩
theorem test_hyp_WalkStartAndWalkEndTakeEffect :
    (∀ code ops, (cc (cmd code ops .check)).AtCheck (cmd code ops .check) tb code) ∧
    ¬(1 ≤ (cmd 6 [97] .check).num 1 ∧ (cmd 6 [97] .check).num 1 ≤ 96) ∧
    ¬(1 ≤ (cmd 6 [96, 121] .check).num 2 ∧ (cmd 6 [96, 121] .check).num 2 ≤ 120) ∧
    ((cmd 6 [96, 120] .check).num 1 = (95 : RealZone).val + 1 ∧ 1 ≤ (cmd 6 [96, 120] .check).num 2 ∧
      (cmd 6 [96, 120] .check).num 2 ≤ 120) ∧
    (let c : Chip := { bc with slots := bc.slots.set 0 (some ws) };
      c.slots[(0 : Fin 4)] = some ws ∧ ws.zone = 0 ∧ ws.zone ≠ 95 ∧ c.slots[(1 : Fin 4)] = none) ∧
    (∀ k : Fin 4, (Vector.replicate 4 (some ws))[k] ≠ none) ∧ ZoneRecord.withheld { ZoneRecord.fresh with withheld := true } = true ∧
    bc.zones[(95 : Zone)].withheld = false ∧ bc.seconds + 60 * 120 < 4294967296 ∧ ws.zone.val + 1 = (cmd 7 [1] .check).num 1 ∧
    ws.zone.val + 1 ≠ (cmd 7 [2] .check).num 1 := by
  refine ⟨cc_atCheck, by decide, by decide, by decide, by decide, by decide, rfl, by decide,
    by decide, by decide, by decide⟩
theorem test_hyp_StretchesRunTheirRanges :
    (let c : Chip := { cc (cmd 8 [4, 192, 1] .check) with
        points := bc.points.set 767 { lp with state := .tested, firstSerial := some 7 } };
      ∀ r : Rec, (cmd 8 [4, 192, 1] .check).covers r = true → c.points[r].state = .commissioned ∨
        (c.points[r].state = .tested ∧ c.points[r].presence = .live ∧ c.points[r].firstSerial.isSome = true)) ∧
    (let c : Chip := { cc (cmd 9 [4, 192, 1] .check) with points := bc.points.set 767 { lp with state := .commissioned } };
      ∀ r : Rec, (cmd 9 [4, 192, 1] .check).covers r = true → c.points[r].state = .commissioned) ∧
    (cc (cmd 14 [] .check)).sealed = false ∧ (cmd 14 [] .check).preparedAtTake = true := by decide +kernel
theorem test_hyp_AdoptSettlesTheConflict :
    (let m := cmd 10 [4, 192, 2] .check;
      (1 ≤ m.num 1 ∧ m.num 1 ≤ tb.loops) ∧ (1 ≤ m.num 2 ∧ m.num 2 ≤ 192) ∧
      (767 : Rec).val = (m.num 1 - 1) * 192 + (m.num 2 - 1) ∧ m.num 3 = 2 ∧ (cmd 10 [4, 192, 1] .check).num 3 = 1 ∧
      (let p := { lp with state := .conflict, firstSerial := some 7, secondSerial := some 8 };
        p.state = .conflict ∧ p.secondSerial.isSome = true)) := by decide
theorem test_hyp_ClearingCommandsRunTheirRanges :
    (cc (cmd 11 [4, 192, 1, 255] .check)).Quiet ∧ (cmd 11 [4, 192, 1, 255] .check).RangeOk tb ∧
    (cmd 11 [4, 192, 1, 255] .check).num 4 ≤ 255 ∧ (cc (cmd 12 [4, 192, 1] .check)).FireRight :=
  ⟨cc_quiet _, by constructor <;> decide, by decide, by decide +kernel, by decide +kernel⟩
theorem test_hyp_QueryCountsEveryPoint :
    (cc (cmd 15 [] .check)).Quiet ∧ (cc (cmd 15 [] .check)).AtCheck (cmd 15 [] .check) tb 15 :=
  ⟨cc_quiet _, cc_atCheck _ _⟩

theorem test_hyp_PlanLoadTakesEffect :
    (let m := cmd 1 [0x40000, 1] .check;
      (1 ≤ m.num 2 ∧ m.num 2 ≤ 96) ∧ tb.BufferPasses (m.num 1) (80 * m.num 2) ∧
      ¬(1 ≤ (cmd 1 [0, 97] .check).num 2 ∧ (cmd 1 [0, 97] .check).num 2 ≤ 96) ∧
      ¬tb.BufferPasses ((cmd 1 [0x20000, 96] .check).num 1) (80 * (cmd 1 [0x20000, 96] .check).num 2)) ∧
    (entryLoop (te.words.getD (2 * 1) 0) ≠ 0 ∧ entryRecord (te.words.getD (2 * 1) 0) = 0) ∧
    (entryLoop (te.words.getD (2 * 8) 0) = 0 ∧ te.position = some ((cmd 1 [0, 1] .check).num 2 - 1)) ∧
    (∀ w, (cc (cmd 1 [] w)).AtWork (cmd 1 [] w) tb 1 w) := by
  refine ⟨⟨by decide, ⟨by decide, by decide, by decide, by decide, by decide, by decide⟩, by decide, fun h => ?_⟩, by decide,
    by decide, cc_atWork _⟩
  exact absurd h.mailbox (by decide)
/-- Block words that pass their own checks and ones that do not; entries of a right form and not; the point checks; both
passes, and the last block reached and not. -/
theorem test_hyp_PlanLoadTakesEffect_checks :
    (let t := { te with words := 0x4F54504C#32 :: List.replicate 19 0 };
      t.words.getD 0 0 = 0x4F54504C#32 ∧ t.words.getD 1 0 = word 0 ∧ t.words.getD 18 0 = 0 ∧ t.sum = 0 ∧
      te.words.getD 0 0 ≠ 0x4F54504C#32 ∧ t.position = some 0 ∧ t.pass = .install ∧
      TransferEngine.pass { t with pass := .verify } ≠ .install) ∧
    PlanEntryRight tb.loops 0x6001C004#32 0xFFFF#32 ∧ PlanEntryRight tb.loops 0x0000C004#32 0 ∧
    ¬PlanEntryRight tb.loops 0x61010101#32 0 ∧ (0 : Rec) ∉ te.marks ∧ (0 : Rec) ∈ [(0 : Rec)] ∧
    (let c : Chip := { bc with slots := bc.slots.set 0 (some { ws with zone := 95 }) };
      ∃ (j : Fin 4) (w : WalkSlot), c.slots[j] = some w ∧
        realZone w.zone = zoneFor 767 (entryOf 0x6001C004#32 0)) ∧
    bc.points[(0 : Rec)].state ≠ .commissioned ∧ (0 + 1 < (cmd 1 [0, 2] .check).num 2 ∧ (cmd 1 [0, 1] .check).num 2 ≤ 0 + 1) := by
  refine ⟨by decide, by simp [PlanEntryRight, tb], by simp [PlanEntryRight, tb], by simp [PlanEntryRight], by decide, by decide,
    ⟨0, _, rfl, by decide⟩, by decide, by decide⟩
/-- The DACK of a block's word: of a plan block's nineteenth and twentieth, a header's fifteenth and sixteenth, and a state
block's forty-third and forty-fourth. -/
theorem test_hyp_TransfersReadTheirBlocks :
    (∀ (code : BitVec 8) (ws : List Word) (k : Option Nat),
      let m : Command := { cmd code [] .check with stage := .transferring .read };
      let t : TransferEngine := { te with words := ws, position := k };
      let c : Chip := { cc m with transfer := some t, port := some (.internal .command ⟨0x40000#24, none⟩) };
      c.porLow = false ∧ c.port = some (.internal .command ⟨0x40000#24, none⟩) ∧ c.command = some m ∧ m.code = code ∧
      m.stage = .transferring .read ∧ c.transfer = some t ∧ t.position = k ∧ t.words = ws) ∧
    (∀ n ∈ [20, 16, 44], (List.replicate (n - 2) (0 : Word)).length + 1 < n ∧
      n ≤ (List.replicate (n - 1) (0 : Word)).length + 1) :=
  ⟨fun _ _ _ => ⟨rfl, rfl, rfl, rfl, rfl, rfl, rfl, rfl⟩, by decide⟩
theorem test_hyp_SnapshotTakesEffect :
    tb.BufferPasses 0x40000 16960 ∧ ¬tb.BufferPasses 0x40001 16960 ∧
    (∀ w, (cc (cmd 2 [] w)).AtWork (cmd 2 [] w) tb 2 w) ∧ te.position = some 0 ∧
    (∀ i : Fin 8, (recordAt (8 * 95 + i.val)).val = 8 * 95 + i.val) ∧
    (∀ a : Transfer, let m : Command := { cmd 2 [] .check with stage := .transferring a };
      m.code = 2 ∧ m.stage = .transferring a) := by
  refine ⟨⟨by decide, by decide, by decide, by decide, by decide, by decide⟩, fun h => ?_, cc_atWork _, rfl, by decide,
    fun _ => ⟨rfl, rfl⟩⟩
  exact absurd h.aligned (by decide)
theorem test_hyp_RestoreTakesEffect :
    tb.BufferPasses 0x40000 16960 ∧ (∀ k : Fin 4, bc.slots[k] = none) ∧ bc.fireCount = 0 ∧
    Chip.fireCount { bc with fireCount := 1 } ≠ 0 ∧ (bc.slots.set 3 (some ws))[(3 : Fin 4)] ≠ none ∧
    (∀ w, (cc (cmd 3 [] w)).AtWork (cmd 3 [] w) tb 3 w) ∧
    (766 : Rec).val = 8 * 95 + 7 - 1 ∧ (767 : Rec).val = 8 * 95 + 8 - 1 ∧ te.kept.isSome = true := by
  refine ⟨⟨by decide, by decide, by decide, by decide, by decide, by decide⟩, by decide, rfl, by decide,
    by decide, cc_atWork _, by decide, by decide, rfl⟩
/-- A header that passes and one that does not; a block's own words; a point entry that passes, COMMISSIONED on record 767, and
one whose LOOP is not its record's. -/
theorem test_hyp_RestoreTakesEffect_checks :
    (let h := headerWords 4 #v[15, 0, 15, 0] true 9;
      let w (i : Nat) : Nat := (h.getD i 0).toNat;
      h.getD 0 0 = 0x4F545348#32 ∧ h.foldl (· + ·) 0 = 0 ∧ w 1 = 96 ∧ (1 ≤ w 2 ∧ w 2 ≤ 4) ∧
      (∀ i, i < 7 → 3 ≤ i → w i ≤ 15) ∧ w 7 ≤ 1 ∧ (∀ i, i < 15 → 9 ≤ i → w i = 0) ∧
      te.words.getD 0 0 ≠ 0x4F545348#32) ∧
    (let ws := 0x4F545342#32 :: word 95 :: List.replicate 40 0 ++ [5, 0];
      ws.getD 0 0 = 0x4F545342#32 ∧ ws.getD 1 0 = word 95 ∧ te.kept.map (·.second) = some (ws.getD 42 0) ∧ te.sum = 0) ∧
    StateEntryRight (List.replicate 37 0 ++ [0x6001C004, 0, 0xF87, 7, 0]) 95 8 ∧
    ¬StateEntryRight [] 95 8 := by
  refine ⟨by decide, by decide, ?_, ?_⟩
  · simp [StateEntryRight, List.replicate]
  · simp [StateEntryRight]
theorem test_hyp_ResetsTakeEffect :
    bc.porLow = false ∧ Chip.porLow { bc with porLow := true } = true ∧ bc.host = none ∧
    (∀ h : HostAccess, Chip.host { bc with host := some h } = some h) ∧ HostStage.waiting ≠ .held ∧
    (∀ p : PortAccess, Chip.port { bc with port := some p } = some p) ∧
    (∀ cl q, some PortAccess.host ≠ some (.internal cl q)) ∧ Client.command ≠ .binding ∧
    (∀ (k : Check) (q : MemRequest),
      let c : Chip := { Chip.reset with bind := .checking { k with phase := .rejecting .range 7 },
                                        port := some (.internal .binding q) };
      c.porLow = false ∧ c.port = some (.internal .binding q) ∧ c.bind.answering = true) :=
  ⟨rfl, rfl, rfl, fun _ => rfl, by decide, fun _ => rfl, fun _ _ => (by intro h; cases h), by decide, fun _ _ => ⟨rfl, rfl, rfl⟩⟩
/-- A host reset at a BIND STATUS write leaves it at the port to DACK with w9 as it was; at the PRODUCER write before it, the
write lands (R22, R31, R32). -/
theorem test_hostReset_bindStatusAtPort (k : Check) (q : MemRequest) (b : Binding) :
    (let c : Chip := { Chip.reset with bind := .checking { k with phase := .status b }, port := some (.internal .binding q) };
      c.unbindByHostReset.port = some (.abandonedStatus q) ∧ c.unbindByHostReset.accessDone.mem = c.mem) ∧
    (let c : Chip := { Chip.reset with bind := .checking { k with phase := .producer b },
                                       port := some (.internal .binding q) };
      c.unbindByHostReset.port = some (.orphan q) ∧ c.unbindByHostReset.accessDone.mem = q.perform c.mem) :=
  ⟨⟨rfl, rfl⟩, rfl, rfl⟩

end Sys2Proof.Tests
end

