-- ==== Sys2Proof/Proofs/ZoneChain.lean ====
section
/-! SUPPORT. The zone chain (R92): what a shift makes of each bit, the rows that reach the chain, the register across the two
resets. -/

namespace Sys2Proof.Machine

/-! ### The register after a shift, a host reset, a power-on reset -/

/-- A shift writes the shift register and nothing else. -/
theorem Chip.shiftChain_eq (c : Chip) (zdat : Bool) :
    c.shiftChain zdat = { c with shiftRegister := (c.shiftChain zdat).shiftRegister } := rfl

/-- ZDAT enters position 1, which is bit 0. -/
@[simp] theorem Chip.shiftChain_getLsbD_zero (c : Chip) (zdat : Bool) :
    (c.shiftChain zdat).shiftRegister.getLsbD 0 = zdat := by
  simp [Chip.shiftChain]

/-- Every other bit comes from the position below. -/
theorem Chip.shiftChain_getLsbD_of_pos (c : Chip) (zdat : Bool) {k : Nat} (hpos : 1 ≤ k) (hk : k < 96) :
    (c.shiftChain zdat).shiftRegister.getLsbD k = c.shiftRegister.getLsbD (k - 1) := by
  have hzdat : ((BitVec.ofBool zdat).setWidth 96).getLsbD k = false := by
    simp [Nat.ne_of_gt hpos]
  have hshift : (c.shiftRegister <<< 1).getLsbD k = c.shiftRegister.getLsbD (k - 1) := by
    rw [BitVec.getLsbD_shiftLeft]
    simp [hk, Nat.ne_of_gt hpos]
  rw [Chip.shiftChain, BitVec.getLsbD_or, hshift, hzdat, Bool.or_false]

/-- A host reset's unbinding leaves the chain. -/
@[simp] theorem Chip.unbindByHostReset_shiftRegister (c : Chip) :
    c.unbindByHostReset.shiftRegister = c.shiftRegister := rfl

/-- An event that leaves the chain still leaves it once the memory path has settled, PORn low or high. -/
theorem Chip.event_shiftRegister (c : Chip) (f : Chip → Chip) (hf : (f c).shiftRegister = c.shiftRegister) :
    (c.event f).shiftRegister = c.shiftRegister := by
  cases hpor : c.porLow with
  | true => rw [c.event_low f hpor]
  | false => simp [c.event_high f hpor, hf]

/-! ### The rows that move the chain -/

/-- ZONE_CHAIN_SHIFT is an event that shifts at ZLOAD high. -/
theorem exec_zoneChainShift (zdat zload : Bool) (s : State) :
    exec (.zoneChainShift zdat zload) s =
      .next (s.withChip (s.chip.event fun c => if zload then c.shiftChain zdat else c)) := rfl

/-- ZONE_LOAD with no coinciding ZCLK is an event that loads. -/
theorem exec_zoneLoad_none (s : State) :
    exec (.zoneLoad none) s = .next (s.withChip (s.chip.event Chip.loadZones)) := rfl

/-- ZONE_LOAD with a coinciding rising ZCLK is an event that shifts, then loads. -/
theorem exec_zoneLoad_some (zdat : Bool) (s : State) :
    exec (.zoneLoad (some zdat)) s = .next (s.withChip (s.chip.event fun c => (c.shiftChain zdat).loadZones)) := rfl

/-- HOST_RESET is HRSTn's fall, then an event that unbinds. -/
theorem exec_hostReset (s : State) :
    exec .hostReset s = .next (s.withChip (Chip.event { s.chip with hrstLow := true } Chip.unbindByHostReset)) := rfl

/-- POWER_ON_RESET takes effect at once. -/
theorem exec_powerOnReset (s : State) : exec .powerOnReset s = .next (s.withChip s.chip.powerOn) := rfl

/-- While PORn is low ZONE_CHAIN_SHIFT is ignored, whatever ZDAT and ZLOAD are. -/
theorem exec_zoneChainShift_porLow (zdat zload : Bool) (s : State) (hpor : s.chip.porLow = true) :
    exec (.zoneChainShift zdat zload) s = .next s := by
  rw [exec_zoneChainShift, Chip.event_low _ _ hpor]
  rfl

/-- While PORn is low ZONE_LOAD is ignored, a coinciding ZCLK with it. -/
theorem exec_zoneLoad_porLow (zclk : Option Bool) (s : State) (hpor : s.chip.porLow = true) :
    exec (.zoneLoad zclk) s = .next s := by
  cases zclk with
  | none => rw [exec_zoneLoad_none, Chip.event_low _ _ hpor]; rfl
  | some zdat => rw [exec_zoneLoad_some, Chip.event_low _ _ hpor]; rfl

/-- Settles O29: the register after a shift is read bit by bit, and every other clause is a row's effect on the register. -/
theorem chainShiftMovesTheRegister : Obligations.ChainShiftMovesTheRegister := by
  intro s zdat
  refine ⟨fun hpor => ?shift, fun hpor => ?zloadLow, ?hostReset, ?powerOn, fun hpor => ⟨?shiftPorLow, ?loadPorLow⟩⟩
  case shift =>
    refine ⟨(s.chip.shiftChain zdat).shiftRegister, ?_, s.chip.shiftChain_getLsbD_zero zdat,
      fun k hpos hk => s.chip.shiftChain_getLsbD_of_pos zdat hpos hk⟩
    rw [exec_zoneChainShift, Chip.event_high _ _ hpor, ← Chip.shiftChain_eq]
    rfl
  case zloadLow =>
    rw [exec_zoneChainShift, Chip.event_high _ _ hpor]
    rfl
  case hostReset =>
    exact ⟨_, exec_hostReset s,
      Chip.event_shiftRegister { s.chip with hrstLow := true } _ (Chip.unbindByHostReset_shiftRegister _)⟩
  case powerOn => exact ⟨_, exec_powerOnReset s, rfl, rfl⟩
  case shiftPorLow => exact fun zload => exec_zoneChainShift_porLow zdat zload s hpor
  case loadPorLow => exact fun zclk => exec_zoneLoad_porLow zclk s hpor

end Sys2Proof.Machine
end

