-- ==== Sys2Proof/Proofs/Suppression.lean ====
section
/-! SUPPORT. SUPPRESSED (R90, R91, R95, R96): each consent on its own, then the field and its place in the verdict word. -/

namespace Sys2Proof.Machine

/-- Plan consent is withheld by a planned entry whose enable is 0. -/
theorem planWithheld_iff (e? : Option PlanEntry) :
    planWithheld e? = true ↔ ∃ e, e? = some e ∧ e.enable = false := by
  cases e? with
  | none => simp [planWithheld]
  | some e => simp [planWithheld]

/-- A mask withholds a real zone's consent by that zone's bit. -/
theorem maskWithholds_realZone (mask : BitVec 96) (z : RealZone) :
    maskWithholds mask (realZone z) = mask.getLsbD z.val := by
  simp [maskWithholds, realZone]

/-- No mask withholds a pseudo-zone's consent (R95). -/
theorem maskWithholds_pseudoZone (mask : BitVec 96) (l : Loop) : maskWithholds mask (pseudoZone l) = false := by
  simp [maskWithholds, pseudoZone]

/-- The zone a record's entry gives it is withheld by a mask when there is an entry, and the bit of its zone is 1. -/
theorem maskWithholds_zoneFor_iff (mask : BitVec 96) (r : Rec) (e? : Option PlanEntry) :
    maskWithholds mask (zoneFor r e?) = true ↔ ∃ e, e? = some e ∧ mask.getLsbD e.zone.val = true := by
  cases e? with
  | none => simp [zoneFor, maskWithholds_pseudoZone]
  | some e => simp [zoneFor, maskWithholds_realZone]

/-- SUPPRESSED is the withholding of the plan's, the loop's or the zone's consent. -/
theorem Chip.suppression_iff (c : Chip) (r : Rec) :
    c.suppression r = true ↔
      (∃ e, c.plan[r] = some e ∧ e.enable = false) ∨ c.lisoFiltered[loopOf r] = true ∨
      (∃ e, c.plan[r] = some e ∧ c.zoneMask.getLsbD e.zone.val = true) := by
  rw [Chip.suppression, Chip.zoneOf, Bool.or_eq_true, Bool.or_eq_true, planWithheld_iff, maskWithholds_zoneFor_iff, or_assoc]

/-- SUPPRESSED looks at the plan, the filtered levels and the mask alone. -/
theorem Chip.suppression_congr {c d : Chip} (hplan : c.plan = d.plan) (hliso : c.lisoFiltered = d.lisoFiltered)
    (hmask : c.zoneMask = d.zoneMask) (r : Rec) : c.suppression r = d.suppression r := by
  simp only [Chip.suppression, Chip.zoneOf, hplan, hliso, hmask]

/-- Bit 9 of the verdict word is SUPPRESSED (R186). -/
theorem verdictWord_getLsbD_nine (p : PointRecord) : (verdictWord p).getLsbD 9 = p.suppressed := by
  simp only [verdictWord, BitVec.getLsbD_append]
  simp

/-- Settles O32, by the three consents and the bits of the verdict word. -/
theorem suppressedWhenAConsentIsWithheld : Obligations.SuppressedWhenAConsentIsWithheld := by
  intro c r
  exact ⟨c.suppression_iff r, fun _ _ => Chip.suppression_congr rfl rfl rfl r, verdictWord_getLsbD_nine⟩

end Sys2Proof.Machine
end

