-- ==== Sys2Proof/Proofs/PointMoves.lean ====
section
/-! SUPPORT. What the moves of the Point Engine and the Alarm Qualifier do to a point, a slot and the Report Writer, in the
words of the facts that every step keeps (R56, R59, R123, R126, R178). -/

namespace Sys2Proof.Machine

/-! ### The Report Writer and a raised report -/

/-- What a raised report does to the Report Writer: the copies stand, and the pending queue keeps its bound. -/
def Writer.Step (w w' : Writer) : Prop :=
  w'.producer = w.producer ∧ w'.consumer = w.consumer ∧
  (w.queue.length ≤ Config.pendingLimit → w'.queue.length ≤ Config.pendingLimit)

theorem Writer.Step.refl (w : Writer) : w.Step w := ⟨rfl, rfl, id⟩

theorem Writer.Step.trans {u v w : Writer} (h : u.Step v) (g : v.Step w) : u.Step w :=
  ⟨g.1.trans h.1, g.2.1.trans h.2.1, g.2.2 ∘ h.2.2⟩

theorem Chip.raise_writerStep (c : Chip) (x : Report) : c.writer.Step (c.raise x).writer := c.raise_writer x

theorem Chip.startRecord_writerStep (c : Chip) : c.writer.Step c.startRecord.writer := by
  obtain ⟨hp, hc, hq⟩ := c.startRecord_writer
  exact ⟨hp, hc, hq.trans⟩

/-- A record is started from the binding, the writer and the Internal Master alone. -/
theorem Chip.startRecord_congr (c d : Chip) (hb : c.bind = d.bind) (hw : c.writer = d.writer) (hi : c.im = d.im) :
    c.startRecord.writer = d.startRecord.writer ∧ c.startRecord.im = d.startRecord.im := by
  refine ⟨Chip.startRecord_writer_congr c d hb hw, ?_⟩
  unfold Chip.startRecord
  rw [hb, hw]
  cases d.bind with
  | bound b =>
    dsimp only
    split
    · split
      · exact hi
      · simp [Chip.issueReport, hi]
    · exact hi
  | _ => exact hi

/-- A report is raised from the same. -/
theorem Chip.raise_congr (c d : Chip) (x : Report) (hb : c.bind = d.bind) (hw : c.writer = d.writer) (hi : c.im = d.im) :
    (c.raise x).writer = (d.raise x).writer ∧ (c.raise x).im = (d.raise x).im := by
  have hf : c.forms x.kind = d.forms x.kind := by unfold Chip.forms; rw [hb]
  unfold Chip.raise
  rw [hf]
  split
  · exact Chip.startRecord_congr _ _ hb (congrArg (Writer.arrive · x) hw) hi
  · exact ⟨hw, hi⟩

/-- A raised report changes the Report Writer and the Internal Master, as an equation. -/
theorem Chip.raise_eq (c : Chip) (x : Report) :
    c.raise x = { c with writer := (c.raise x).writer, im := (c.raise x).im } := by
  obtain ⟨w, i, h⟩ := c.raise_shape x
  rw [h]

/-- Starting a record changes the same, as an equation. -/
theorem Chip.startRecord_eq (c : Chip) :
    c.startRecord = { c with writer := c.startRecord.writer, im := c.startRecord.im } := by
  obtain ⟨w, i, h⟩ := c.startRecord_shape
  rw [h]

/-! ### A point's own steps -/

/-- What a step of a reply event, before its verdict, does to its point: the verdict stands, counts stay in range, and the
facts of the STATE stand beside the plan entry. -/
structure PointRecord.ReplyStep (e : Option PlanEntry) (p q : PointRecord) : Prop where
  verdict : q.verdict = p.verdict
  inRange : p.InRange → q.InRange
  facts : p.Facts e → q.Facts e

theorem PointRecord.ReplyStep.refl (e : Option PlanEntry) (p : PointRecord) : p.ReplyStep e p := ⟨rfl, id, id⟩

theorem PointRecord.ReplyStep.trans {e : Option PlanEntry} {p q u : PointRecord} (h : p.ReplyStep e q)
    (g : q.ReplyStep e u) : p.ReplyStep e u :=
  ⟨g.verdict.trans h.verdict, g.inRange ∘ h.inRange, g.facts ∘ h.facts⟩

/-- What a check of the Drift Monitor does to its point: flags, the drift run within its range, and READY. -/
structure PointRecord.MonitorStep (p q : PointRecord) : Prop where
  same : q = { p with flags := q.flags, driftRun := q.driftRun, prealarmReady := q.prealarmReady }
  inRange : p.driftRun ≤ 16 → q.driftRun ≤ 16

theorem PointRecord.MonitorStep.refl (p : PointRecord) : p.MonitorStep p := ⟨rfl, id⟩

theorem PointRecord.MonitorStep.trans {p q u : PointRecord} (h : p.MonitorStep q) (g : q.MonitorStep u) : p.MonitorStep u :=
  ⟨by rw [g.same, h.same], g.inRange ∘ h.inRange⟩

/-- A move of the Point Engine at a record: it changes that record's point as `R` allows, no other point, and raises reports. -/
structure Chip.PointMove (R : PointRecord → PointRecord → Prop) (r : Rec) (c d : Chip) : Prop where
  shape : c.AlterPoints d
  others : ∀ i : Rec, i ≠ r → d.points[i] = c.points[i]
  step : R c.points[r] d.points[r]
  writer : c.writer.Step d.writer

theorem Chip.AlterPoints.plan {c d : Chip} (h : c.AlterPoints d) : d.plan = c.plan := by
  obtain ⟨_, _, _, rfl⟩ := h; rfl

section
variable {R : PointRecord → PointRecord → Prop} {r : Rec} {c d e : Chip}

theorem Chip.PointMove.refl (hR : ∀ p, R p p) (r : Rec) (c : Chip) : Chip.PointMove R r c c :=
  ⟨.refl c, fun _ _ => rfl, hR _, .refl _⟩

theorem Chip.PointMove.trans (hR : ∀ p q u, R p q → R q u → R p u) (h : Chip.PointMove R r c d)
    (g : Chip.PointMove R r d e) : Chip.PointMove R r c e where
  shape := h.shape.trans g.shape
  others i hi := (g.others i hi).trans (h.others i hi)
  step := hR _ _ _ h.step g.step
  writer := h.writer.trans g.writer

theorem Chip.PointMove.mono {S : PointRecord → PointRecord → Prop} (hRS : ∀ p q, R p q → S p q)
    (h : Chip.PointMove R r c d) : Chip.PointMove S r c d := ⟨h.shape, h.others, hRS _ _ h.step, h.writer⟩

theorem Chip.PointMove.modPoint (r : Rec) (c : Chip) (f : PointRecord → PointRecord) (h : R c.points[r] (f c.points[r])) :
    Chip.PointMove R r c (c.modPoint r f) where
  shape := c.modPoint_alter r f
  others i hi := by simp [Fin.val_ne_of_ne hi.symm]
  step := by simpa using h
  writer := .refl _

/-- A point changed and a report about it raised. -/
theorem Chip.PointMove.modRaise (r : Rec) (c : Chip) (f : PointRecord → PointRecord) (k : ReportKind) (time : Nat) (a b : Word)
    (h : R c.points[r] (f c.points[r])) : Chip.PointMove R r c ((c.modPoint r f).raisePoint k r time a b) where
  shape := c.modRaise_alter r f k r time a b
  others i hi := by simp [Fin.val_ne_of_ne hi.symm]
  step := by simpa using h
  writer := Chip.raise_writerStep _ _

/-- A further report after a move. -/
theorem Chip.PointMove.raisePoint (h : Chip.PointMove R r c d) (k : ReportKind) (q : Rec) (time : Nat) (a b : Word) :
    Chip.PointMove R r c (d.raisePoint k q time a b) where
  shape := h.shape.trans (d.raisePoint_alter k q time a b)
  others i hi := by simpa using h.others i hi
  step := by simpa using h.step
  writer := h.writer.trans (Chip.raise_writerStep _ _)

end

/-- A change that touches neither STATE, class, serials, verdict nor counts. -/
theorem PointRecord.ReplyStep.of_same {e : Option PlanEntry} {p q : PointRecord} (hv : q.verdict = p.verdict)
    (hs : q.state = p.state) (hf : q.foundClass = p.foundClass) (h1 : q.firstSerial = p.firstSerial)
    (h2 : q.secondSerial = p.secondSerial) (hr : p.InRange → q.InRange) : p.ReplyStep e q where
  verdict := hv
  inRange := hr
  facts h := by
    unfold PointRecord.Facts PointRecord.StateFacts at h ⊢
    rw [hs, hf, h1, h2]; exact h

/-- The facts of a point, the STATE being what the re-derivation table gives it, and SECOND SERIAL as before (R59). -/
theorem PointRecord.facts_rederived (e e' : Option PlanEntry) (p : PointRecord) (b : Bool) (f : Option (BitVec 3))
    (old : Option PlanEntry) (hp : p.Facts e) :
    PointRecord.Facts { p with foundClass := f, state := rederiveState p.state old e' f b } e' := by
  obtain ⟨-, hsecond⟩ := hp
  constructor
  · unfold PointRecord.StateFacts rederiveState stateFor
    split_ifs <;> cases e' <;> cases f <;> simp_all
    split_ifs <;> simp_all
  · intro h
    obtain ⟨hc, h1⟩ := hsecond h
    exact ⟨by simp [rederiveState, hc], h1⟩

/-- A check of the Drift Monitor is such a step. -/
theorem PointRecord.MonitorStep.replyStep {e : Option PlanEntry} {p q : PointRecord} (h : p.MonitorStep q) :
    p.ReplyStep e q := by
  obtain ⟨hsame, hrange⟩ := h
  rw [hsame]
  exact .of_same rfl rfl rfl rfl rfl fun ⟨h1, h2, h3, h4⟩ => ⟨h1, h2, hrange h3, h4⟩

/-! ### The steps of a reply event -/

theorem Chip.presenceGood_move (c : Chip) (r : Rec) (previous now : Nat) :
    Chip.PointMove (PointRecord.ReplyStep c.plan[r]) r c (c.presenceGood r previous now) := by
  have h : c.points[r].ReplyStep c.plan[r] { c.points[r] with presence := .live } := .of_same rfl rfl rfl rfl rfl id
  unfold Chip.presenceGood
  dsimp only
  split
  · exact .modRaise r c _ _ _ _ _ h
  · exact .modPoint r c _ h

theorem Chip.enterSilent_move (c : Chip) (r : Rec) (now path : Nat) :
    Chip.PointMove (PointRecord.ReplyStep c.plan[r]) r c (c.enterSilent r now path) :=
  .modRaise r c _ _ _ _ _ (.of_same rfl rfl rfl rfl rfl id)

theorem Chip.presenceNoreply_move (c : Chip) (r : Rec) (run now : Nat) :
    Chip.PointMove (PointRecord.ReplyStep c.plan[r]) r c (c.presenceNoreply r run now) := by
  unfold Chip.presenceNoreply
  split
  · exact c.enterSilent_move r now 1
  · exact .refl (.refl _) r c

/-- A SERIAL that finds no FIRST SERIAL becomes it; no SECOND SERIAL stands then (R61). -/
theorem PointRecord.ReplyStep.firstSerial {e : Option PlanEntry} (p : PointRecord) (s : Word) :
    p.ReplyStep e { p with firstSerial := some s } where
  verdict := rfl
  inRange := id
  facts h := by
    obtain ⟨hs, h2⟩ := h
    refine ⟨?_, fun h => ⟨(h2 h).1, rfl⟩⟩
    unfold PointRecord.StateFacts at hs ⊢
    cases hst : p.state <;> simp_all

/-- A SERIAL beside a FIRST SERIAL becomes SECOND SERIAL in CONFLICT (R61). -/
theorem PointRecord.ReplyStep.conflict {e : Option PlanEntry} (p : PointRecord) (s : Word) (h1 : p.firstSerial.isSome = true) :
    p.ReplyStep e { p with secondSerial := some s, state := .conflict } where
  verdict := rfl
  inRange := id
  facts _ := ⟨trivial, fun _ => ⟨rfl, h1⟩⟩

/-- A third SERIAL replaces SECOND SERIAL (R61). -/
theorem PointRecord.ReplyStep.secondSerial {e : Option PlanEntry} (p : PointRecord) (s : Word)
    (h2 : p.secondSerial.isSome = true) : p.ReplyStep e { p with secondSerial := some s } where
  verdict := rfl
  inRange := id
  facts h := by
    obtain ⟨hs, h2'⟩ := h
    obtain ⟨hc, h1⟩ := h2' h2
    refine ⟨?_, fun _ => ⟨hc, h1⟩⟩
    unfold PointRecord.StateFacts
    simp [hc]

theorem Chip.serialPresent_move (c : Chip) (r : Rec) (s : Word) (now : Nat) :
    Chip.PointMove (PointRecord.ReplyStep c.plan[r]) r c (c.serialPresent r s now) := by
  unfold Chip.serialPresent
  dsimp only
  split
  case h_1 => exact .modPoint r c _ (.firstSerial _ s)
  case h_2 f hf =>
    split
    · exact .refl (.refl _) r c
    · split
      · exact .refl (.refl _) r c
      · split
        · rename_i h2
          exact .modRaise r c _ _ _ _ _ (.secondSerial _ s h2)
        · exact .modRaise r c _ _ _ _ _ (.conflict _ s (by rw [hf]; rfl))

theorem Chip.serialStep_move (c : Chip) (r : Rec) (serial : EventSerial) (now : Nat) :
    Chip.PointMove (PointRecord.ReplyStep c.plan[r]) r c (c.serialStep r serial now) := by
  have lost : c.points[r].ReplyStep c.plan[r] (c.points[r].latch .serialLost) := .of_same rfl rfl rfl rfl rfl id
  cases serial with
  | absent => exact .refl (.refl _) r c
  | present s => exact c.serialPresent_move r s now
  | lostEmpty => exact .modRaise r c _ _ _ _ _ lost
  | lostOther holder => exact .modRaise r c _ _ _ _ _ lost

/-- The class step's change of class and STATE keeps the facts: a re-derivation, or CONFLICT (R59, R60). -/
theorem PointRecord.ReplyStep.rederived {e : Option PlanEntry} (p : PointRecord) (f : Option (BitVec 3)) (b : Bool)
    (old : Option PlanEntry) : p.ReplyStep e { p with foundClass := f, state := rederiveState p.state old e f b } where
  verdict := rfl
  inRange := id
  facts h := p.facts_rederived e e b f old h

theorem Chip.firstSighting_move (c : Chip) (r : Rec) (cls : BitVec 3) (now : Nat) :
    Chip.PointMove (PointRecord.ReplyStep c.plan[r]) r c (c.firstSighting r cls now) := by
  unfold Chip.firstSighting
  dsimp only
  split
  · exact (Chip.PointMove.modRaise r c _ _ _ _ _ (.rederived _ _ _ _)).raisePoint _ _ _ _ _
  · exact .modRaise r c _ _ _ _ _ (.rederived _ _ _ _)

/-- A point's change commutes with a report raised: a report looks at the binding, the plan and the writer. -/
theorem Chip.modPoint_raisePoint (c : Chip) (q : Rec) (f : PointRecord → PointRecord) (k : ReportKind) (r : Rec)
    (time : Nat) (a b : Word) :
    (c.modPoint q f).raisePoint k r time a b = (c.raisePoint k r time a b).modPoint q f := by
  obtain ⟨hw, hi⟩ := Chip.raise_congr (c.modPoint q f) c
    ⟨k, loopNumber r, addressNumber r, zoneNumber (c.zoneOf r), time, a, b⟩ rfl rfl rfl
  rw [Chip.raisePoint, show (c.modPoint q f).zoneOf r = c.zoneOf r from rfl, Chip.raise_eq, hw, hi, Chip.raisePoint,
    Chip.raise_eq c]
  simp [Chip.modPoint, Chip.setPoint]

/-- Two changes of one point are one. -/
theorem Chip.modPoint_modPoint (c : Chip) (r : Rec) (f g : PointRecord → PointRecord) :
    (c.modPoint r f).modPoint r g = c.modPoint r (g ∘ f) := by
  simp [Chip.modPoint, Chip.setPoint]

/-- A class change in one change of the point: the class with its flag, and CONFLICT or the re-derived STATE (R60). -/
theorem Chip.classChange_eq (c : Chip) (r : Rec) (old cls : BitVec 3) (now : Nat) :
    c.classChange r old cls now = (c.modPoint r fun p =>
      { p.latch .classChanged with
        foundClass := some cls
        state := if p.state = .commissioned then .conflict
                 else rederiveState p.state c.plan[r] c.plan[r] (some cls) true }).raisePoint .classChanged r now
        (word old.toNat) (word cls.toNat) := by
  unfold Chip.classChange
  dsimp only
  rw [← Chip.modPoint_raisePoint, Chip.modPoint_modPoint]
  rfl

theorem Chip.classStep_move (c : Chip) (r : Rec) (cls : BitVec 3) (now : Nat) :
    Chip.PointMove (PointRecord.ReplyStep c.plan[r]) r c (c.classStep r cls now) := by
  unfold Chip.classStep
  split
  · exact c.firstSighting_move r cls now
  · split
    · exact .refl (.refl _) r c
    · rw [Chip.classChange_eq]
      refine .modRaise r c _ _ _ _ _ ?_
      dsimp only
      by_cases hs : c.points[r].state = .commissioned
      · rw [if_pos hs]
        refine ⟨rfl, id, fun h => ⟨trivial, fun h2 => ⟨rfl, (h.2 h2).2⟩⟩⟩
      · rw [if_neg hs]
        have latched : c.points[r].ReplyStep c.plan[r] (c.points[r].latch .classChanged) :=
          .of_same rfl rfl rfl rfl rfl id
        exact latched.trans (.rederived (c.points[r].latch .classChanged) (some cls) true c.plan[r])

theorem Chip.garbledStep_move (c : Chip) (r : Rec) (run now : Nat) :
    Chip.PointMove (PointRecord.ReplyStep c.plan[r]) r c (c.garbledStep r run now) := by
  unfold Chip.garbledStep
  split
  · exact .modRaise r c _ _ _ _ _ ⟨rfl, id, fun h => ⟨trivial, fun h2 => ⟨rfl, (h.2 h2).2⟩⟩⟩
  · exact .refl (.refl _) r c

theorem Chip.rederive_move (c : Chip) (r : Rec) : Chip.PointMove (PointRecord.ReplyStep c.plan[r]) r c (c.rederive r) :=
  .modPoint r c _ (.of_same rfl rfl rfl rfl rfl id)

/-! ### The Drift Monitor -/

theorem Chip.latchWithReport_move (c : Chip) (r : Rec) (f : Flag) (k : ReportKind) (now : Nat) (a b : Word) :
    Chip.PointMove PointRecord.MonitorStep r c (c.latchWithReport r f k now a b) := by
  unfold Chip.latchWithReport
  split
  · exact .refl .refl r c
  · exact .modRaise r c _ _ _ _ _ ⟨rfl, id⟩

theorem Chip.sensorCheck_move (c : Chip) (r : Rec) (st : GoodStatus) (analog : BitVec 8) (now : Nat) :
    Chip.PointMove PointRecord.MonitorStep r c (c.sensorCheck r st analog now) := by
  unfold Chip.sensorCheck
  split
  · exact c.latchWithReport_move r _ _ now _ _
  · exact .refl .refl r c

/-- The drift run stays within 16 (R82). -/
theorem driftRunAfter_le (run analog limit : Nat) (h : run ≤ 16) : driftRunAfter run analog limit ≤ 16 := by
  unfold driftRunAfter; split <;> omega

theorem Chip.driftCheck_move (c : Chip) (r : Rec) (analog : BitVec 8) (code : BitVec 4) (now : Nat) :
    Chip.PointMove PointRecord.MonitorStep r c (c.driftCheck r analog code now) := by
  have h : Chip.PointMove PointRecord.MonitorStep r c (c.modPoint r fun p =>
      { p with driftRun := driftRunAfter c.points[r].driftRun analog.toNat (driftLimit code) }) :=
    .modPoint r c _ ⟨rfl, driftRunAfter_le _ _ _⟩
  unfold Chip.driftCheck
  dsimp only
  split
  · exact h.trans (fun _ _ _ => .trans) (Chip.latchWithReport_move _ r _ _ now _ _)
  · exact h

theorem Chip.prealarmCheck_move (c : Chip) (r : Rec) (analog : BitVec 8) (code : BitVec 4) (now : Nat) :
    Chip.PointMove PointRecord.MonitorStep r c (c.prealarmCheck r analog code now) := by
  unfold Chip.prealarmCheck
  split
  · split
    · exact .modRaise r c _ _ _ _ _ ⟨rfl, id⟩
    · exact .refl .refl r c
  · split
    · exact .modPoint r c _ ⟨rfl, id⟩
    · exact .refl .refl r c

theorem Chip.driftMonitor_move (c : Chip) (r : Rec) (st : GoodStatus) (analog : BitVec 8) (code : BitVec 4) (now : Nat) :
    Chip.PointMove PointRecord.MonitorStep r c (c.driftMonitor r st analog code now) := by
  unfold Chip.driftMonitor
  cases st with
  | fault =>
    exact (c.latchWithReport_move r _ _ now _ _).trans (fun _ _ _ => .trans) (Chip.sensorCheck_move _ r _ _ now)
  | normal =>
    dsimp only
    split
    · exact c.sensorCheck_move r _ _ now
    · exact (c.driftCheck_move r _ _ now).trans (fun _ _ _ => .trans) (Chip.prealarmCheck_move _ r _ _ now)
  | alarm =>
    dsimp only
    split
    · exact c.sensorCheck_move r _ _ now
    · exact .modPoint r c _ ⟨rfl, id⟩

end Sys2Proof.Machine
end

