-- ==== Sys2Proof/Proofs/AlarmMoves.lean ====
section
/-! SUPPORT. What the Alarm Qualifier's moves do to points, zones, slots and the FIRE count, in the words of the facts that every
step keeps (R104, R114, R123, R126, R130, R131). -/

namespace Sys2Proof.Machine

/-! ### The FIRE count (R123) -/

/-- The number of points that hold FIRE, after one point is replaced. -/
theorem countP_set (v : Vector PointRecord 768) (r : Rec) (p : PointRecord) (f : PointRecord → Bool) :
    (v.set r p).toList.countP f + (if f v[r] then 1 else 0) = v.toList.countP f + (if f p then 1 else 0) := by
  have hr : r.val < v.toList.length := by simp
  have hpos : f v[r] = true → 0 < v.toList.countP f := fun h =>
    List.countP_pos_iff.mpr ⟨v[r], by simp, h⟩
  rw [Vector.toList_set, List.countP_set hr]
  have : v.toList[r.val] = v[r] := by simp
  rw [this]
  split_ifs with h1 h2 <;> first | omega | (have := hpos h1; omega)

/-- Setting a verdict keeps the FIRE count the number of points that hold FIRE. -/
theorem Chip.setVerdict_fires (c : Chip) (r : Rec) (v : Verdict) (h : c.FireRight) : (c.setVerdict r v).FireRight := by
  obtain ⟨hcount, -⟩ := h
  refine ⟨?_, rfl⟩
  have key := countP_set c.points r { c.points[r] with verdict := v } (fun p => p.verdict == .fire)
  have hf : (c.setVerdict r v).fires = (c.points.set r { c.points[r] with verdict := v }).toList.countP
    (fun p => p.verdict == .fire) := rfl
  rw [Chip.setVerdict_fireCount, hf, hcount, Chip.fires]
  dsimp only at key
  generalize (c.points.set r { c.points[r] with verdict := v }).toList.countP (fun p => p.verdict == .fire) = after at key ⊢
  generalize c.points.toList.countP (fun p => p.verdict == .fire) = before at key ⊢
  generalize c.points[r].verdict = old at key ⊢
  unfold fireCountAfter
  by_cases h1 : old = .fire <;> by_cases h2 : v = .fire <;> simp [h1, h2] at key ⊢ <;> omega

/-- A change of points that leaves every verdict leaves the FIRE count right. -/
theorem Chip.FireRight.of_verdicts {c d : Chip} (hv : ∀ r : Rec, d.points[r].verdict = c.points[r].verdict)
    (hn : d.fireCount = c.fireCount) (hp : d.firePin = c.firePin) (h : c.FireRight) : d.FireRight := by
  have hmap : d.points.toList.map (·.verdict) = c.points.toList.map (·.verdict) := by
    apply List.ext_getElem (by simp)
    intro i h1 h2
    have := hv ⟨i, by simpa using h1⟩
    simpa using this
  have hf : d.fires = c.fires := by
    have count (l : List PointRecord) : l.countP (fun p => p.verdict == .fire) = (l.map (·.verdict)).countP (· == .fire) := by
      rw [List.countP_map]; rfl
    rw [Chip.fires, Chip.fires, count, count, hmap]
  unfold Chip.FireRight
  rw [hn, hp, hf]
  exact h

/-! ### Points, slots and zones under a move of the Alarm Qualifier -/

/-- What the Alarm Qualifier does to a point: its verdict, and in a capture TESTED for MATCHED and TEST COUNT within 15. -/
structure PointRecord.AlarmStep (p q : PointRecord) : Prop where
  same : q = { p with verdict := q.verdict, testCount := q.testCount, state := q.state }
  state : q.state = p.state ∨ (p.state = .matched ∧ q.state = .tested)
  inRange : p.testCount ≤ 15 → q.testCount ≤ 15

theorem PointRecord.AlarmStep.refl (p : PointRecord) : p.AlarmStep p := ⟨rfl, .inl rfl, id⟩

theorem PointRecord.AlarmStep.trans {p q u : PointRecord} (h : p.AlarmStep q) (g : q.AlarmStep u) : p.AlarmStep u where
  same := by rw [g.same, h.same]
  state := by
    obtain h | ⟨h, h'⟩ := h.state
    · rw [← h]; exact g.state
    · obtain g | ⟨g, -⟩ := g.state
      · exact .inr ⟨h, g.trans h'⟩
      · rw [h'] at g; cases g
  inRange := g.inRange ∘ h.inRange

theorem PointRecord.AlarmStep.keepsRange {p q : PointRecord} (h : p.AlarmStep q) (hp : p.InRange) : q.InRange := by
  obtain ⟨h1, h2, h3, h4⟩ := hp
  rw [h.same]
  exact ⟨h1, h2, h3, h.inRange h4⟩

theorem PointRecord.AlarmStep.keepsFacts {p q : PointRecord} (e : Option PlanEntry) (h : p.AlarmStep q) (hp : p.Facts e) :
    q.Facts e := by
  obtain ⟨hs, h2⟩ := hp
  rw [h.same]
  obtain h | ⟨h, h'⟩ := h.state
  · rw [h]; exact ⟨hs, h2⟩
  · rw [h']
    unfold PointRecord.StateFacts at hs
    rw [h] at hs h2
    exact ⟨hs, fun x => absurd (h2 x).1 (by decide)⟩

/-- Whether STATE allows ARMED is as before, so the derived fields stay right (R97). -/
theorem PointRecord.AlarmStep.armable {p q : PointRecord} (h : p.AlarmStep q) : q.state.armable = p.state.armable := by
  obtain h | ⟨h, h'⟩ := h.state
  · rw [h]
  · rw [h, h']; rfl

theorem PointRecord.AlarmStep.keepsDerived {p q : PointRecord} (h : p.AlarmStep q) {s w : Bool}
    (hp : p = { p with suppressed := s, armed := armedOf s w p }) : q = { q with suppressed := s, armed := armedOf s w q } := by
  have hs : p.suppressed = s := by rw [hp]
  have ha : p.armed = armedOf s w p := congrArg PointRecord.armed hp
  have hq1 : q.suppressed = s := by rw [h.same]; exact hs
  have hq2 : q.armed = armedOf s w q := by
    have e1 : q.armed = p.armed := by rw [h.same]
    have e2 : q.presence = p.presence := by rw [h.same]
    rw [e1, ha, armedOf, armedOf, h.armable, e2]
  rw [← hq2, ← hq1]

/-- What a move does to a slot: it stays free or not free, with its zone and its phase, and its hit list keeps its bound. -/
def SlotStep (s t : Option WalkSlot) : Prop :=
  (s = none ∧ t = none) ∨ ∃ v w, s = some v ∧ t = some w ∧ w.zone = v.zone ∧ w.ending = v.ending ∧
    (v.hits.length ≤ Config.hitListLimit → w.hits.length ≤ Config.hitListLimit)

theorem SlotStep.refl (s : Option WalkSlot) : SlotStep s s := by
  cases s with
  | none => exact .inl ⟨rfl, rfl⟩
  | some w => exact .inr ⟨w, w, rfl, rfl, rfl, rfl, id⟩

theorem SlotStep.trans {s t u : Option WalkSlot} (h : SlotStep s t) (g : SlotStep t u) : SlotStep s u := by
  obtain ⟨h1, h2⟩ | ⟨v, w, h1, h2, hz, he, hh⟩ := h
  · obtain ⟨-, g2⟩ | ⟨_, _, g1, _⟩ := g
    · exact .inl ⟨h1, g2⟩
    · rw [h2] at g1; cases g1
  · obtain ⟨g1, -⟩ | ⟨v', w', g1, g2, gz, ge, gh⟩ := g
    · rw [h2] at g1; cases g1
    · rw [h2] at g1; cases g1
      exact .inr ⟨v, w', h1, g2, gz.trans hz, ge.trans he, gh ∘ hh⟩

/-- A move of the Alarm Qualifier. -/
structure Chip.AlarmMove (c d : Chip) : Prop where
  shape : c.AlterAlarm d
  points : ∀ r : Rec, c.points[r].AlarmStep d.points[r]
  fires : c.FireRight → d.FireRight
  zones : ∀ z : Zone, d.zones[z].withheld = c.zones[z].withheld ∧ d.zones[z].walkSlot = c.zones[z].walkSlot
  slots : ∀ k : Fin 4, SlotStep c.slots[k] d.slots[k]
  writer : c.writer.Step d.writer

theorem Chip.AlarmMove.refl (c : Chip) : c.AlarmMove c :=
  ⟨.refl c, fun _ => .refl _, id, fun _ => ⟨rfl, rfl⟩, fun _ => .refl _, .refl _⟩

theorem Chip.AlarmMove.trans {c d e : Chip} (h : c.AlarmMove d) (g : d.AlarmMove e) : c.AlarmMove e where
  shape := h.shape.trans g.shape
  points r := (h.points r).trans (g.points r)
  fires := g.fires ∘ h.fires
  zones z := ⟨(g.zones z).1.trans (h.zones z).1, (g.zones z).2.trans (h.zones z).2⟩
  slots k := (h.slots k).trans (g.slots k)
  writer := h.writer.trans g.writer

theorem Chip.AlarmMove.raise (c : Chip) (x : Report) : c.AlarmMove (c.raise x) where
  shape := (c.raise_alter x).alarm
  points r := by simpa using .refl _
  fires h := h.of_verdicts (by simp) (by simp) (by simp)
  zones z := by simp
  slots k := by simpa using .refl _
  writer := c.raise_writerStep x

theorem Chip.AlarmMove.setVerdict (c : Chip) (r : Rec) (v : Verdict) : c.AlarmMove (c.setVerdict r v) where
  shape := c.setVerdict_alter r v
  points i := by
    simp only [Fin.getElem_fin, Chip.setVerdict_points]
    split
    · rename_i h
      rw [Fin.ext h]
      exact ⟨rfl, .inl rfl, id⟩
    · exact .refl _
  fires := c.setVerdict_fires r v
  zones z := by simp
  slots k := by simpa using .refl _
  writer := by simpa using .refl _

/-- A zone record's opener changed. -/
theorem Chip.AlarmMove.modZone (c : Chip) (z : Zone) (f : ZoneRecord → ZoneRecord)
    (hf : ∀ x, (f x).withheld = x.withheld ∧ (f x).walkSlot = x.walkSlot) : c.AlarmMove (c.modZone z f) where
  shape := c.modZone_alter z f
  points i := by simpa using .refl _
  fires h := h.of_verdicts (by simp) (by simp) (by simp)
  zones y := by
    simp only [Fin.getElem_fin, Chip.modZone_zones]
    split
    · rename_i h
      rw [Fin.ext h]
      exact hf _
    · exact ⟨rfl, rfl⟩
  slots k := by simpa using .refl _
  writer := by simpa using .refl _

/-- A slot changed by such a step. -/
theorem Chip.AlarmMove.setSlot (c : Chip) (k : Fin 4) (w : Option WalkSlot) (h : SlotStep c.slots[k] w) :
    c.AlarmMove (c.setSlot k w) where
  shape := c.setSlot_alter k w
  points i := by simpa using .refl _
  fires h := h.of_verdicts (by simp) (by simp) (by simp)
  zones y := by simp
  slots j := by
    simp only [Fin.getElem_fin, Chip.setSlot_slots]
    split
    · rename_i e
      rw [← Fin.ext e]
      exact h
    · exact .refl _
  writer := by simpa using .refl _

/-- A point changed by such a step, its verdict standing. -/
theorem Chip.AlarmMove.modPoint (c : Chip) (r : Rec) (f : PointRecord → PointRecord)
    (h : c.points[r].AlarmStep (f c.points[r])) (hv : (f c.points[r]).verdict = c.points[r].verdict) :
    c.AlarmMove (c.modPoint r f) where
  shape := (c.modPoint_alter r f).alarm
  points i := by
    simp only [Fin.getElem_fin, Chip.modPoint_points]
    split
    · rename_i e
      rw [← Fin.ext e]
      exact h
    · exact .refl _
  fires g := g.of_verdicts (fun i => by
    simp only [Fin.getElem_fin, Chip.modPoint_points]
    split
    · rename_i e
      rw [← Fin.ext e]
      exact hv
    · rfl) (by simp) (by simp)
  zones z := by simp
  slots k := by simpa using .refl _
  writer := by simpa using .refl _

/-! ### The moves -/

theorem Chip.hold_move (c : Chip) (r : Rec) (now cause : Nat) : c.AlarmMove (c.hold r now cause) :=
  (Chip.AlarmMove.setVerdict c r .held).trans (.raise _ _)

theorem Chip.fire_move (c : Chip) (r : Rec) (now : Nat) (a b : Word) :
    c.AlarmMove ((c.setVerdict r .fire).raisePoint .fire r now a b) :=
  (Chip.AlarmMove.setVerdict c r .fire).trans (.raise _ _)

/-- A hit keeps the list at 32 entries or fewer (R126, R131). -/
theorem WalkSlot.hit_step (w : WalkSlot) (r : Rec) : SlotStep (some w) (some (w.hit r)) := by
  refine .inr ⟨w, _, rfl, rfl, ?_⟩
  unfold WalkSlot.hit
  split
  · exact ⟨rfl, rfl, by simp⟩
  · split
    · rename_i h
      exact ⟨rfl, rfl, fun _ => by simpa using h⟩
    · exact ⟨rfl, rfl, id⟩

theorem Chip.recordHit_move (c : Chip) (k : Fin 4) (r : Rec) (now : Nat) : c.AlarmMove (c.recordHit k r now) := by
  unfold Chip.recordHit
  split
  · exact .refl c
  · rename_i w hw
    exact (Chip.AlarmMove.setSlot c k _ (by rw [hw]; exact w.hit_step r)).trans (.raise _ _)

/-- A capture's change of the point (R130). -/
theorem PointRecord.captured_step (p : PointRecord) : p.AlarmStep p.captured where
  same := rfl
  state := by
    unfold PointRecord.captured
    dsimp only
    split
    · rename_i h; exact .inr ⟨h, rfl⟩
    · exact .inl rfl
  inRange _ := Nat.min_le_right _ _

theorem Chip.capture_move (c : Chip) (k : Fin 4) (r : Rec) (now : Nat) : c.AlarmMove (c.capture k r now) :=
  ((Chip.AlarmMove.setVerdict c r .test).trans (.modPoint _ r _ (PointRecord.captured_step _) rfl)).trans
    (Chip.recordHit_move _ k r now)

theorem Chip.requestEnd_move (c : Chip) (k : Fin 4) (reason : EndReason) : c.AlarmMove (c.requestEnd k reason) := by
  unfold Chip.requestEnd
  split
  · split
    · rename_i w hw _
      exact .setSlot c k _ (by rw [hw]; exact .inr ⟨w, _, rfl, rfl, rfl, rfl, id⟩)
    · exact .refl c
  · exact .refl c

theorem Chip.breakout_move (c : Chip) (z : Zone) : c.AlarmMove (c.breakout z) := by
  unfold Chip.breakout
  split
  · exact c.requestEnd_move _ _
  · exact .refl c

theorem Chip.coincide_move (c : Chip) (r other : Rec) (now : Nat) : c.AlarmMove (c.coincide r other now) := by
  unfold Chip.coincide
  split
  · exact .refl c
  · exact c.fire_move r now _ _

theorem Chip.AlarmMove.raiseZone (c : Chip) (k : ReportKind) (z : Zone) (time : Nat) (a b : Word) :
    c.AlarmMove (c.raiseZone k z time a b) := .raise c _

/-- A zone's opener let go. -/
theorem Chip.AlarmMove.closeOpener (c : Chip) (z : Zone) : c.AlarmMove (c.modZone z fun zr => { zr with opener := none }) :=
  .modZone c z _ fun _ => ⟨rfl, rfl⟩

theorem Chip.coincidence_move (c : Chip) (z : Zone) (q p : Rec) (now : Nat) : c.AlarmMove (c.coincidence z q p now) := by
  unfold Chip.coincidence
  dsimp only
  exact ((((Chip.AlarmMove.raiseZone c _ _ _ _ _).trans (Chip.coincide_move _ q p now)).trans
    (Chip.coincide_move _ p q now)).trans (.closeOpener _ z)).trans (Chip.breakout_move _ z)

theorem Chip.coincidenceCheck_move (c : Chip) (z : Zone) (p : Rec) (now : Nat) :
    c.AlarmMove (c.coincidenceCheck z p now) := by
  unfold Chip.coincidenceCheck
  split
  · exact c.coincidence_move z _ p now
  · exact .modZone c z _ fun _ => ⟨rfl, rfl⟩

/-- The qualification of an onset (R108). -/
theorem Chip.qualify_move (c : Chip) (r : Rec) (now : Nat) (kind : OnsetKind) : c.AlarmMove (c.qualify r now kind) := by
  unfold Chip.qualify
  dsimp only
  split
  · exact c.hold_move r now _
  · split
    · exact (c.capture_move _ r now).trans (Chip.coincidenceCheck_move _ _ r now)
    · split
      · exact c.fire_move r now _ _
      · exact (c.hold_move r now _).trans (Chip.coincidenceCheck_move _ _ r now)

theorem Chip.verdictStep_move (c : Chip) (r : Rec) (st : GoodStatus) (now : Nat) : c.AlarmMove (c.verdictStep r st now) := by
  unfold Chip.verdictStep
  split
  · exact c.qualify_move r now _
  · exact .refl c
  · exact .setVerdict c r _
  · exact .refl c

end Sys2Proof.Machine
end

