-- ==== Sys2Proof/Proofs/StepMoves.lean ====
section
/-! SUPPORT. The moves a step is made of, taken apart once: the reply event with what precedes it, the DACK of an access, the
blocks' events at a DACK. -/

namespace Sys2Proof.Machine

/-! ### A chip whose memory path is another's -/

/-- A chip whose memory path, binding, IRQ line and ring copies are those of another, and whose Intake Queue is no longer. -/
structure Chip.SamePath (c d : Chip) : Prop where
  mem : d.mem = c.mem
  host : d.host = c.host
  port : d.port = c.port
  starve : d.starve = c.starve
  bind : d.bind = c.bind
  irqPin : d.irqPin = c.irqPin
  producer : d.writer.producer = c.writer.producer
  consumer : d.writer.consumer = c.writer.consumer
  intake : d.intake.length ≤ c.intake.length

theorem Chip.SamePath.refl (c : Chip) : c.SamePath c := ⟨rfl, rfl, rfl, rfl, rfl, rfl, rfl, rfl, Nat.le_refl _⟩

theorem Chip.SamePath.trans {c d e : Chip} (h : c.SamePath d) (g : d.SamePath e) : c.SamePath e :=
  ⟨g.mem.trans h.mem, g.host.trans h.host, g.port.trans h.port, g.starve.trans h.starve, g.bind.trans h.bind,
    g.irqPin.trans h.irqPin, g.producer.trans h.producer, g.consumer.trans h.consumer, g.intake.trans h.intake⟩

theorem Chip.raise_samePath (c : Chip) (x : Report) : c.SamePath (c.raise x) := by
  obtain ⟨hp, hc, -⟩ := c.raise_writer x
  constructor <;> simp [hp, hc]

theorem Chip.startRecord_samePath (c : Chip) : c.SamePath c.startRecord := by
  obtain ⟨hp, hc, -⟩ := c.startRecord_writer
  constructor <;> simp [hp, hc]

theorem Chip.AlterWork.samePath {c d : Chip} (h : c.AlterWork d) : c.SamePath d := by
  obtain ⟨_, _, _, _, _, _, _, _, _, _, _, _, rfl⟩ := h
  exact ⟨rfl, rfl, rfl, rfl, rfl, rfl, rfl, rfl, Nat.le_refl _⟩

theorem Chip.PointMove.samePath {R : PointRecord → PointRecord → Prop} {r : Rec} {c d : Chip} (h : Chip.PointMove R r c d) :
    c.SamePath d := by
  obtain ⟨hp, hc, -⟩ := h.writer
  obtain ⟨_, _, _, rfl⟩ := h.shape
  exact ⟨rfl, rfl, rfl, rfl, rfl, rfl, hp, hc, Nat.le_refl _⟩

theorem Chip.AlarmMove.samePath {c d : Chip} (h : c.AlarmMove d) : c.SamePath d := by
  obtain ⟨hp, hc, -⟩ := h.writer
  obtain ⟨_, _, _, _, _, _, _, rfl⟩ := h.shape
  exact ⟨rfl, rfl, rfl, rfl, rfl, rfl, hp, hc, Nat.le_refl _⟩

/-- A fold of moves that leave the path leaves it. -/
theorem samePath_foldl {α : Type} (f : Chip → α → Chip) (h : ∀ (c : Chip) (a : α), c.SamePath (f c a)) (l : List α) (c : Chip) :
    c.SamePath (l.foldl f c) :=
  kept_foldl (P := c.SamePath) f (fun d a hd => hd.trans (h d a)) l c (.refl c)

/-! ### The reply event -/

/-- A good reply: its steps before the Drift Monitor, the Drift Monitor, and the verdict step. -/
theorem Chip.goodReply_moves (c : Chip) (r : Rec) (st : GoodStatus) (cls : BitVec 3) (analog : BitVec 8) (serial : EventSerial) :
    ∃ d e : Chip, Chip.PointMove (PointRecord.ReplyStep c.plan[r]) r c (d.rederive r) ∧
      Chip.PointMove PointRecord.MonitorStep r (d.rederive r) e ∧ e.AlarmMove (c.goodReply r st cls analog serial) := by
  have hplan {R : PointRecord → PointRecord → Prop} {x y : Chip} (h : Chip.PointMove R r x y) : y.plan = x.plan :=
    h.shape.plan
  have h1 : Chip.PointMove (PointRecord.ReplyStep c.plan[r]) r c (c.modPoint r fun p => p.runsGood st c.seconds) :=
    .modPoint r c _ (.of_same rfl rfl rfl rfl rfl fun ⟨_, _, h3, h4⟩ => ⟨Nat.zero_le _, Nat.zero_le _, h3, h4⟩)
  unfold Chip.goodReply
  dsimp only
  generalize c.modPoint r (fun p => p.runsGood st c.seconds) = c1 at h1 ⊢
  have h2 := c1.presenceGood_move r c.points[r].lastGood c.seconds
  rw [hplan h1] at h2
  replace h2 := h1.trans (fun _ _ _ => .trans) h2
  generalize c1.presenceGood r c.points[r].lastGood c.seconds = c2 at h2 ⊢
  have h3 := c2.serialStep_move r serial c.seconds
  rw [hplan h2] at h3
  replace h3 := h2.trans (fun _ _ _ => .trans) h3
  generalize c2.serialStep r serial c.seconds = c3 at h3 ⊢
  have h4 := c3.classStep_move r cls c.seconds
  rw [hplan h3] at h4
  replace h4 := h3.trans (fun _ _ _ => .trans) h4
  generalize c3.classStep r cls c.seconds = c4 at h4 ⊢
  have h5 := c4.rederive_move r
  rw [hplan h4] at h5
  exact ⟨c4, _, h4.trans (fun _ _ _ => .trans) h5, Chip.driftMonitor_move _ r st analog (c.pointCode r) c.seconds,
    Chip.verdictStep_move _ r st c.seconds⟩

/-- A GARBLED event: its steps before the re-derivation, and the re-derivation. -/
theorem Chip.garbledReply_moves (c : Chip) (r : Rec) : ∃ d : Chip, c.garbledReply r = d.rederive r ∧
    Chip.PointMove (PointRecord.ReplyStep c.plan[r]) r c (d.rederive r) := by
  have h1 : Chip.PointMove (PointRecord.ReplyStep c.plan[r]) r c (c.modPoint r PointRecord.runsGarbled) :=
    .modPoint r c _ (.of_same rfl rfl rfl rfl rfl fun ⟨h1, _, h3, h4⟩ => ⟨h1, Nat.min_le_right _ _, h3, h4⟩)
  have h2 := (c.modPoint r PointRecord.runsGarbled).garbledStep_move r c.points[r].garbledRun c.seconds
  have h3 := ((c.modPoint r PointRecord.runsGarbled).garbledStep r c.points[r].garbledRun c.seconds).rederive_move r
  rw [h2.shape.plan] at h3
  exact ⟨_, rfl, (h1.trans (fun _ _ _ => .trans) h2).trans (fun _ _ _ => .trans) h3⟩

/-- A NOREPLY event: its steps before the re-derivation, and the re-derivation. -/
theorem Chip.noreply_moves (c : Chip) (r : Rec) : ∃ d : Chip, c.noreply r = d.rederive r ∧
    Chip.PointMove (PointRecord.ReplyStep c.plan[r]) r c (d.rederive r) := by
  have h1 : Chip.PointMove (PointRecord.ReplyStep c.plan[r]) r c (c.modPoint r PointRecord.runsNoreply) :=
    .modPoint r c _ (.of_same rfl rfl rfl rfl rfl fun ⟨_, h2, h3, h4⟩ => ⟨Nat.min_le_right _ _, h2, h3, h4⟩)
  have h2 := (c.modPoint r PointRecord.runsNoreply).presenceNoreply_move r c.points[r].noreplyRun c.seconds
  have h3 := ((c.modPoint r PointRecord.runsNoreply).presenceNoreply r c.points[r].noreplyRun c.seconds).rederive_move r
  rw [h2.shape.plan] at h3
  exact ⟨_, rfl, (h1.trans (fun _ _ _ => .trans) h2).trans (fun _ _ _ => .trans) h3⟩

theorem Chip.processReply_samePath (c : Chip) (e : ReplyEvent) : c.SamePath (c.processReply e) := by
  unfold Chip.processReply
  split
  · obtain ⟨d, f, h1, h2, h3⟩ := c.goodReply_moves e.point _ _ _ _
    exact (h1.samePath.trans h2.samePath).trans h3.samePath
  · obtain ⟨d, h, h1⟩ := c.garbledReply_moves e.point
    rw [h]; exact h1.samePath
  · obtain ⟨d, h, h1⟩ := c.noreply_moves e.point
    rw [h]; exact h1.samePath

/-- A silence test: it finds nothing, or the point goes SILENT and is re-derived (R66, R67). -/
theorem Chip.silenceTest_moves (c : Chip) (r : Rec) : c.silenceTest r = c ∨
    ∃ d : Chip, c.silenceTest r = d.rederive r ∧ Chip.PointMove (PointRecord.ReplyStep c.plan[r]) r c (d.rederive r) := by
  unfold Chip.silenceTest
  split
  · have h1 := c.enterSilent_move r c.seconds 2
    have h2 := (c.enterSilent r c.seconds 2).rederive_move r
    rw [h1.shape.plan] at h2
    exact .inr ⟨_, rfl, h1.trans (fun _ _ _ => .trans) h2⟩
  · exact .inl rfl

theorem Chip.silenceTest_samePath (c : Chip) (r : Rec) : c.SamePath (c.silenceTest r) := by
  obtain h | ⟨d, h, h1⟩ := c.silenceTest_moves r
  · rw [h]; exact .refl c
  · rw [h]; exact h1.samePath

/-- A fact that re-derivations, silence tests, the taking of the head event and its processing keep is kept by the reply
event. -/
theorem Chip.takeReply_keeps {P : Chip → Prop} (hred : ∀ c r, P c → P (c.makeRederivation r))
    (hsil : ∀ c r, P c → P (c.makeSilenceTest r))
    (htake : ∀ c e rest, c.intake = e :: rest → P c → P (c.dequeueReply rest))
    (hproc : ∀ c e, P c → P (c.processReply e)) (c : Chip) (hc : P c) : P c.takeReply := by
  unfold Chip.takeReply
  split
  · exact hc
  · rename_i e rest hi
    split
    · exact hc
    · have red (d : Chip) (r : Rec) : (d.makeRederivation r).intake = d.intake := by
        obtain ⟨_, _, h⟩ := d.makeRederivation_shape r
        rw [h]
      have sil (d : Chip) (r : Rec) : (d.makeSilenceTest r).intake = d.intake := by
        unfold Chip.makeSilenceTest
        split
        · obtain ⟨_, _, _, h⟩ := Chip.silenceTest_alter { d with silenceOwed := d.silenceOwed.filter (· != r) } r
          rw [h]
        · rfl
      have owed : P c.makeOwedBeforeReply ∧ c.makeOwedBeforeReply.intake = e :: rest := by
        have h1 : P (c.makeRederivations false) ∧ (c.makeRederivations false).intake = e :: rest :=
          kept_foldl (P := fun d => P d ∧ d.intake = e :: rest) _
            (fun d o h => ⟨hred d o.point h.1, (red d o.point).trans h.2⟩) _ c ⟨hc, hi⟩
        unfold Chip.makeOwedBeforeReply
        dsimp only
        split
        · exact kept_foldl (P := fun d => P d ∧ d.intake = e :: rest) _
            (fun d r h => ⟨hsil d r h.1, (sil d r).trans h.2⟩) _ _ h1
        · exact h1
      exact hproc _ e (htake _ e rest owed.2 owed.1)

/-! ### The end of an access -/

/-- What the DACK at the port can do, by the access that has the port (R10, R17, R22). -/
theorem Chip.accessDone_cases {P : Chip → Prop} (c : Chip) (idle : c.port = none → P c)
    (noHost : c.port = some .host → c.host = none → P { c with port := none })
    (read : ∀ h be, c.port = some .host → c.host = some h → h.request.op = .read be →
      P { c with port := none, host := none, answer := .read (Mem.readWord c.mem (wordBase h.request.addr)) })
    (write : ∀ h w be, c.port = some .host → c.host = some h → h.request.op = .write w be →
      P (Chip.deliver { c with mem := h.request.perform c.mem, port := none, host := none, answer := .written } h.treatment
        w be))
    (internal : ∀ cl q, c.port = some (.internal cl q) →
      P (Chip.handBack { c with mem := q.perform c.mem, port := none, im := { c.im with current := none } } cl
        (q.data c.mem)))
    (orphan : ∀ q, c.port = some (.orphan q) → P { c with mem := q.perform c.mem, port := none })
    (abandoned : ∀ q, c.port = some (.abandonedStatus q) → P { c with port := none }) : P c.accessDone := by
  unfold Chip.accessDone
  split
  · rename_i hp; exact idle hp
  · rename_i hp
    split
    · rename_i h hh
      unfold Chip.hostAccessDone
      split
      · rename_i be ho; exact read h be hp hh ho
      · rename_i w be ho; exact write h w be hp hh ho
    · rename_i hh; exact noHost hp hh
  · rename_i cl q hp; exact internal cl q hp
  · rename_i q hp; exact orphan q hp
  · rename_i q hp; exact abandoned q hp

/-- A block's event at the DACK of a taken write leaves RAM, the port and the host's access alone. -/
@[simp] theorem Chip.deliver_frame (c : Chip) (t : Treatment) (w : Word) (be : BitVec 4) :
    (c.deliver t w be).mem = c.mem ∧ (c.deliver t w be).host = c.host ∧ (c.deliver t w be).port = c.port ∧
    (c.deliver t w be).starve = c.starve := by
  cases t with
  | consumerWrite =>
    simp only [Chip.deliver, Chip.consumerDone]
    cases c.bind with
    | bound b => dsimp only; split <;> simp
    | _ => simp
  | commandWrite =>
    simp only [Chip.deliver, Chip.takeCommand]
    cases c.bind <;> simp
  | replyWrite r =>
    simp only [Chip.deliver, Chip.formReply]
    split <;> simp
  | _ => simp [Chip.deliver, Chip.startCheck, Chip.latchSerial, Chip.malformedReply]

/-- The Binding Unit's event at a DACK leaves the rest of the path alone. -/
theorem Chip.bindingAccessDone_shape (c : Chip) (d : Word) : ∃ b i s n w q, c.bindingAccessDone d =
    { c with bind := b, im := i, seconds := s, refCount := n, writer := w, irqPin := q } := by
  unfold Chip.bindingAccessDone
  split
  · split
    · unfold Chip.descriptorRead
      dsimp only
      repeat' split
      all_goals exact ⟨_, _, _, _, _, _, rfl⟩
    all_goals exact ⟨_, _, _, _, _, _, rfl⟩
  · exact ⟨_, _, _, _, _, _, rfl⟩

/-- The Report Writer's event at a DACK leaves the rest of the path alone. -/
theorem Chip.reportWriteDone_shape (c : Chip) : ∃ w i q, c.reportWriteDone = { c with writer := w, im := i, irqPin := q } := by
  unfold Chip.reportWriteDone
  split
  · dsimp only
    split
    · exact ⟨_, _, _, rfl⟩
    · unfold Chip.publish
      obtain ⟨w, i, h⟩ := Chip.startRecord_shape (Chip.settleIrq
        { c with writer := { c.writer with producer := (c.writer.producer + 1) % _, inHand := none } })
      rw [h]
      exact ⟨_, _, _, rfl⟩
  · exact ⟨_, _, _, rfl⟩

/-- A stage at which the command in hand installs no point of a RESTORE. -/
def CommandStage.installsNothing (g : CommandStage) : Prop := ∀ s, g ≠ .working (.restoreInstall s)

/-- The command in hand and its transfer go on: to a stage that is no install, and that changes the plan only where the stage
before did; the request of the Command Engine goes with them. -/
def Chip.StageMove (c d : Chip) : Prop :=
  ∃ m m' t i, c.command = some m ∧ d = { c with command := some m', transfer := t, im := i } ∧
    m'.stage.installsNothing ∧ (m'.stage.changesPlan = true → m.stage.changesPlan = true)

/-- A completion is such a move; with no binding in force it is nothing. -/
theorem Chip.complete_stageMove (c : Chip) (k : Completion) : c.complete k = c ∨ c.StageMove (c.complete k) := by
  unfold Chip.complete
  split
  · rename_i m b hm hb
    exact .inr ⟨m, { m with stage := .detail k }, c.transfer, _, hm, rfl, fun s => nofun, nofun⟩
  · exact .inl rfl

/-- What a memory access of the Command Engine can do when it finishes: nothing, the next stage, the return to IDLE with its
report, or RESET's unbind (R148, R149, R150, R159). -/
theorem Chip.commandAccessDone_cases (c : Chip) (d : Word) :
    c.commandAccessDone d = c ∨ c.StageMove (c.commandAccessDone d) ∨
    (∃ p x, c.commandAccessDone d = Chip.raise { c with command := none, transfer := none, prepared := p } x ∧
      c.command ≠ none) ∨
    (c.commandAccessDone d = c.unbindByCommand ∧ c.command ≠ none) := by
  unfold Chip.commandAccessDone
  split
  · exact .inl rfl
  · rename_i m hm
    have goes (m' : Command) (t : Option TransferEngine) (i : InternalMaster) (h1 : m'.stage.installsNothing)
        (h2 : m'.stage.changesPlan = true → m.stage.changesPlan = true) :
        c.StageMove { c with command := some m', transfer := t, im := i } := ⟨m, m', t, i, hm, rfl, h1, h2⟩
    have reads (m' : Command) (h : m'.stage = m.stage) : c.readOperand m' = c ∨ c.StageMove (c.readOperand m') := by
      unfold Chip.readOperand
      split
      · exact .inr (goes _ c.transfer _ (fun s => nofun) nofun)
      · exact .inl rfl
    have loose {x : Chip} (h : x = c ∨ c.StageMove x) : x = c ∨ c.StageMove x ∨
        (∃ p r, x = Chip.raise { c with command := none, transfer := none, prepared := p } r ∧ c.command ≠ none) ∨
        (x = c.unbindByCommand ∧ c.command ≠ none) := h.imp id .inl
    split
    case h_1 => exact loose (reads m rfl)
    case h_2 =>
      unfold Chip.operandRead
      dsimp only
      split
      · exact .inr (.inl (goes _ c.transfer c.im (fun s => nofun) nofun))
      · exact loose (reads _ rfl)
    case h_3 a ha =>
      unfold Chip.transferDone
      split
      · exact .inl rfl
      · rename_i t ht
        cases a with
        | read =>
          have hread : m.stage.changesPlan = true := by rw [ha]; rfl
          simp only [Chip.blockWord]
          split
          · refine .inr (.inl (goes { m with stage := .working _ } _ c.im (fun s => ?_) fun _ => hread))
            unfold TransferEngine.judge
            repeat' split
            all_goals simp
          · have stays (t : Option TransferEngine) (i : InternalMaster) : c.StageMove { c with transfer := t, im := i } :=
              ⟨m, m, t, i, hm, by rw [← hm], fun s => by rw [ha]; nofun, id⟩
            exact .inr (.inl (stays _ _))
        | withdraw => exact .inr (.inl (goes _ c.transfer c.im (fun s => nofun) nofun))
        | block i =>
          simp only [Chip.blockWritten]
          split
          · exact .inr (.inl (goes _ _ _ (fun s => nofun) nofun))
          · split
            · exact .inr (.inl (goes _ _ c.im (fun s => nofun) nofun))
            · exact .inr (.inl (goes _ c.transfer c.im (fun s => nofun) nofun))
        | header i =>
          simp only [Chip.headerWritten]
          split
          · exact loose (c.complete_stageMove _)
          · split
            · exact .inr (.inl (goes _ _ _ (fun s => nofun) nofun))
            · exact .inr (.inl (goes _ _ _ (fun s => nofun) nofun))
    case h_4 k _ =>
      unfold Chip.writeResult
      split
      · exact .inr (.inl (goes _ c.transfer _ (fun s => nofun) nofun))
      · exact .inl rfl
    case h_5 k i _ =>
      split
      · unfold Chip.writeResult
        split
        · exact .inr (.inl (goes _ c.transfer _ (fun s => nofun) nofun))
        · exact .inl rfl
      · unfold Chip.writeStatus
        split
        · exact .inr (.inl (goes _ c.transfer _ (fun s => nofun) nofun))
        · exact .inl rfl
    case h_6 k _ =>
      unfold Chip.commandOver
      split
      · exact .inr (.inr (.inr ⟨rfl, by rw [hm]; nofun⟩))
      · exact .inr (.inr (.inl ⟨_, _, rfl, by rw [hm]; nofun⟩))
    case h_7 => exact .inl rfl
    case h_8 => exact .inl rfl

end Sys2Proof.Machine
end

