-- ==== Sys2Proof/Proofs/PathFacts.lean ====
section
/-! SUPPORT. The facts that rest on the memory path, the binding and the pins (O5, and the path's share of O6 and O7): a
block's own move leaves the path, so only the path's moves are left to look at. -/

namespace Sys2Proof.Machine

/-! ### The blocks' own moves leave the path -/

/-- A chip that differs outside the path alone. -/
theorem Chip.SamePath.elsewhere {c d : Chip} (h1 : d.mem = c.mem := by rfl) (h2 : d.host = c.host := by rfl)
    (h3 : d.port = c.port := by rfl) (h4 : d.starve = c.starve := by rfl) (h5 : d.bind = c.bind := by rfl)
    (h6 : d.irqPin = c.irqPin := by rfl) (h7 : d.writer = c.writer := by rfl) (h8 : d.intake = c.intake := by rfl) :
    c.SamePath d := ⟨h1, h2, h3, h4, h5, h6, by rw [h7], by rw [h7], by rw [h8]⟩

theorem Chip.makeRederivation_samePath (c : Chip) (r : Rec) : c.SamePath (c.makeRederivation r) := by
  obtain ⟨_, _, h⟩ := c.makeRederivation_shape r
  rw [h]; exact .elsewhere

theorem Chip.makeSilenceTest_samePath (c : Chip) (r : Rec) : c.SamePath (c.makeSilenceTest r) := by
  unfold Chip.makeSilenceTest
  split
  · exact Chip.SamePath.trans (.elsewhere) (Chip.silenceTest_samePath _ r)
  · exact .refl c

theorem Chip.takeReply_samePath (c : Chip) : c.SamePath c.takeReply :=
  Chip.takeReply_keeps (P := c.SamePath) (fun d r h => h.trans (d.makeRederivation_samePath r))
    (fun d r h => h.trans (d.makeSilenceTest_samePath r))
    (fun d _ rest hi h => h.trans ⟨rfl, rfl, rfl, rfl, rfl, rfl, rfl, rfl, by rw [hi]; exact Nat.le_succ _⟩)
    (fun d e h => h.trans (d.processReply_samePath e)) c (.refl c)

theorem Chip.endSlot_samePath (c : Chip) (k : Fin 4) : c.SamePath (c.endSlot k) := by
  unfold Chip.endSlot
  split
  · split
    · exact Chip.SamePath.trans (.elsewhere) (Chip.raise_samePath _ _)
    · exact .refl c
  · exact .refl c

theorem Chip.clearTest_samePath (c : Chip) (k : Fin 4) (w : WalkSlot) (r : Rec) : c.SamePath (c.clearTest k w r) := by
  have cleared (v : Option WalkSlot) : c.SamePath ((c.setSlot k v).setVerdict r .none) := .elsewhere
  unfold Chip.clearTest
  dsimp only
  split
  · exact ((cleared _).trans (Chip.rederive_move _ r).samePath).trans (Chip.qualify_move _ r _ _).samePath
  · exact cleared _

theorem Chip.sweepSlot_samePath (c : Chip) (k : Fin 4) : c.SamePath (c.sweepSlot k) := by
  unfold Chip.sweepSlot
  split
  · split
    · split
      · exact c.clearTest_samePath k _ _
      · unfold Chip.freeSlot
        have free : c.SamePath (c.setSlot k none) := .elsewhere
        dsimp only
        split
        · split
          · exact free.trans (Chip.complete_work _ _).samePath
          · exact free
        · exact free
    · exact .refl c
  · exact .refl c

theorem Chip.loopConsentEvent_samePath (c : Chip) (l : Loop) (w : Bool) : c.SamePath (c.loopConsentEvent l w) := by
  have owe (d : Chip) : d.SamePath (d.oweRederivations (loopRecords l)) := .elsewhere
  unfold Chip.loopConsentEvent
  dsimp only
  split
  · exact (c.raise_samePath _).trans (owe _)
  · exact owe c

theorem Chip.sampleInput_samePath (c : Chip) (liso : BitVec 4) (l : Loop) : c.SamePath (c.sampleInput liso l) := by
  have filtered (f : Vector Bool 4) (n : Vector Nat 4) : c.SamePath { c with lisoFiltered := f, lisoStable := n } := .elsewhere
  unfold Chip.sampleInput
  dsimp only
  split
  · exact filtered _ _
  · split
    · exact (filtered _ _).trans (Chip.loopConsentEvent_samePath _ l _)
    · exact filtered _ _

theorem Chip.isolateZone_samePath (c : Chip) (z : RealZone) : c.SamePath (c.isolateZone z) := by
  unfold Chip.isolateZone
  split
  · split
    · exact (c.requestEnd_move _ _).samePath
    · exact .refl c
  · exact .refl c

theorem Chip.zoneConsentChange_samePath (c : Chip) (z : RealZone) : c.SamePath (c.zoneConsentChange z) :=
  Chip.SamePath.trans (.elsewhere) (Chip.raise_samePath _ _)

theorem Chip.loadZones_samePath (c : Chip) : c.SamePath c.loadZones := by
  unfold Chip.loadZones
  dsimp only
  have mask : c.SamePath { c with zoneMask := c.shiftRegister } := .elsewhere
  exact ((mask.trans (samePath_foldl _ Chip.zoneConsentChange_samePath _ _)).trans
    (samePath_foldl _ Chip.isolateZone_samePath _ _)).trans (.elsewhere)

theorem Chip.compareSlot_samePath (c : Chip) (k : Fin 4) : c.SamePath (c.compareSlot k) := by
  obtain ⟨_, _, h⟩ := c.compareSlot_shape k
  rw [h]; exact .elsewhere

theorem Chip.tick_samePath (c : Chip) : c.SamePath c.tick := by
  obtain ⟨_, _, _, h⟩ := c.tick_shape
  rw [h]; exact .elsewhere

theorem Chip.countEdge_samePath (c : Chip) : c.SamePath c.countEdge := by
  unfold Chip.countEdge
  split
  · split
    · exact c.tick_samePath
    · exact .elsewhere
  · exact .refl c

theorem Chip.nextTick_samePath (c : Chip) : c.SamePath c.nextTick := by
  unfold Chip.nextTick
  split
  · exact Chip.SamePath.trans (.elsewhere) (Chip.tick_samePath _)
  · exact .refl c

theorem Chip.powerOnRelease_samePath (c : Chip) (liso : BitVec 4) : c.SamePath (c.powerOnRelease liso) := by
  unfold Chip.powerOnRelease
  split
  · exact .elsewhere
  · exact .refl c

/-- A fact that rests on the path is kept by every step when the path's own moves keep it. -/
theorem Kept.ofPath {P : Chip → Prop} (same : ∀ c d, Chip.SamePath c d → P c → P d)
    (releaseHeld : ∀ c, P c → P c.releaseHeld) (arrive : ∀ c q, c.host = none → P c → P (c.arrive q))
    (grant : ∀ c, P c → P c.grant) (accessDone : ∀ c, P c → P c.accessDone)
    (unbindByHostReset : ∀ c, P c → P c.unbindByHostReset) (powerOn : ∀ c, P c → P c.powerOn) : Kept P where
  releaseHeld := releaseHeld
  backlog c _ := same c _ (.elsewhere)
  arrive := arrive
  choose c := same c _ (.elsewhere)
  grant := grant
  accessDone := accessDone
  commandWork c := same c _ c.commandWork_work.samePath
  takeReply c := same c _ c.takeReply_samePath
  makeSilenceTest c r := same c _ (c.makeSilenceTest_samePath r)
  makeRederivation c r := same c _ (c.makeRederivation_samePath r)
  compareSlot c k := same c _ (c.compareSlot_samePath k)
  endSlot c k := same c _ (c.endSlot_samePath k)
  sweepSlot c k := same c _ (c.sweepSlot_samePath k)
  startRecord c := same c _ c.startRecord_samePath
  sampleInput c liso l := same c _ (c.sampleInput_samePath liso l)
  countEdge c := same c _ c.countEdge_samePath
  nextTick c := same c _ c.nextTick_samePath
  loadZones c := same c _ c.loadZones_samePath
  shiftChain c b := same c _ (.elsewhere)
  unbindByHostReset := unbindByHostReset
  dsel c _ := same c _ (.elsewhere)
  hrstLow c _ := same c _ (.elsewhere)
  powerOn := powerOn
  powerOnRelease c liso := same c _ (c.powerOnRelease_samePath liso)

/-! ### RAM -/

/-- A block's event at the DACK of an internal access leaves RAM alone. -/
@[simp] theorem Chip.handBack_mem (c : Chip) (cl : Client) (d : Word) : (c.handBack cl d).mem = c.mem := by
  cases cl with
  | binding => obtain ⟨_, _, _, _, _, _, h⟩ := c.bindingAccessDone_shape d; simp only [Chip.handBack, h]
  | command =>
    simp only [Chip.handBack]
    obtain h | ⟨_, _, _, _, -, h, -, -⟩ | ⟨p, x, h, -⟩ | ⟨h, -⟩ := c.commandAccessDone_cases d
    · rw [h]
    · rw [h]
    · rw [h]; simp
    · rw [h]; rfl
  | report => obtain ⟨_, _, _, h⟩ := c.reportWriteDone_shape; simp only [Chip.handBack, h]

/-- Every access that finishes keeps RAM canonical. -/
theorem Chip.accessDone_memOk (c : Chip) (h : c.MemOk) : c.accessDone.MemOk := by
  apply c.accessDone_cases
  case idle => exact fun _ => h
  case noHost => exact fun _ _ => h
  case read => exact fun _ _ _ _ _ => h
  case write => exact fun a w be _ _ _ => by simpa [Chip.MemOk] using a.request.perform_wf c.mem h
  case internal => exact fun cl q _ => by simpa [Chip.MemOk] using q.perform_wf c.mem h
  case orphan => exact fun q _ => q.perform_wf c.mem h
  case abandoned => exact fun _ _ => h

/-- Settles O5: RAM is written at a DACK alone, and every write keeps the canonical form. -/
theorem memoryStaysCanonical : Obligations.MemoryStaysCanonical :=
  Kept.stepKeeps <| Kept.ofPath (fun c d h hc => by rw [Chip.MemOk, h.mem]; exact hc)
    (fun c hc => by obtain ⟨_, _, h⟩ := c.releaseHeld_shape; rw [h]; exact hc)
    (fun c q _ hc => by obtain ⟨_, _, _, h⟩ := c.arrive_shape q; rw [h]; exact hc)
    (fun c hc => by obtain ⟨_, _, _, h⟩ := c.grant_shape; rw [h]; exact hc)
    Chip.accessDone_memOk (fun _ hc => hc) (fun _ hc => hc)

end Sys2Proof.Machine
end

