-- ==== Sys2Proof/Proofs/PathBounds.lean ====
section
/-! SUPPORT. The Intake Queue's bound, STARVE COUNT and the IRQ line: the facts that rest on the memory path (R11, R18, R55,
R181). -/

namespace Sys2Proof.Machine

/-! ### The Intake Queue (R11, R55) -/

/-- The host has no access at the port. -/
def Chip.NotAtPort (c : Chip) : Prop := ∀ h, c.host = some h → h.stage ≠ .atPort

/-- Where the host has no access at the port the port is another's, and stays so while the host's access stays away. -/
theorem Chip.PortAgrees.away {c d : Chip} (h : c.PortAgrees) (hc : c.NotAtPort) (hd : d.NotAtPort) (hp : d.port = c.port) :
    d.PortAgrees := by
  constructor
  · intro e
    obtain ⟨a, ha, hs⟩ := h.mp (hp ▸ e)
    exact absurd hs (hc a ha)
  · rintro ⟨a, ha, hs⟩
    exact absurd hs (hd a ha)

/-- With another access at the port, or none, the host has none there. -/
theorem Chip.PortAgrees.notAtPort {c : Chip} (h : c.PortAgrees) (hp : c.port ≠ some .host) : c.NotAtPort :=
  fun a ha hs => hp (h.mpr ⟨a, ha, hs⟩)

/-- A port that is not the host's agrees with a host that has no access there. -/
theorem Chip.NotAtPort.portAgrees {c : Chip} (h : c.NotAtPort) (hp : c.port ≠ some .host) : c.PortAgrees :=
  ⟨fun e => absurd e hp, fun ⟨a, ha, hs⟩ => absurd hs (h a ha)⟩

theorem Chip.IntakeBounded.same {c d : Chip} (h : c.SamePath d) (hc : c.IntakeBounded) : d.IntakeBounded := by
  obtain ⟨hp, hq⟩ := hc
  refine ⟨by unfold Chip.PortAgrees; rw [h.port, h.host]; exact hp, ?_⟩
  have e : d.replyOnTheWay = c.replyOnTheWay := by unfold Chip.replyOnTheWay; rw [h.host]
  have := h.intake
  rw [e]; omega

/-- A held reply write is let go when there is room for its event. -/
theorem Chip.IntakeBounded.releaseHeld {c : Chip} (hc : c.IntakeBounded) : c.releaseHeld.IntakeBounded := by
  obtain ⟨hp, hq⟩ := hc
  have gone (q : HostRequest) (t : Treatment) (w : Word) (hh : c.host = some ⟨q, t, .held⟩) :
      Chip.IntakeBounded { c with host := none, answer := .read w } :=
    ⟨hp.away (fun a ha => by rw [hh] at ha; cases ha; nofun) nofun rfl, by
      show c.intake.length + 0 ≤ _; omega⟩
  unfold Chip.releaseHeld
  split
  · rename_i q r hh
    split
    · exact ⟨hp, hq⟩
    · exact gone q _ _ hh
  · rename_i q r hh
    split
    · exact ⟨hp, hq⟩
    · exact gone q _ _ hh
  · rename_i q r hh
    split
    · exact ⟨hp, hq⟩
    · rename_i hf
      refine ⟨hp.away (fun a ha => by rw [hh] at ha; cases ha; nofun) (fun a ha => by cases ha; nofun) rfl, ?_⟩
      show c.intake.length + 1 ≤ _
      simp only [Chip.intakeFull, decide_eq_true_eq] at hf
      omega
  · exact ⟨hp, hq⟩

/-- Where an arrival puts the host's access: nowhere, held, or waiting; a reply write waits only when there is room. -/
theorem Chip.arrive_host (c : Chip) (q : HostRequest) : (c.arrive q).host = none ∨
    ∃ t g, (c.arrive q).host = some ⟨q, t, g⟩ ∧ t = c.classify q ∧ g ≠ .atPort ∧
      (∀ r, t = .replyWrite r → g ≠ .held → c.intakeFull = false) := by
  unfold Chip.arrive
  cases ht : c.classify q with
  | replyWrite r =>
    refine .inr ⟨_, _, rfl, rfl, ?_, fun _ _ hg => ?_⟩
    · split <;> nofun
    · cases hf : c.intakeFull with
      | false => rfl
      | true => exact absurd (if_pos hf) hg
  | verdictRead r | planRead r =>
    unfold Chip.treat Chip.overlayRead
    dsimp only
    split
    · exact .inr ⟨_, _, rfl, rfl, nofun, fun _ h => nomatch h⟩
    · exact .inl rfl
  | swallowed | overrun => exact .inl rfl
  | _ => exact .inr ⟨_, _, rfl, rfl, nofun, fun _ h => nomatch h⟩

theorem Chip.IntakeBounded.arrive {c : Chip} (q : HostRequest) (hn : c.host = none) (hc : c.IntakeBounded) :
    (c.arrive q).IntakeBounded := by
  obtain ⟨hp, hq⟩ := hc
  have hport : (c.arrive q).port = c.port := by obtain ⟨_, _, _, e⟩ := c.arrive_shape q; rw [e]
  have hin : (c.arrive q).intake = c.intake := by obtain ⟨_, _, _, e⟩ := c.arrive_shape q; rw [e]
  have away : c.NotAtPort := fun a ha => by rw [hn] at ha; cases ha
  rw [Chip.IntakeBounded, hin]
  obtain h | ⟨t, g, h, -, hg, hroom⟩ := c.arrive_host q
  · refine ⟨hp.away away (fun a ha => by rw [h] at ha; cases ha) hport, ?_⟩
    simp only [Chip.replyOnTheWay, h]
    exact Nat.le_trans (Nat.add_le_add_left (Nat.zero_le _) _) hq
  · refine ⟨hp.away away (fun a ha => by rw [h] at ha; cases ha; exact hg) hport, ?_⟩
    simp only [Chip.replyOnTheWay, h]
    split
    · rename_i r
      by_cases hheld : g = .held
      · rw [hheld]; exact Nat.le_trans (Nat.add_le_add_left (Nat.zero_le _) _) hq
      · have := hroom _ rfl hheld
        simp only [Chip.intakeFull, decide_eq_false_iff_not] at this
        have := Bool.toNat_le (g != .held)
        omega
    · exact Nat.le_trans (Nat.add_le_add_left (Nat.zero_le _) _) hq

/-- A grant: nothing, the host's waiting access, or the Internal Master's request at a free port (R18). -/
theorem Chip.grant_cases (c : Chip) : c.grant = c ∨
    (c.port = none ∧ ∃ h n, c.host = some h ∧ h.stage = .waiting ∧ c.grant = c.grantHost n ∧
      (n = c.starve ∨ (n = c.starve + 1 ∧ c.starve < Config.starveLimit))) ∨
    (c.port = none ∧ ∃ cl q, c.im.current = some (cl, q) ∧ c.grant = { c with port := some (.internal cl q), starve := 0 }) := by
  have internal (h : c.grantInternal = c.grant) (hp : c.port = none) : c.grant = c ∨
      (c.port = none ∧ ∃ cl q, c.im.current = some (cl, q) ∧
        c.grant = { c with port := some (.internal cl q), starve := 0 }) := by
    rw [← h, Chip.grantInternal]
    split
    · rename_i cl q hi; exact .inr ⟨hp, cl, q, hi, rfl⟩
    · exact .inl rfl
  unfold Chip.grant at internal ⊢
  split
  · exact .inl rfl
  · rename_i hp
    rw [Option.not_isSome_iff_eq_none] at hp
    rw [if_neg (by rw [hp]; nofun)] at internal
    split
    · rename_i hw
      rw [if_pos hw] at internal
      have waiting : ∃ h, c.host = some h ∧ h.stage = .waiting := by
        unfold Chip.hostWaiting at hw
        split at hw
        · rename_i h hh; exact ⟨h, hh, by simpa using hw⟩
        · cases hw
      obtain ⟨h, hh, hs⟩ := waiting
      split
      · rename_i hi
        rw [if_pos hi] at internal
        split
        · rename_i hlt; exact .inr (.inl ⟨hp, h, _, hh, hs, rfl, .inr ⟨rfl, hlt⟩⟩)
        · rename_i hlt
          rw [if_neg hlt] at internal
          exact (internal rfl hp).imp id .inr
      · exact .inr (.inl ⟨hp, h, _, hh, hs, rfl, .inl rfl⟩)
    · rename_i hw
      rw [if_neg hw] at internal
      exact (internal rfl hp).imp id .inr

theorem Chip.IntakeBounded.grant {c : Chip} (hc : c.IntakeBounded) : c.grant.IntakeBounded := by
  obtain h | ⟨hp, h, n, hh, hs, hg, -⟩ | ⟨hp, cl, q, -, hg⟩ := c.grant_cases
  · rw [h]; exact hc
  · rw [hg]
    simp only [Chip.grantHost, hh]
    refine ⟨⟨fun _ => ⟨_, rfl, rfl⟩, fun _ => rfl⟩, ?_⟩
    have := hc.2
    simp only [Chip.replyOnTheWay, hh, hs] at this ⊢
    cases ht : h.treatment <;> rw [ht] at this <;> exact this
  · rw [hg]
    have away : Chip.NotAtPort { c with port := some (.internal cl q), starve := 0 } := hc.1.notAtPort (by rw [hp]; nofun)
    exact ⟨away.portAgrees (by simp), hc.2⟩

/-- The Intake Queue after a taken write: a reply write brings one event, no other write any. -/
theorem Chip.deliver_intake (c : Chip) (t : Treatment) (w : Word) (be : BitVec 4) :
    (c.deliver t w be).intake.length ≤ c.intake.length + (match t with | .replyWrite _ => 1 | _ => 0) := by
  cases t with
  | consumerWrite =>
    simp only [Chip.deliver, Chip.consumerDone]
    cases c.bind with
    | bound b => dsimp only; split <;> simp
    | _ => simp
  | commandWrite =>
    simp only [Chip.deliver, Chip.takeCommand]
    cases c.bind <;> simp
  | replyWrite r =>
    simp only [Chip.deliver, Chip.formReply]
    split <;> simp
  | _ => simp [Chip.deliver, Chip.startCheck, Chip.latchSerial, Chip.malformedReply]

theorem Chip.unbindBlocks_intake (c : Chip) : c.unbindBlocks.intake = [] := rfl

/-- An access orphaned is the host's exactly when it was. -/
theorem PortAccess.orphaned_eq_host (p : PortAccess) (b : Bool) : p.orphaned b = PortAccess.host ↔ p = PortAccess.host := by
  cases p with
  | internal cl q => cases cl <;> cases b <;> simp [PortAccess.orphaned]
  | _ => simp [PortAccess.orphaned]

/-- The same of the port. -/
theorem map_orphaned_eq_host (p : Option PortAccess) (b : Bool) :
    p.map (PortAccess.orphaned b) = some PortAccess.host ↔ p = some PortAccess.host := by
  cases p with
  | none => simp
  | some p => simpa using p.orphaned_eq_host b

/-- A chip whose host's access was untaken or given up in place, and whose Intake Queue is empty, with the port as it was for
the host, is within the bound. -/
theorem Chip.IntakeBounded.untaken {c d : Chip} (hp : c.PortAgrees)
    (hport : d.port = some PortAccess.host ↔ c.port = some PortAccess.host)
    (hhost : ∀ h, d.host = some h → ∃ a, c.host = some a ∧ h.treatment = .passed ∧ (h.stage = .atPort ↔ a.stage = .atPort))
    (hkeep : ∀ a, c.host = some a → a.stage = .atPort → ∃ h, d.host = some h ∧ h.stage = .atPort)
    (hi : d.intake = []) : d.IntakeBounded := by
  constructor
  · rw [Chip.PortAgrees, hport]
    refine Iff.trans hp ?_
    constructor
    · rintro ⟨a, ha, hs⟩
      exact hkeep a ha hs
    · rintro ⟨h, hh, hs⟩
      obtain ⟨a, ha, -, hst⟩ := hhost h hh
      exact ⟨a, ha, hst.mp hs⟩
  · have : d.replyOnTheWay = false := by
      unfold Chip.replyOnTheWay
      split
      · rename_i h hh
        obtain ⟨a, -, ht, -⟩ := hhost h hh
        rw [ht]
      · rfl
    rw [this, hi]
    exact Nat.zero_le _

theorem Chip.IntakeBounded.unbindByCommand {c : Chip} (hp : c.PortAgrees) : c.unbindByCommand.IntakeBounded := by
  refine .untaken hp (map_orphaned_eq_host _ _) (fun h hh => ?_) (fun a ha hs => ?_) rfl
  · obtain ⟨a, ha, rfl⟩ := Option.map_eq_some_iff.mp (hh : c.host.map _ = some h)
    refine ⟨a, ha, ?_⟩
    split
    · rename_i hs; rw [hs]; exact ⟨rfl, by simp⟩
    · exact ⟨rfl, Iff.rfl⟩
  · refine ⟨a.untaken, ?_, hs⟩
    show c.host.map _ = _
    rw [ha]
    simp [hs]

theorem Chip.IntakeBounded.unbindByHostReset {c : Chip} (hp : c.PortAgrees) : c.unbindByHostReset.IntakeBounded := by
  have host : c.unbindByHostReset.host = match c.host with
    | some h => if h.stage = .held then none else some h.untaken
    | none => none := rfl
  refine .untaken hp (map_orphaned_eq_host _ _) (fun h hh => ?_) (fun a ha hs => ?_) rfl
  · rw [host] at hh
    split at hh
    · rename_i a ha
      split at hh
      · cases hh
      · cases hh
        exact ⟨a, ha, rfl, Iff.rfl⟩
    · cases hh
  · exact ⟨a.untaken, by rw [host, ha]; simp [hs], hs⟩

/-- What a block does at the DACK of an internal access leaves the bound, RESET's unbind with it. -/
theorem Chip.IntakeBounded.handBack {c : Chip} (cl : Client) (d : Word) (hc : c.IntakeBounded) :
    (c.handBack cl d).IntakeBounded := by
  cases cl with
  | binding => obtain ⟨_, _, _, _, _, _, h⟩ := c.bindingAccessDone_shape d; simp only [Chip.handBack, h]; exact hc
  | command =>
    simp only [Chip.handBack]
    obtain h | ⟨_, _, _, _, -, h, -, -⟩ | ⟨p, x, h, -⟩ | ⟨h, -⟩ := c.commandAccessDone_cases d
    · rw [h]; exact hc
    · rw [h]; exact hc
    · rw [h]
      exact Chip.IntakeBounded.same (Chip.raise_samePath _ x) hc
    · rw [h]; exact .unbindByCommand hc.1
  | report => obtain ⟨_, _, _, h⟩ := c.reportWriteDone_shape; simp only [Chip.handBack, h]; exact hc

/-- With the access at the port gone, the port free and the host's access elsewhere, what is left is within the bound. -/
theorem Chip.IntakeBounded.freed {c d : Chip} (hc : c.IntakeBounded) (hn : c.port ≠ some PortAccess.host) (hp : d.port = none)
    (hh : d.host = c.host) (hi : d.intake = c.intake) : d.IntakeBounded := by
  have away : d.NotAtPort := by unfold Chip.NotAtPort; rw [hh]; exact hc.1.notAtPort hn
  refine ⟨away.portAgrees (by rw [hp]; nofun), ?_⟩
  have := hc.2
  unfold Chip.replyOnTheWay at this ⊢
  rw [hh, hi]; exact this

theorem Chip.IntakeBounded.accessDone {c : Chip} (hc : c.IntakeBounded) : c.accessDone.IntakeBounded := by
  have empty (d : Chip) (hp : d.port = none) (hh : d.host = none) (hi : d.intake.length ≤ Config.intakeLimit) :
      d.IntakeBounded := by
    refine ⟨Chip.NotAtPort.portAgrees (fun a ha => by rw [hh] at ha; cases ha) (by rw [hp]; nofun), ?_⟩
    simpa [Chip.replyOnTheWay, hh] using hi
  have hlen : c.intake.length ≤ Config.intakeLimit := Nat.le_trans (Nat.le_add_right _ _) hc.2
  apply c.accessDone_cases
  case idle => exact fun _ => hc
  case noHost => exact fun _ hh => empty _ rfl hh hlen
  case read => exact fun _ _ _ _ _ => empty _ rfl rfl hlen
  case write =>
    intro h w be hp hh _
    refine empty _ (by simp) (by simp) (Nat.le_trans (Chip.deliver_intake _ h.treatment w be) ?_)
    have hb := hc.2
    obtain ⟨a, ha, hs⟩ := hc.1.mp hp
    rw [hh] at ha
    cases ha
    simp only [Chip.replyOnTheWay, hh, hs] at hb
    cases ht : h.treatment <;> rw [ht] at hb <;> exact hb
  case internal =>
    intro cl q hp
    exact .handBack cl _ (hc.freed (by rw [hp]; simp) rfl rfl rfl)
  case orphan => exact fun q hp => hc.freed (by rw [hp]; simp) rfl rfl rfl
  case abandoned => exact fun q hp => hc.freed (by rw [hp]; simp) rfl rfl rfl

/-- The power-on values are within the bound. -/
theorem Chip.IntakeBounded.powerOn (c : Chip) : c.powerOn.IntakeBounded := by
  refine ⟨Chip.NotAtPort.portAgrees (fun a ha => by cases ha) (by nofun), Nat.zero_le _⟩

theorem intakeBounded_kept : Kept Chip.IntakeBounded :=
  .ofPath (fun _ _ => .same) (fun _ => .releaseHeld) (fun _ => .arrive) (fun _ => .grant) (fun _ => .accessDone)
    (fun _ hc => .unbindByHostReset hc.1) (fun c _ => .powerOn c)

/-! ### STARVE COUNT (R18) -/

/-- What a block does at a DACK leaves STARVE COUNT, or an unbinding sets it to 0. -/
theorem Chip.handBack_starve (c : Chip) (cl : Client) (d : Word) :
    (c.handBack cl d).starve = c.starve ∨ (c.handBack cl d).starve = 0 := by
  cases cl with
  | binding =>
    obtain ⟨_, _, _, _, _, _, h⟩ := c.bindingAccessDone_shape d
    rw [show c.handBack .binding d = c.bindingAccessDone d from rfl, h]; exact .inl rfl
  | command =>
    simp only [Chip.handBack]
    obtain h | ⟨_, _, _, _, -, h, -, -⟩ | ⟨p, x, h, -⟩ | ⟨h, -⟩ := c.commandAccessDone_cases d
    · rw [h]; exact .inl rfl
    · rw [h]; exact .inl rfl
    · rw [h]; exact .inl (by simp)
    · rw [h]; exact .inr rfl
  | report =>
    obtain ⟨_, _, _, h⟩ := c.reportWriteDone_shape
    rw [show c.handBack .report d = c.reportWriteDone from rfl, h]; exact .inl rfl

/-- So does an access's end. -/
theorem Chip.accessDone_starve (c : Chip) : c.accessDone.starve = c.starve ∨ c.accessDone.starve = 0 := by
  apply c.accessDone_cases (P := fun d => d.starve = c.starve ∨ d.starve = 0)
  case idle => exact fun _ => .inl rfl
  case noHost => exact fun _ _ => .inl rfl
  case read => exact fun _ _ _ _ _ => .inl rfl
  case write => exact fun _ _ _ _ _ _ => .inl (by simp)
  case internal => exact fun cl q _ => Chip.handBack_starve _ cl _
  case orphan => exact fun _ _ => .inl rfl
  case abandoned => exact fun _ _ => .inl rfl

theorem starveBounded_kept : Kept Chip.StarveBounded := by
  refine .ofPath (fun c d h hc => by rw [Chip.StarveBounded, h.starve]; exact hc) (fun c hc => ?_) (fun c q _ hc => ?_)
    (fun c hc => ?_) (fun c hc => ?_) (fun _ _ => Nat.zero_le _) (fun _ _ => Nat.zero_le _)
  · obtain ⟨_, _, h⟩ := c.releaseHeld_shape; rw [h]; exact hc
  · obtain ⟨_, _, _, h⟩ := c.arrive_shape q; rw [h]; exact hc
  · obtain h | ⟨-, h, n, hh, -, hg, hn⟩ | ⟨-, cl, q, -, hg⟩ := c.grant_cases
    · rw [h]; exact hc
    · rw [hg]
      simp only [Chip.grantHost, hh, Chip.StarveBounded]
      obtain rfl | ⟨rfl, hlt⟩ := hn
      · exact hc
      · exact hlt
    · rw [hg]; exact Nat.zero_le _
  · rw [Chip.StarveBounded]
    obtain h | h := c.accessDone_starve <;> rw [h]
    · exact hc
    · exact Nat.zero_le _

/-! ### The IRQ line (R181) -/

/-- A host access, and the trigger it may be, under moves that leave the binding or end it. -/
theorem Chip.TriggerRight.of_host {c d : Chip} (hc : c.TriggerRight) (hb : d.bind = c.bind)
    (hh : ∀ a, d.host = some a → ∀ l, a.treatment = .trigger l → ∃ b, c.host = some b ∧ b.treatment = .trigger l) :
    d.TriggerRight := by
  intro a l ha ht
  obtain ⟨b, h1, h2⟩ := hh a ha l ht
  rw [hb]
  exact hc b l h1 h2

/-- While the part is not UNBOUND no trigger is in flight, whatever becomes of the binding. -/
theorem Chip.TriggerRight.of_not_unbound {c d : Chip} (hc : c.TriggerRight) (hn : c.bind ≠ .unbound) (hh : d.host = c.host) :
    d.TriggerRight := by
  intro a l ha ht
  rw [hh] at ha
  exact absurd (hc a l ha ht) hn

theorem Chip.TriggerRight.noHost {d : Chip} (h : d.host = none) : d.TriggerRight := by
  intro a l ha
  rw [h] at ha; cases ha

theorem Chip.TriggerRight.unbound {d : Chip} (h : d.bind = .unbound) : d.TriggerRight := fun _ _ _ _ => h

/-- A trigger is formed by an arrival at an UNBOUND part alone (R1, R23). -/
theorem Chip.classify_trigger (c : Chip) (q : HostRequest) (l : BitVec 3) (h : c.classify q = .trigger l) :
    c.bind = .unbound := by
  unfold Chip.classify at h
  split at h
  · rename_i hb; exact hb
  · cases h
  · rename_i b hb
    exfalso
    split at h
    · revert h
      cases b.window (wordBase q.addr) with
      | point r w => unfold Window.treatRead; split <;> nofun
      | _ => nofun
    · revert h
      unfold Window.treatWrite treatReply
      repeat' split
      all_goals nofun

theorem Chip.TriggerRight.arrive {c : Chip} (q : HostRequest) : (c.arrive q).TriggerRight := by
  intro a l ha ht
  have hb : (c.arrive q).bind = c.bind := by obtain ⟨_, _, _, e⟩ := c.arrive_shape q; rw [e]
  rw [hb]
  obtain h | ⟨t, g, h, htc, -, -⟩ := c.arrive_host q
  · rw [h] at ha; cases ha
  · rw [h] at ha
    cases ha
    exact c.classify_trigger q l (htc.symm.trans ht)

theorem Chip.TriggerRight.releaseHeld {c : Chip} (hc : c.TriggerRight) : c.releaseHeld.TriggerRight := by
  unfold Chip.releaseHeld
  split
  · split
    · exact hc
    · exact .noHost rfl
  · split
    · exact hc
    · exact .noHost rfl
  · split
    · exact hc
    · intro a l ha ht; cases ha; cases ht
  · exact hc

theorem Chip.TriggerRight.grant {c : Chip} (hc : c.TriggerRight) : c.grant.TriggerRight := by
  obtain h | ⟨-, h, n, hh, -, hg, -⟩ | ⟨-, cl, q, -, hg⟩ := c.grant_cases
  · rw [h]; exact hc
  · rw [hg]
    simp only [Chip.grantHost, hh]
    intro a l ha ht
    cases ha
    exact hc h l hh ht
  · rw [hg]; exact hc

/-- The Binding Unit's event at a DACK happens while the part is CHECKING, or is nothing. -/
theorem Chip.bindingAccessDone_idle (c : Chip) (d : Word) (h : ∀ k, c.bind ≠ .checking k) : c.bindingAccessDone d = c := by
  unfold Chip.bindingAccessDone
  split
  · rename_i k hk; exact absurd hk (h k)
  · rfl

/-- IRQ is settled, or nothing that it looks at has changed. -/
theorem Chip.irqLevel_congr {c d : Chip} (hb : d.bind = c.bind) (hp : d.writer.producer = c.writer.producer)
    (hk : d.writer.consumer = c.writer.consumer) : d.irqLevel = c.irqLevel := by
  unfold Chip.irqLevel
  rw [hb, hp, hk]

theorem Chip.irqLevel_unbound {c : Chip} (h : ∀ b, c.bind ≠ .bound b) : c.irqLevel = false := by
  unfold Chip.irqLevel
  split
  · rename_i b hb; exact absurd hb (h b)
  · rfl

theorem Chip.IrqRight.same {c d : Chip} (h : c.SamePath d) (hc : c.IrqRight) : d.IrqRight := by
  obtain ⟨ht, hi⟩ := hc
  refine ⟨ht.of_host h.bind fun a ha l hl => ⟨a, by rw [← h.host]; exact ha, hl⟩, ?_⟩
  rw [h.irqPin, hi, Chip.irqLevel_congr h.bind h.producer h.consumer]

/-- After IRQ is settled and a record is started the line is right. -/
theorem Chip.irq_settled (c : Chip) : (c.settleIrq.startRecord).irqPin = (c.settleIrq.startRecord).irqLevel := by
  have h := c.settleIrq.startRecord_samePath
  rw [h.irqPin, Chip.irqLevel_congr h.bind h.producer h.consumer]
  rfl

theorem Chip.bindingAccessDone_irq (c : Chip) (d : Word) (hc : c.IrqRight) : (c.bindingAccessDone d).IrqRight := by
  by_cases h : ∃ k, c.bind = .checking k
  · obtain ⟨k, hk⟩ := h
    have hlow : c.irqPin = false := hc.2.trans (Chip.irqLevel_unbound fun b => by rw [hk]; nofun)
    refine ⟨hc.1.of_not_unbound (by rw [hk]; nofun) ?_, ?_⟩
    · obtain ⟨_, _, _, _, _, _, e⟩ := c.bindingAccessDone_shape d; rw [e]
    · have checking (k' : Check) (i : InternalMaster) :
          Chip.irqPin { c with bind := .checking k', im := i } = Chip.irqLevel { c with bind := .checking k', im := i } := hlow
      unfold Chip.bindingAccessDone
      rw [hk]
      dsimp only
      split
      · unfold Chip.descriptorRead
        dsimp only
        repeat' split
        all_goals exact checking _ _
      · exact hlow
      · exact checking _ _
      · rfl
  · rw [c.bindingAccessDone_idle d fun k hk => h ⟨k, hk⟩]; exact hc

/-- What a taken write does keeps the line right: CONSUMER settles it, a trigger meets an UNBOUND part. -/
theorem Chip.deliver_irq (c : Chip) (t : Treatment) (w : Word) (be : BitVec 4) (hn : c.host = none)
    (ht : ∀ l, t = .trigger l → c.bind = .unbound) (hi : c.irqPin = c.irqLevel) : (c.deliver t w be).IrqRight := by
  refine ⟨.noHost (by simp [hn]), ?_⟩
  cases t with
  | trigger l =>
    have hlow : c.irqPin = false := hi.trans (Chip.irqLevel_unbound fun b => by rw [ht l rfl]; nofun)
    exact hlow
  | consumerWrite =>
    simp only [Chip.deliver, Chip.consumerDone]
    split
    · split
      · exact Chip.irq_settled _
      · exact hi
    · exact hi
  | commandWrite =>
    simp only [Chip.deliver, Chip.takeCommand]
    split <;> exact hi
  | replyWrite r =>
    simp only [Chip.deliver, Chip.formReply]
    split <;> exact hi
  | malformedWrite r =>
    have before : Chip.IrqRight ({ c with latch := none }.modPoint r fun p => p.latch .badWrite) := ⟨.noHost hn, hi⟩
    exact (before.same (Chip.raise_samePath _ _)).2
  | _ => exact hi

/-- The unbinding leaves the line low and the part UNBOUND. -/
theorem Chip.IrqRight.of_unbound {d : Chip} (hb : d.bind = .unbound) (hi : d.irqPin = false) : d.IrqRight :=
  ⟨.unbound hb, hi.trans (Chip.irqLevel_unbound fun b => by rw [hb]; nofun).symm⟩

theorem Chip.reportWriteDone_irq (c : Chip) (hc : c.IrqRight) : c.reportWriteDone.IrqRight := by
  refine ⟨hc.1.of_host ?_ fun a ha l hl => ⟨a, ?_, hl⟩, ?_⟩
  · obtain ⟨_, _, _, h⟩ := c.reportWriteDone_shape; rw [h]
  · obtain ⟨_, _, _, h⟩ := c.reportWriteDone_shape; rw [h] at ha; exact ha
  · unfold Chip.reportWriteDone
    split
    · dsimp only
      split
      · exact hc.2
      · exact Chip.irq_settled _
    · exact hc.2

theorem Chip.handBack_irq (c : Chip) (cl : Client) (d : Word) (hc : c.IrqRight) : (c.handBack cl d).IrqRight := by
  cases cl with
  | binding => exact c.bindingAccessDone_irq d hc
  | command =>
    simp only [Chip.handBack]
    obtain h | ⟨_, _, _, _, -, h, -, -⟩ | ⟨p, x, h, -⟩ | ⟨h, -⟩ := c.commandAccessDone_cases d
    · rw [h]; exact hc
    · rw [h]; exact hc
    · rw [h]
      exact Chip.IrqRight.same (Chip.raise_samePath _ x) hc
    · rw [h]; exact .of_unbound rfl rfl
  | report => exact c.reportWriteDone_irq hc

theorem Chip.accessDone_irq (c : Chip) (hc : c.IrqRight) : c.accessDone.IrqRight := by
  obtain ⟨ht, hi⟩ := hc
  apply c.accessDone_cases
  case idle => exact fun _ => ⟨ht, hi⟩
  case noHost => exact fun _ _ => ⟨ht, hi⟩
  case read => exact fun _ _ _ _ _ => ⟨.noHost rfl, hi⟩
  case write => exact fun h w be _ hh _ => Chip.deliver_irq _ _ _ _ rfl (fun l e => ht h l hh e) hi
  case internal => exact fun cl q _ => Chip.handBack_irq _ cl _ ⟨ht, hi⟩
  case orphan => exact fun _ _ => ⟨ht, hi⟩
  case abandoned => exact fun _ _ => ⟨ht, hi⟩

theorem irqRight_kept : Kept Chip.IrqRight := by
  refine .ofPath (fun _ _ => .same) (fun c hc => ⟨hc.1.releaseHeld, ?_⟩) (fun c q _ hc => ⟨.arrive q, ?_⟩)
    (fun c hc => ⟨hc.1.grant, ?_⟩) Chip.accessDone_irq (fun _ _ => .of_unbound rfl rfl) (fun _ _ => .of_unbound rfl rfl)
  · obtain ⟨_, _, h⟩ := c.releaseHeld_shape; rw [h]; exact hc.2
  · obtain ⟨_, _, _, h⟩ := c.arrive_shape q; rw [h]; exact hc.2
  · obtain ⟨_, _, _, h⟩ := c.grant_shape; rw [h]; exact hc.2

end Sys2Proof.Machine
end

