-- ==== Sys2Proof/Proofs/BlockFacts.lean ====
section
/-! SUPPORT. What every move of the blocks does to the facts that rest on the blocks alone: the pending queue, the hit lists,
the FIRE count, the Zone Table, the walk slots, the binding and the points (R11, R56, R59, R95, R123, R126, R127, R178). -/

namespace Sys2Proof.Machine

/-- From one chip to another, each fact about the blocks passes on. -/
structure Chip.BlockStep (c d : Chip) : Prop where
  queue : c.QueueBounded → d.QueueBounded
  hits : c.HitsBounded → d.HitsBounded
  fires : c.FireRight → d.FireRight
  zones : c.ZonesFollowMask → d.ZonesFollowMask
  slots : c.SlotsLinked → d.SlotsLinked
  binding : c.BindingLegal → d.BindingLegal
  points : c.PointsConsistent → d.PointsConsistent
  ranges : c.PointsInRange → d.PointsInRange

theorem Chip.BlockStep.refl (c : Chip) : c.BlockStep c := ⟨id, id, id, id, id, id, id, id⟩

theorem Chip.BlockStep.trans {c d e : Chip} (h : c.BlockStep d) (g : d.BlockStep e) : c.BlockStep e :=
  ⟨g.queue ∘ h.queue, g.hits ∘ h.hits, g.fires ∘ h.fires, g.zones ∘ h.zones, g.slots ∘ h.slots, g.binding ∘ h.binding,
    g.points ∘ h.points, g.ranges ∘ h.ranges⟩

/-- A fold of such moves is one. -/
theorem blockStep_foldl {α : Type} (f : Chip → α → Chip) (h : ∀ (c : Chip) (a : α), c.BlockStep (f c a)) (l : List α) (c : Chip) :
    c.BlockStep (l.foldl f c) :=
  kept_foldl (P := c.BlockStep) f (fun d a hd => hd.trans (h d a)) l c (.refl c)

/-! ### Moves outside these tables -/

/-- The tables the facts about the blocks rest on are another chip's, and the pending queue keeps its bound. -/
structure Chip.SameBlocks (c d : Chip) : Prop where
  bind : d.bind = c.bind := by rfl
  plan : d.plan = c.plan := by rfl
  points : d.points = c.points := by rfl
  zones : d.zones = c.zones := by rfl
  zoneMask : d.zoneMask = c.zoneMask := by rfl
  fireCount : d.fireCount = c.fireCount := by rfl
  firePin : d.firePin = c.firePin := by rfl
  slots : d.slots = c.slots := by rfl
  command : d.command = c.command := by rfl
  transfer : d.transfer = c.transfer := by rfl
  queue : c.QueueBounded → d.QueueBounded := by exact id

theorem Chip.SameBlocks.step {c d : Chip} (h : c.SameBlocks d) : c.BlockStep d where
  queue := h.queue
  hits hc := by unfold Chip.HitsBounded; rw [h.slots]; exact hc
  fires hc := by unfold Chip.FireRight Chip.fires; rw [h.points, h.fireCount, h.firePin]; exact hc
  zones hc := by unfold Chip.ZonesFollowMask; rw [h.zones, h.zoneMask]; exact hc
  slots hc := by unfold Chip.SlotsLinked; rw [h.zones, h.slots]; exact hc
  binding hc := by unfold Chip.BindingLegal; rw [h.bind]; exact hc
  points hc := by
    unfold Chip.PointsConsistent Chip.RestoreChecked
    rw [h.points, h.plan, h.command, h.transfer]; exact hc
  ranges hc := by unfold Chip.PointsInRange; rw [h.points]; exact hc

theorem Chip.raise_step (c : Chip) (x : Report) : c.BlockStep (c.raise x) :=
  Chip.SameBlocks.step (by
    obtain ⟨-, -, hq⟩ := c.raise_writer x
    exact { bind := by simp, plan := by simp, points := by simp, zones := by simp, zoneMask := by simp, fireCount := by simp,
            firePin := by simp, slots := by simp, command := by simp, transfer := by simp, queue := hq })

theorem Chip.startRecord_step (c : Chip) : c.BlockStep c.startRecord :=
  Chip.SameBlocks.step (by
    obtain ⟨-, -, hq⟩ := c.startRecord_writer
    exact { bind := by simp, plan := by simp, points := by simp, zones := by simp, zoneMask := by simp, fireCount := by simp,
            firePin := by simp, slots := by simp, command := by simp, transfer := by simp, queue := hq.trans })

/-! ### Points -/

theorem Chip.PointMove.blockStep {r : Rec} {c d : Chip} (h : Chip.PointMove (PointRecord.ReplyStep c.plan[r]) r c d) :
    c.BlockStep d := by
  obtain ⟨hshape, hothers, hstep, -, -, hqueue⟩ := h
  have each {Q : Rec → PointRecord → Prop} (hQ : Q r c.points[r] → Q r d.points[r]) (hc : ∀ i : Rec, Q i c.points[i])
      (i : Rec) : Q i d.points[i] := by
    by_cases hi : i = r
    · subst hi; exact hQ (hc _)
    · rw [hothers i hi]; exact hc i
  have verdicts (i : Rec) : d.points[i].verdict = c.points[i].verdict := by
    by_cases hi : i = r
    · subst hi; exact hstep.verdict
    · rw [hothers i hi]
  obtain ⟨p, w, i, rfl⟩ := hshape
  exact ⟨hqueue, id, fun hc => hc.of_verdicts verdicts rfl rfl, id, id, id,
    fun hc => ⟨hc.1, each (Q := fun i q => q.Facts c.plan[i]) hstep.facts hc.2⟩,
    each (Q := fun _ q => q.InRange) hstep.inRange⟩

theorem Chip.rederive_step (c : Chip) (r : Rec) : c.BlockStep (c.rederive r) := (c.rederive_move r).blockStep

/-- A point changed as a step of a reply event may change it. -/
theorem Chip.modPoint_step (c : Chip) (r : Rec) (f : PointRecord → PointRecord)
    (h : c.points[r].ReplyStep c.plan[r] (f c.points[r])) : c.BlockStep (c.modPoint r f) :=
  (Chip.PointMove.modPoint r c f h).blockStep

theorem SlotStep.hits {s t : Option WalkSlot} (h : SlotStep s t) (hs : ∀ w, s = some w → w.hits.length ≤ Config.hitListLimit)
    (w : WalkSlot) (ht : t = some w) : w.hits.length ≤ Config.hitListLimit := by
  obtain ⟨-, h⟩ | ⟨v, u, h1, h2, -, -, hh⟩ := h
  · rw [h] at ht; cases ht
  · rw [h2] at ht; cases ht
    exact hh (hs v h1)

/-- What a slot is linked by, before and after such a move. -/
theorem SlotStep.linked {s t : Option WalkSlot} (h : SlotStep s t) (z : RealZone) :
    ((∃ w, t = some w ∧ w.zone = z) ↔ ∃ w, s = some w ∧ w.zone = z) ∧
    ∀ y : Zone, (∃ w, t = some w ∧ w.ending = false ∧ realZone w.zone = y) ↔
      ∃ w, s = some w ∧ w.ending = false ∧ realZone w.zone = y := by
  obtain ⟨rfl, rfl⟩ | ⟨v, w, rfl, rfl, hz, he, -⟩ := h
  · exact ⟨Iff.rfl, fun _ => Iff.rfl⟩
  · constructor
    · simp [hz]
    · intro y; simp [hz, he]

/-- Zone records and slots stay linked while every slot keeps its zone and phase and every zone record its slot. -/
theorem Chip.SlotsLinked.of_slotSteps {c d : Chip} (hz : ∀ z : Zone, d.zones[z].walkSlot = c.zones[z].walkSlot)
    (hs : ∀ k : Fin 4, SlotStep c.slots[k] d.slots[k]) (h : c.SlotsLinked) : d.SlotsLinked := by
  obtain ⟨named, apart⟩ := h
  refine ⟨fun z k => ?_, fun j k v w hv hw e => ?_⟩
  · rw [hz z, named z k, ((hs k).linked 0).2 z]
  · obtain ⟨v', hv', e'⟩ := ((hs j).linked v.zone).1.mp ⟨v, hv, rfl⟩
    obtain ⟨w', hw', e''⟩ := ((hs k).linked w.zone).1.mp ⟨w, hw, rfl⟩
    exact apart j k v' w' hv' hw' (by rw [e', e'', e])

theorem Chip.AlarmMove.blockStep {c d : Chip} (h : c.AlarmMove d) : c.BlockStep d := by
  obtain ⟨hshape, hpoints, hfires, hzones, hslots, -, -, hqueue⟩ := h
  have linked : c.SlotsLinked → d.SlotsLinked := .of_slotSteps (fun z => (hzones z).2) hslots
  have mask : d.zoneMask = c.zoneMask := by obtain ⟨_, _, _, _, _, _, _, rfl⟩ := hshape; rfl
  have consents (hc : c.ZonesFollowMask) : d.ZonesFollowMask := fun z => by rw [(hzones z).1, mask]; exact hc z
  obtain ⟨_, _, _, _, _, _, _, rfl⟩ := hshape
  exact ⟨hqueue, fun hc k => (hslots k).hits (hc k), hfires, consents, linked, id,
    fun hc => ⟨hc.1, fun r => (hpoints r).keepsFacts _ (hc.2 r)⟩, fun hc r => (hpoints r).keepsRange (hc r)⟩

theorem Chip.PointMove.monitorStep {r : Rec} {c d : Chip} (h : Chip.PointMove PointRecord.MonitorStep r c d) :
    c.BlockStep d := (h.mono fun _ _ hs => hs.replyStep).blockStep

theorem Chip.processReply_step (c : Chip) (e : ReplyEvent) : c.BlockStep (c.processReply e) := by
  unfold Chip.processReply
  split
  · obtain ⟨d, f, h1, h2, h3⟩ := c.goodReply_moves e.point _ _ _ _
    exact (h1.blockStep.trans h2.monitorStep).trans h3.blockStep
  · obtain ⟨d, h, h1⟩ := c.garbledReply_moves e.point
    rw [h]; exact h1.blockStep
  · obtain ⟨d, h, h1⟩ := c.noreply_moves e.point
    rw [h]; exact h1.blockStep

theorem Chip.makeSilenceTest_step (c : Chip) (r : Rec) : c.BlockStep (c.makeSilenceTest r) := by
  unfold Chip.makeSilenceTest
  split
  · have owed : c.BlockStep { c with silenceOwed := c.silenceOwed.filter (· != r) } := Chip.SameBlocks.step {}
    refine owed.trans ?_
    obtain h | ⟨d, h, h1⟩ := Chip.silenceTest_moves { c with silenceOwed := c.silenceOwed.filter (· != r) } r
    · rw [h]; exact .refl _
    · rw [h]; exact h1.blockStep
  · exact .refl c

theorem Chip.makeRederivation_step (c : Chip) (r : Rec) : c.BlockStep (c.makeRederivation r) := by
  unfold Chip.makeRederivation
  split
  · have owed : c.BlockStep { c with rederivations := c.rederivations.filter (fun o => o.point != r) } :=
      Chip.SameBlocks.step {}
    exact owed.trans (Chip.rederive_step _ r)
  · exact .refl c

theorem Chip.takeReply_step (c : Chip) : c.BlockStep c.takeReply :=
  Chip.takeReply_keeps (P := c.BlockStep) (fun d r h => h.trans (d.makeRederivation_step r))
    (fun d r h => h.trans (d.makeSilenceTest_step r)) (fun d _ rest _ h => h.trans (Chip.SameBlocks.step {}))
    (fun d e h => h.trans (d.processReply_step e)) c (.refl c)

/-! ### The command in hand -/

/-- No command is at an install of a RESTORE. -/
def Chip.InstallsNothing (c : Chip) : Prop := ∀ m, c.command = some m → m.stage.installsNothing

theorem Chip.InstallsNothing.restoreChecked {c : Chip} (h : c.InstallsNothing) : c.RestoreChecked :=
  fun m s _ hm hs => absurd hs (h m hm s)

/-- The command and its transfer replaced. -/
theorem Chip.BlockStep.command (c : Chip) (m : Option Command) (t : Option TransferEngine) (i : InternalMaster)
    (h : c.RestoreChecked → Chip.RestoreChecked { c with command := m, transfer := t }) :
    c.BlockStep { c with command := m, transfer := t, im := i } :=
  ⟨id, id, id, id, id, id, fun hc => ⟨h hc.1, hc.2⟩, id⟩

theorem Chip.StageMove.blockStep {c d : Chip} (h : c.StageMove d) : c.BlockStep d := by
  obtain ⟨m, m', t, i, -, rfl, hn, -⟩ := h
  exact .command c _ _ _ fun _ => Chip.InstallsNothing.restoreChecked fun x hx => by cases hx; exact hn

theorem Chip.complete_step (c : Chip) (k : Completion) : c.BlockStep (c.complete k) := by
  obtain h | h := c.complete_stageMove k
  · rw [h]; exact .refl c
  · exact h.blockStep

theorem Chip.goto_step (c : Chip) (m : Command) (g : CommandStage) (hg : g.installsNothing) : c.BlockStep (c.goto m g) :=
  .command c _ c.transfer c.im fun _ => Chip.InstallsNothing.restoreChecked fun x hx => by cases hx; exact hg

/-- The command goes on with its transfer at a stage that is no install. -/
theorem Chip.transferGoto_step (c : Chip) (m : Command) (t : Option TransferEngine) (g : CommandStage)
    (hg : g.installsNothing) : c.BlockStep (Chip.goto { c with transfer := t } m g) :=
  .command c _ t c.im fun _ => Chip.InstallsNothing.restoreChecked fun x hx => by cases hx; exact hg

theorem Chip.issueCommand_step (c : Chip) (a : Nat) (w : Option Word) : c.BlockStep (c.issueCommand a w) :=
  Chip.SameBlocks.step {}

theorem Chip.startBlock_step (c : Chip) (m : Command) (t : TransferEngine) (p : Option Nat) :
    c.BlockStep (c.startBlock m t p) :=
  (c.transferGoto_step m _ (.transferring .read) fun _ => nofun).trans (Chip.issueCommand_step _ _ _)

theorem Chip.writeWord_step (c : Chip) (m : Command) (t : TransferEngine) (g : Transfer) (i : Nat) :
    c.BlockStep (c.writeWord m t g i) :=
  (c.transferGoto_step m _ (.transferring g) fun _ => nofun).trans (Chip.issueCommand_step _ _ _)

end Sys2Proof.Machine
end

