-- ==== Sys2Proof/Proofs/WorkFacts.lean ====
section
/-! SUPPORT. The walk slots, the entry installs and the command's own events, in the facts about the blocks (R37, R59, R70, R73,
R126 to R138, R170 to R172). -/

namespace Sys2Proof.Machine

/-! ### Walk slots -/

theorem realZone_injective : Function.Injective realZone := fun a b h => Fin.ext (by simpa [realZone] using h)

/-- A zone is linked to no slot exactly when no slot has the zone (R127). -/
theorem Chip.linkedSlot_eq_none (c : Chip) (z : Zone) :
    c.linkedSlot z = none ↔ ∀ (k : Fin 4) (w : WalkSlot), c.slots[k] = some w → realZone w.zone ≠ z := by
  rw [Chip.linkedSlot, List.find?_eq_none]
  constructor
  · intro h k w hw
    have := h k (List.mem_finRange k)
    rw [hw] at this
    simpa using this
  · intro h k _
    cases hs : c.slots[k] with
    | none => simp
    | some w => simpa using h k w hs

/-- Slots and zone records replaced, their consents standing. -/
theorem Chip.BlockStep.walk (c d : Chip) (h : ∃ s z, d = { c with slots := s, zones := z }) (hits : c.HitsBounded → d.HitsBounded)
    (withheld : ∀ z : Zone, d.zones[z].withheld = c.zones[z].withheld) (linked : c.SlotsLinked → d.SlotsLinked) :
    c.BlockStep d := by
  obtain ⟨s, z, rfl⟩ := h
  exact ⟨id, hits, id, fun hc y => (withheld y).trans (hc y), linked, id, id, id⟩

/-- A slot set keeps the bound of the hit lists when its own list keeps it. -/
theorem Chip.HitsBounded.setSlot {c : Chip} (k : Fin 4) (w : Option WalkSlot)
    (hw : ∀ v, w = some v → v.hits.length ≤ Config.hitListLimit) (h : c.HitsBounded) : (c.setSlot k w).HitsBounded := by
  intro j v hv
  simp only [Fin.getElem_fin, Chip.setSlot_slots] at hv
  split at hv
  · exact hw v hv
  · exact h j v hv

/-- The slot of a walk test that starts is linked to its zone (R127, R129). -/
theorem Chip.SlotsLinked.started {c : Chip} (k : Fin 4) (w : WalkSlot) (hw : w.ending = false) (hfree : c.slots[k] = none)
    (hzone : c.linkedSlot (realZone w.zone) = none) (h : c.SlotsLinked) :
    Chip.SlotsLinked ((c.setSlot k (some w)).modZone (realZone w.zone) fun zr => { zr with walkSlot := some k }) := by
  obtain ⟨named, apart⟩ := h
  rw [Chip.linkedSlot_eq_none] at hzone
  constructor
  · intro z j
    have hold := named z j
    simp only [Fin.getElem_fin, Chip.modZone_zones, Chip.modZone_frame, Chip.setSlot_frame, Chip.setSlot_slots,
      ← Fin.ext_iff] at hold ⊢
    by_cases hj : k = j
    · subst hj
      by_cases hz : realZone w.zone = z
      · simp [hz, hw]
      · simp only [if_neg hz, if_pos]
        rw [hold]
        simp only [Fin.getElem_fin] at hfree
        simp [hfree, hz]
    · by_cases hz : realZone w.zone = z
      · subst hz
        simp only [if_pos, Option.some.injEq, hj, false_iff]
        rintro ⟨v, hv, -, he⟩
        exact hzone j v hv he
      · simp only [if_neg hz, if_neg hj]
        exact hold
  · intro i j v u hv hu e
    simp only [Fin.getElem_fin, Chip.modZone_frame, Chip.setSlot_slots, ← Fin.ext_iff] at hv hu
    split at hv <;> split at hu
    · rename_i h1 h2; rw [← h1, ← h2]
    · cases hv; exact absurd (congrArg realZone e.symm) (hzone j u hu)
    · cases hu; exact absurd (congrArg realZone e) (hzone i v hv)
    · exact apart i j v u hv hu e

/-- The end event takes the zone record's name from the slot, which is RUNNING no longer (R137). -/
theorem Chip.SlotsLinked.ended {c : Chip} (k : Fin 4) (v w : WalkSlot) (hv : c.slots[k] = some v) (hz : w.zone = v.zone)
    (hw : w.ending = true) (h : c.SlotsLinked) :
    Chip.SlotsLinked ((c.setSlot k (some w)).modZone (realZone v.zone) fun zr => { zr with walkSlot := none }) := by
  obtain ⟨named, apart⟩ := h
  constructor
  · intro z j
    have hold := named z j
    have hkept := named z k
    simp only [Fin.getElem_fin, Chip.modZone_zones, Chip.modZone_frame, Chip.setSlot_frame, Chip.setSlot_slots,
      ← Fin.ext_iff] at hold hkept hv ⊢
    by_cases hj : k = j
    · subst hj
      by_cases hzz : realZone v.zone = z
      · simp [hzz, hw]
      · simp only [if_neg hzz, if_pos]
        rw [hold]
        simp [hv, hzz, hw]
    · by_cases hzz : realZone v.zone = z
      · subst hzz
        simp only [if_pos, if_neg hj, reduceCtorEq, false_iff]
        rintro ⟨u, hu, -, he⟩
        exact hj (apart k j v u hv hu (realZone_injective he).symm)
      · simp only [if_neg hzz, if_neg hj]
        exact hold
  · intro i j u x hu hx e
    simp only [Fin.getElem_fin, Chip.modZone_frame, Chip.setSlot_slots, ← Fin.ext_iff] at hu hx
    split at hu <;> split at hx
    · rename_i h1 h2; rw [← h1, ← h2]
    · rename_i h1 _; cases hu; rw [← h1]; exact apart k j v x hv hx (hz.symm.trans e)
    · rename_i _ h2; cases hx; rw [← h2]; exact apart i k u v hu hv (e.trans hz)
    · exact apart i j u x hu hx e

/-- An ENDING slot that returns to FREE was named by no zone record (R138). -/
theorem Chip.SlotsLinked.freed {c : Chip} (k : Fin 4) (v : WalkSlot) (hv : c.slots[k] = some v) (hend : v.ending = true)
    (h : c.SlotsLinked) : (c.setSlot k none).SlotsLinked := by
  obtain ⟨named, apart⟩ := h
  constructor
  · intro z j
    have hold := named z j
    simp only [Fin.getElem_fin, Chip.setSlot_frame, Chip.setSlot_slots, ← Fin.ext_iff] at hold hv ⊢
    by_cases hj : k = j
    · subst hj
      rw [hold]
      simp [hv, hend]
    · simp only [if_neg hj]
      exact hold
  · intro i j u x hu hx e
    simp only [Fin.getElem_fin, Chip.setSlot_slots, ← Fin.ext_iff] at hu hx
    split at hu
    · cases hu
    · split at hx
      · cases hx
      · exact apart i j u x hu hx e

/-- A zone record's walk slot changed leaves every consent. -/
theorem Chip.walkZone_withheld (c : Chip) (k : Fin 4) (w : Option WalkSlot) (z : Zone) (s : Option (Fin 4)) (y : Zone) :
    ((c.setSlot k w).modZone z fun zr => { zr with walkSlot := s }).zones[y].withheld = c.zones[y].withheld := by
  simp only [Fin.getElem_fin, Chip.modZone_zones, Chip.setSlot_frame]
  split
  · rename_i h; simp [h]
  · rfl

theorem Chip.endSlot_step (c : Chip) (k : Fin 4) : c.BlockStep (c.endSlot k) := by
  unfold Chip.endSlot
  split
  · rename_i w hw
    split
    · rename_i reason he hr
      refine Chip.BlockStep.trans (.walk c _ ⟨_, _, rfl⟩ (fun h => ?_) (fun y => ?_) fun h => ?_) (Chip.raise_step _ _)
      · exact h.setSlot k _ fun v hv => by cases hv; exact Nat.zero_le _
      · exact c.walkZone_withheld k _ _ _ y
      · exact h.ended k w _ hw rfl rfl
    · exact .refl c
  · exact .refl c

theorem Chip.clearTest_step (c : Chip) (k : Fin 4) (w : WalkSlot) (r : Rec) (hw : c.slots[k] = some w) :
    c.BlockStep (c.clearTest k w r) := by
  have cleared (v : WalkSlot) (hz : v.zone = w.zone) (he : v.ending = w.ending) (hh : v.hits = w.hits) :
      c.BlockStep ((c.setSlot k (some v)).setVerdict r .none) := by
    have h1 : c.AlarmMove (c.setSlot k (some v)) :=
      .setSlot c k _ (by rw [hw]; exact .inr ⟨w, v, rfl, rfl, hz, he, by rw [hh]; exact id⟩)
    exact (h1.trans (.setVerdict _ r .none)).blockStep
  unfold Chip.clearTest
  dsimp only
  split
  · have counted := cleared { w with cleared := w.cleared + 1, sweep := r.val + 1, handedBack := w.handedBack + 1 } rfl rfl rfl
    exact (counted.trans (Chip.rederive_step _ r)).trans (Chip.qualify_move _ r _ _).blockStep
  · exact cleared _ rfl rfl rfl

theorem Chip.freeSlot_step (c : Chip) (k : Fin 4) (w : WalkSlot) (hw : c.slots[k] = some w) (he : w.ending = true) :
    c.BlockStep (c.freeSlot k w) := by
  have free : c.BlockStep (c.setSlot k none) :=
    .walk c _ ⟨_, _, rfl⟩ (fun h => h.setSlot k _ nofun) (fun _ => rfl) fun h => h.freed k w hw he
  unfold Chip.freeSlot
  dsimp only
  split
  · split
    · exact free.trans (Chip.complete_step _ _)
    · exact free
  · exact free

theorem Chip.sweepSlot_step (c : Chip) (k : Fin 4) : c.BlockStep (c.sweepSlot k) := by
  unfold Chip.sweepSlot
  split
  · rename_i w hw
    split
    · rename_i he
      split
      · exact c.clearTest_step k w _ hw
      · exact c.freeSlot_step k w hw he
    · exact .refl c
  · exact .refl c

theorem Chip.startWalk_step (c : Chip) (k : Fin 4) (z : RealZone) (minutes : Nat) (hfree : c.slots[k] = none)
    (hzone : c.linkedSlot (realZone z) = none) : c.BlockStep (c.startWalk k z minutes) := by
  unfold Chip.startWalk
  dsimp only
  have owed : c.BlockStep { c with walkOwed := c.walkOwed.filter (· != k) } := Chip.SameBlocks.step {}
  refine owed.trans (Chip.BlockStep.trans (.walk _ _ ⟨_, _, rfl⟩ (fun h => ?_) (fun y => ?_) fun h => ?_) (Chip.complete_step _ _))
  · exact h.setSlot k _ fun v hv => by cases hv; exact Nat.zero_le _
  · exact Chip.walkZone_withheld _ k _ _ _ y
  · exact h.started k (WalkSlot.started z c.seconds minutes) rfl hfree hzone

/-! ### Entry installs -/

/-- A plan entry replaced changes the plan, and of the zone records their openers alone (R37, R118). -/
theorem Chip.replaceEntry_shape (c : Chip) (r : Rec) (e : Option PlanEntry) : ∃ z, c.replaceEntry r e =
    { c with plan := c.plan.set r e, zones := z } ∧
    ∀ y : Zone, z[y].withheld = c.zones[y].withheld ∧ z[y].walkSlot = c.zones[y].walkSlot := by
  unfold Chip.replaceEntry
  dsimp only
  split
  · exact ⟨_, rfl, fun _ => ⟨rfl, rfl⟩⟩
  · refine ⟨_, rfl, fun y => ?_⟩
    simp only [Fin.getElem_fin, Vector.getElem_set]
    split
    · rename_i h; simp [Chip.setPlan, h]
    · exact ⟨rfl, rfl⟩

/-- An entry replaced with its point's record: the facts about the blocks pass on when the record keeps its verdict and its ranges
and its facts stand beside the new entry. -/
theorem Chip.replaceEntry_step (c : Chip) (r : Rec) (e : Option PlanEntry) (f : PointRecord → PointRecord)
    (hv : ∀ p, (f p).verdict = p.verdict) (hr : ∀ p, p.InRange → (f p).InRange)
    (hf : c.PointsConsistent → (f c.points[r]).Facts e) : c.BlockStep ((c.replaceEntry r e).modPoint r f) := by
  obtain ⟨z, hz, hsame⟩ := c.replaceEntry_shape r e
  rw [hz]
  have point (i : Rec) : (Chip.modPoint { c with plan := c.plan.set r e, zones := z } r f).points[i] =
      if r = i then f c.points[r] else c.points[i] := by
    simp [Fin.ext_iff]
  refine ⟨id, id, Chip.FireRight.of_verdicts (c := c) (fun i => ?_) rfl rfl, fun h y => ?_, fun h => ?_, id, fun h => ⟨h.1, fun i => ?_⟩,
    fun h i => ?_⟩
  · rw [point i]
    split
    · rename_i hi; rw [hv, hi]
    · rfl
  · exact (hsame y).1.trans (h y)
  · exact h.of_slotSteps (fun y => (hsame y).2) fun _ => .refl _
  · rw [point i]
    have plan : (Chip.modPoint { c with plan := c.plan.set r e, zones := z } r f).plan[i] =
        if r = i then e else c.plan[i] := by
      simp [Vector.getElem_set, Fin.ext_iff]
    rw [plan]
    split
    · exact hf h
    · exact h.2 i
  · rw [point i]
    split
    · exact hr _ (h r)
    · exact h i

theorem Chip.installEntry_step (c : Chip) (r : Rec) (e : Option PlanEntry) : c.BlockStep (c.installEntry r e) :=
  (c.replaceEntry_step r e (fun p => { p with state := rederiveState p.state c.plan[r] e p.foundClass false })
    (fun _ => rfl) (fun _ h => h) fun h => c.points[r].facts_rederived c.plan[r] e false c.points[r].foundClass c.plan[r]
      (h.2 r)).trans (Chip.rederive_step _ r)

/-- A point's record with the restored fields in it (R172). -/
def RestoredPoint.install (q : RestoredPoint) (p : PointRecord) : PointRecord :=
  { p with state := q.state, foundClass := q.foundClass, testCount := q.testCount, firstSerial := q.firstSerial,
           secondSerial := q.secondSerial }

/-- An entry the checks of a state block pass has the facts its STATE gives it (R59, R170). -/
theorem stateEntryOk_facts (words : List Word) (block s : Nat) (p : PointRecord) (h : stateEntryOk words block s = true) :
    ((restoredPoint words s).install p).Facts (restoredPoint words s).entry := by
  unfold stateEntryOk at h
  dsimp only at h
  rw [Bool.and_eq_true, Bool.and_eq_true] at h
  obtain ⟨⟨-, hsecond⟩, hstate⟩ := h
  generalize restoredPoint words s = q at hsecond hstate ⊢
  unfold RestoredPoint.consistent at hstate
  unfold PointRecord.Facts PointRecord.StateFacts RestoredPoint.install
  cases hq : q.state <;> cases he : q.entry <;> cases hf : q.foundClass <;> cases h2 : q.secondSerial <;>
    cases h1 : q.firstSerial <;> simp_all

theorem Chip.restorePoint_step (c : Chip) (r : Rec) (words : List Word) (block s : Nat)
    (h : c.RestoreChecked → stateEntryOk words block s = true) : c.BlockStep (c.restorePoint r (restoredPoint words s)) :=
  (c.replaceEntry_step r _ (restoredPoint words s).install (fun _ => rfl)
    (fun p ⟨h1, h2, h3, _⟩ => ⟨h1, h2, h3, Nat.le_of_lt_succ (BitVec.isLt _)⟩)
    fun hc => stateEntryOk_facts words block s c.points[r] (h hc.1)).trans (Chip.rederive_step _ r)

/-! ### The command's own events -/

/-- A stretch's change is one the facts of a point allow (R70 to R72, R75). -/
theorem Stretch.change_step (k : Stretch) (p q : PointRecord) (e : Option PlanEntry) (h : k.change p = some q) :
    p.ReplyStep e q := by
  have standing {p q : PointRecord} (hv : q.verdict = p.verdict) (hr : p.InRange → q.InRange) (hs : p.StateFacts e → q.StateFacts e)
      (h2 : q.secondSerial = p.secondSerial) (hn : p.state ≠ .conflict) : p.ReplyStep e q :=
    ⟨hv, hr, fun ⟨hf, hx⟩ => ⟨hs hf, fun y => absurd (hx (h2 ▸ y)).1 hn⟩⟩
  cases k with
  | accept =>
    simp only [Stretch.change] at h
    split at h
    · rename_i ha
      simp only [PointRecord.acceptable, Bool.and_eq_true, beq_iff_eq] at ha
      obtain ⟨⟨hs, -⟩, h1⟩ := ha
      cases h
      refine standing rfl id (fun hf => ?_) rfl (by rw [hs]; nofun)
      unfold PointRecord.StateFacts at hf ⊢
      rw [hs] at hf
      exact ⟨hf.1, hf.2, h1⟩
    · cases h
  | release =>
    simp only [Stretch.change] at h
    split at h
    · rename_i hs
      cases h
      refine standing rfl id (fun hf => ?_) rfl (by rw [hs]; nofun)
      unfold PointRecord.StateFacts at hf ⊢
      rw [hs] at hf
      exact ⟨hf.1, hf.2.1⟩
    · cases h
  | revert =>
    simp only [Stretch.change] at h
    split at h
    · rename_i hs
      cases h
      refine standing rfl (fun ⟨h1, h2, h3, _⟩ => ⟨h1, h2, h3, Nat.zero_le _⟩) (fun hf => ?_) rfl ?_
      · unfold PointRecord.StateFacts at hf ⊢
        obtain hs | hs := hs
        · rw [hs] at hf; exact hf
        · rw [hs] at hf; exact ⟨hf.1, hf.2.1⟩
      · obtain hs | hs := hs <;> rw [hs] <;> nofun
    · cases h

end Sys2Proof.Machine
end

