-- ==== Sys2Proof/Proofs/CommandFacts.lean ====
section
/-! SUPPORT. The work events of the command in hand keep the facts about the blocks (R148 steps 3 to 5). -/

namespace Sys2Proof.Machine

theorem Chip.gotoWork_step (c : Chip) (m : Command) (w : Work) (hw : ∀ s, w ≠ .restoreInstall s) :
    c.BlockStep (c.gotoWork m w) :=
  c.goto_step m _ fun s h => hw s (CommandStage.working.inj h)

/-- The command goes on, or is over: the two ends of a work event over a range. -/
theorem Chip.nextOrComplete_step (c : Chip) (p : Prop) [Decidable p] (m : Command) (w : Work) (k : Completion)
    (hw : ∀ s, w ≠ .restoreInstall s) : c.BlockStep (if p then c.gotoWork m w else c.complete k) := by
  split
  · exact c.gotoWork_step m w hw
  · exact c.complete_step k

theorem Chip.stretchEvent_step (c : Chip) (m : Command) (k : Stretch) (a b x y : Nat) :
    c.BlockStep (c.stretchEvent m k a b x y) := by
  unfold Chip.stretchEvent
  cases hq : k.change c.points[recordAt a] with
  | none => exact c.nextOrComplete_step _ m _ _ nofun
  | some p =>
    have changed : c.BlockStep (c.setPoint (recordAt a) p) :=
      c.modPoint_step (recordAt a) (fun _ => p) (k.change_step _ p _ hq)
    exact changed.trans (Chip.nextOrComplete_step _ _ m _ _ nofun)

theorem Chip.clearFlagsEvent_step (c : Chip) (m : Command) (a b : Nat) (k : BitVec 8) (n : Nat) :
    c.BlockStep (c.clearFlagsEvent m a b k n) := by
  have cleared : c.BlockStep (c.modPoint (recordAt a) fun p => p.clearFlags k) :=
    c.modPoint_step _ _ <| .of_same rfl rfl rfl rfl rfl fun ⟨h1, h2, h3, h4⟩ => by
      refine ⟨h1, h2, ?_, h4⟩
      show (if _ then _ else _) ≤ 16
      split
      · exact Nat.zero_le _
      · exact h3
  unfold Chip.clearFlagsEvent
  exact cleared.trans (Chip.nextOrComplete_step _ _ m _ _ nofun)

theorem Chip.clearVerdictEvent_step (c : Chip) (m : Command) (a b x y : Nat) :
    c.BlockStep (c.clearVerdictEvent m a b x y) := by
  have cleared (h : Bool) : c.BlockStep (if h then c.setVerdict (recordAt a) .none else c) := by
    split
    · exact (Chip.AlarmMove.setVerdict c _ _).blockStep
    · exact .refl c
  unfold Chip.clearVerdictEvent
  dsimp only
  generalize (c.points[recordAt a].verdict.standing && c.points[recordAt a].lastStatus != some .alarm) = clear
  exact (cleared clear).trans (Chip.nextOrComplete_step _ _ m (.clearVerdict ..) _ nofun)

theorem Chip.queryEvent_step (c : Chip) (m : Command) (n : Nat) (q : Census) : c.BlockStep (c.queryEvent m n q) := by
  unfold Chip.queryEvent
  split
  · exact c.gotoWork_step m _ nofun
  · split
    · exact c.gotoWork_step m _ nofun
    · exact c.nextOrComplete_step _ m _ _ nofun

/-! ### PLAN LOAD -/

/-- The transfer engine replaced, the command at a stage that is no install. -/
theorem Chip.transferGotoWork_step (c : Chip) (m : Command) (t : Option TransferEngine) (w : Work)
    (hw : ∀ s, w ≠ .restoreInstall s) : c.BlockStep (Chip.gotoWork { c with transfer := t } m w) :=
  c.transferGoto_step m t _ fun s h => hw s (CommandStage.working.inj h)

theorem Chip.afterPlanChecks_step (c : Chip) (m : Command) (t : TransferEngine) : c.BlockStep (c.afterPlanChecks m t) := by
  unfold Chip.afterPlanChecks
  split
  · exact c.transferGotoWork_step m _ _ nofun
  · split
    · exact c.startBlock_step m _ _
    · exact c.startBlock_step m _ _

theorem Chip.planEntry_step (c : Chip) (m : Command) (t : TransferEngine) (s : Nat) : c.BlockStep (c.planEntry m t s) := by
  have next (t : TransferEngine) : c.BlockStep
      (if s < 8 then Chip.gotoWork { c with transfer := some t } m (.planEntry (s + 1)) else c.afterPlanChecks m t) := by
    split
    · exact c.transferGotoWork_step m _ _ nofun
    · exact c.afterPlanChecks_step m t
  unfold Chip.planEntry
  dsimp only
  split
  · exact next t
  · split
    · exact c.complete_step _
    · exact next _

/-- A completion with the Transfer Engine in hand replaced first is two moves; the second is the engine's own where the command
is at no RESTORE install. -/
theorem Chip.transfer_step (c : Chip) (m : Command) (t : Option TransferEngine) (hm : c.command = some m)
    (hn : m.stage.installsNothing) : c.BlockStep { c with transfer := t } :=
  .trans (.command c c.command t c.im fun _ => Chip.InstallsNothing.restoreChecked fun x hx => by
    rw [show c.command = some x from hx] at hm; cases hm; exact hn) (.refl _)

theorem Chip.afterPlanInstalls_step (c : Chip) (m : Command) (t : TransferEngine) (hm : c.command = some m)
    (hn : m.stage.installsNothing) : c.BlockStep (c.afterPlanInstalls m t) := by
  unfold Chip.afterPlanInstalls
  dsimp only
  split
  · exact c.startBlock_step m _ _
  · exact (c.transfer_step m _ hm hn).trans (Chip.complete_step _ _)

theorem Chip.installEntry_command (c : Chip) (r : Rec) (e : Option PlanEntry) :
    (c.installEntry r e).command = c.command := by
  obtain ⟨_, h, -⟩ := c.replaceEntry_shape r e
  simp [Chip.installEntry, h]

theorem Chip.planInstall_step (c : Chip) (m : Command) (t : TransferEngine) (s : Nat) (hm : c.command = some m)
    (hn : m.stage.installsNothing) : c.BlockStep (c.planInstall m t s) := by
  have goes (d : Chip) (t : TransferEngine) (hd : d.command = some m) : d.BlockStep
      (if s < 8 then Chip.gotoWork { d with transfer := some t } m (.planInstall (s + 1)) else d.afterPlanInstalls m t) := by
    split
    · exact d.transferGotoWork_step m _ _ nofun
    · exact d.afterPlanInstalls_step m t hd hn
  unfold Chip.planInstall
  dsimp only
  by_cases h : entryLoop (t.entryWords s).1 = 0
  · simp only [if_pos h]
    exact goes c t hm
  · simp only [if_neg h]
    exact (c.installEntry_step _ _).trans (goes _ _ ((c.installEntry_command _ _).trans hm))

/-! ### RESTORE -/

theorem Chip.restoreHeader_step (c : Chip) (m : Command) (t : TransferEngine) : c.BlockStep (c.restoreHeader m t) := by
  unfold Chip.restoreHeader
  split
  · exact c.startBlock_step m _ _
  · exact c.complete_step _

/-- A block with no entry at fault passes the entries' checks (R170). -/
theorem TransferEngine.firstBadEntry_eq_none (t : TransferEngine) :
    t.firstBadEntry = none ↔ ∀ i, 1 ≤ i → i ≤ 8 → stateEntryOk t.words t.block i = true := by
  rw [TransferEngine.firstBadEntry, List.find?_eq_none]
  constructor
  · intro h i h1 h8
    have := h i (by simp; omega)
    simpa using this
  · intro h i hi
    simp only [List.mem_cons, List.not_mem_nil, or_false] at hi
    simpa using h i (by omega) (by omega)

theorem Chip.restoreBlock_step (c : Chip) (m : Command) (t : TransferEngine) (ht : c.transfer = some t) :
    c.BlockStep (c.restoreBlock m t) := by
  unfold Chip.restoreBlock
  split
  · exact c.complete_step _
  · split
    · exact c.complete_step _
    · rename_i hgood
      split
      · refine .command c _ c.transfer c.im fun _ x s u hx hs hu => ?_
        cases hx
        cases hs
        rw [show c.transfer = some u from hu] at ht
        cases ht
        exact ⟨Nat.le_refl _, by omega, (TransferEngine.firstBadEntry_eq_none t).mp hgood⟩
      · split
        · exact c.startBlock_step m _ _
        · exact c.startBlock_step m _ _

theorem Chip.restorePoint_command (c : Chip) (r : Rec) (q : RestoredPoint) :
    (c.restorePoint r q).command = c.command ∧ (c.restorePoint r q).transfer = c.transfer := by
  obtain ⟨_, h, -⟩ := c.replaceEntry_shape r q.entry
  simp [Chip.restorePoint, h]

theorem Chip.restoreInstall_step (c : Chip) (m : Command) (t : TransferEngine) (s : Nat) (hm : c.command = some m)
    (hs : m.stage = .working (.restoreInstall s)) (ht : c.transfer = some t) : c.BlockStep (c.restoreInstall m t s) := by
  have checked (h : c.RestoreChecked) : stateEntryOk t.words t.block s = true :=
    let ⟨h1, h8, hok⟩ := h m s t hm hs ht
    hok s h1 h8
  have installed := c.restorePoint_step (recordAt (8 * t.block + s - 1)) t.words t.block s checked
  obtain ⟨hcommand, htransfer⟩ := c.restorePoint_command (recordAt (8 * t.block + s - 1)) (restoredPoint t.words s)
  unfold Chip.restoreInstall
  dsimp only
  generalize c.restorePoint (recordAt (8 * t.block + s - 1)) (restoredPoint t.words s) = d at installed hcommand htransfer ⊢
  refine installed.trans ?_
  split
  · rename_i h8
    refine .command d _ d.transfer d.im fun h x s' u hx hs' hu => ?_
    cases hx
    cases hs'
    rw [show d.transfer = some u from hu, ht] at htransfer
    cases htransfer
    obtain ⟨-, -, hok⟩ := h m s t (hcommand.trans hm) hs hu
    exact ⟨by omega, h8, hok⟩
  · split
    · exact d.startBlock_step m _ _
    · exact d.transferGotoWork_step m _ _ nofun

theorem Chip.restoreFinal_step (c : Chip) (t : TransferEngine) : c.BlockStep (c.restoreFinal t) := by
  unfold Chip.restoreFinal
  split
  · have codes (v : Vector (BitVec 4) 4) (b : Bool) : c.BlockStep { c with profiles := v, sealed := b } := Chip.SameBlocks.step {}
    exact (codes _ _).trans (Chip.complete_step _ _)
  · exact .refl c

/-! ### The checks -/

theorem Chip.checkTransfer_step (c : Chip) (f : Binding → TransferEngine → Chip) (h : ∀ b t, c.BlockStep (f b t)) :
    c.BlockStep (c.checkTransfer f) := by
  unfold Chip.checkTransfer
  split
  · exact h _ _
  · exact .refl c

theorem Chip.checkPlanLoad_step (c : Chip) (m : Command) (b : Binding) (t : TransferEngine) :
    c.BlockStep (c.checkPlanLoad m b t) := by
  unfold Chip.checkPlanLoad
  split
  · exact c.complete_step _
  · split
    · exact c.complete_step _
    · exact c.startBlock_step m t _

theorem Chip.checkSnapshot_step (c : Chip) (m : Command) (b : Binding) (t : TransferEngine) :
    c.BlockStep (c.checkSnapshot m b t) := by
  unfold Chip.checkSnapshot
  split
  · exact c.complete_step _
  · exact (c.transferGoto_step m _ (.transferring .withdraw) fun _ => nofun).trans (Chip.issueCommand_step _ _ _)

theorem Chip.checkRestore_step (c : Chip) (m : Command) (b : Binding) (t : TransferEngine) :
    c.BlockStep (c.checkRestore m b t) := by
  unfold Chip.checkRestore
  split
  · exact c.complete_step _
  · split
    · exact c.complete_step _
    · split
      · exact c.complete_step _
      · exact c.startBlock_step m t _

theorem Chip.checkProfileSet_step (c : Chip) (m : Command) : c.BlockStep (c.checkProfileSet m) := by
  unfold Chip.checkProfileSet
  split
  · exact c.complete_step _
  · split
    · exact c.complete_step _
    · have codes (v : Vector (BitVec 4) 4) : c.BlockStep { c with profiles := v } := Chip.SameBlocks.step {}
      exact (codes _).trans (Chip.complete_step _ _)

theorem Chip.checkSeal_step (c : Chip) : c.BlockStep c.checkSeal := by
  have sealed : c.BlockStep { c with sealed := true } := Chip.SameBlocks.step {}
  exact sealed.trans (Chip.complete_step _ _)

/-- The FREE slot a start takes is FREE. -/
theorem Chip.freeSlotNumber_free (c : Chip) (k : Fin 4) (h : c.freeSlotNumber = some k) : c.slots[k] = none := by
  simpa using List.find?_some h

theorem Chip.checkWalkStart_step (c : Chip) (m : Command) : c.BlockStep (c.checkWalkStart m) := by
  unfold Chip.checkWalkStart
  dsimp only
  split
  · exact c.complete_step _
  · split
    · exact c.complete_step _
    · split
      · exact c.complete_step _
      · rename_i hlinked
        split
        · exact c.complete_step _
        · rename_i k hk
          split
          · exact c.complete_step _
          · exact c.startWalk_step k _ _ (c.freeSlotNumber_free k hk) (Option.not_isSome_iff_eq_none.mp hlinked)

theorem Chip.checkWalkEnd_step (c : Chip) (m : Command) : c.BlockStep (c.checkWalkEnd m) := by
  unfold Chip.checkWalkEnd
  split
  · exact (c.requestEnd_move _ _).blockStep.trans (Chip.goto_step _ m (.waitingSlot _) fun _ => nofun)
  · exact c.complete_step _

theorem Chip.checkRange_step (c : Chip) (m : Command) (ok : PointRecord → Bool) (w : Work)
    (hw : ∀ s, w ≠ .restoreInstall s) : c.BlockStep (c.checkRange m ok w) := by
  unfold Chip.checkRange
  split
  · exact c.complete_step _
  · split
    · exact c.complete_step _
    · exact c.gotoWork_step m w hw

/-- ADOPT's change of the point keeps its facts: the STATE is the one the table gives, and no SECOND SERIAL stays (R73). -/
theorem PointRecord.adopted_step (p : PointRecord) (e : Option PlanEntry) (second : Bool) :
    p.ReplyStep e (p.adopted e second) where
  verdict := rfl
  inRange := fun ⟨h1, _, h3, h4⟩ => ⟨h1, Nat.zero_le _, h3, h4⟩
  facts _ := by
    refine ⟨?_, nofun⟩
    unfold PointRecord.StateFacts PointRecord.adopted stateFor
    dsimp only
    cases e <;> cases p.foundClass <;> simp
    split_ifs <;> simp_all

theorem Chip.checkAdopt_step (c : Chip) (m : Command) : c.BlockStep (c.checkAdopt m) := by
  unfold Chip.checkAdopt
  dsimp only
  split
  · exact c.complete_step _
  · split
    · have adopted := c.modPoint_step (recordAt m.firstRecord)
        (fun p => p.adopted c.plan[recordAt m.firstRecord] (m.num 3 == 2)) (PointRecord.adopted_step _ _ _)
      exact (adopted.trans (Chip.rederive_step _ _)).trans (Chip.complete_step _ _)
    · exact c.complete_step _

theorem Chip.checkClearFlags_step (c : Chip) (m : Command) : c.BlockStep (c.checkClearFlags m) := by
  unfold Chip.checkClearFlags
  split
  · exact c.complete_step _
  · split
    · exact c.complete_step _
    · exact c.gotoWork_step m _ nofun

theorem Chip.checkClearVerdict_step (c : Chip) (m : Command) : c.BlockStep (c.checkClearVerdict m) := by
  unfold Chip.checkClearVerdict
  split
  · exact c.complete_step _
  · exact c.gotoWork_step m _ nofun

theorem Chip.checkCommand_step (c : Chip) (m : Command) : c.BlockStep (c.checkCommand m) := by
  unfold Chip.checkCommand
  split
  · exact c.complete_step _
  · split
    · exact c.checkTransfer_step _ (c.checkPlanLoad_step m)
    · exact c.checkTransfer_step _ (c.checkSnapshot_step m)
    · exact c.checkTransfer_step _ (c.checkRestore_step m)
    · exact c.checkProfileSet_step m
    · exact c.checkSeal_step
    · exact c.checkWalkStart_step m
    · exact c.checkWalkEnd_step m
    · exact c.checkRange_step m _ _ nofun
    · exact c.checkRange_step m _ _ nofun
    · exact c.checkAdopt_step m
    · exact c.checkClearFlags_step m
    · exact c.checkClearVerdict_step m
    · exact c.complete_step _
    · exact c.nextOrComplete_step _ m _ _ nofun
    · exact c.gotoWork_step m _ nofun
    · exact c.complete_step _
    · exact c.complete_step _

/-- A work event that needs the Transfer Engine has one in hand, or is nothing. -/
theorem Chip.transferWork_step (c : Chip) (f : TransferEngine → Chip) (h : ∀ t, c.transfer = some t → c.BlockStep (f t)) :
    c.BlockStep (c.transferWork f) := by
  unfold Chip.transferWork
  split
  · exact .refl c
  · rename_i t ht; exact h t ht

theorem Chip.work_step (c : Chip) (m : Command) (w : Work) (hm : c.command = some m) (hw : m.stage = .working w) :
    c.BlockStep (c.work m w) := by
  cases w with
  | check => exact c.checkCommand_step m
  | stretch k a b x y => exact c.stretchEvent_step m k a b x y
  | clearFlags a b k n => exact c.clearFlagsEvent_step m a b k n
  | clearVerdict a b x y => exact c.clearVerdictEvent_step m a b x y
  | query n q => exact c.queryEvent_step m n q
  | planBlock => exact c.transferWork_step _ fun t _ => c.nextOrComplete_step _ m _ _ nofun
  | planEntry s => exact c.transferWork_step _ fun t _ => c.planEntry_step m t s
  | planInstall s => exact c.transferWork_step _ fun t _ => c.planInstall_step m t s hm fun _ => by rw [hw]; nofun
  | restoreHeader => exact c.transferWork_step _ fun t _ => c.restoreHeader_step m t
  | restoreBlock => exact c.transferWork_step _ fun t ht => c.restoreBlock_step m t ht
  | restoreInstall s => exact c.transferWork_step _ fun t ht => c.restoreInstall_step m t s hm hw ht
  | restoreFinal => exact c.transferWork_step _ fun t _ => c.restoreFinal_step t
  | snapshotBlock => exact c.transferWork_step _ fun t _ => c.writeWord_step m _ _ _
  | snapshotHeader => exact c.transferWork_step _ fun t _ => c.writeWord_step m _ _ _

theorem Chip.commandWork_step (c : Chip) : c.BlockStep c.commandWork := by
  unfold Chip.commandWork
  split
  · rename_i m hm
    split
    · rename_i w hw; exact c.work_step m w hm hw
    · exact .refl c
  · exact .refl c

end Sys2Proof.Machine
end

