-- ==== Sys2Proof/Proofs/Descriptor.lean ====
section
/-! SUPPORT. The four tests of a descriptor (R24 to R27): a word's ranges in numbers, and what passes them is a legal binding.
O27 is settled here. -/

namespace Sys2Proof.Machine

/-! ### Fields as numbers -/

/-- A field of a word, by division. -/
theorem field_eq (w : Word) (lo len : Nat) : field w lo len = w.toNat / 2 ^ lo % 2 ^ len := by
  simp [field, BitVec.extractLsb'_toNat, Nat.shiftRight_eq_div_pow]

/-- A descriptor word is judged by the ranges of R25 and the bits R185 gives no field. -/
theorem descriptorWordOk_iff (i : Nat) (w : Word) : descriptorWordOk i w = true ↔ DescriptorWordRight i w := by
  have hw := w.isLt
  unfold descriptorWordOk DescriptorWordRight
  split <;> simp only [field_eq, Bool.and_eq_true, beq_iff_eq, decide_eq_true_eq] <;> omega

/-- The first word out of range is none exactly when the seven are in range. -/
theorem firstBadWord_eq_none (ws : List Word) :
    firstBadWord ws = none ↔ ∀ j, 1 ≤ j → j ≤ 7 → DescriptorWordRight j (ws.getD j 0) := by
  rw [firstBadWord, List.find?_eq_none]
  simp only [Bool.not_eq_true', Bool.not_eq_false, descriptorWordOk_iff]
  constructor
  · intro h j h1 h7
    exact h j (by simp; omega)
  · intro h j hj
    simp only [List.mem_cons, List.not_mem_nil, or_false] at hj
    exact h j (by omega) (by omega)

/-- The first word out of range, when those before it are in range. -/
theorem firstBadWord_eq_some (ws : List Word) (i : Nat) (hi : i < 7)
    (before : ∀ j, 1 ≤ j → j ≤ i → DescriptorWordRight j (ws.getD j 0))
    (bad : ¬DescriptorWordRight (i + 1) (ws.getD (i + 1) 0)) : firstBadWord ws = some (i + 1) := by
  have split : ([1, 2, 3, 4, 5, 6, 7] : List Nat) = (List.range i).map (· + 1) ++ (i + 1) :: (List.range (6 - i)).map (· + (i + 2)) := by
    interval_cases i <;> rfl
  rw [firstBadWord, split, List.find?_append]
  have none : ((List.range i).map (· + 1)).find? (fun i => !descriptorWordOk i (ws.getD i 0)) = none := by
    rw [List.find?_eq_none]
    simp only [List.mem_map, List.mem_range, Bool.not_eq_true', Bool.not_eq_false, descriptorWordOk_iff]
    rintro _ ⟨j, hj, rfl⟩
    exact before _ (by omega) (by omega)
  have here : descriptorWordOk (i + 1) (ws.getD (i + 1) 0) = false := by
    rw [← Bool.not_eq_true, descriptorWordOk_iff]; exact bad
  rw [none, List.find?_cons, here]
  rfl

/-! ### Windows -/

/-- Two ranges that hold bytes overlap exactly when they share one (R27). -/
theorem Range.overlaps_iff (x y : Range) (hx : 0 < x.2) (hy : 0 < y.2) :
    x.overlaps y = true ↔ ∃ a, (x.1 ≤ a ∧ a < x.1 + x.2) ∧ (y.1 ≤ a ∧ a < y.1 + y.2) := by
  rw [Range.overlaps, decide_eq_true_eq]
  constructor
  · intro h
    refine ⟨max x.1 y.1, ?_⟩
    omega
  · rintro ⟨a, h⟩
    omega

/-- What a binding reads out of words that are in range. -/
structure Binding.Reads (b : Binding) (location : BitVec 3) (ws : List Word) : Prop where
  location : b.location = location
  pointBase : b.pointBase = (ws.getD 1 0).toNat
  mailboxBase : b.mailboxBase = (ws.getD 2 0).toNat
  ringBase : b.ringBase = (ws.getD 3 0).toNat
  capacity : b.capacity = (ws.getD 4 0).toNat
  loops : b.loops = (ws.getD 5 0).toNat % 8
  autoWithdraw : b.autoWithdraw = (ws.getD 5 0).getLsbD 8
  silenceTimeout : b.silenceTimeout = (ws.getD 6 0).toNat % 256
  noreplyLimit : b.noreplyLimit = (ws.getD 6 0).toNat / 256 % 16
  coincidenceWindow : b.coincidenceWindow = (ws.getD 6 0).toNat / 65536
  classMask : ∀ k, k < 6 → b.classMask.getLsbD k = ((ws.getD 7 0).getLsbD k || k == 2)
  irqEnable : b.irqEnable = (ws.getD 7 0).getLsbD 8

theorem bindingOf_reads (location : BitVec 3) (ws : List Word)
    (h : ∀ j, 1 ≤ j → j ≤ 7 → DescriptorWordRight j (ws.getD j 0)) : (bindingOf location ws).Reads location ws := by
  have h1 : DescriptorWordRight 1 (ws.getD 1 0) := h 1 (by omega) (by omega)
  have h2 : DescriptorWordRight 2 (ws.getD 2 0) := h 2 (by omega) (by omega)
  have h3 : DescriptorWordRight 3 (ws.getD 3 0) := h 3 (by omega) (by omega)
  have h4 : DescriptorWordRight 4 (ws.getD 4 0) := h 4 (by omega) (by omega)
  have h6 : DescriptorWordRight 6 (ws.getD 6 0) := h 6 (by omega) (by omega)
  simp only [DescriptorWordRight] at h1 h2 h3 h4 h6
  constructor
  case location => rfl
  case autoWithdraw => rfl
  case irqEnable => rfl
  case classMask =>
    intro k hk
    show ((ws.getD 7 0).extractLsb' 0 6 ||| 0b000100#6).getLsbD k = _
    have bit : (0b000100#6).getLsbD k = (k == 2) := by interval_cases k <;> rfl
    rw [BitVec.getLsbD_or, bit, BitVec.getLsbD_extractLsb']
    simp [hk]
  all_goals
    simp only [bindingOf, field_eq]
    omega

/-- The values of words in range, with windows that end inside the space and share no byte, are a legal binding. -/
theorem Binding.Reads.legal {b : Binding} {location : BitVec 3} {ws : List Word} (hb : b.Reads location ws)
    (h : ∀ j, 1 ≤ j → j ≤ 7 → DescriptorWordRight j (ws.getD j 0)) (table : b.pointRange.1 + b.pointRange.2 ≤ Config.spaceEnd)
    (ring : b.ringRange.1 + b.ringRange.2 ≤ Config.spaceEnd) (apart : ∀ p ∈ b.pairs, p.2.1.overlaps p.2.2 = false) :
    b.Legal := by
  have h1 : DescriptorWordRight 1 (ws.getD 1 0) := h 1 (by omega) (by omega)
  have h2 : DescriptorWordRight 2 (ws.getD 2 0) := h 2 (by omega) (by omega)
  have h3 : DescriptorWordRight 3 (ws.getD 3 0) := h 3 (by omega) (by omega)
  have h4 : DescriptorWordRight 4 (ws.getD 4 0) := h 4 (by omega) (by omega)
  have h5 : DescriptorWordRight 5 (ws.getD 5 0) := h 5 (by omega) (by omega)
  have h6 : DescriptorWordRight 6 (ws.getD 6 0) := h 6 (by omega) (by omega)
  simp only [DescriptorWordRight] at h1 h2 h3 h4 h5 h6
  constructor
  case pointBase => rw [hb.pointBase]; omega
  case mailboxBase => rw [hb.mailboxBase]; omega
  case ringBase => rw [hb.ringBase]; omega
  case capacity => rw [hb.capacity]; omega
  case loops => rw [hb.loops]; omega
  case silenceTimeout => rw [hb.silenceTimeout]; omega
  case noreplyLimit => rw [hb.noreplyLimit]; omega
  case coincidenceWindow => rw [hb.coincidenceWindow]; omega
  case alarmClass => rw [hb.classMask 2 (by omega)]; simp
  case pointEnd => exact table
  case mailboxEnd => rw [hb.mailboxBase]; simp only [Config.spaceEnd]; omega
  case ringEnd => rw [Nat.add_assoc]; exact ring
  case disjoint => exact apart

/-! ### The tests -/

/-- The tests pass words that are signed, summed and in range, with windows inside the space that share no byte. -/
theorem checkDescriptor_ok (location : BitVec 3) (checksum : Word) (ws : List Word) (b : Binding)
    (h : checkDescriptor location checksum ws = .ok b) : b.Legal ∧ b.Reads location ws := by
  unfold checkDescriptor at h
  dsimp only at h
  split at h
  · cases h
  · split at h
    · cases h
    · split at h
      · cases h
      · rename_i hwords
        rw [firstBadWord_eq_none] at hwords
        split at h
        · cases h
        · rename_i htable
          split at h
          · cases h
          · rename_i hring
            split at h
            · cases h
            · rename_i hpairs
              cases h
              rw [List.find?_eq_none] at hpairs
              have reads := bindingOf_reads location ws hwords
              exact ⟨reads.legal hwords (by omega) (by omega) fun p hp => by simpa using hpairs p hp, reads⟩

theorem checkDescriptor_signature (location : BitVec 3) (checksum : Word) (ws : List Word)
    (hs : ws.getD 0 0 ≠ Config.bindSignature) : checkDescriptor location checksum ws = .error (.signature, 0) := if_pos hs

theorem checkDescriptor_checksum (location : BitVec 3) (checksum : Word) (ws : List Word)
    (hs : ws.getD 0 0 = Config.bindSignature) (hsum : sumWords ws + checksum ≠ 0) :
    checkDescriptor location checksum ws = .error (.checksum, 0) := (if_neg (fun h => h hs)).trans (if_pos hsum)

theorem checkDescriptor_range (location : BitVec 3) (checksum : Word) (ws : List Word)
    (hs : ws.getD 0 0 = Config.bindSignature) (hsum : sumWords ws + checksum = 0) (i : Nat) (h : firstBadWord ws = some i) :
    checkDescriptor location checksum ws = .error (.range, i) := by
  unfold checkDescriptor
  dsimp only
  rw [if_neg (fun g => g hs), if_neg (fun g => g hsum), h]

/-- The tests of signed and summed words that are in range: the two windows' ends, then the six pairs. -/
theorem checkDescriptor_inRange (location : BitVec 3) (checksum : Word) (ws : List Word)
    (hs : ws.getD 0 0 = Config.bindSignature) (hsum : sumWords ws + checksum = 0) (h : firstBadWord ws = none) :
    checkDescriptor location checksum ws =
      let b := bindingOf location ws
      if b.pointRange.1 + b.pointRange.2 > Config.spaceEnd then .error (.range, 1)
      else if b.ringRange.1 + b.ringRange.2 > Config.spaceEnd then .error (.range, 3)
      else match b.pairs.find? fun p => p.2.1.overlaps p.2.2 with
        | some p => .error (.overlap, p.1)
        | none => .ok b := by
  unfold checkDescriptor
  dsimp only
  rw [if_neg (fun g => g hs), if_neg (fun g => g hsum), h] <;> rfl

/-- The windows of a binding read out of words in range, in the words' numbers. -/
theorem Binding.Reads.windows {b : Binding} {location : BitVec 3} {ws : List Word} (r : b.Reads location ws) :
    b.pointRange = ((ws.getD 1 0).toNat, 3072 * ((ws.getD 5 0).toNat % 8)) ∧
    b.mailboxRange = ((ws.getD 2 0).toNat, 64) ∧
    b.ringRange = ((ws.getD 3 0).toNat, 16 + 16 * (ws.getD 4 0).toNat) ∧
    b.descriptorRange = (location.toNat * 0x200000, 40) := by
  refine ⟨?_, ?_, ?_, ?_⟩
  · rw [Binding.pointRange, r.pointBase, r.loops, Nat.mul_comm]
  · rw [Binding.mailboxRange, r.mailboxBase]
  · rw [Binding.ringRange, r.ringBase, r.capacity]
  · rw [Binding.descriptorRange, r.location, descriptorBase]

/-- Each window of a pair holds a byte. -/
theorem Binding.pair_positive {b : Binding} (h : 1 ≤ b.loops) (p : Nat × Range × Range) (hp : p ∈ b.pairs) :
    0 < p.2.1.2 ∧ 0 < p.2.2.2 := by
  simp only [Binding.pairs, Binding.pointRange, Binding.mailboxRange, Binding.ringRange, Binding.descriptorRange, List.mem_cons,
    List.not_mem_nil, or_false] at hp
  rcases hp with rfl | rfl | rfl | rfl | rfl | rfl <;> dsimp only <;> omega

/-- Settles O27: the tests are taken apart in their order; a window's range is read out of words that are in range. -/
theorem descriptorTestsInOrder : Obligations.DescriptorTestsInOrder := by
  intro location checksum ws _
  dsimp only
  have inRange (hs : ws.getD 0 0 = Config.bindSignature) (hsum : sumWords ws + checksum = 0)
      (h : ∀ j, 1 ≤ j → j ≤ 7 → DescriptorWordRight j (ws.getD j 0)) :=
    checkDescriptor_inRange location checksum ws hs hsum ((firstBadWord_eq_none ws).mpr h)
  refine ⟨checkDescriptor_signature location checksum ws, checkDescriptor_checksum location checksum ws,
    fun i hs hsum hi hb hbad => checkDescriptor_range location checksum ws hs hsum _ (firstBadWord_eq_some ws i hi hb hbad),
    fun hs hsum h ht => ?_, fun hs hsum h ht hr => ?_, fun before n x y after hs hsum h ht hr hp hfree hmeet => ?_,
    fun hs hsum h ht hr hfree => ?_⟩
  all_goals
    have reads := bindingOf_reads location ws h
    have hloops : 1 ≤ (bindingOf location ws).loops := by
      have h5 : DescriptorWordRight 5 (ws.getD 5 0) := h 5 (by omega) (by omega)
      rw [reads.loops]
      exact h5.2.1
    obtain ⟨w1, w2, w3, w4⟩ := reads.windows
    rw [inRange hs hsum h]
    dsimp only
    rw [w1, w3]
  case refine_1 => exact if_pos (Nat.lt_of_not_le ht)
  case refine_2 => exact (if_neg (Nat.not_lt.mpr ht)).trans (if_pos (Nat.lt_of_not_le hr))
  case refine_3 =>
    refine (if_neg (Nat.not_lt.mpr ht)).trans ((if_neg (Nat.not_lt.mpr hr)).trans ?_)
    have pairs : (bindingOf location ws).pairs = before ++ (n, x, y) :: after := by
      rw [Binding.pairs, w1, w2, w3, w4]; exact hp
    have meets (p : Nat × Range × Range) (hp : p ∈ before ++ (n, x, y) :: after) :=
      Binding.pair_positive hloops p (pairs ▸ hp)
    have none : before.find? (fun p => p.2.1.overlaps p.2.2) = none := by
      rw [List.find?_eq_none]
      intro p hp
      obtain ⟨h1, h2⟩ := meets p (List.mem_append_left _ hp)
      rw [Range.overlaps_iff _ _ h1 h2]
      exact hfree p hp
    have here : x.overlaps y = true := by
      obtain ⟨h1, h2⟩ := meets (n, x, y) (by simp)
      exact (Range.overlaps_iff _ _ h1 h2).mpr hmeet
    rw [pairs, List.find?_append, none, List.find?_cons, here]
    rfl
  case refine_4 =>
    have apart : ∀ p ∈ (bindingOf location ws).pairs, p.2.1.overlaps p.2.2 = false := by
      intro p hp
      obtain ⟨h1, h2⟩ := Binding.pair_positive hloops p hp
      rw [← Bool.not_eq_true, Range.overlaps_iff _ _ h1 h2]
      refine hfree p ?_
      rw [Binding.pairs, w1, w2, w3, w4] at hp
      exact hp
    have none : (bindingOf location ws).pairs.find? (fun p => p.2.1.overlaps p.2.2) = none := by
      rw [List.find?_eq_none]
      intro p hp
      rw [apart p hp]; nofun
    refine ⟨bindingOf location ws, (if_neg (Nat.not_lt.mpr ht)).trans ((if_neg (Nat.not_lt.mpr hr)).trans ?_), ?_⟩
    · rw [none]
    · exact ⟨reads.legal h (by rw [w1]; exact ht) (by rw [w3]; exact hr) apart, reads.location, reads.pointBase,
        reads.mailboxBase, reads.ringBase, reads.capacity, reads.loops, reads.autoWithdraw, reads.silenceTimeout,
        reads.noreplyLimit, reads.coincidenceWindow, reads.classMask, reads.irqEnable⟩

end Sys2Proof.Machine
end

