-- ==== Sys2Proof/Proofs/BlocksKept.lean ====
section
/-! SUPPORT. Every step passes the facts about the blocks on; O6, O7, O8 and O9 are settled here, with the first two parts of
O10. -/

namespace Sys2Proof.Machine

/-! ### Binding -/

/-- The binding state replaced, with what goes into BOUND beside it: it passes on when a binding it brings is legal. -/
theorem Chip.BlockStep.bind (c : Chip) (b : BindState) (i : InternalMaster) (s n : Nat) (w : Writer) (q : Bool)
    (hw : c.QueueBounded → w.queue.length ≤ Config.pendingLimit)
    (hb : c.BindingLegal → ∀ x, b.binding = some x → x.Legal) :
    c.BlockStep { c with bind := b, im := i, seconds := s, refCount := n, writer := w, irqPin := q } :=
  ⟨hw, id, id, id, id, hb, id, id⟩

theorem Chip.startCheck_step (c : Chip) (l : BitVec 3) (w : Word) : c.BlockStep (c.startCheck l w) :=
  .bind c _ _ c.seconds c.refCount c.writer c.irqPin id nofun

/-- A check's phase replaced. -/
theorem Chip.checkingStep (c : Chip) (k : Check) (i : InternalMaster)
    (hk : c.BindingLegal → ∀ x, (BindState.checking k).binding = some x → x.Legal) :
    c.BlockStep { c with bind := .checking k, im := i } :=
  .bind c _ _ c.seconds c.refCount c.writer c.irqPin id hk

theorem Chip.descriptorRead_step (c : Chip) (k : Check) (d : Word) (hk : k.phase = .reading) :
    c.BlockStep (c.descriptorRead k d) := by
  unfold Chip.descriptorRead
  dsimp only
  split
  · exact c.checkingStep _ _ nofun
  · split
    · exact c.checkingStep _ _ fun _ x hx => by simp [BindState.binding, hk] at hx
    · split
      · exact c.checkingStep _ _ nofun
      · rename_i b hb
        refine c.checkingStep _ _ fun _ x hx => ?_
        cases hx
        exact (checkDescriptor_ok _ _ _ _ hb).1

theorem Chip.bindingAccessDone_step (c : Chip) (d : Word) : c.BlockStep (c.bindingAccessDone d) := by
  unfold Chip.bindingAccessDone
  split
  · rename_i k hc
    split
    · rename_i hk; exact c.descriptorRead_step k d hk
    · exact .bind c _ c.im c.seconds c.refCount c.writer c.irqPin id nofun
    · rename_i b hk
      refine c.checkingStep _ _ fun h x hx => h x ?_
      rw [hc]; simp only [BindState.binding, hk]; exact hx
    · rename_i b hk
      refine .bind c _ c.im _ _ _ _ (fun _ => Nat.zero_le _) fun h x hx => h x ?_
      rw [hc]; simp only [BindState.binding, hk]; exact hx
  · exact .refl c

/-! ### The end of an access -/

/-- The tables after an unbinding (R76, R124, R143). -/
theorem Chip.unbindBlocks_tables (c : Chip) :
    (∀ r : Rec, c.unbindBlocks.points[r] = c.points[r].afterUnbind (c.suppression r)) ∧
    (∀ z : Zone, c.unbindBlocks.zones[z] = { c.zones[z] with walkSlot := none, opener := none }) ∧
    ∀ k : Fin 4, c.unbindBlocks.slots[k] = none :=
  ⟨fun r => getElem_tabulate _ r.val r.isLt, fun z => getElem_tableMap _ c.zones z.val z.isLt,
    fun _ => Vector.getElem_replicate _⟩

/-- No point holds FIRE where every verdict is NONE. -/
theorem Chip.fires_eq_zero {c : Chip} (h : ∀ r : Rec, c.points[r].verdict = .none) : c.fires = 0 := by
  rw [Chip.fires, List.countP_eq_zero]
  intro p hp
  obtain ⟨i, hi, rfl⟩ := List.getElem_of_mem hp
  have := h ⟨i, by simpa using hi⟩
  simp only [Fin.getElem_fin] at this
  simp [this]

theorem Chip.RestoreChecked.of_idle {c : Chip} (h : c.command = none) : c.RestoreChecked := by
  intro m s t hm; rw [h] at hm; cases hm

theorem Chip.BindingLegal.of_unbound {c : Chip} (h : c.bind = .unbound) : c.BindingLegal := by
  intro b hb; rw [h] at hb; cases hb

theorem Chip.SlotsLinked.of_free {c : Chip} (hz : ∀ z : Zone, c.zones[z].walkSlot = none) (hs : ∀ k : Fin 4, c.slots[k] = none) :
    c.SlotsLinked := by
  constructor
  · intro z k; rw [hz, hs]; simp
  · intro j k v w hv; rw [hs] at hv; cases hv

theorem Chip.HitsBounded.of_free {c : Chip} (hs : ∀ k : Fin 4, c.slots[k] = none) : c.HitsBounded := by
  intro k w hw; rw [hs] at hw; cases hw

/-- An unbinding leaves what STATE says about its point (R76). -/
theorem PointRecord.afterUnbind_facts (p : PointRecord) (b : Bool) (e : Option PlanEntry) (h : p.Facts e) :
    (p.afterUnbind b).Facts e := h

theorem PointRecord.afterUnbind_inRange (p : PointRecord) (b : Bool) (h : p.InRange) : (p.afterUnbind b).InRange := by
  obtain ⟨-, -, -, h4⟩ := h
  exact ⟨Nat.zero_le _, Nat.zero_le _, Nat.zero_le _, h4⟩

theorem Chip.unbindBlocks_step (c : Chip) : c.BlockStep c.unbindBlocks := by
  obtain ⟨points, zones, slots⟩ := c.unbindBlocks_tables
  have fires : c.unbindBlocks.fires = 0 := Chip.fires_eq_zero fun r => by rw [points]; rfl
  have linked : c.unbindBlocks.SlotsLinked := .of_free (fun z => by rw [zones]) slots
  have consents (h : c.ZonesFollowMask) : c.unbindBlocks.ZonesFollowMask := fun z => by rw [zones]; exact h z
  have facts (h : c.PointsConsistent) : c.unbindBlocks.PointsConsistent :=
    ⟨.of_idle rfl, fun r => by rw [points]; exact PointRecord.afterUnbind_facts _ _ _ (h.2 r)⟩
  have ranges (h : c.PointsInRange) : c.unbindBlocks.PointsInRange := fun r => by
    rw [points]; exact PointRecord.afterUnbind_inRange _ _ (h r)
  exact ⟨fun _ => Nat.zero_le _, fun _ => .of_free slots, fun _ => ⟨fires.symm, rfl⟩, consents, fun _ => linked,
    fun _ => .of_unbound rfl, facts, ranges⟩

theorem Chip.unbindByCommand_step (c : Chip) : c.BlockStep c.unbindByCommand :=
  c.unbindBlocks_step.trans (Chip.SameBlocks.step {})

theorem Chip.unbindByHostReset_step (c : Chip) : c.BlockStep c.unbindByHostReset :=
  c.unbindBlocks_step.trans (Chip.SameBlocks.step {})

/-- The writer replaced by one whose queue is as it was. -/
theorem Chip.writer_step (c : Chip) (w : Writer) (i : InternalMaster) (h : w.queue = c.writer.queue) :
    c.BlockStep { c with writer := w, im := i } :=
  Chip.SameBlocks.step { queue := fun hc => by rw [Chip.QueueBounded]; exact h ▸ hc }

theorem Chip.settleIrq_step (c : Chip) : c.BlockStep c.settleIrq := Chip.SameBlocks.step {}

/-- A ring copy moved, IRQ settled, and the next record started. -/
theorem Chip.copy_step (c : Chip) (w : Writer) (h : w.queue = c.writer.queue) :
    c.BlockStep (Chip.startRecord (Chip.settleIrq { c with writer := w })) := by
  have moved : c.BlockStep { c with writer := w } := c.writer_step w c.im h
  exact (moved.trans (Chip.settleIrq_step _)).trans (Chip.startRecord_step _)

theorem Chip.reportWriteDone_step (c : Chip) : c.BlockStep c.reportWriteDone := by
  unfold Chip.reportWriteDone
  split
  · dsimp only
    split
    · exact c.writer_step _ _ rfl
    · exact c.copy_step _ rfl
  · exact .refl c

theorem Chip.consumerDone_step (c : Chip) (w : Word) : c.BlockStep (c.consumerDone w) := by
  unfold Chip.consumerDone
  split
  · dsimp only
    split
    · exact c.copy_step _ rfl
    · exact .refl c
  · exact .refl c

theorem Chip.malformedReply_step (c : Chip) (r : Rec) (w : Word) (be : BitVec 4) : c.BlockStep (c.malformedReply r w be) := by
  have latch : c.BlockStep { c with latch := none } := Chip.SameBlocks.step {}
  have flagged := Chip.modPoint_step { c with latch := none } r (fun p => p.latch .badWrite)
    (.of_same rfl rfl rfl rfl rfl id)
  exact (latch.trans flagged).trans (Chip.raise_step _ _)

theorem Chip.takeCommand_step (c : Chip) (w : Word) : c.BlockStep (c.takeCommand w) := by
  unfold Chip.takeCommand
  split
  · have marks : c.BlockStep { c with prepared := false, overrun := false } := Chip.SameBlocks.step {}
    refine marks.trans (.command _ _ _ _ fun _ => Chip.InstallsNothing.restoreChecked fun x hx => ?_)
    cases hx
    exact fun _ => nofun
  · exact .refl c

theorem Chip.formReply_step (c : Chip) (r : Rec) (w : Word) : c.BlockStep (c.formReply r w) := by
  unfold Chip.formReply
  dsimp only
  split <;> exact Chip.SameBlocks.step {}

theorem Chip.deliver_step (c : Chip) (t : Treatment) (w : Word) (be : BitVec 4) : c.BlockStep (c.deliver t w be) := by
  cases t with
  | trigger l => exact c.startCheck_step l w
  | serialWrite r => exact Chip.SameBlocks.step {}
  | replyWrite r => exact c.formReply_step r w
  | malformedWrite r => exact c.malformedReply_step r w be
  | commandWrite => exact c.takeCommand_step w
  | consumerWrite => exact c.consumerDone_step w
  | _ => exact .refl c

theorem Chip.commandAccessDone_step (c : Chip) (d : Word) : c.BlockStep (c.commandAccessDone d) := by
  obtain h | h | ⟨p, x, h, -⟩ | ⟨h, -⟩ := c.commandAccessDone_cases d
  · rw [h]; exact .refl c
  · exact h.blockStep
  · rw [h]
    have idle : c.BlockStep { c with command := none, transfer := none } :=
      .command c none none c.im fun _ => .of_idle rfl
    have marks : Chip.BlockStep { c with command := none, transfer := none }
        { c with command := none, transfer := none, prepared := p } := Chip.SameBlocks.step {}
    exact (idle.trans marks).trans (Chip.raise_step _ x)
  · rw [h]; exact c.unbindByCommand_step

theorem Chip.handBack_step (c : Chip) (cl : Client) (d : Word) : c.BlockStep (c.handBack cl d) := by
  cases cl with
  | binding => exact c.bindingAccessDone_step d
  | command => exact c.commandAccessDone_step d
  | report => exact c.reportWriteDone_step

theorem Chip.accessDone_step (c : Chip) : c.BlockStep c.accessDone := by
  apply c.accessDone_cases (P := c.BlockStep)
  case idle => exact fun _ => .refl c
  case noHost => exact fun _ _ => Chip.SameBlocks.step {}
  case read => exact fun _ _ _ _ _ => Chip.SameBlocks.step {}
  case write => exact fun _ _ _ _ _ _ => (Chip.SameBlocks.step {}).trans (Chip.deliver_step _ _ _ _)
  case internal => exact fun _ _ _ => (Chip.SameBlocks.step {}).trans (Chip.handBack_step _ _ _)
  case orphan => exact fun _ _ => Chip.SameBlocks.step {}
  case abandoned => exact fun _ _ => Chip.SameBlocks.step {}

/-! ### Consents -/

theorem Chip.loopConsentEvent_step (c : Chip) (l : Loop) (w : Bool) : c.BlockStep (c.loopConsentEvent l w) := by
  have owe (d : Chip) : d.BlockStep (d.oweRederivations (loopRecords l)) := Chip.SameBlocks.step {}
  unfold Chip.loopConsentEvent
  dsimp only
  split
  · exact (c.raise_step _).trans (owe _)
  · exact owe c

theorem Chip.sampleInput_step (c : Chip) (liso : BitVec 4) (l : Loop) : c.BlockStep (c.sampleInput liso l) := by
  have filtered (f : Vector Bool 4) (n : Vector Nat 4) : c.BlockStep { c with lisoFiltered := f, lisoStable := n } :=
    Chip.SameBlocks.step {}
  unfold Chip.sampleInput
  dsimp only
  split
  · exact filtered _ _
  · split
    · exact (filtered _ _).trans (Chip.loopConsentEvent_step _ l _)
    · exact filtered _ _

/-- What a zone load does to zones, slots and the writer, but for the consents: zone records keep their slots, slots their zones
and phases. -/
structure Chip.LoadMove (c d : Chip) : Prop where
  walkSlot : ∀ z : Zone, d.zones[z].walkSlot = c.zones[z].walkSlot
  slots : ∀ k : Fin 4, SlotStep c.slots[k] d.slots[k]
  writer : c.writer.Step d.writer

theorem Chip.LoadMove.refl (c : Chip) : c.LoadMove c := ⟨fun _ => rfl, fun _ => .refl _, .refl _⟩

theorem Chip.LoadMove.trans {c d e : Chip} (h : c.LoadMove d) (g : d.LoadMove e) : c.LoadMove e :=
  ⟨fun z => (g.walkSlot z).trans (h.walkSlot z), fun k => (h.slots k).trans (g.slots k), h.writer.trans g.writer⟩

theorem Chip.AlarmMove.load {c d : Chip} (h : c.AlarmMove d) : c.LoadMove d := ⟨fun z => (h.zones z).2, h.slots, h.writer⟩

/-- One zone's consent after its change: the mask's, for that zone alone (R95). -/
theorem Chip.zoneConsentChange_zones (c : Chip) (z : RealZone) (y : Zone) :
    (c.zoneConsentChange z).zones[y] =
      if realZone z = y then { c.zones[y] with withheld := c.zoneMask.getLsbD z.val } else c.zones[y] := by
  simp only [Chip.zoneConsentChange, Fin.getElem_fin, Chip.raiseZone_frame, Chip.modZone_zones, ← Fin.ext_iff]
  split
  · rename_i h; rw [h]
  · rfl

@[simp] theorem Chip.zoneConsentChange_zoneMask (c : Chip) (z : RealZone) : (c.zoneConsentChange z).zoneMask = c.zoneMask := by
  simp [Chip.zoneConsentChange]

theorem Chip.zoneConsentChange_load (c : Chip) (z : RealZone) : c.LoadMove (c.zoneConsentChange z) where
  walkSlot y := by
    rw [Chip.zoneConsentChange_zones]
    split <;> rfl
  slots k := by simpa [Chip.zoneConsentChange] using .refl _
  writer := Chip.raise_writerStep _ _

theorem Chip.isolateZone_load (c : Chip) (z : RealZone) : c.LoadMove (c.isolateZone z) := by
  unfold Chip.isolateZone
  split
  · split
    · exact (c.requestEnd_move _ _).load
    · exact .refl c
  · exact .refl c

/-- The consents after the changes of a list of zones (R95). -/
theorem Chip.consentChanges_zones (zs : List RealZone) (c : Chip) :
    (zs.foldl Chip.zoneConsentChange c).zoneMask = c.zoneMask ∧ ∀ y : Zone,
      (zs.foldl Chip.zoneConsentChange c).zones[y] =
        if y ∈ zs.map realZone then { c.zones[y] with withheld := maskWithholds c.zoneMask y } else c.zones[y] := by
  induction zs generalizing c with
  | nil => simp
  | cons z t ih =>
    obtain ⟨hmask, hzones⟩ := ih (c.zoneConsentChange z)
    refine ⟨hmask.trans (c.zoneConsentChange_zoneMask z), fun y => ?_⟩
    rw [List.foldl_cons, hzones y, Chip.zoneConsentChange_zones, Chip.zoneConsentChange_zoneMask]
    have own : realZone z = y → maskWithholds c.zoneMask y = c.zoneMask.getLsbD z.val := by
      rintro rfl
      simp [maskWithholds, realZone]
    by_cases hz : realZone z = y
    · rw [if_pos hz]
      simp only [List.map_cons, List.mem_cons, hz.symm, true_or, if_true]
      split
      · rfl
      · subst hz; rw [own rfl]
    · rw [if_neg hz]
      have : y ∈ (z :: t).map realZone ↔ y ∈ t.map realZone := by simp [Ne.symm hz]
      simp only [this]

@[simp] theorem Chip.isolateZone_zones (c : Chip) (z : RealZone) :
    (c.isolateZone z).zones = c.zones ∧ (c.isolateZone z).zoneMask = c.zoneMask := by
  unfold Chip.isolateZone
  split
  · split <;> simp
  · simp

theorem Chip.isolates_zones (zs : List RealZone) (c : Chip) :
    (zs.foldl Chip.isolateZone c).zones = c.zones ∧ (zs.foldl Chip.isolateZone c).zoneMask = c.zoneMask :=
  kept_foldl (P := fun d => d.zones = c.zones ∧ d.zoneMask = c.zoneMask) _
    (fun d z h => by simpa using h) zs c ⟨rfl, rfl⟩

/-- A zone changes exactly when its two mask bits differ. -/
theorem mem_changedZones (old new : BitVec 96) (z : RealZone) :
    z ∈ changedZones old new ↔ old.getLsbD z.val ≠ new.getLsbD z.val := by
  simp [changedZones, List.mem_finRange]

/-- The Zone Table after a load: the changed zones have their new consent, every other record stands (R95). -/
theorem Chip.loadZones_zones (c : Chip) (y : Zone) : c.loadZones.zones[y] =
    if y ∈ (changedZones c.zoneMask c.shiftRegister).map realZone then
      { c.zones[y] with withheld := maskWithholds c.shiftRegister y } else c.zones[y] := by
  have owes (d : Chip) (rs : List Rec) : (d.oweRederivations rs).zones = d.zones := rfl
  unfold Chip.loadZones
  dsimp only
  rw [owes, (Chip.isolates_zones _ _).1, (Chip.consentChanges_zones _ _).2 y]

theorem Chip.loadZones_load (c : Chip) : c.LoadMove c.loadZones := by
  have masked : c.LoadMove { c with zoneMask := c.shiftRegister } := ⟨fun _ => rfl, fun _ => .refl _, .refl _⟩
  have owes (d : Chip) (rs : List Rec) : d.LoadMove (d.oweRederivations rs) := ⟨fun _ => rfl, fun _ => .refl _, .refl _⟩
  have changed := kept_foldl (P := c.LoadMove) Chip.zoneConsentChange (fun d z h => h.trans (d.zoneConsentChange_load z))
    (changedZones c.zoneMask c.shiftRegister) _ masked
  have isolated := kept_foldl (P := c.LoadMove) Chip.isolateZone (fun d z h => h.trans (d.isolateZone_load z))
    (changedZones c.zoneMask c.shiftRegister) _ changed
  exact isolated.trans (owes _ _)

/-- A load leaves the Zone Table and the mask in agreement (R95). -/
theorem Chip.loadZones_follow (c : Chip) (h : c.ZonesFollowMask) : c.loadZones.ZonesFollowMask := by
  intro y
  have mask : c.loadZones.zoneMask = c.shiftRegister := by obtain ⟨_, _, _, _, _, e⟩ := c.loadZones_shape; rw [e]
  rw [Chip.loadZones_zones, mask]
  split
  · rfl
  · rename_i hy
    rw [h y]
    unfold maskWithholds
    by_cases hreal : y.val < 96
    · have same : ¬c.zoneMask.getLsbD y.val ≠ c.shiftRegister.getLsbD y.val := fun hne =>
        hy (List.mem_map.mpr ⟨⟨y.val, hreal⟩, (mem_changedZones _ _ _).mpr hne, rfl⟩)
      rw [not_not.mp same]
    · simp [hreal]

theorem Chip.loadZones_step (c : Chip) : c.BlockStep c.loadZones := by
  obtain ⟨walkSlot, slots, -, -, hqueue⟩ := c.loadZones_load
  have linked : c.SlotsLinked → c.loadZones.SlotsLinked := .of_slotSteps walkSlot slots
  have consents := c.loadZones_follow
  obtain ⟨_, _, _, _, _, e⟩ := c.loadZones_shape
  rw [e] at hqueue slots linked consents ⊢
  exact ⟨hqueue, fun h k => (slots k).hits (h k), id, consents, linked, id, id, id⟩

/-! ### Ticks -/

theorem Chip.tick_step (c : Chip) : c.BlockStep c.tick := by
  obtain ⟨_, _, _, h⟩ := c.tick_shape
  rw [h]; exact Chip.SameBlocks.step {}

theorem Chip.countEdge_step (c : Chip) : c.BlockStep c.countEdge := by
  unfold Chip.countEdge
  split
  · split
    · exact c.tick_step
    · exact Chip.SameBlocks.step {}
  · exact .refl c

theorem Chip.nextTick_step (c : Chip) : c.BlockStep c.nextTick := by
  unfold Chip.nextTick
  split
  · exact Chip.BlockStep.trans (Chip.SameBlocks.step {}) (Chip.tick_step _)
  · exact .refl c

theorem Chip.compareSlot_step (c : Chip) (k : Fin 4) : c.BlockStep (c.compareSlot k) := by
  unfold Chip.compareSlot
  split
  · have owed : c.BlockStep { c with walkOwed := c.walkOwed.filter (· != k) } := Chip.SameBlocks.step {}
    dsimp only
    split
    · split
      · exact owed.trans (Chip.requestEnd_move _ k _).blockStep
      · exact owed
    · exact owed
  · exact .refl c

/-! ### Power -/

/-- The tables after power-on reset (R49, R76, R124, R143). -/
theorem Chip.powerOn_tables (c : Chip) :
    (∀ r : Rec, c.powerOn.points[r] = PointRecord.fresh c.lisoFiltered[loopOf r] ∧ c.powerOn.plan[r] = none) ∧
    (∀ z : Zone, c.powerOn.zones[z] = ZoneRecord.fresh) ∧ ∀ k : Fin 4, c.powerOn.slots[k] = none :=
  ⟨fun r => ⟨getElem_tabulate _ r.val r.isLt, Vector.getElem_replicate _⟩, fun _ => Vector.getElem_replicate _,
    fun _ => Vector.getElem_replicate _⟩

theorem maskWithholds_zero (z : Zone) : maskWithholds 0 z = false := by simp [maskWithholds]

/-- A fresh point is in no STATE that says anything (R59, R76). -/
theorem PointRecord.fresh_facts (b : Bool) : (PointRecord.fresh b).Facts none ∧ (PointRecord.fresh b).InRange :=
  ⟨⟨⟨rfl, rfl⟩, nofun⟩, Nat.zero_le _, Nat.zero_le _, Nat.zero_le _, Nat.zero_le _⟩

theorem Chip.powerOn_step (c : Chip) : c.BlockStep c.powerOn := by
  obtain ⟨points, zones, slots⟩ := c.powerOn_tables
  have fires : c.powerOn.fires = 0 := Chip.fires_eq_zero fun r => by rw [(points r).1]; rfl
  have linked : c.powerOn.SlotsLinked := .of_free (fun z => by rw [zones]; rfl) slots
  have consents : c.powerOn.ZonesFollowMask := fun z => by rw [zones]; exact (maskWithholds_zero z).symm
  have facts : c.powerOn.PointsConsistent :=
    ⟨.of_idle rfl, fun r => by rw [(points r).1, (points r).2]; exact (PointRecord.fresh_facts _).1⟩
  have ranges : c.powerOn.PointsInRange := fun r => by rw [(points r).1]; exact (PointRecord.fresh_facts _).2
  exact ⟨fun _ => Nat.zero_le _, fun _ => .of_free slots, fun _ => ⟨fires.symm, rfl⟩, fun _ => consents, fun _ => linked,
    fun _ => .of_unbound rfl, fun _ => facts, fun _ => ranges⟩

/-- Every point's derived fields derived anew. -/
def Chip.deriveAll (c : Chip) : Chip := { c with points := Table.tabulate fun r => c.derived r c.points[r] }

theorem Chip.deriveAll_points (c : Chip) (r : Rec) : c.deriveAll.points[r] = c.derived r c.points[r] :=
  getElem_tabulate _ r.val r.isLt

theorem Chip.derived_facts (c : Chip) (r : Rec) (p : PointRecord) (e : Option PlanEntry) :
    (c.derived r p).Facts e ↔ p.Facts e := Iff.rfl

theorem Chip.derived_inRange (c : Chip) (r : Rec) (p : PointRecord) : (c.derived r p).InRange ↔ p.InRange := Iff.rfl

theorem Chip.deriveAll_step (c : Chip) : c.BlockStep c.deriveAll := by
  have points := c.deriveAll_points
  obtain ⟨p, shape⟩ : ∃ p, c.deriveAll = { c with points := p } := ⟨_, rfl⟩
  rw [shape] at points ⊢
  refine ⟨id, id, Chip.FireRight.of_verdicts (c := c) (fun r => ?_) rfl rfl, id, id, id, fun h => ⟨h.1, fun r => ?_⟩, fun h r => ?_⟩
  · rw [points]; rfl
  · rw [points, c.derived_facts]; exact h.2 r
  · rw [points, c.derived_inRange]; exact h r

theorem Chip.powerOnRelease_step (c : Chip) (liso : BitVec 4) : c.BlockStep (c.powerOnRelease liso) := by
  unfold Chip.powerOnRelease
  split
  · have filtered (f : Vector Bool 4) (n : Vector Nat 4) :
        c.BlockStep { c with porLow := false, lisoStable := n, lisoFiltered := f } := Chip.SameBlocks.step {}
    exact (filtered _ _).trans (Chip.deriveAll_step _)
  · exact .refl c

/-! ### Every step -/

/-- Whatever the start, every move passes the facts about the blocks on. -/
theorem blockStep_kept (c : Chip) : Kept c.BlockStep where
  releaseHeld d h := h.trans (by obtain ⟨_, _, e⟩ := d.releaseHeld_shape; rw [e]; exact Chip.SameBlocks.step {})
  backlog d _ h := h.trans (Chip.SameBlocks.step {})
  arrive d q _ h := h.trans (by obtain ⟨_, _, _, e⟩ := d.arrive_shape q; rw [e]; exact Chip.SameBlocks.step {})
  choose d h := h.trans (Chip.SameBlocks.step {})
  grant d h := h.trans (by obtain ⟨_, _, _, e⟩ := d.grant_shape; rw [e]; exact Chip.SameBlocks.step {})
  accessDone d h := h.trans d.accessDone_step
  commandWork d h := h.trans d.commandWork_step
  takeReply d h := h.trans d.takeReply_step
  makeSilenceTest d r h := h.trans (d.makeSilenceTest_step r)
  makeRederivation d r h := h.trans (d.makeRederivation_step r)
  compareSlot d k h := h.trans (d.compareSlot_step k)
  endSlot d k h := h.trans (d.endSlot_step k)
  sweepSlot d k h := h.trans (d.sweepSlot_step k)
  startRecord d h := h.trans d.startRecord_step
  sampleInput d liso l h := h.trans (d.sampleInput_step liso l)
  countEdge d h := h.trans d.countEdge_step
  nextTick d h := h.trans d.nextTick_step
  loadZones d h := h.trans d.loadZones_step
  shiftChain d b h := h.trans (Chip.SameBlocks.step {})
  unbindByHostReset d h := h.trans d.unbindByHostReset_step
  dsel d _ h := h.trans (Chip.SameBlocks.step {})
  hrstLow d _ h := h.trans (Chip.SameBlocks.step {})
  powerOn d h := h.trans d.powerOn_step
  powerOnRelease d liso h := h.trans (d.powerOnRelease_step liso)

/-- So every step passes them on. -/
theorem step_blockStep (s t : State) (h : step s = .next t) : s.chip.BlockStep t.chip :=
  (blockStep_kept s.chip).stepKeeps s t (.refl _) h

/-- Settles O6: the Intake Queue and STARVE COUNT rest on the memory path, the pending queue and the hit lists on the blocks. -/
theorem queuesAndCountsStayBounded : Obligations.QueuesAndCountsStayBounded :=
  ⟨intakeBounded_kept.stepKeeps, fun s t h e => (step_blockStep s t e).queue h, starveBounded_kept.stepKeeps,
    fun s t h e => (step_blockStep s t e).hits h⟩

/-- Settles O7: the FIRE count follows the verdicts through every move of the blocks, and IRQ is settled where a copy moves. -/
theorem outputPinsFollowTheirCounts : Obligations.OutputPinsFollowTheirCounts :=
  ⟨fun s t h e => (step_blockStep s t e).fires h, irqRight_kept.stepKeeps⟩

/-- Settles O8: a load writes the consents it changes; a start and an end event write zone record and slot together. -/
theorem zonesMaskAndSlotsAgree : Obligations.ZonesMaskAndSlotsAgree :=
  ⟨fun s t h e => (step_blockStep s t e).zones h, fun s t h e => (step_blockStep s t e).slots h⟩

/-- Settles O9: a binding comes from a descriptor that passed its tests. -/
theorem bindingStaysLegal : Obligations.BindingStaysLegal := fun s t h e => (step_blockStep s t e).binding h

end Sys2Proof.Machine
end

