-- ==== Sys2Proof/Proofs/DormantFacts.lean ====
section
/-! SUPPORT. While the part is not BOUND nothing of a binding is left (R32, R52, R55, R76, R97, R102, R124, R143, R157, R183): each
move does nothing there, or touches nothing that a binding leaves behind. O11 is settled here. -/

namespace Sys2Proof.Machine

/-- The points of a part that is not BOUND. -/
def Chip.PointsAsleep (c : Chip) : Prop :=
  ∀ r : Rec, c.points[r].presence = .absent ∧ c.points[r].verdict = .none ∧ c.points[r].armed = false

/-- The zone records of a part that is not BOUND. -/
def Chip.ZonesAsleep (c : Chip) : Prop := ∀ z : Zone, c.zones[z].walkSlot = none ∧ c.zones[z].opener = none

/-- What dormancy looks at, as another chip has it. -/
structure Chip.SameSleep (c d : Chip) : Prop where
  host : c.HostUntaken → d.HostUntaken := by exact id
  points : c.PointsAsleep → d.PointsAsleep := by exact id
  zones : c.ZonesAsleep → d.ZonesAsleep := by exact id
  latch : d.latch = c.latch := by rfl
  intake : d.intake = c.intake := by rfl
  silenceOwed : d.silenceOwed = c.silenceOwed := by rfl
  fireCount : d.fireCount = c.fireCount := by rfl
  slots : d.slots = c.slots := by rfl
  walkOwed : d.walkOwed = c.walkOwed := by rfl
  command : d.command = c.command := by rfl
  overrun : d.overrun = c.overrun := by rfl
  prepared : d.prepared = c.prepared := by rfl
  transfer : d.transfer = c.transfer := by rfl
  writer : d.writer = c.writer := by rfl
  firePin : d.firePin = c.firePin := by rfl
  irqPin : d.irqPin = c.irqPin := by rfl

theorem Chip.Dormant.same {c d : Chip} (h : c.SameSleep d) (hc : c.Dormant) : d.Dormant where
  hostUntaken := h.host hc.hostUntaken
  latch := h.latch.trans hc.latch
  intake := h.intake.trans hc.intake
  points := h.points hc.points
  silenceOwed := h.silenceOwed.trans hc.silenceOwed
  zones := h.zones hc.zones
  fireCount := h.fireCount.trans hc.fireCount
  slots k := by rw [h.slots]; exact hc.slots k
  walkOwed := h.walkOwed.trans hc.walkOwed
  command := h.command.trans hc.command
  overrun := h.overrun.trans hc.overrun
  prepared := h.prepared.trans hc.prepared
  transfer := h.transfer.trans hc.transfer
  writer := h.writer.trans hc.writer
  firePin := h.firePin.trans hc.firePin
  irqPin := h.irqPin.trans hc.irqPin

theorem Chip.binding_eq_none (c : Chip) : c.binding = none ↔ ∀ b, c.bind ≠ .bound b := by
  unfold Chip.binding
  split
  · rename_i b hb
    simp only [reduceCtorEq, false_iff]
    exact fun h => h b hb
  · rename_i h; simpa using h

theorem Chip.binding_congr {c d : Chip} (h : d.bind = c.bind) : d.binding = c.binding := by unfold Chip.binding; rw [h]

/-- A move that leaves the path, and that a dormant part sleeps through. -/
theorem Chip.DormantUnbound.of_path {c d : Chip} (h : c.SamePath d) (hd : c.binding = none → c.Dormant → d.Dormant)
    (hc : c.DormantUnbound) : d.DormantUnbound := by
  obtain ⟨ht, hs⟩ := hc
  refine ⟨ht.of_host h.bind fun a ha l hl => ⟨a, by rw [← h.host]; exact ha, hl⟩, fun hb => ?_⟩
  rw [Chip.binding_congr h.bind] at hb
  exact hd hb (hs hb)

/-- A move that leaves the path and is nothing while not BOUND. -/
theorem Chip.DormantUnbound.of_idle {c d : Chip} (h : c.SamePath d) (hd : c.binding = none → c.Dormant → d = c)
    (hc : c.DormantUnbound) : d.DormantUnbound :=
  hc.of_path h fun hb hs => by rw [hd hb hs]; exact hs

/-! ### Each move while not BOUND -/

theorem Chip.raise_unbound (c : Chip) (x : Report) (h : c.binding = none) : c.raise x = c := by
  have : c.forms x.kind = false := by
    rw [Chip.binding_eq_none] at h
    unfold Chip.forms
    split
    · rename_i b hb; exact absurd hb (h b)
    · rfl
  unfold Chip.raise
  rw [this]
  rfl

theorem Chip.startRecord_unbound (c : Chip) (h : c.binding = none) : c.startRecord = c := by
  rw [Chip.binding_eq_none] at h
  unfold Chip.startRecord
  split
  · rename_i b hb; exact absurd hb (h b)
  · rfl

theorem Chip.countEdge_unbound (c : Chip) (h : c.binding = none) : c.countEdge = c := by
  rw [Chip.binding_eq_none] at h
  unfold Chip.countEdge
  split
  · rename_i b hb; exact absurd hb (h b)
  · rfl

theorem Chip.nextTick_unbound (c : Chip) (h : c.binding = none) : c.nextTick = c := by
  rw [Chip.binding_eq_none] at h
  unfold Chip.nextTick
  split
  · rename_i b hb; exact absurd hb (h b)
  · rfl

theorem Chip.commandWork_idle (c : Chip) (h : c.command = none) : c.commandWork = c := by
  unfold Chip.commandWork; rw [h]

theorem Chip.takeReply_empty (c : Chip) (h : c.intake = []) : c.takeReply = c := by
  unfold Chip.takeReply; rw [h]

theorem Chip.makeSilenceTest_empty (c : Chip) (r : Rec) (h : c.silenceOwed = []) : c.makeSilenceTest r = c := by
  unfold Chip.makeSilenceTest; rw [h]; rfl

theorem Chip.compareSlot_empty (c : Chip) (k : Fin 4) (h : c.walkOwed = []) : c.compareSlot k = c := by
  unfold Chip.compareSlot; rw [h]; rfl

theorem Chip.endSlot_free (c : Chip) (k : Fin 4) (h : c.slots[k] = none) : c.endSlot k = c := by
  unfold Chip.endSlot; rw [h]

theorem Chip.sweepSlot_free (c : Chip) (k : Fin 4) (h : c.slots[k] = none) : c.sweepSlot k = c := by
  unfold Chip.sweepSlot; rw [h]

theorem Chip.requestEnd_free (c : Chip) (k : Fin 4) (e : EndReason) (h : c.slots[k] = none) : c.requestEnd k e = c := by
  unfold Chip.requestEnd; rw [h]

theorem Chip.releaseHeld_untaken (c : Chip) (h : c.HostUntaken) : c.releaseHeld = c := by
  unfold Chip.releaseHeld
  split
  · rename_i hh; obtain h | ⟨l, h⟩ := h _ hh <;> cases h
  · rename_i hh; obtain h | ⟨l, h⟩ := h _ hh <;> cases h
  · rename_i hh; obtain h | ⟨l, h⟩ := h _ hh <;> cases h
  · rfl

/-- A point ABSENT is not armed by a re-derivation (R97). -/
theorem Chip.derived_absent (c : Chip) (r : Rec) (p : PointRecord) (h : p.presence = .absent) : (c.derived r p).armed = false := by
  simp [Chip.derived, armedOf, h, Presence.armable]

theorem Chip.PointsAsleep.rederive {c : Chip} (r : Rec) (h : c.PointsAsleep) : (c.rederive r).PointsAsleep := by
  intro i
  simp only [Fin.getElem_fin, Chip.rederive_points]
  split
  · rename_i hi
    obtain ⟨h1, h2, h3⟩ := h r
    exact ⟨h1, h2, c.derived_absent r _ h1⟩
  · exact h i

theorem Chip.makeRederivation_sleep (c : Chip) (r : Rec) : c.SameSleep (c.makeRederivation r) := by
  unfold Chip.makeRederivation
  split
  · have asleep (h : c.PointsAsleep) :
        Chip.PointsAsleep (Chip.rederive { c with rederivations := c.rederivations.filter (fun o => o.point != r) } r) :=
      Chip.PointsAsleep.rederive (c := { c with rederivations := c.rederivations.filter (fun o => o.point != r) }) r h
    exact { points := asleep }
  · exact {}

theorem Chip.loops_unbound (c : Chip) (h : c.binding = none) : c.loops = 0 := by
  rw [Chip.binding_eq_none] at h
  unfold Chip.loops
  split
  · rename_i b hb; exact absurd hb (h b)
  · rfl

theorem Chip.sampleInput_sleep (c : Chip) (liso : BitVec 4) (l : Loop) (h : c.binding = none) :
    c.SameSleep (c.sampleInput liso l) := by
  unfold Chip.sampleInput
  dsimp only
  split
  · exact {}
  · split
    · have quiet (f : Vector Bool 4) (n : Vector Nat 4) (w : Bool) :
          Chip.loopConsentEvent { c with lisoFiltered := f, lisoStable := n } l w =
            Chip.oweRederivations { c with lisoFiltered := f, lisoStable := n } (loopRecords l) := by
        have : ¬l.val < Chip.loops { c with lisoFiltered := f, lisoStable := n } := by
          rw [Chip.loops_unbound { c with lisoFiltered := f, lisoStable := n } h]; exact Nat.not_lt_zero _
        unfold Chip.loopConsentEvent
        rw [if_neg this]
      rw [quiet]
      exact {}
    · exact {}

theorem Chip.zoneConsentChange_unbound (c : Chip) (z : RealZone) (h : c.binding = none) :
    c.zoneConsentChange z = c.modZone (realZone z) fun zr => { zr with withheld := c.zoneMask.getLsbD z.val } :=
  Chip.raise_unbound _ _ h

/-- A zone load finds no slot and raises nothing (R99, R101). -/
theorem Chip.loadZones_sleep (c : Chip) (h : c.binding = none) (hs : ∀ k : Fin 4, c.slots[k] = none) :
    c.SameSleep c.loadZones := by
  have zones (hz : c.ZonesAsleep) : c.loadZones.ZonesAsleep := fun z => by
    rw [c.loadZones_zones]
    split <;> exact hz z
  have writer : c.loadZones.writer = c.writer := by
    have changed (zs : List RealZone) (d : Chip) (hd : d.binding = none) :
        (zs.foldl Chip.zoneConsentChange d).writer = d.writer :=
      (kept_foldl (P := fun x => x.binding = none ∧ x.writer = d.writer) _
        (fun x z hx => by rw [x.zoneConsentChange_unbound z hx.1]; exact hx) zs d ⟨hd, rfl⟩).2
    have isolated (zs : List RealZone) (d : Chip) : (zs.foldl Chip.isolateZone d).writer = d.writer :=
      kept_foldl (P := fun x => x.writer = d.writer) _ (fun x z hx => by
        unfold Chip.isolateZone
        split
        · split
          · simpa using hx
          · exact hx
        · exact hx) zs d rfl
    unfold Chip.loadZones
    dsimp only
    rw [show ∀ (d : Chip) rs, (d.oweRederivations rs).writer = d.writer from fun _ _ => rfl, isolated,
      changed _ { c with zoneMask := c.shiftRegister } h]
  have slots : c.loadZones.slots = c.slots := by
    refine Vector.ext fun i hi => ?_
    have := c.loadZones_load.slots ⟨i, hi⟩
    simp only [Fin.getElem_fin] at this
    have free := hs ⟨i, hi⟩
    simp only [Fin.getElem_fin] at free
    rw [free] at this ⊢
    obtain ⟨-, h⟩ | ⟨_, _, h, _⟩ := this
    · exact h
    · cases h
  obtain ⟨z, s, o, w, i, e⟩ := c.loadZones_shape
  rw [e] at zones writer slots ⊢
  exact { zones := zones, writer := writer, slots := slots }

/-! ### The resets -/

/-- What an unbinding leaves is dormant, whatever the host's access, when no access is left to a block. -/
theorem Chip.Dormant.unbound (c : Chip) (d : Chip) (h : ∃ p h b, d = { c.unbindBlocks with port := p, host := h, backlog := b })
    (hu : d.HostUntaken) : d.Dormant := by
  obtain ⟨points, zones, slots⟩ := c.unbindBlocks_tables
  obtain ⟨p, h, b, rfl⟩ := h
  refine ⟨hu, rfl, rfl, fun r => ?_, rfl, fun z => ?_, rfl, slots, rfl, rfl, rfl, rfl, rfl, rfl, rfl, rfl⟩
  · show c.unbindBlocks.points[r].presence = _ ∧ c.unbindBlocks.points[r].verdict = _ ∧ c.unbindBlocks.points[r].armed = _
    rw [points]; exact ⟨rfl, rfl, rfl⟩
  · show c.unbindBlocks.zones[z].walkSlot = _ ∧ c.unbindBlocks.zones[z].opener = _
    rw [zones]; exact ⟨rfl, rfl⟩

theorem Chip.unbindByCommand_dormant (c : Chip) : c.unbindByCommand.DormantUnbound := by
  refine ⟨.unbound rfl, fun _ => .unbound c _ ⟨_, _, c.backlog, rfl⟩ fun h hh => .inl ?_⟩
  obtain ⟨a, -, rfl⟩ := Option.map_eq_some_iff.mp (hh : c.host.map _ = some h)
  split <;> rfl

theorem Chip.unbindByHostReset_dormant (c : Chip) : c.unbindByHostReset.DormantUnbound := by
  refine ⟨.unbound rfl, fun _ => .unbound c _ ⟨_, _, _, rfl⟩ fun h hh => .inl ?_⟩
  have host : c.unbindByHostReset.host = match c.host with
    | some h => if h.stage = .held then none else some h.untaken
    | none => none := rfl
  rw [host] at hh
  split at hh
  · split at hh
    · cases hh
    · cases hh; rfl
  · cases hh

theorem Chip.powerOn_dormant (c : Chip) : c.powerOn.DormantUnbound := by
  obtain ⟨points, zones, slots⟩ := c.powerOn_tables
  refine ⟨.unbound rfl, fun _ => ⟨fun h hh => (by cases hh), rfl, rfl, fun r => ?_, rfl, fun z => ?_, rfl, slots, rfl, rfl, rfl, rfl,
    rfl, rfl, rfl, rfl⟩⟩
  · rw [(points r).1]; exact ⟨rfl, rfl, rfl⟩
  · rw [zones]; exact ⟨rfl, rfl⟩

theorem Chip.powerOnRelease_sleep (c : Chip) (liso : BitVec 4) : c.SameSleep (c.powerOnRelease liso) := by
  unfold Chip.powerOnRelease
  split
  · have filtered (f : Vector Bool 4) (n : Vector Nat 4) (h : c.PointsAsleep) :
        (Chip.deriveAll { c with porLow := false, lisoStable := n, lisoFiltered := f }).PointsAsleep := fun r => by
      rw [Chip.deriveAll_points]
      obtain ⟨h1, h2, -⟩ := h r
      exact ⟨h1, h2, Chip.derived_absent _ r _ h1⟩
    exact { points := filtered _ _ }
  · exact {}

end Sys2Proof.Machine
end

