-- ==== Sys2Proof/Proofs/DormantKept.lean ====
section
/-! SUPPORT. The memory path's own moves while the part is not BOUND, and O11: a part that is not BOUND is dormant after every
step. -/

namespace Sys2Proof.Machine

/-- A part that is not BOUND passes an access or takes a trigger (R1, R2, R23). -/
theorem Chip.classify_unbound (c : Chip) (q : HostRequest) (h : c.binding = none) :
    c.classify q = .passed ∨ ∃ l, c.classify q = .trigger l := by
  rw [Chip.binding_eq_none] at h
  unfold Chip.classify
  split
  · split
    · split
      · exact .inr ⟨_, rfl⟩
      · exact .inl rfl
    · exact .inl rfl
  · exact .inl rfl
  · rename_i b hb; exact absurd hb (h b)

theorem Chip.arrive_dormant (c : Chip) (q : HostRequest) (hc : c.DormantUnbound) : (c.arrive q).DormantUnbound := by
  refine ⟨.arrive q, fun hb => ?_⟩
  have bind : (c.arrive q).bind = c.bind := by obtain ⟨_, _, _, e⟩ := c.arrive_shape q; rw [e]
  rw [Chip.binding_congr bind] at hb
  unfold Chip.arrive
  obtain h | ⟨l, h⟩ := c.classify_unbound q hb <;> rw [h]
  · exact (hc.2 hb).same { host := fun _ a ha => .inl (by cases ha; rfl) }
  · exact (hc.2 hb).same { host := fun _ a ha => .inr ⟨l, by cases ha; rfl⟩ }

theorem Chip.releaseHeld_dormant (c : Chip) (hc : c.DormantUnbound) : c.releaseHeld.DormantUnbound := by
  refine ⟨hc.1.releaseHeld, fun hb => ?_⟩
  have bind : c.releaseHeld.bind = c.bind := by obtain ⟨_, _, e⟩ := c.releaseHeld_shape; rw [e]
  rw [Chip.binding_congr bind] at hb
  have hs := hc.2 hb
  rw [c.releaseHeld_untaken hs.hostUntaken]; exact hs

theorem Chip.grant_dormant (c : Chip) (hc : c.DormantUnbound) : c.grant.DormantUnbound := by
  refine ⟨hc.1.grant, fun hb => ?_⟩
  have bind : c.grant.bind = c.bind := by obtain ⟨_, _, _, e⟩ := c.grant_shape; rw [e]
  rw [Chip.binding_congr bind] at hb
  have hs := hc.2 hb
  obtain h | ⟨-, h, n, hh, -, hg, -⟩ | ⟨-, cl, q, -, hg⟩ := c.grant_cases
  · rw [h]; exact hs
  · rw [hg]
    simp only [Chip.grantHost, hh]
    exact hs.same { host := fun hu a ha => by cases ha; exact hu h hh }
  · rw [hg]; exact hs.same {}

/-! ### The end of an access -/

/-- A taken write but a trigger leaves the binding. -/
theorem Chip.deliver_bind (c : Chip) (t : Treatment) (w : Word) (be : BitVec 4) (h : ∀ l, t ≠ .trigger l) :
    (c.deliver t w be).bind = c.bind := by
  cases t with
  | trigger l => exact absurd rfl (h l)
  | consumerWrite =>
    simp only [Chip.deliver, Chip.consumerDone]
    split
    · split <;> simp
    · rfl
  | commandWrite =>
    simp only [Chip.deliver, Chip.takeCommand]
    split <;> rfl
  | replyWrite r =>
    simp only [Chip.deliver, Chip.formReply]
    split <;> rfl
  | malformedWrite r => simp [Chip.deliver, Chip.malformedReply]
  | _ => rfl

theorem Chip.deliver_dormant (c : Chip) (t : Treatment) (w : Word) (be : BitVec 4) (hn : c.host = none)
    (hs : c.binding = none → c.Dormant) (ht : ∀ l, t = .trigger l → c.bind = .unbound)
    (hu : c.binding = none → t = .passed ∨ ∃ l, t = .trigger l) : (c.deliver t w be).DormantUnbound := by
  refine ⟨.noHost (by simp [hn]), fun hb => ?_⟩
  have before : c.binding = none := by
    by_cases h : ∃ l, t = .trigger l
    · obtain ⟨l, h⟩ := h
      rw [Chip.binding_eq_none, ht l h]; exact fun _ => nofun
    · rw [Chip.binding_congr (c.deliver_bind t w be fun l e => h ⟨l, e⟩)] at hb
      exact hb
  obtain rfl | ⟨l, rfl⟩ := hu before
  · exact hs before
  · exact (hs before).same {}

/-- The Binding Unit's event at a DACK while not BOUND brings BOUND, or touches the check alone. -/
theorem Chip.bindingAccessDone_dormant (c : Chip) (d : Word) (hc : c.DormantUnbound) : (c.bindingAccessDone d).DormantUnbound := by
  by_cases h : ∃ k, c.bind = .checking k
  · obtain ⟨k, hk⟩ := h
    have hs : c.Dormant := hc.2 (by rw [Chip.binding_eq_none, hk]; exact fun _ => nofun)
    have trigger : (c.bindingAccessDone d).TriggerRight := by
      refine hc.1.of_not_unbound (by rw [hk]; nofun) ?_
      obtain ⟨_, _, _, _, _, _, e⟩ := c.bindingAccessDone_shape d
      rw [e]
    have checks (b : BindState) (i : InternalMaster) : Chip.Dormant { c with bind := b, im := i } := hs.same {}
    refine ⟨trigger, fun hb => ?_⟩
    revert hb
    unfold Chip.bindingAccessDone
    rw [hk]
    dsimp only
    split
    · intro _
      unfold Chip.descriptorRead
      dsimp only
      repeat' split
      all_goals exact checks _ _
    · exact fun _ => checks _ c.im
    · exact fun _ => checks _ _
    · nofun
  · rw [c.bindingAccessDone_idle d fun k hk => h ⟨k, hk⟩]; exact hc

theorem Chip.reportWriteDone_unbound (c : Chip) (h : c.binding = none) : c.reportWriteDone = c := by
  rw [Chip.binding_eq_none] at h
  unfold Chip.reportWriteDone
  split
  · rename_i b _ hb _; exact absurd hb (h b)
  · rfl

theorem Chip.commandAccessDone_idle (c : Chip) (d : Word) (h : c.command = none) : c.commandAccessDone d = c := by
  unfold Chip.commandAccessDone; rw [h]

theorem Chip.reportWriteDone_dormant (c : Chip) (hc : c.DormantUnbound) : c.reportWriteDone.DormantUnbound := by
  obtain ⟨_, _, _, e⟩ := c.reportWriteDone_shape
  refine ⟨hc.1.of_host (by rw [e]) fun a ha l hl => ⟨a, by rw [e] at ha; exact ha, hl⟩, fun hb => ?_⟩
  have hb' : c.binding = none := by rw [e] at hb; exact hb
  rw [c.reportWriteDone_unbound hb']
  exact hc.2 hb'

theorem Chip.commandAccessDone_dormant (c : Chip) (d : Word) (hc : c.DormantUnbound) : (c.commandAccessDone d).DormantUnbound := by
  have awake (h : c.command ≠ none) : c.binding ≠ none := fun hb => h (hc.2 hb).command
  obtain h | h | ⟨p, x, h, hn⟩ | ⟨h, -⟩ := c.commandAccessDone_cases d
  · rw [h]; exact hc
  · obtain ⟨m, m', t, i, hm, e, -, -⟩ := h
    rw [e]
    exact ⟨hc.1, fun hb => absurd hb (awake (by rw [hm]; nofun))⟩
  · rw [h]
    have marks : Chip.DormantUnbound { c with command := none, transfer := none, prepared := p } :=
      ⟨hc.1, fun hb => absurd hb (awake hn)⟩
    exact marks.of_path (Chip.raise_samePath _ x) fun hb => absurd hb (awake hn)
  · rw [h]; exact c.unbindByCommand_dormant

theorem Chip.handBack_dormant (c : Chip) (cl : Client) (d : Word) (hc : c.DormantUnbound) : (c.handBack cl d).DormantUnbound := by
  cases cl with
  | binding => exact c.bindingAccessDone_dormant d hc
  | command => exact c.commandAccessDone_dormant d hc
  | report => exact c.reportWriteDone_dormant hc

theorem Chip.accessDone_dormant (c : Chip) (hc : c.DormantUnbound) : c.accessDone.DormantUnbound := by
  obtain ⟨ht, hs⟩ := hc
  have gone (hn : Option HostAccess) (h : hn = none) : ∀ a, hn = some a → a.treatment = .passed ∨ ∃ l, a.treatment = .trigger l :=
    fun a ha => by rw [h] at ha; cases ha
  apply c.accessDone_cases
  case idle => exact fun _ => ⟨ht, hs⟩
  case noHost => exact fun _ _ => ⟨ht, fun hb => (hs hb).same {}⟩
  case read => exact fun _ _ _ _ _ => ⟨.noHost rfl, fun hb => (hs hb).same { host := fun _ => gone none rfl }⟩
  case write =>
    intro h w be _ hh _
    exact Chip.deliver_dormant _ _ w be rfl (fun hb => (hs hb).same { host := fun _ => gone none rfl })
      (fun l e => ht h l hh e) fun hb => (hs hb).hostUntaken h hh
  case internal => exact fun cl q _ => Chip.handBack_dormant _ cl _ ⟨ht, fun hb => (hs hb).same {}⟩
  case orphan => exact fun _ _ => ⟨ht, fun hb => (hs hb).same {}⟩
  case abandoned => exact fun _ _ => ⟨ht, fun hb => (hs hb).same {}⟩

/-! ### Every step -/

theorem dormantUnbound_kept : Kept Chip.DormantUnbound where
  releaseHeld c := c.releaseHeld_dormant
  backlog c l hc := hc.of_path .elsewhere fun _ hs => hs.same {}
  arrive c q _ := c.arrive_dormant q
  choose c hc := hc.of_path .elsewhere fun _ hs => hs.same {}
  grant c := c.grant_dormant
  accessDone c := c.accessDone_dormant
  commandWork c hc := hc.of_idle c.commandWork_work.samePath fun _ hs => c.commandWork_idle hs.command
  takeReply c hc := hc.of_idle c.takeReply_samePath fun _ hs => c.takeReply_empty hs.intake
  makeSilenceTest c r hc := hc.of_idle (c.makeSilenceTest_samePath r) fun _ hs => c.makeSilenceTest_empty r hs.silenceOwed
  makeRederivation c r hc := hc.of_path (c.makeRederivation_samePath r) fun _ hs => hs.same (c.makeRederivation_sleep r)
  compareSlot c k hc := hc.of_idle (c.compareSlot_samePath k) fun _ hs => c.compareSlot_empty k hs.walkOwed
  endSlot c k hc := hc.of_idle (c.endSlot_samePath k) fun _ hs => c.endSlot_free k (hs.slots k)
  sweepSlot c k hc := hc.of_idle (c.sweepSlot_samePath k) fun _ hs => c.sweepSlot_free k (hs.slots k)
  startRecord c hc := hc.of_idle c.startRecord_samePath fun hb _ => c.startRecord_unbound hb
  sampleInput c liso l hc := hc.of_path (c.sampleInput_samePath liso l) fun hb hs => hs.same (c.sampleInput_sleep liso l hb)
  countEdge c hc := hc.of_idle c.countEdge_samePath fun hb _ => c.countEdge_unbound hb
  nextTick c hc := hc.of_idle c.nextTick_samePath fun hb _ => c.nextTick_unbound hb
  loadZones c hc := hc.of_path c.loadZones_samePath fun hb hs => hs.same (c.loadZones_sleep hb hs.slots)
  shiftChain c b hc := hc.of_path .elsewhere fun _ hs => hs.same {}
  unbindByHostReset c _ := c.unbindByHostReset_dormant
  dsel c d hc := hc.of_path .elsewhere fun _ hs => hs.same {}
  hrstLow c b hc := hc.of_path .elsewhere fun _ hs => hs.same {}
  powerOn c _ := c.powerOn_dormant
  powerOnRelease c liso hc := hc.of_path (c.powerOnRelease_samePath liso) fun _ hs => hs.same (c.powerOnRelease_sleep liso)

/-- Settles O11: no move of the blocks wakes a part that is not BOUND, and every unbinding leaves it so. -/
theorem unboundPartStaysDormant : Obligations.UnboundPartStaysDormant := dormantUnbound_kept.stepKeeps

end Sys2Proof.Machine
end

