-- ==== Sys2Proof/Proofs/DerivedFields.lean ====
section
/-! SUPPORT. SUPPRESSED and ARMED stay what the consents derive at every point that owes no re-derivation (R96 to R99); O10 is
settled here. -/

namespace Sys2Proof.Machine

/-- A re-derivation is owed at a record (R99). -/
def Chip.Owes (c : Chip) (r : Rec) : Prop := ∃ o ∈ c.rederivations, o.point = r

/-- A point's two derived fields are what the consents derive (R96, R97). -/
def Chip.DerivedAt (c : Chip) (r : Rec) : Prop := c.points[r] = c.derived r c.points[r]

/-- From one chip to another, a record that owes a re-derivation or is derived stays so. -/
def Chip.DeriveStep (c d : Chip) : Prop := ∀ r : Rec, c.Owes r ∨ c.DerivedAt r → d.Owes r ∨ d.DerivedAt r

theorem Chip.DeriveStep.refl (c : Chip) : c.DeriveStep c := fun _ => id

theorem Chip.DeriveStep.trans {c d e : Chip} (h : c.DeriveStep d) (g : d.DeriveStep e) : c.DeriveStep e :=
  fun r => g r ∘ h r

theorem Chip.fieldsDerived_iff (c : Chip) : c.FieldsDerived ↔ c.DormantUnbound ∧ ∀ r, c.Owes r ∨ c.DerivedAt r := by
  refine and_congr_right fun _ => forall_congr' fun r => ?_
  rw [or_iff_not_imp_left]
  refine imp_congr ?_ Iff.rfl
  simp [Chip.Owes]

/-- A derived record, field by field. -/
theorem Chip.derivedAt_iff (c : Chip) (r : Rec) : c.DerivedAt r ↔
    c.points[r].suppressed = c.suppression r ∧ c.points[r].armed = armedOf (c.suppression r) c.autoWithdraw c.points[r] := by
  unfold Chip.DerivedAt
  constructor
  · intro h
    exact ⟨congrArg PointRecord.suppressed h, congrArg PointRecord.armed h⟩
  · rintro ⟨h1, h2⟩
    rw [Chip.derived, ← h2, ← h1]

/-- The fields of a point that the derivation reads or writes are another's. -/
structure PointRecord.SameDerive (p q : PointRecord) : Prop where
  suppressed : q.suppressed = p.suppressed := by rfl
  armed : q.armed = p.armed := by rfl
  presence : q.presence = p.presence := by rfl
  armable : q.state.armable = p.state.armable := by rfl

theorem PointRecord.SameDerive.refl (p : PointRecord) : p.SameDerive p := {}

theorem PointRecord.SameDerive.armedOf {p q : PointRecord} (h : p.SameDerive q) (s w : Bool) :
    armedOf s w q = armedOf s w p := by
  unfold Machine.armedOf; rw [h.armable, h.presence]

/-- A point derived stays derived while its consents and what the derivation reads stand. -/
theorem Chip.DerivedAt.same {c d : Chip} {r : Rec} (hs : d.suppression r = c.suppression r)
    (hw : d.autoWithdraw = c.autoWithdraw) (hp : c.points[r].SameDerive d.points[r]) (h : c.DerivedAt r) : d.DerivedAt r := by
  rw [Chip.derivedAt_iff] at h ⊢
  rw [hs, hw, hp.suppressed, hp.armed, hp.armedOf]
  exact h

/-- What the consents derive from, as another chip has it. -/
structure Chip.SameConsents (c d : Chip) : Prop where
  plan : d.plan = c.plan := by rfl
  liso : d.lisoFiltered = c.lisoFiltered := by rfl
  mask : d.zoneMask = c.zoneMask := by rfl
  bind : d.bind = c.bind := by rfl

theorem Chip.SameConsents.suppression {c d : Chip} (h : c.SameConsents d) (r : Rec) : d.suppression r = c.suppression r := by
  unfold Chip.suppression Chip.zoneOf; rw [h.plan, h.liso, h.mask]

theorem Chip.SameConsents.autoWithdraw {c d : Chip} (h : c.SameConsents d) : d.autoWithdraw = c.autoWithdraw := by
  unfold Chip.autoWithdraw; rw [h.bind]

theorem Chip.DeriveStep.of_same {c d : Chip} (hc : c.SameConsents d) (hp : ∀ r : Rec, c.points[r].SameDerive d.points[r])
    (ho : ∀ r, c.Owes r → d.Owes r) : c.DeriveStep d := fun r h =>
  h.imp (ho r) fun h => h.same (hc.suppression r) hc.autoWithdraw (hp r)

/-- A chip that differs in neither points, consents nor what is owed. -/
theorem Chip.DeriveStep.elsewhere {c d : Chip} (h1 : d.plan = c.plan := by rfl) (h2 : d.lisoFiltered = c.lisoFiltered := by rfl)
    (h3 : d.zoneMask = c.zoneMask := by rfl) (h4 : d.bind = c.bind := by rfl) (h5 : d.points = c.points := by rfl)
    (h6 : d.rederivations = c.rederivations := by rfl) : c.DeriveStep d :=
  .of_same ⟨h1, h2, h3, h4⟩ (fun r => by rw [h5]; exact .refl _) fun r h => by unfold Chip.Owes; rw [h6]; exact h

theorem Chip.raise_derive (c : Chip) (x : Report) : c.DeriveStep (c.raise x) := by
  obtain ⟨_, _, h⟩ := c.raise_shape x; rw [h]; exact .elsewhere

theorem Chip.startRecord_derive (c : Chip) : c.DeriveStep c.startRecord := by
  obtain ⟨_, _, h⟩ := c.startRecord_shape; rw [h]; exact .elsewhere

theorem Chip.complete_derive (c : Chip) (k : Completion) : c.DeriveStep (c.complete k) := by
  obtain ⟨_, _, h⟩ := c.complete_shape k; rw [h]; exact .elsewhere

theorem Chip.rederive_derivedAt (c : Chip) (r : Rec) : (c.rederive r).DerivedAt r := by
  have : (c.rederive r).points[r] = c.derived r c.points[r] := by simp
  unfold Chip.DerivedAt
  rw [this]
  rfl

/-! ### Points -/

/-- A move at a record that ends in its re-derivation. -/
theorem Chip.PointMove.deriveStep {R : PointRecord → PointRecord → Prop} {r : Rec} {c d : Chip}
    (h : Chip.PointMove R r c (d.rederive r)) : c.DeriveStep (d.rederive r) := by
  intro i hi
  by_cases hr : i = r
  · rw [hr]; exact .inr (d.rederive_derivedAt r)
  · have others := h.others i hr
    have shape := h.shape
    generalize d.rederive r = e at others shape ⊢
    obtain ⟨_, _, _, rfl⟩ := shape
    refine hi.imp id (Chip.DerivedAt.same (c := c) rfl rfl ?_)
    rw [others]; exact .refl _

theorem Chip.rederive_derive (c : Chip) (r : Rec) : c.DeriveStep (c.rederive r) := (c.rederive_move r).deriveStep

/-- A point changed where the derivation does not look. -/
theorem Chip.modPoint_derive (c : Chip) (r : Rec) (f : PointRecord → PointRecord) (h : c.points[r].SameDerive (f c.points[r])) :
    c.DeriveStep (c.modPoint r f) := by
  refine .of_same {} (fun i => ?_) fun _ => id
  simp only [Fin.getElem_fin, Chip.modPoint_points]
  split
  · rename_i hi; rw [← Fin.ext hi]; exact h
  · exact .refl _

theorem Chip.PointMove.monitorDerive {r : Rec} {c d : Chip} (h : Chip.PointMove PointRecord.MonitorStep r c d) :
    c.DeriveStep d := by
  obtain ⟨hshape, hothers, hstep, -⟩ := h
  have points (i : Rec) : c.points[i].SameDerive d.points[i] := by
    by_cases hi : i = r
    · subst hi; rw [hstep.same]; exact {}
    · rw [hothers i hi]; exact .refl _
  obtain ⟨_, _, _, rfl⟩ := hshape
  exact .of_same {} points fun _ => id

theorem Chip.AlarmMove.deriveStep {c d : Chip} (h : c.AlarmMove d) : c.DeriveStep d := by
  have points (i : Rec) : c.points[i].SameDerive d.points[i] := by
    have step := h.points i
    have armable := step.armable
    rw [step.same]
    exact { armable := armable }
  obtain ⟨_, _, _, _, _, _, _, rfl⟩ := h.shape
  exact .of_same {} points fun _ => id

theorem Chip.processReply_derive (c : Chip) (e : ReplyEvent) : c.DeriveStep (c.processReply e) := by
  unfold Chip.processReply
  split
  · obtain ⟨d, f, h1, h2, h3⟩ := c.goodReply_moves e.point _ _ _ _
    exact (h1.deriveStep.trans h2.monitorDerive).trans h3.deriveStep
  · obtain ⟨d, h, h1⟩ := c.garbledReply_moves e.point
    rw [h]; exact h1.deriveStep
  · obtain ⟨d, h, h1⟩ := c.noreply_moves e.point
    rw [h]; exact h1.deriveStep

theorem Chip.makeSilenceTest_derive (c : Chip) (r : Rec) : c.DeriveStep (c.makeSilenceTest r) := by
  unfold Chip.makeSilenceTest
  split
  · have owed : c.DeriveStep { c with silenceOwed := c.silenceOwed.filter (· != r) } := .elsewhere
    refine owed.trans ?_
    obtain h | ⟨d, h, h1⟩ := Chip.silenceTest_moves { c with silenceOwed := c.silenceOwed.filter (· != r) } r
    · rw [h]; exact .refl _
    · rw [h]; exact h1.deriveStep
  · exact .refl c

/-- The event owed at a record is made there; what another record owes stands (R99). -/
theorem Chip.makeRederivation_derive (c : Chip) (r : Rec) : c.DeriveStep (c.makeRederivation r) := by
  unfold Chip.makeRederivation
  split
  · intro i hi
    by_cases hr : i = r
    · rw [hr]; exact .inr (Chip.rederive_derivedAt _ r)
    · have owed : c.Owes i → Chip.Owes { c with rederivations := c.rederivations.filter (fun o => o.point != r) } i :=
        fun ⟨o, ho, hp⟩ => ⟨o, by simp [ho, hp, hr], hp⟩
      exact Chip.rederive_derive _ r i (hi.imp owed id)
  · exact .refl c

theorem Chip.dequeueReply_derive (c : Chip) (rest : List ReplyEvent) : c.DeriveStep (c.dequeueReply rest) :=
  .of_same {} (fun _ => .refl _) fun _ ⟨o, ho, hp⟩ => ⟨_, List.mem_map.mpr ⟨o, ho, rfl⟩, hp⟩

theorem Chip.takeReply_derive (c : Chip) : c.DeriveStep c.takeReply :=
  Chip.takeReply_keeps (P := c.DeriveStep) (fun d r h => h.trans (d.makeRederivation_derive r))
    (fun d r h => h.trans (d.makeSilenceTest_derive r)) (fun d _ rest _ h => h.trans (d.dequeueReply_derive rest))
    (fun d e h => h.trans (d.processReply_derive e)) c (.refl c)

/-! ### Consents -/

theorem Chip.oweRederivations_owes (c : Chip) (rs : List Rec) (r : Rec) (h : c.Owes r ∨ r ∈ rs) :
    (c.oweRederivations rs).Owes r := by
  by_cases ho : c.Owes r
  · obtain ⟨o, ho, hp⟩ := ho
    exact ⟨o, List.mem_append_left _ ho, hp⟩
  · have hr := h.resolve_left ho
    refine ⟨⟨r, c.intake.length⟩, List.mem_append_right _ (List.mem_map.mpr ⟨r, ?_, rfl⟩), rfl⟩
    simp only [List.mem_filter, hr, true_and, Bool.not_eq_true', List.contains_eq_mem, decide_eq_false_iff_not, List.mem_map]
    exact ho

/-- Consents changed at records that come to owe their re-derivation. -/
theorem Chip.DeriveStep.owed {c d : Chip} (hb : d.bind = c.bind) (hp : d.points = c.points) (hn : ∀ r, c.Owes r → d.Owes r)
    (hs : ∀ r, d.Owes r ∨ d.suppression r = c.suppression r) : c.DeriveStep d := by
  intro r h
  by_cases ho : d.Owes r
  · exact .inl ho
  · have hw : d.autoWithdraw = c.autoWithdraw := by unfold Chip.autoWithdraw; rw [hb]
    refine (h.imp (hn r) fun hd => hd.same ((hs r).resolve_left ho) hw ?_)
    rw [hp]; exact .refl _

theorem mem_loopRecords (l : Loop) (r : Rec) : r ∈ loopRecords l ↔ loopOf r = l := by
  simp [loopRecords, List.mem_finRange]

theorem Chip.loopConsentEvent_shape (c : Chip) (l : Loop) (w : Bool) : ∃ v i,
    c.loopConsentEvent l w = Chip.oweRederivations { c with writer := v, im := i } (loopRecords l) := by
  unfold Chip.loopConsentEvent
  dsimp only
  split
  · exact ⟨_, _, congrArg (Chip.oweRederivations · (loopRecords l)) (c.raise_eq _)⟩
  · exact ⟨_, _, rfl⟩

theorem Chip.sampleInput_derive (c : Chip) (liso : BitVec 4) (l : Loop) : c.DeriveStep (c.sampleInput liso l) := by
  unfold Chip.sampleInput
  dsimp only
  split
  · exact .elsewhere
  · split
    · obtain ⟨v, i, e⟩ := Chip.loopConsentEvent_shape
        { c with lisoStable := c.lisoStable.set l 0, lisoFiltered := c.lisoFiltered.set l (liso.getLsbD l.val) } l
        (liso.getLsbD l.val)
      rw [e]
      refine .owed rfl rfl (fun r h => Chip.oweRederivations_owes _ _ r (.inl h)) fun r => ?_
      by_cases hr : loopOf r = l
      · exact .inl (Chip.oweRederivations_owes _ _ r (.inr ((mem_loopRecords l r).mpr hr)))
      · refine .inr ?_
        show (_ || (c.lisoFiltered.set l (liso.getLsbD l.val))[loopOf r] || _) = (_ || c.lisoFiltered[loopOf r] || _)
        have : (c.lisoFiltered.set l (liso.getLsbD l.val))[loopOf r] = c.lisoFiltered[loopOf r] := by
          simp only [Fin.getElem_fin, Vector.getElem_set]
          rw [if_neg fun h => hr (Fin.ext h.symm)]
        rw [this]
        rfl
    · exact .elsewhere

/-- The records of the zones a load changes owe their re-derivation (R99). -/
theorem Chip.loadZones_owes (c : Chip) (r : Rec)
    (h : c.Owes r ∨ ∃ z ∈ changedZones c.zoneMask c.shiftRegister, c.zoneOf r = realZone z) : c.loadZones.Owes r := by
  have same := kept_foldl (P := fun d : Chip => d.rederivations = c.rederivations ∧ d.plan = c.plan) Chip.zoneConsentChange
    (fun d z h => by simpa [Chip.zoneConsentChange] using h) (changedZones c.zoneMask c.shiftRegister)
    { c with zoneMask := c.shiftRegister } ⟨rfl, rfl⟩
  have same' := kept_foldl (P := fun d : Chip => d.rederivations = c.rederivations ∧ d.plan = c.plan) Chip.isolateZone
    (fun d z h => by
      unfold Chip.isolateZone
      split
      · split
        · simpa using h
        · exact h
      · exact h) (changedZones c.zoneMask c.shiftRegister) _ same
  obtain ⟨howed, hplan⟩ := same'
  unfold Chip.loadZones
  refine Chip.oweRederivations_owes _ _ r (h.imp (fun h => by unfold Chip.Owes; rw [howed]; exact h) fun h => ?_)
  obtain ⟨z, hz, hr⟩ := h
  simp only [Chip.recordsOf, List.mem_filter, List.mem_finRange, true_and, List.any_eq_true, beq_iff_eq]
  exact ⟨z, hz, by unfold Chip.zoneOf at hr ⊢; rw [hplan]; exact hr⟩

/-- A mask bit that a load does not change withholds as before. -/
theorem maskWithholds_unchanged (old new : BitVec 96) (y : Zone) (h : ∀ z ∈ changedZones old new, y ≠ realZone z) :
    maskWithholds new y = maskWithholds old y := by
  unfold maskWithholds
  by_cases hreal : y.val < 96
  · have same : ¬old.getLsbD y.val ≠ new.getLsbD y.val := fun hne =>
      h ⟨y.val, hreal⟩ ((mem_changedZones _ _ _).mpr hne) rfl
    rw [not_not.mp same]
  · simp [hreal]

theorem Chip.loadZones_derive (c : Chip) : c.DeriveStep c.loadZones := by
  have owes := c.loadZones_owes
  obtain ⟨_, _, _, _, _, e⟩ := c.loadZones_shape
  rw [e] at owes ⊢
  refine .owed rfl rfl (fun r h => owes r (.inl h)) fun r => ?_
  by_cases hz : ∃ z ∈ changedZones c.zoneMask c.shiftRegister, c.zoneOf r = realZone z
  · exact .inl (owes r (.inr hz))
  · refine .inr ?_
    show (_ || _ || maskWithholds c.shiftRegister (c.zoneOf r)) = (_ || _ || maskWithholds c.zoneMask (c.zoneOf r))
    rw [maskWithholds_unchanged c.zoneMask c.shiftRegister _ fun z hm h => hz ⟨z, hm, h⟩]

end Sys2Proof.Machine
end

