-- ==== Sys2Proof/Proofs/DerivedKept.lean ====
section
/-! SUPPORT. The command's own events, the binding and the resets leave the derived fields right; O10 is settled here.

The proofs of this file are elaborated one after the other: run at once, their threads' stacks fill the memory a compile may
take. -/

set_option Elab.async false

namespace Sys2Proof.Machine

/-! ### The command's own events -/

/-- The command in hand, its transfer and its client's request replaced. -/
theorem Chip.DeriveStep.command (c : Chip) (m : Option Command) (t : Option TransferEngine) (i : InternalMaster) :
    c.DeriveStep { c with command := m, transfer := t, im := i } := .elsewhere

theorem Chip.gotoWork_derive (c : Chip) (m : Command) (w : Work) : c.DeriveStep (c.gotoWork m w) := .elsewhere

theorem Chip.startBlock_derive (c : Chip) (m : Command) (t : TransferEngine) (p : Option Nat) :
    c.DeriveStep (c.startBlock m t p) := .elsewhere

theorem Chip.writeWord_derive (c : Chip) (m : Command) (t : TransferEngine) (g : Transfer) (i : Nat) :
    c.DeriveStep (c.writeWord m t g i) := .elsewhere

theorem Chip.nextOrComplete_derive (c : Chip) (p : Prop) [Decidable p] (m : Command) (w : Work) (k : Completion) :
    c.DeriveStep (if p then c.gotoWork m w else c.complete k) := by
  split
  · exact c.gotoWork_derive m w
  · exact c.complete_derive k

/-- A stretch's change leaves what ARMED reads of STATE (R70, R97). -/
theorem Stretch.change_derive (k : Stretch) (p q : PointRecord) (h : k.change p = some q) : p.SameDerive q := by
  cases k with
  | accept =>
    simp only [Stretch.change] at h
    split at h
    · rename_i ha
      simp only [PointRecord.acceptable, Bool.and_eq_true, beq_iff_eq] at ha
      obtain ⟨⟨hs, -⟩, -⟩ := ha
      cases h
      exact { armable := by rw [hs]; rfl }
    · cases h
  | release =>
    simp only [Stretch.change] at h
    split at h
    · rename_i hs
      cases h
      exact { armable := by rw [hs]; rfl }
    · cases h
  | revert =>
    simp only [Stretch.change] at h
    split at h
    · rename_i hs
      cases h
      exact { armable := by obtain hs | hs := hs <;> rw [hs] <;> rfl }
    · cases h

theorem Chip.stretchEvent_derive (c : Chip) (m : Command) (k : Stretch) (a b x y : Nat) :
    c.DeriveStep (c.stretchEvent m k a b x y) := by
  unfold Chip.stretchEvent
  cases hq : k.change c.points[recordAt a] with
  | none => exact c.nextOrComplete_derive _ m _ _
  | some p =>
    have changed : c.DeriveStep (c.setPoint (recordAt a) p) :=
      c.modPoint_derive (recordAt a) (fun _ => p) (k.change_derive _ p hq)
    exact changed.trans (Chip.nextOrComplete_derive _ _ m _ _)

theorem Chip.clearFlagsEvent_derive (c : Chip) (m : Command) (a b : Nat) (k : BitVec 8) (n : Nat) :
    c.DeriveStep (c.clearFlagsEvent m a b k n) := by
  have cleared : c.DeriveStep (c.modPoint (recordAt a) fun p => p.clearFlags k) := c.modPoint_derive _ _ {}
  unfold Chip.clearFlagsEvent
  exact cleared.trans (Chip.nextOrComplete_derive _ _ m _ _)

theorem Chip.clearVerdictEvent_derive (c : Chip) (m : Command) (a b x y : Nat) :
    c.DeriveStep (c.clearVerdictEvent m a b x y) := by
  have cleared (h : Bool) : c.DeriveStep (if h then c.setVerdict (recordAt a) .none else c) := by
    split
    · exact (Chip.AlarmMove.setVerdict c _ _).deriveStep
    · exact .refl c
  unfold Chip.clearVerdictEvent
  dsimp only
  generalize (c.points[recordAt a].verdict.standing && c.points[recordAt a].lastStatus != some .alarm) = clear
  exact (cleared clear).trans (Chip.nextOrComplete_derive _ _ m (.clearVerdict ..) _)

theorem Chip.queryEvent_derive (c : Chip) (m : Command) (n : Nat) (q : Census) : c.DeriveStep (c.queryEvent m n q) := by
  unfold Chip.queryEvent
  split
  · exact c.gotoWork_derive m _
  · split
    · exact c.gotoWork_derive m _
    · exact c.nextOrComplete_derive _ m _ _

theorem Chip.afterPlanChecks_derive (c : Chip) (m : Command) (t : TransferEngine) : c.DeriveStep (c.afterPlanChecks m t) := by
  unfold Chip.afterPlanChecks
  split
  · exact .elsewhere
  · split
    · exact c.startBlock_derive m _ _
    · exact c.startBlock_derive m _ _

theorem Chip.planEntry_derive (c : Chip) (m : Command) (t : TransferEngine) (s : Nat) : c.DeriveStep (c.planEntry m t s) := by
  have next (t : TransferEngine) : c.DeriveStep
      (if s < 8 then Chip.gotoWork { c with transfer := some t } m (.planEntry (s + 1)) else c.afterPlanChecks m t) := by
    split
    · exact .elsewhere
    · exact c.afterPlanChecks_derive m t
  unfold Chip.planEntry
  dsimp only
  split
  · exact next t
  · split
    · exact c.complete_derive _
    · exact next _

/-- A plan entry replaced with its point's re-derivation. -/
theorem Chip.replaceEntry_derive (c : Chip) (r : Rec) (e : Option PlanEntry) (f : PointRecord → PointRecord) :
    c.DeriveStep (((c.replaceEntry r e).modPoint r f).rederive r) := by
  intro i hi
  by_cases hr : i = r
  · rw [hr]; exact .inr (Chip.rederive_derivedAt _ r)
  · refine Chip.rederive_derive _ r i ?_
    obtain ⟨z, hz, -⟩ := c.replaceEntry_shape r e
    rw [hz]
    refine hi.imp id (Chip.DerivedAt.same (c := c) ?_ rfl ?_)
    · have plan : (c.plan.set r e)[i] = c.plan[i] := by simp [Fin.val_ne_of_ne (Ne.symm hr)]
      unfold Chip.suppression Chip.zoneOf
      simp only [Chip.modPoint_frame, plan]
    · simp only [Fin.getElem_fin, Chip.modPoint_points]
      rw [if_neg (Fin.val_ne_of_ne (Ne.symm hr))]
      exact .refl _

theorem Chip.installEntry_derive (c : Chip) (r : Rec) (e : Option PlanEntry) : c.DeriveStep (c.installEntry r e) :=
  c.replaceEntry_derive r e _

theorem Chip.restorePoint_derive (c : Chip) (r : Rec) (q : RestoredPoint) : c.DeriveStep (c.restorePoint r q) :=
  c.replaceEntry_derive r q.entry _

theorem Chip.planInstall_derive (c : Chip) (m : Command) (t : TransferEngine) (s : Nat) :
    c.DeriveStep (c.planInstall m t s) := by
  have goes (d : Chip) (t : TransferEngine) : d.DeriveStep
      (if s < 8 then Chip.gotoWork { d with transfer := some t } m (.planInstall (s + 1)) else d.afterPlanInstalls m t) := by
    split
    · exact .elsewhere
    · unfold Chip.afterPlanInstalls
      dsimp only
      split
      · exact d.startBlock_derive m _ _
      · have kept (u : TransferEngine) : d.DeriveStep { d with transfer := some u } := .elsewhere
        exact (kept _).trans (Chip.complete_derive _ _)
  unfold Chip.planInstall
  dsimp only
  by_cases h : entryLoop (t.entryWords s).1 = 0
  · simp only [if_pos h]
    exact goes c t
  · simp only [if_neg h]
    exact (c.installEntry_derive _ _).trans (goes _ _)

theorem Chip.restoreBlock_derive (c : Chip) (m : Command) (t : TransferEngine) : c.DeriveStep (c.restoreBlock m t) := by
  unfold Chip.restoreBlock
  split
  · exact c.complete_derive _
  · split
    · exact c.complete_derive _
    · split
      · exact c.gotoWork_derive m _
      · split
        · exact c.startBlock_derive m _ _
        · exact c.startBlock_derive m _ _

theorem Chip.restoreInstall_derive (c : Chip) (m : Command) (t : TransferEngine) (s : Nat) :
    c.DeriveStep (c.restoreInstall m t s) := by
  have installed := c.restorePoint_derive (recordAt (8 * t.block + s - 1)) (restoredPoint t.words s)
  unfold Chip.restoreInstall
  dsimp only
  generalize c.restorePoint (recordAt (8 * t.block + s - 1)) (restoredPoint t.words s) = d at installed ⊢
  refine installed.trans ?_
  split
  · exact d.gotoWork_derive m _
  · split
    · exact d.startBlock_derive m _ _
    · exact .elsewhere

theorem Chip.restoreFinal_derive (c : Chip) (t : TransferEngine) : c.DeriveStep (c.restoreFinal t) := by
  unfold Chip.restoreFinal
  split
  · have codes (v : Vector (BitVec 4) 4) (b : Bool) : c.DeriveStep { c with profiles := v, sealed := b } := .elsewhere
    exact (codes _ _).trans (Chip.complete_derive _ _)
  · exact .refl c

theorem Chip.checkTransfer_derive (c : Chip) (f : Binding → TransferEngine → Chip) (h : ∀ b t, c.DeriveStep (f b t)) :
    c.DeriveStep (c.checkTransfer f) := by
  unfold Chip.checkTransfer
  split
  · exact h _ _
  · exact .refl c

theorem Chip.checkPlanLoad_derive (c : Chip) (m : Command) (b : Binding) (t : TransferEngine) :
    c.DeriveStep (c.checkPlanLoad m b t) := by
  unfold Chip.checkPlanLoad
  split
  · exact c.complete_derive _
  · split
    · exact c.complete_derive _
    · exact c.startBlock_derive m t _

theorem Chip.checkSnapshot_derive (c : Chip) (m : Command) (b : Binding) (t : TransferEngine) :
    c.DeriveStep (c.checkSnapshot m b t) := by
  unfold Chip.checkSnapshot
  split
  · exact c.complete_derive _
  · exact .elsewhere

theorem Chip.checkRestore_derive (c : Chip) (m : Command) (b : Binding) (t : TransferEngine) :
    c.DeriveStep (c.checkRestore m b t) := by
  unfold Chip.checkRestore
  split
  · exact c.complete_derive _
  · split
    · exact c.complete_derive _
    · split
      · exact c.complete_derive _
      · exact c.startBlock_derive m t _

theorem Chip.checkProfileSet_derive (c : Chip) (m : Command) : c.DeriveStep (c.checkProfileSet m) := by
  unfold Chip.checkProfileSet
  split
  · exact c.complete_derive _
  · split
    · exact c.complete_derive _
    · have codes (v : Vector (BitVec 4) 4) : c.DeriveStep { c with profiles := v } := .elsewhere
      exact (codes _).trans (Chip.complete_derive _ _)

theorem Chip.checkSeal_derive (c : Chip) : c.DeriveStep c.checkSeal := by
  have sealed : c.DeriveStep { c with sealed := true } := .elsewhere
  exact sealed.trans (Chip.complete_derive _ _)

theorem Chip.startWalk_derive (c : Chip) (k : Fin 4) (z : RealZone) (minutes : Nat) : c.DeriveStep (c.startWalk k z minutes) := by
  have started (o : List (Fin 4)) (w : Option WalkSlot) (f : ZoneRecord → ZoneRecord) :
      c.DeriveStep ((Chip.setSlot { c with walkOwed := o } k w).modZone (realZone z) f) := .elsewhere
  exact (started _ _ _).trans (Chip.complete_derive _ _)

theorem Chip.checkWalkStart_derive (c : Chip) (m : Command) : c.DeriveStep (c.checkWalkStart m) := by
  unfold Chip.checkWalkStart
  dsimp only
  split
  · exact c.complete_derive _
  · split
    · exact c.complete_derive _
    · split
      · exact c.complete_derive _
      · split
        · exact c.complete_derive _
        · split
          · exact c.complete_derive _
          · exact c.startWalk_derive _ _ _

theorem Chip.checkWalkEnd_derive (c : Chip) (m : Command) : c.DeriveStep (c.checkWalkEnd m) := by
  unfold Chip.checkWalkEnd
  split
  · exact (c.requestEnd_move _ _).deriveStep.trans (.elsewhere)
  · exact c.complete_derive _

theorem Chip.checkRange_derive (c : Chip) (m : Command) (ok : PointRecord → Bool) (w : Work) :
    c.DeriveStep (c.checkRange m ok w) := by
  unfold Chip.checkRange
  split
  · exact c.complete_derive _
  · split
    · exact c.complete_derive _
    · exact c.gotoWork_derive m w

theorem Chip.checkAdopt_derive (c : Chip) (m : Command) : c.DeriveStep (c.checkAdopt m) := by
  unfold Chip.checkAdopt
  dsimp only
  split
  · exact c.complete_derive _
  · split
    · have adopted : Chip.PointMove (fun _ _ => True) (recordAt m.firstRecord) c
          (((c.modPoint (recordAt m.firstRecord) fun p => p.adopted c.plan[recordAt m.firstRecord] (m.num 3 == 2))).rederive
            (recordAt m.firstRecord)) :=
        (Chip.PointMove.modPoint _ c _ trivial).trans (fun _ _ _ _ _ => trivial) (.modPoint _ _ _ trivial)
      exact adopted.deriveStep.trans (Chip.complete_derive _ _)
    · exact c.complete_derive _

theorem Chip.checkClearFlags_derive (c : Chip) (m : Command) : c.DeriveStep (c.checkClearFlags m) := by
  unfold Chip.checkClearFlags
  split
  · exact c.complete_derive _
  · split
    · exact c.complete_derive _
    · exact c.gotoWork_derive m _

theorem Chip.checkClearVerdict_derive (c : Chip) (m : Command) : c.DeriveStep (c.checkClearVerdict m) := by
  unfold Chip.checkClearVerdict
  split
  · exact c.complete_derive _
  · exact c.gotoWork_derive m _

theorem Chip.checkCommand_derive (c : Chip) (m : Command) : c.DeriveStep (c.checkCommand m) := by
  unfold Chip.checkCommand
  split
  · exact c.complete_derive _
  · split
    · exact c.checkTransfer_derive _ (c.checkPlanLoad_derive m)
    · exact c.checkTransfer_derive _ (c.checkSnapshot_derive m)
    · exact c.checkTransfer_derive _ (c.checkRestore_derive m)
    · exact c.checkProfileSet_derive m
    · exact c.checkSeal_derive
    · exact c.checkWalkStart_derive m
    · exact c.checkWalkEnd_derive m
    · exact c.checkRange_derive m _ _
    · exact c.checkRange_derive m _ _
    · exact c.checkAdopt_derive m
    · exact c.checkClearFlags_derive m
    · exact c.checkClearVerdict_derive m
    · exact c.complete_derive _
    · exact c.nextOrComplete_derive _ m _ _
    · exact c.gotoWork_derive m _
    · exact c.complete_derive _
    · exact c.complete_derive _

theorem Chip.transferWork_derive (c : Chip) (f : TransferEngine → Chip) (h : ∀ t, c.DeriveStep (f t)) :
    c.DeriveStep (c.transferWork f) := by
  unfold Chip.transferWork
  split
  · exact .refl c
  · exact h _

theorem Chip.work_derive (c : Chip) (m : Command) (w : Work) : c.DeriveStep (c.work m w) := by
  cases w with
  | check => exact c.checkCommand_derive m
  | stretch k a b x y => exact c.stretchEvent_derive m k a b x y
  | clearFlags a b k n => exact c.clearFlagsEvent_derive m a b k n
  | clearVerdict a b x y => exact c.clearVerdictEvent_derive m a b x y
  | query n q => exact c.queryEvent_derive m n q
  | planBlock => exact c.transferWork_derive _ fun t => c.nextOrComplete_derive _ m _ _
  | planEntry s => exact c.transferWork_derive _ fun t => c.planEntry_derive m t s
  | planInstall s => exact c.transferWork_derive _ fun t => c.planInstall_derive m t s
  | restoreHeader =>
    refine c.transferWork_derive _ fun t => ?_
    unfold Chip.restoreHeader
    split
    · exact c.startBlock_derive m _ _
    · exact c.complete_derive _
  | restoreBlock => exact c.transferWork_derive _ fun t => c.restoreBlock_derive m t
  | restoreInstall s => exact c.transferWork_derive _ fun t => c.restoreInstall_derive m t s
  | restoreFinal => exact c.transferWork_derive _ fun t => c.restoreFinal_derive t
  | snapshotBlock => exact c.transferWork_derive _ fun t => c.writeWord_derive m _ _ _
  | snapshotHeader => exact c.transferWork_derive _ fun t => c.writeWord_derive m _ _ _

theorem Chip.commandWork_derive (c : Chip) : c.DeriveStep c.commandWork := by
  unfold Chip.commandWork
  split
  · split
    · exact c.work_derive _ _
    · exact .refl c
  · exact .refl c

/-! ### Walk slots, ticks -/

theorem Chip.endSlot_derive (c : Chip) (k : Fin 4) : c.DeriveStep (c.endSlot k) := by
  unfold Chip.endSlot
  split
  · split
    · have ended (w : Option WalkSlot) (z : Zone) (f : ZoneRecord → ZoneRecord) :
          c.DeriveStep ((c.setSlot k w).modZone z f) := .elsewhere
      exact (ended _ _ _).trans (Chip.raise_derive _ _)
    · exact .refl c
  · exact .refl c

theorem Chip.sweepSlot_derive (c : Chip) (k : Fin 4) : c.DeriveStep (c.sweepSlot k) := by
  have slot (w : Option WalkSlot) : c.DeriveStep (c.setSlot k w) := .elsewhere
  have cleared (w : Option WalkSlot) (r : Rec) : c.DeriveStep ((c.setSlot k w).setVerdict r .none) :=
    (slot w).trans (Chip.AlarmMove.setVerdict _ r .none).deriveStep
  unfold Chip.sweepSlot
  split
  · split
    · split
      · unfold Chip.clearTest
        dsimp only
        split
        · exact ((cleared _ _).trans (Chip.rederive_derive _ _)).trans (Chip.qualify_move _ _ _ _).deriveStep
        · exact cleared _ _
      · unfold Chip.freeSlot
        dsimp only
        split
        · split
          · exact (slot _).trans (Chip.complete_derive _ _)
          · exact slot _
        · exact slot _
    · exact .refl c
  · exact .refl c

theorem Chip.compareSlot_derive (c : Chip) (k : Fin 4) : c.DeriveStep (c.compareSlot k) := by
  obtain ⟨_, _, h⟩ := c.compareSlot_shape k; rw [h]; exact .elsewhere

theorem Chip.tick_derive (c : Chip) : c.DeriveStep c.tick := by
  obtain ⟨_, _, _, h⟩ := c.tick_shape; rw [h]; exact .elsewhere

theorem Chip.countEdge_derive (c : Chip) : c.DeriveStep c.countEdge := by
  unfold Chip.countEdge
  split
  · split
    · exact c.tick_derive
    · exact .elsewhere
  · exact .refl c

theorem Chip.nextTick_derive (c : Chip) : c.DeriveStep c.nextTick := by
  unfold Chip.nextTick
  split
  · have cleared (n : Vector Nat 4) : c.DeriveStep { c with lisoStable := n } := .elsewhere
    exact (cleared _).trans (Chip.tick_derive _)
  · exact .refl c

/-! ### The end of an access -/

/-- With every point ABSENT the binding's AUTO WITHDRAW makes no difference, so a new binding state leaves the fields right. -/
theorem Chip.DeriveStep.asleep {c d : Chip} (hp : d.points = c.points) (hs : ∀ r, d.suppression r = c.suppression r)
    (ho : d.rederivations = c.rederivations) (h : c.PointsAsleep) : c.DeriveStep d := by
  intro r
  refine Or.imp (fun h => by unfold Chip.Owes; rw [ho]; exact h) fun hd => ?_
  rw [Chip.derivedAt_iff] at hd ⊢
  obtain ⟨h1, -, h3⟩ := h r
  rw [hp, hs r]
  exact ⟨hd.1, by rw [h3, armedOf, h1]; simp [Presence.armable]⟩

theorem Chip.bindingAccessDone_derive (c : Chip) (d : Word) (hc : c.DormantUnbound) : c.DeriveStep (c.bindingAccessDone d) := by
  by_cases h : ∃ k, c.bind = .checking k
  · obtain ⟨k, hk⟩ := h
    have hs : c.Dormant := hc.2 (by rw [Chip.binding_eq_none, hk]; exact fun _ => nofun)
    obtain ⟨_, _, _, _, _, _, e⟩ := c.bindingAccessDone_shape d
    rw [e]
    exact .asleep rfl (fun _ => rfl) rfl hs.points
  · rw [c.bindingAccessDone_idle d fun k hk => h ⟨k, hk⟩]; exact .refl c

/-- After an unbinding every point is derived and nothing is owed (R76). -/
theorem Chip.unbindBlocks_derive (c : Chip) : c.DeriveStep c.unbindBlocks := by
  intro r _
  refine .inr ((Chip.derivedAt_iff _ r).mpr ?_)
  have suppression : c.unbindBlocks.suppression r = c.suppression r := rfl
  rw [suppression, c.unbindBlocks_tables.1 r]
  exact ⟨rfl, by simp [PointRecord.afterUnbind, armedOf, Presence.armable]⟩

theorem Chip.unbindByCommand_derive (c : Chip) : c.DeriveStep c.unbindByCommand := c.unbindBlocks_derive.trans (.elsewhere)

theorem Chip.unbindByHostReset_derive (c : Chip) : c.DeriveStep c.unbindByHostReset :=
  c.unbindBlocks_derive.trans (.elsewhere)

theorem Chip.commandAccessDone_derive (c : Chip) (d : Word) : c.DeriveStep (c.commandAccessDone d) := by
  obtain h | ⟨_, _, _, _, -, h, -, -⟩ | ⟨p, x, h, -⟩ | ⟨h, -⟩ := c.commandAccessDone_cases d
  · rw [h]; exact .refl c
  · rw [h]; exact .elsewhere
  · rw [h]
    have marks : c.DeriveStep { c with command := none, transfer := none, prepared := p } := .elsewhere
    exact marks.trans (Chip.raise_derive _ x)
  · rw [h]; exact c.unbindByCommand_derive

theorem Chip.deliver_derive (c : Chip) (t : Treatment) (w : Word) (be : BitVec 4)
    (hs : ∀ l, t = .trigger l → c.PointsAsleep) : c.DeriveStep (c.deliver t w be) := by
  cases t with
  | trigger l => exact .asleep rfl (fun _ => rfl) rfl (hs l rfl)
  | malformedWrite r =>
    have latch : c.DeriveStep { c with latch := none } := .elsewhere
    have flagged := Chip.modPoint_derive { c with latch := none } r (fun p => p.latch .badWrite) {}
    exact (latch.trans flagged).trans (Chip.raise_derive _ _)
  | consumerWrite =>
    simp only [Chip.deliver, Chip.consumerDone]
    split
    · split
      · have copied (v : Writer) (q : Bool) : c.DeriveStep { c with writer := v, irqPin := q } := .elsewhere
        exact (copied _ _).trans (Chip.startRecord_derive _)
      · exact .refl c
    · exact .refl c
  | commandWrite =>
    simp only [Chip.deliver, Chip.takeCommand]
    split <;> exact .elsewhere
  | replyWrite r =>
    simp only [Chip.deliver, Chip.formReply]
    split <;> exact .elsewhere
  | _ => exact .elsewhere

theorem Chip.accessDone_derive (c : Chip) (hc : c.DormantUnbound) : c.DeriveStep c.accessDone := by
  obtain ⟨ht, hs⟩ := hc
  apply c.accessDone_cases (P := c.DeriveStep)
  case idle => exact fun _ => .refl c
  case noHost => exact fun _ _ => .elsewhere
  case read => exact fun _ _ _ _ _ => .elsewhere
  case write =>
    intro h w be _ hh _
    refine Chip.DeriveStep.trans (.elsewhere) (Chip.deliver_derive _ _ w be fun l e => ?_)
    exact (hs ((Chip.binding_eq_none c).mpr (by rw [ht h l hh e]; exact fun _ => nofun))).points
  case internal =>
    intro cl q _
    have freed (mem : List Host.Cell) (i : InternalMaster) : c.DeriveStep { c with mem := mem, port := none, im := i } :=
      .elsewhere
    refine (freed (q.perform c.mem) { c.im with current := none }).trans ?_
    cases cl with
    | binding => exact Chip.bindingAccessDone_derive _ _ ⟨ht, fun hb => (hs hb).same {}⟩
    | command => exact Chip.commandAccessDone_derive _ _
    | report =>
      obtain ⟨_, _, _, e⟩ := Chip.reportWriteDone_shape
        { c with mem := q.perform c.mem, port := none, im := { c.im with current := none } }
      simp only [Chip.handBack, e]
      exact .elsewhere
  case orphan => exact fun _ _ => .elsewhere
  case abandoned => exact fun _ _ => .elsewhere

/-! ### Power -/

theorem Chip.powerOn_derivedAt (c : Chip) (r : Rec) : c.powerOn.DerivedAt r := by
  rw [Chip.derivedAt_iff, (c.powerOn_tables.1 r).1]
  have suppression : c.powerOn.suppression r = c.lisoFiltered[loopOf r] := by
    unfold Chip.suppression
    rw [(c.powerOn_tables.1 r).2, show c.powerOn.zoneMask = 0 from rfl, maskWithholds_zero]
    simp [planWithheld, show c.powerOn.lisoFiltered = c.lisoFiltered from rfl]
  rw [suppression]
  exact ⟨rfl, by simp [PointRecord.fresh, armedOf, Presence.armable]⟩

theorem Chip.deriveAll_derivedAt (c : Chip) (r : Rec) : c.deriveAll.DerivedAt r := by
  obtain ⟨p, shape⟩ : ∃ p, c.deriveAll = { c with points := p } := ⟨_, rfl⟩
  have suppression : c.deriveAll.suppression r = c.suppression r := by rw [shape]; rfl
  have withdraw : c.deriveAll.autoWithdraw = c.autoWithdraw := by rw [shape]; rfl
  rw [Chip.derivedAt_iff, c.deriveAll_points, suppression, withdraw]
  exact ⟨rfl, rfl⟩

theorem Chip.powerOnRelease_derive (c : Chip) (liso : BitVec 4) : c.DeriveStep (c.powerOnRelease liso) := by
  unfold Chip.powerOnRelease
  split
  · exact fun r _ => .inr (Chip.deriveAll_derivedAt _ r)
  · exact .refl c

/-! ### Every step -/

/-- Dormancy is kept beside the derived fields. -/
theorem Chip.FieldsDerived.step {c d : Chip} (hd : c.DormantUnbound → d.DormantUnbound) (h : c.DormantUnbound → c.DeriveStep d)
    (hc : c.FieldsDerived) : d.FieldsDerived := by
  rw [Chip.fieldsDerived_iff] at hc ⊢
  exact ⟨hd hc.1, fun r => h hc.1 r (hc.2 r)⟩

theorem fieldsDerived_kept : Kept Chip.FieldsDerived where
  releaseHeld c := .step (dormantUnbound_kept.releaseHeld c) fun _ => by
    obtain ⟨_, _, e⟩ := c.releaseHeld_shape; rw [e]; exact .elsewhere
  backlog c l := .step (dormantUnbound_kept.backlog c l) fun _ => .elsewhere
  arrive c q hn := .step (dormantUnbound_kept.arrive c q hn) fun _ => by
    obtain ⟨_, _, _, e⟩ := c.arrive_shape q; rw [e]; exact .elsewhere
  choose c := .step (dormantUnbound_kept.choose c) fun _ => .elsewhere
  grant c := .step (dormantUnbound_kept.grant c) fun _ => by
    obtain ⟨_, _, _, e⟩ := c.grant_shape; rw [e]; exact .elsewhere
  accessDone c := .step (dormantUnbound_kept.accessDone c) c.accessDone_derive
  commandWork c := .step (dormantUnbound_kept.commandWork c) fun _ => c.commandWork_derive
  takeReply c := .step (dormantUnbound_kept.takeReply c) fun _ => c.takeReply_derive
  makeSilenceTest c r := .step (dormantUnbound_kept.makeSilenceTest c r) fun _ => c.makeSilenceTest_derive r
  makeRederivation c r := .step (dormantUnbound_kept.makeRederivation c r) fun _ => c.makeRederivation_derive r
  compareSlot c k := .step (dormantUnbound_kept.compareSlot c k) fun _ => c.compareSlot_derive k
  endSlot c k := .step (dormantUnbound_kept.endSlot c k) fun _ => c.endSlot_derive k
  sweepSlot c k := .step (dormantUnbound_kept.sweepSlot c k) fun _ => c.sweepSlot_derive k
  startRecord c := .step (dormantUnbound_kept.startRecord c) fun _ => c.startRecord_derive
  sampleInput c liso l := .step (dormantUnbound_kept.sampleInput c liso l) fun _ => c.sampleInput_derive liso l
  countEdge c := .step (dormantUnbound_kept.countEdge c) fun _ => c.countEdge_derive
  nextTick c := .step (dormantUnbound_kept.nextTick c) fun _ => c.nextTick_derive
  loadZones c := .step (dormantUnbound_kept.loadZones c) fun _ => c.loadZones_derive
  shiftChain c b := .step (dormantUnbound_kept.shiftChain c b) fun _ => .elsewhere
  unbindByHostReset c := .step (dormantUnbound_kept.unbindByHostReset c) fun _ => c.unbindByHostReset_derive
  dsel c d := .step (dormantUnbound_kept.dsel c d) fun _ => .elsewhere
  hrstLow c b := .step (dormantUnbound_kept.hrstLow c b) fun _ => .elsewhere
  powerOn c := .step (dormantUnbound_kept.powerOn c) fun _ r _ => .inr (c.powerOn_derivedAt r)
  powerOnRelease c liso := .step (dormantUnbound_kept.powerOnRelease c liso) fun _ => c.powerOnRelease_derive liso

/-- Settles O10: a point's own moves keep its facts and ranges, and every move re-derives the point whose consents or STATE it
changes, or owes it. -/
theorem pointFactsStand : Obligations.PointFactsStand :=
  ⟨fun s t h e => (step_blockStep s t e).points h, fun s t h e => (step_blockStep s t e).ranges h, fieldsDerived_kept.stepKeeps⟩

end Sys2Proof.Machine
end

