-- ==== Sys2Proof/Proofs/SealFacts.lean ====
section
/-! SUPPORT. The seal (R40 to R42): what a step other than a power-on reset can do, and what the seal keeps through it. O12 is
settled here. -/

namespace Sys2Proof.Machine

/-! ### A step that is no power-on reset -/

/-- A fact about the chip that every event but a power-on reset keeps, and every part of the settling. -/
structure KeptPowered (P : Chip → Prop) : Prop where
  releaseHeld : ∀ c, P c → P c.releaseHeld
  backlog : ∀ c l, P c → P { c with backlog := l }
  arrive : ∀ c q, c.host = none → P c → P (c.arrive q)
  choose : ∀ c, P c → P { c with im := c.im.choose }
  grant : ∀ c, P c → P c.grant
  accessDone : ∀ c, P c → P c.accessDone
  commandWork : ∀ c, P c → P c.commandWork
  takeReply : ∀ c, P c → P c.takeReply
  makeSilenceTest : ∀ c r, P c → P (c.makeSilenceTest r)
  makeRederivation : ∀ c r, P c → P (c.makeRederivation r)
  compareSlot : ∀ c k, P c → P (c.compareSlot k)
  endSlot : ∀ c k, P c → P (c.endSlot k)
  sweepSlot : ∀ c k, P c → P (c.sweepSlot k)
  startRecord : ∀ c, P c → P c.startRecord
  sampleInput : ∀ c liso l, P c → P (c.sampleInput liso l)
  countEdge : ∀ c, P c → P c.countEdge
  nextTick : ∀ c, P c → P c.nextTick
  loadZones : ∀ c, P c → P c.loadZones
  shiftChain : ∀ c b, P c → P (c.shiftChain b)
  unbindByHostReset : ∀ c, P c → P c.unbindByHostReset
  dsel : ∀ c d, P c → P { c with dsel := d }
  hrstLow : ∀ c b, P c → P { c with hrstLow := b }
  powerOnRelease : ∀ c liso, P c → P (c.powerOnRelease liso)

section
variable {P : Chip → Prop}

theorem KeptPowered.present (k : KeptPowered P) (l : List HostRequest) (c : Chip) (hc : P c) : P (Chip.present l c) := by
  induction l generalizing c with
  | nil => exact k.backlog _ _ hc
  | cons q t ih =>
    rw [Chip.present]
    by_cases h : c.host.isSome
    · rw [if_pos h]; exact k.backlog _ _ hc
    · rw [if_neg h]; exact ih _ (k.arrive _ _ (Option.not_isSome_iff_eq_none.mp h) hc)

theorem KeptPowered.event (k : KeptPowered P) (f : Chip → Chip) (hf : ∀ c, P c → P (f c)) (c : Chip) (hc : P c) :
    P (c.event f) := by
  rw [Chip.event]
  split
  · exact hc
  · exact k.grant _ (k.choose _ (k.present _ _ (k.releaseHeld _ (hf _ hc))))

/-- An event that happens under a condition. -/
theorem KeptPowered.eventIf (k : KeptPowered P) (p : Chip → Bool) (f : Chip → Chip) (hf : ∀ c, P c → P (f c)) (c : Chip)
    (hc : P c) : P (c.event fun c => if p c then f c else c) :=
  k.event _ (fun c hc => by
    show P (if p c then f c else c)
    split
    · exact hf c hc
    · exact hc) c hc

theorem KeptPowered.accessDones (k : KeptPowered P) (n : Nat) (c : Chip) (hc : P c) : P (Chip.accessDones n c) := by
  induction n generalizing c with
  | zero => exact hc
  | succ n ih => exact ih _ (k.event _ k.accessDone _ hc)

theorem KeptPowered.advances (k : KeptPowered P) (n : Nat) (c : Chip) (hc : P c) : P (Chip.advances n c) := by
  induction n generalizing c with
  | zero => exact hc
  | succ n ih =>
    refine ih _ (k.event _ (fun c hc => ?_) _ hc)
    show P (if c.working then c.commandWork else c.accessDone)
    split
    · exact k.commandWork _ hc
    · exact k.accessDone _ hc

theorem KeptPowered.hostPresents (k : KeptPowered P) (c : Chip) (q : HostRequest) (hc : P c) : P (c.hostPresents q) :=
  k.event _ (fun c h => k.backlog c _ h) _ hc

/-- A host access and the accesses that finish after it. -/
theorem KeptPowered.hostAccess (k : KeptPowered P) (c : Chip) (q : HostRequest) (n : Nat) (hc : P c) :
    P (Chip.accessDones n (c.hostPresents q)) := k.accessDones _ _ (k.hostPresents _ _ hc)

theorem KeptPowered.commandRow (k : KeptPowered P) (c : Chip) (code : BitVec 8) (how : CommandStep) (hc : P c) :
    P (c.commandRow code how) := by
  cases how with
  | word a tag upper after => exact k.advances _ _ (k.hostPresents _ _ hc)
  | run n =>
    show P (if c.runs code then Chip.advances n c else c)
    split
    · exact k.advances _ _ hc
    · exact hc

theorem KeptPowered.refEdge (k : KeptPowered P) (c : Chip) (liso : BitVec 4) (order : List Loop) (last : Bool) (hc : P c) :
    P (c.refEdge liso order last) := by
  have samples (d : Chip) (hd : P d) : P (d.sampleInputs liso order) :=
    kept_foldl _ (fun c l h => k.sampleInput c liso l h) _ _ hd
  rw [Chip.refEdge]
  split
  · exact k.countEdge _ (samples _ hc)
  · exact samples _ (k.countEdge _ hc)

theorem KeptPowered.refEdges (k : KeptPowered P) (liso : BitVec 4) (n : Nat) (c : Chip) (hc : P c) :
    P (Chip.refEdges liso n c) := by
  induction n generalizing c with
  | zero => exact hc
  | succ n ih => exact ih _ (k.refEdge _ _ _ _ hc)

theorem KeptPowered.sweepMoves (k : KeptPowered P) (n : Nat) (j : Fin 4) (c : Chip) (hc : P c) : P (Chip.sweepMoves n j c) := by
  induction n generalizing c with
  | zero => exact hc
  | succ n ih => exact ih _ (k.event _ (fun c h => k.sweepSlot c j h) _ hc)

/-- Every command but POWER_ON_RESET keeps such a fact. -/
theorem KeptPowered.exec (k : KeptPowered P) (i : Instr) (hi : i ≠ .powerOnReset) (s : State) (h : P s.chip) :
    ∃ c, exec i s = .next (s.withChip c) ∧ P c := by
  cases i with
  | powerOnReset => exact absurd rfl hi
  | passedWrite | verdictWordRead | planWordRead | swallowedWrite | serialWordWrite | replyWordWrite | malformedReplyWrite
  | mailboxOverrunWrite | consumerWrite => exact ⟨_, rfl, k.hostAccess _ _ _ h⟩
  | bindTrigger => exact ⟨_, rfl, k.hostAccess _ _ _ (k.dsel _ _ h)⟩
  | downstreamAccessDone => exact ⟨_, rfl, k.event _ k.accessDone _ h⟩
  | bindRejected => exact ⟨_, rfl, k.eventIf Chip.rejectedAtPort _ k.accessDone _ h⟩
  | bindBound => exact ⟨_, rfl, k.eventIf Chip.boundAtPort _ k.accessDone _ h⟩
  | commandComplete => exact ⟨_, rfl, k.eventIf Chip.finalStatusAtPort _ k.accessDone _ h⟩
  | reportRecordPublish => exact ⟨_, rfl, k.eventIf Chip.producerAtPort _ k.accessDone _ h⟩
  | secondTick => exact ⟨_, rfl, k.event _ k.nextTick _ h⟩
  | silenceExpiry which =>
    refine ⟨_, rfl, k.event _ (fun c hc => ?_) _ h⟩
    by_cases hs : c.stretching
    · simp only [hs, if_true]; exact hc
    · simp only [hs]
      cases which with
      | one r => exact k.makeSilenceTest _ _ hc
      | all => exact kept_foldl _ k.makeSilenceTest _ _ hc
  | walkExpiry j => exact ⟨_, rfl, k.event _ (fun c hc => k.compareSlot c j hc) _ h⟩
  | heldReadRelease => exact ⟨_, rfl, k.event _ (fun _ hc => hc) _ h⟩
  | heldReplyWriteRelease => exact ⟨_, rfl, k.accessDones _ _ (k.event _ (fun _ hc => hc) _ h)⟩
  | replyEvent => exact ⟨_, rfl, k.event _ k.takeReply _ h⟩
  | loopIsolateChange l => exact ⟨_, rfl, k.event _ (fun c hc => k.refEdges _ _ c hc) _ h⟩
  | zoneLoad z =>
    refine ⟨_, rfl, k.event _ (fun c hc => k.loadZones _ ?_) _ h⟩
    cases z with
    | none => exact hc
    | some b => exact k.shiftChain _ _ hc
  | consentRederivation which =>
    refine ⟨_, rfl, k.event _ (fun c hc => ?_) _ h⟩
    cases which with
    | one r => exact k.makeRederivation _ _ hc
    | all => exact kept_foldl _ (fun c o hc => k.makeRederivation c o.point hc) _ _ hc
  | walkEndEvent j => exact ⟨_, rfl, k.event _ (fun c hc => k.endSlot c j hc) _ h⟩
  | walkClearEvent j n => exact ⟨_, rfl, k.sweepMoves n j _ h⟩
  | reportRecordStart => exact ⟨_, rfl, k.event _ k.startRecord _ h⟩
  | hostReset => exact ⟨_, rfl, k.event _ k.unbindByHostReset _ (k.hrstLow _ _ h)⟩
  | powerOnRelease => exact ⟨_, rfl, k.powerOnRelease _ _ h⟩
  | zoneChainShift d z => exact ⟨_, rfl, k.eventIf (fun _ => z) _ (fun c => k.shiftChain c d) _ h⟩
  | hostResetRelease => exact ⟨_, rfl, k.hrstLow _ _ h⟩
  | refclkRisingEdge liso order last => exact ⟨_, rfl, k.event _ (fun c hc => k.refEdge c _ _ _ hc) _ h⟩
  | unknownCommand | planLoad | snapshot | restore | profileSet | sealPlan | walkStart | walkEnd | accept | release | adopt
  | clearFlags | clearVerdict | revertPrepare | revert | query | reset => exact ⟨_, rfl, k.commandRow _ _ _ h⟩

end

end Sys2Proof.Machine
end

