-- ==== Sys2Proof/Proofs/SealKept.lean ====
section
/-! SUPPORT. What each move does to the plan, the codes and the seal; O12 is settled here. -/

namespace Sys2Proof.Machine

/-- The command in hand is at no stage that leads to a change of the plan. -/
def Chip.Calm (c : Chip) : Prop := ∀ m, c.command = some m → m.stage.changesPlan = false

/-- From one chip to another: with the seal set the command stays calm, and then plan, codes and seal stand. -/
structure Chip.SealStep (c d : Chip) : Prop where
  calm : (c.sealed = true → c.Calm) → d.sealed = true → d.Calm
  plan : c.sealed = true → c.Calm → d.plan = c.plan ∧ d.profiles = c.profiles ∧ d.sealed = true

theorem Chip.SealStep.refl (c : Chip) : c.SealStep c := ⟨id, fun h _ => ⟨rfl, rfl, h⟩⟩

theorem Chip.SealStep.trans {c d e : Chip} (h : c.SealStep d) (g : d.SealStep e) : c.SealStep e where
  calm hc := g.calm (h.calm hc)
  plan hs hc := by
    obtain ⟨h1, h2, h3⟩ := h.plan hs hc
    obtain ⟨g1, g2, g3⟩ := g.plan h3 (h.calm (fun _ => hc) h3)
    exact ⟨g1.trans h1, g2.trans h2, g3⟩

/-- A chip with the same plan, codes, seal and command. -/
theorem Chip.SealStep.elsewhere {c d : Chip} (h1 : d.plan = c.plan := by rfl) (h2 : d.profiles = c.profiles := by rfl)
    (h3 : d.sealed = c.sealed := by rfl) (h4 : d.command = c.command := by rfl) : c.SealStep d where
  calm hc hd := by unfold Chip.Calm; rw [h4]; exact hc (h3 ▸ hd)
  plan hs _ := ⟨h1, h2, h3.trans hs⟩

/-- Plan, codes and seal stand, and the command is calm when it was. -/
theorem Chip.SealStep.stage {c d : Chip} (h1 : d.plan = c.plan) (h2 : d.profiles = c.profiles) (h3 : d.sealed = c.sealed)
    (h4 : c.Calm → d.Calm) : c.SealStep d :=
  ⟨fun hc hd => h4 (hc (h3 ▸ hd)), fun hs _ => ⟨h1, h2, h3.trans hs⟩⟩

theorem Chip.Calm.idle {c : Chip} (h : c.command = none) : c.Calm := by
  intro m hm; rw [h] at hm; cases hm

theorem Chip.Calm.atStage {c : Chip} {m : Command} (h : c.command = some m) (hm : m.stage.changesPlan = false) : c.Calm := by
  intro x hx; rw [h] at hx; cases hx; exact hm

theorem Chip.StageMove.seal {c d : Chip} (h : c.StageMove d) : c.SealStep d := by
  obtain ⟨m, m', t, i, hm, rfl, -, hstage⟩ := h
  refine .stage rfl rfl rfl fun hc => .atStage rfl ?_
  by_contra hn
  exact absurd (hc m hm) (by rw [hstage (by simpa using hn)]; nofun)

theorem Chip.complete_seal (c : Chip) (k : Completion) : c.SealStep (c.complete k) := by
  obtain h | h := c.complete_stageMove k
  · rw [h]; exact .refl c
  · exact h.seal

theorem Chip.raise_seal (c : Chip) (x : Report) : c.SealStep (c.raise x) := by
  obtain ⟨_, _, h⟩ := c.raise_shape x; rw [h]; exact .elsewhere

theorem Chip.AlterAlarm.seal {c d : Chip} (h : c.AlterAlarm d) : c.SealStep d := by
  obtain ⟨_, _, _, _, _, _, _, rfl⟩ := h; exact .elsewhere

theorem Chip.AlterPoints.seal {c d : Chip} (h : c.AlterPoints d) : c.SealStep d := h.alarm.seal

/-! ### The command's own events -/

/-- From an unsealed chip to one as unsealed there is nothing to keep. -/
theorem Chip.SealStep.unsealed {c d : Chip} (hc : c.sealed = false) (hd : d.sealed = c.sealed) : c.SealStep d :=
  ⟨fun _ h => (by rw [hd, hc] at h; cases h), fun h => by rw [hc] at h; cases h⟩

/-- From a stage that changes the plan: the seal is not set there, and where it is set afterwards the command is calm. -/
theorem Chip.SealStep.of_planStage {c d : Chip} {m : Command} (hm : c.command = some m) (hs : m.stage.changesPlan = true)
    (hd : d.sealed = true → c.sealed = true ∨ d.Calm) : c.SealStep d := by
  have noisy : ¬c.Calm := fun h => by rw [h m hm] at hs; cases hs
  exact ⟨fun hc h => (hd h).resolve_left fun h => noisy (hc h), fun _ hc => absurd hc noisy⟩

theorem Chip.goto_seal (c : Chip) (m : Command) (g : CommandStage) (hg : g.changesPlan = false) : c.SealStep (c.goto m g) :=
  .stage rfl rfl rfl fun _ => .atStage rfl hg

/-- The command goes on at a calm work event, or is over. -/
theorem Chip.nextOrComplete_seal (c : Chip) (p : Prop) [Decidable p] (m : Command) (w : Work) (k : Completion)
    (hw : (CommandStage.working w).changesPlan = false) : c.SealStep (if p then c.gotoWork m w else c.complete k) := by
  split
  · exact c.goto_seal m _ hw
  · exact c.complete_seal k

theorem Chip.stretchEvent_seal (c : Chip) (m : Command) (k : Stretch) (a b x y : Nat) :
    c.SealStep (c.stretchEvent m k a b x y) := by
  unfold Chip.stretchEvent
  cases k.change c.points[recordAt a] with
  | none => exact c.nextOrComplete_seal _ m _ _ rfl
  | some p =>
    exact (c.setPoint_alter (recordAt a) p).seal.trans (Chip.nextOrComplete_seal _ _ m _ _ rfl)

theorem Chip.clearFlagsEvent_seal (c : Chip) (m : Command) (a b : Nat) (k : BitVec 8) (n : Nat) :
    c.SealStep (c.clearFlagsEvent m a b k n) :=
  (c.modPoint_alter (recordAt a) fun p => p.clearFlags k).seal.trans (Chip.nextOrComplete_seal _ _ m _ _ rfl)

theorem Chip.clearVerdictEvent_seal (c : Chip) (m : Command) (a b x y : Nat) :
    c.SealStep (c.clearVerdictEvent m a b x y) := by
  have cleared (h : Bool) : c.SealStep (if h then c.setVerdict (recordAt a) .none else c) := by
    split
    · exact (c.setVerdict_alter _ _).seal
    · exact .refl c
  unfold Chip.clearVerdictEvent
  dsimp only
  generalize (c.points[recordAt a].verdict.standing && c.points[recordAt a].lastStatus != some .alarm) = clear
  exact (cleared clear).trans (Chip.nextOrComplete_seal _ _ m (.clearVerdict ..) _ rfl)

theorem Chip.queryEvent_seal (c : Chip) (m : Command) (n : Nat) (q : Census) : c.SealStep (c.queryEvent m n q) := by
  unfold Chip.queryEvent
  split
  · exact c.goto_seal m _ rfl
  · split
    · exact c.goto_seal m _ rfl
    · exact c.nextOrComplete_seal _ m _ _ rfl

theorem Chip.checkRange_seal (c : Chip) (m : Command) (ok : PointRecord → Bool) (w : Work)
    (hw : (CommandStage.working w).changesPlan = false) : c.SealStep (c.checkRange m ok w) := by
  unfold Chip.checkRange
  split
  · exact c.complete_seal _
  · split
    · exact c.complete_seal _
    · exact c.goto_seal m _ hw

theorem Chip.checkWalkStart_seal (c : Chip) (m : Command) : c.SealStep (c.checkWalkStart m) := by
  unfold Chip.checkWalkStart
  dsimp only
  split
  · exact c.complete_seal _
  · split
    · exact c.complete_seal _
    · split
      · exact c.complete_seal _
      · split
        · exact c.complete_seal _
        · split
          · exact c.complete_seal _
          · rename_i k _ _
            have started (o : List (Fin 4)) (w : Option WalkSlot) (z : Zone) (f : ZoneRecord → ZoneRecord) :
                c.SealStep ((Chip.setSlot { c with walkOwed := o } k w).modZone z f) := .elsewhere
            exact (started _ _ _ _).trans (Chip.complete_seal _ _)

theorem Chip.checkWalkEnd_seal (c : Chip) (m : Command) : c.SealStep (c.checkWalkEnd m) := by
  unfold Chip.checkWalkEnd
  split
  · exact (c.requestEnd_alter _ _).seal.trans (Chip.goto_seal _ m _ rfl)
  · exact c.complete_seal _

theorem Chip.checkAdopt_seal (c : Chip) (m : Command) : c.SealStep (c.checkAdopt m) := by
  unfold Chip.checkAdopt
  dsimp only
  split
  · exact c.complete_seal _
  · split
    · exact ((c.setPoint_alter _ _).trans (Chip.rederive_alter _ _)).seal.trans (Chip.complete_seal _ _)
    · exact c.complete_seal _

theorem Chip.checkClearFlags_seal (c : Chip) (m : Command) : c.SealStep (c.checkClearFlags m) := by
  unfold Chip.checkClearFlags
  split
  · exact c.complete_seal _
  · split
    · exact c.complete_seal _
    · exact c.goto_seal m _ rfl

theorem Chip.checkClearVerdict_seal (c : Chip) (m : Command) : c.SealStep (c.checkClearVerdict m) := by
  unfold Chip.checkClearVerdict
  split
  · exact c.complete_seal _
  · exact c.goto_seal m _ rfl

theorem Chip.checkSnapshot_seal (c : Chip) (m : Command) (b : Binding) (t : TransferEngine) :
    c.SealStep (c.checkSnapshot m b t) := by
  unfold Chip.checkSnapshot
  split
  · exact c.complete_seal _
  · exact .stage rfl rfl rfl fun _ => .atStage rfl rfl

/-- The first checks of a transfer leave the seal. -/
theorem Chip.checkTransfer_sealed (c : Chip) (f : Binding → TransferEngine → Chip) (h : ∀ b t, (f b t).sealed = c.sealed) :
    (c.checkTransfer f).sealed = c.sealed := by
  unfold Chip.checkTransfer
  split
  · exact h _ _
  · rfl

theorem Chip.checkPlanLoad_sealed (c : Chip) (m : Command) (b : Binding) (t : TransferEngine) :
    (c.checkPlanLoad m b t).sealed = c.sealed := by
  unfold Chip.checkPlanLoad
  split
  · simp
  · split
    · simp
    · rfl

theorem Chip.checkRestore_sealed (c : Chip) (m : Command) (b : Binding) (t : TransferEngine) :
    (c.checkRestore m b t).sealed = c.sealed := by
  unfold Chip.checkRestore
  split
  · simp
  · split
    · simp
    · split
      · simp
      · rfl

theorem Chip.checkProfileSet_sealed (c : Chip) (m : Command) : (c.checkProfileSet m).sealed = c.sealed := by
  unfold Chip.checkProfileSet
  split
  · simp
  · split <;> simp

/-- Setting the seal leaves plan and codes, with the command calm (R43). -/
theorem Chip.checkSeal_seal (c : Chip) (hc : c.Calm) : c.SealStep c.checkSeal := by
  have set : c.SealStep { c with sealed := true } := ⟨fun _ _ => hc, fun _ _ => ⟨rfl, rfl, rfl⟩⟩
  exact set.trans (Chip.complete_seal _ _)

theorem sealChecked_of {code : BitVec 8} {n : Nat} (h : code.toNat = n) (hn : n ∈ [1, 3, 4, 9, 13, 14]) :
    sealChecked code = true := by
  rw [sealChecked, List.contains_iff_mem, h]; exact hn

theorem Chip.checkCommand_seal (c : Chip) (m : Command) (hc : c.Calm) : c.SealStep (c.checkCommand m) := by
  unfold Chip.checkCommand
  split
  · exact c.complete_seal _
  · rename_i hseal
    have unsealed {n : Nat} (h : m.code.toNat = n) (hn : n ∈ [1, 3, 4, 9, 13, 14]) : c.sealed = false := by
      by_contra hs
      exact hseal ⟨sealChecked_of h hn, by simpa using hs⟩
    split
    · rename_i h
      exact .unsealed (unsealed h (by simp)) (c.checkTransfer_sealed _ (c.checkPlanLoad_sealed m))
    · unfold Chip.checkTransfer
      split
      · exact c.checkSnapshot_seal m _ _
      · exact .refl c
    · rename_i h
      exact .unsealed (unsealed h (by simp)) (c.checkTransfer_sealed _ (c.checkRestore_sealed m))
    · rename_i h
      exact .unsealed (unsealed h (by simp)) (c.checkProfileSet_sealed m)
    · exact c.checkSeal_seal hc
    · exact c.checkWalkStart_seal m
    · exact c.checkWalkEnd_seal m
    · exact c.checkRange_seal m _ _ rfl
    · exact c.checkRange_seal m _ _ rfl
    · exact c.checkAdopt_seal m
    · exact c.checkClearFlags_seal m
    · exact c.checkClearVerdict_seal m
    · exact c.complete_seal _
    · exact c.nextOrComplete_seal _ m _ _ rfl
    · exact c.goto_seal m _ rfl
    · exact c.complete_seal _
    · exact c.complete_seal _

/-! ### The passes of PLAN LOAD and RESTORE -/

theorem Chip.afterPlanChecks_sealed (c : Chip) (m : Command) (t : TransferEngine) :
    (c.afterPlanChecks m t).sealed = c.sealed := by
  unfold Chip.afterPlanChecks
  split
  · rfl
  · split <;> rfl

theorem Chip.planEntry_sealed (c : Chip) (m : Command) (t : TransferEngine) (s : Nat) :
    (c.planEntry m t s).sealed = c.sealed := by
  have next (t : TransferEngine) : (if s < 8 then Chip.gotoWork { c with transfer := some t } m (.planEntry (s + 1))
      else c.afterPlanChecks m t).sealed = c.sealed := by
    split
    · rfl
    · exact c.afterPlanChecks_sealed m t
  unfold Chip.planEntry
  dsimp only
  split
  · exact next t
  · split
    · simp
    · exact next _

theorem Chip.replaceEntry_sealed (c : Chip) (r : Rec) (e : Option PlanEntry) : (c.replaceEntry r e).sealed = c.sealed := by
  obtain ⟨_, h, -⟩ := c.replaceEntry_shape r e; rw [h]

theorem Chip.installEntry_sealed (c : Chip) (r : Rec) (e : Option PlanEntry) : (c.installEntry r e).sealed = c.sealed :=
  c.replaceEntry_sealed r e

theorem Chip.restorePoint_sealed (c : Chip) (r : Rec) (q : RestoredPoint) : (c.restorePoint r q).sealed = c.sealed :=
  c.replaceEntry_sealed r q.entry

theorem Chip.afterPlanInstalls_sealed (c : Chip) (m : Command) (t : TransferEngine) :
    (c.afterPlanInstalls m t).sealed = c.sealed := by
  unfold Chip.afterPlanInstalls
  dsimp only
  split
  · rfl
  · simp

theorem Chip.planInstall_sealed (c : Chip) (m : Command) (t : TransferEngine) (s : Nat) :
    (c.planInstall m t s).sealed = c.sealed := by
  have goes (d : Chip) (t : TransferEngine) : (if s < 8 then Chip.gotoWork { d with transfer := some t } m (.planInstall (s + 1))
      else d.afterPlanInstalls m t).sealed = d.sealed := by
    split
    · rfl
    · exact d.afterPlanInstalls_sealed m t
  unfold Chip.planInstall
  dsimp only
  by_cases h : entryLoop (t.entryWords s).1 = 0
  · simp only [if_pos h]
    exact goes c t
  · simp only [if_neg h]
    exact (goes _ _).trans (c.installEntry_sealed _ _)

theorem Chip.restoreHeader_sealed (c : Chip) (m : Command) (t : TransferEngine) : (c.restoreHeader m t).sealed = c.sealed := by
  unfold Chip.restoreHeader
  split
  · rfl
  · simp

theorem Chip.restoreBlock_sealed (c : Chip) (m : Command) (t : TransferEngine) : (c.restoreBlock m t).sealed = c.sealed := by
  unfold Chip.restoreBlock
  split
  · simp
  · split
    · simp
    · split
      · rfl
      · split <;> rfl

theorem Chip.restoreInstall_sealed (c : Chip) (m : Command) (t : TransferEngine) (s : Nat) :
    (c.restoreInstall m t s).sealed = c.sealed := by
  have installed := c.restorePoint_sealed (recordAt (8 * t.block + s - 1)) (restoredPoint t.words s)
  unfold Chip.restoreInstall
  dsimp only
  split
  · exact installed
  · split <;> exact installed

/-- A completion while BOUND leaves the command calm. -/
theorem Chip.complete_calm (c : Chip) (m : Command) (k : Completion) (hm : c.command = some m) (hb : c.binding ≠ none) :
    (c.complete k).Calm := by
  unfold Chip.complete
  rw [hm]
  split
  · exact .atStage rfl rfl
  · rename_i h
    refine absurd ((Chip.binding_eq_none c).mpr fun b hb => ?_) hb
    exact h m b rfl hb

theorem Chip.restoreFinal_calm (c : Chip) (m : Command) (t : TransferEngine) (hm : c.command = some m) (hb : c.binding ≠ none) :
    (c.restoreFinal t).sealed = true → c.sealed = true ∨ (c.restoreFinal t).Calm := by
  unfold Chip.restoreFinal
  split
  · exact fun _ => .inr (Chip.complete_calm _ m _ hm hb)
  · exact .inl

/-- A work event of a pass that changes the plan, the seal left alone. -/
theorem Chip.transferWork_seal (c : Chip) (m : Command) (f : TransferEngine → Chip) (hm : c.command = some m)
    (hs : m.stage.changesPlan = true) (hf : ∀ t, (f t).sealed = c.sealed) : c.SealStep (c.transferWork f) := by
  unfold Chip.transferWork
  split
  · exact .refl c
  · exact .of_planStage hm hs fun h => .inl (by rw [← hf]; exact h)

theorem Chip.writeWord_seal (c : Chip) (m : Command) (t : TransferEngine) (g : Transfer) (i : Nat) (hg : g ≠ .read) :
    c.SealStep (c.writeWord m t g i) :=
  .stage rfl rfl rfl fun _ => .atStage rfl (by cases g <;> first | rfl | exact absurd rfl hg)

theorem Chip.work_seal (c : Chip) (m : Command) (w : Work) (hm : c.command = some m) (hw : m.stage = .working w)
    (hb : c.binding ≠ none) : c.SealStep (c.work m w) := by
  have stage {p : Bool} (h : (CommandStage.working w).changesPlan = p) : m.stage.changesPlan = p := by rw [hw]; exact h
  cases w with
  | check => exact c.checkCommand_seal m (.atStage hm (stage rfl))
  | stretch k a b x y => exact c.stretchEvent_seal m k a b x y
  | clearFlags a b k n => exact c.clearFlagsEvent_seal m a b k n
  | clearVerdict a b x y => exact c.clearVerdictEvent_seal m a b x y
  | query n q => exact c.queryEvent_seal m n q
  | planBlock =>
    refine c.transferWork_seal m _ hm (stage rfl) fun t => ?_
    unfold Chip.planBlock
    split
    · rfl
    · simp
  | planEntry s => exact c.transferWork_seal m _ hm (stage rfl) fun t => c.planEntry_sealed m t s
  | planInstall s => exact c.transferWork_seal m _ hm (stage rfl) fun t => c.planInstall_sealed m t s
  | restoreHeader => exact c.transferWork_seal m _ hm (stage rfl) fun t => c.restoreHeader_sealed m t
  | restoreBlock => exact c.transferWork_seal m _ hm (stage rfl) fun t => c.restoreBlock_sealed m t
  | restoreInstall s => exact c.transferWork_seal m _ hm (stage rfl) fun t => c.restoreInstall_sealed m t s
  | restoreFinal =>
    show c.SealStep (c.transferWork c.restoreFinal)
    unfold Chip.transferWork
    split
    · exact .refl c
    · exact .of_planStage hm (stage rfl) (c.restoreFinal_calm m _ hm hb)
  | snapshotBlock | snapshotHeader =>
    simp only [Chip.work, Chip.transferWork]
    split
    · exact .refl c
    · exact c.writeWord_seal m _ _ _ nofun

theorem Chip.commandWork_seal (c : Chip) (hc : c.DormantUnbound) : c.SealStep c.commandWork := by
  unfold Chip.commandWork
  split
  · rename_i m hm
    have awake : c.binding ≠ none := fun hb => by rw [(hc.2 hb).command] at hm; cases hm
    split
    · rename_i w hw; exact c.work_seal m w hm hw awake
    · exact .refl c
  · exact .refl c

/-! ### The other moves -/

theorem Chip.takeReply_seal (c : Chip) : c.SealStep c.takeReply := by
  refine Chip.takeReply_keeps (P := c.SealStep) (fun d r h => h.trans ?_) (fun d r h => h.trans ?_)
    (fun d _ rest _ h => h.trans (.elsewhere)) (fun d e h => h.trans (d.processReply_alter e).seal) c (.refl c)
  · obtain ⟨_, _, e⟩ := d.makeRederivation_shape r; rw [e]; exact .elsewhere
  · unfold Chip.makeSilenceTest
    split
    · exact Chip.SealStep.trans (.elsewhere) (Chip.silenceTest_alter _ r).seal
    · exact .refl d

theorem Chip.makeSilenceTest_seal (c : Chip) (r : Rec) : c.SealStep (c.makeSilenceTest r) := by
  unfold Chip.makeSilenceTest
  split
  · have owed : c.SealStep { c with silenceOwed := c.silenceOwed.filter (· != r) } := .elsewhere
    exact owed.trans (Chip.silenceTest_alter _ r).seal
  · exact .refl c

theorem Chip.sweepSlot_seal (c : Chip) (k : Fin 4) : c.SealStep (c.sweepSlot k) := by
  obtain ⟨d, hd, h | ⟨f, h⟩⟩ := c.sweepSlot_shape k
  · rw [h]; exact hd.seal
  · rw [h]; exact hd.seal.trans (d.complete_seal f)

theorem Chip.tick_seal (c : Chip) : c.SealStep c.tick := by
  obtain ⟨_, _, _, h⟩ := c.tick_shape; rw [h]; exact .elsewhere

theorem Chip.countEdge_seal (c : Chip) : c.SealStep c.countEdge := by
  unfold Chip.countEdge
  split
  · split
    · exact c.tick_seal
    · exact .elsewhere
  · exact .refl c

theorem Chip.nextTick_seal (c : Chip) : c.SealStep c.nextTick := by
  unfold Chip.nextTick
  split
  · have cleared (n : Vector Nat 4) : c.SealStep { c with lisoStable := n } := .elsewhere
    exact (cleared _).trans (Chip.tick_seal _)
  · exact .refl c

theorem Chip.deliver_seal (c : Chip) (t : Treatment) (w : Word) (be : BitVec 4) : c.SealStep (c.deliver t w be) := by
  cases t with
  | malformedWrite r =>
    have latch : c.SealStep { c with latch := none } := .elsewhere
    exact latch.trans (Chip.modRaise_alter _ r _ _ _ _ _ _).seal
  | consumerWrite =>
    simp only [Chip.deliver, Chip.consumerDone]
    split
    · split
      · exact .elsewhere (by simp) (by simp) (by simp) (by simp)
      · exact .refl c
    · exact .refl c
  | commandWrite =>
    simp only [Chip.deliver, Chip.takeCommand]
    split
    · exact .stage rfl rfl rfl fun _ => .atStage rfl rfl
    · exact .refl c
  | replyWrite r =>
    simp only [Chip.deliver, Chip.formReply]
    split <;> exact .elsewhere
  | _ => exact .elsewhere

theorem Chip.commandAccessDone_seal (c : Chip) (d : Word) : c.SealStep (c.commandAccessDone d) := by
  obtain h | h | ⟨p, x, h, -⟩ | ⟨h, -⟩ := c.commandAccessDone_cases d
  · rw [h]; exact .refl c
  · exact h.seal
  · rw [h]
    have marks : c.SealStep { c with command := none, transfer := none, prepared := p } :=
      .stage rfl rfl rfl fun _ => .idle rfl
    exact marks.trans (Chip.raise_seal _ x)
  · rw [h]; exact .stage rfl rfl rfl fun _ => .idle rfl

theorem Chip.handBack_seal (c : Chip) (cl : Client) (d : Word) : c.SealStep (c.handBack cl d) := by
  cases cl with
  | binding =>
    show c.SealStep (c.bindingAccessDone d)
    obtain ⟨_, _, _, _, _, _, h⟩ := c.bindingAccessDone_shape d; rw [h]; exact .elsewhere
  | command => exact c.commandAccessDone_seal d
  | report =>
    show c.SealStep c.reportWriteDone
    obtain ⟨_, _, _, h⟩ := c.reportWriteDone_shape; rw [h]; exact .elsewhere

theorem Chip.accessDone_seal (c : Chip) : c.SealStep c.accessDone := by
  apply c.accessDone_cases (P := c.SealStep)
  case idle => exact fun _ => .refl c
  case noHost => exact fun _ _ => .elsewhere
  case read => exact fun _ _ _ _ _ => .elsewhere
  case write => exact fun _ _ _ _ _ _ => Chip.SealStep.trans (.elsewhere) (Chip.deliver_seal _ _ _ _)
  case internal => exact fun _ _ _ => Chip.SealStep.trans (.elsewhere) (Chip.handBack_seal _ _ _)
  case orphan => exact fun _ _ => .elsewhere
  case abandoned => exact fun _ _ => .elsewhere

/-! ### Every step -/

/-- What is kept from a chip on: the seal's fact with dormancy, and plan, codes and seal where it was set. -/
def Chip.SealedSince (c d : Chip) : Prop :=
  d.SealRespected ∧ (c.sealed = true → d.plan = c.plan ∧ d.profiles = c.profiles ∧ d.sealed = true)

theorem Chip.SealedSince.step {c d e : Chip} (hn : d.DormantUnbound → e.DormantUnbound) (h : d.DormantUnbound → d.SealStep e)
    (hd : c.SealedSince d) : c.SealedSince e := by
  obtain ⟨⟨hdormant, hcalm⟩, hplan⟩ := hd
  obtain ⟨calm, plan⟩ := h hdormant
  refine ⟨⟨hn hdormant, calm hcalm⟩, fun hs => ?_⟩
  obtain ⟨h1, h2, h3⟩ := hplan hs
  obtain ⟨g1, g2, g3⟩ := plan h3 (hcalm h3)
  exact ⟨g1.trans h1, g2.trans h2, g3⟩

theorem sealedSince_kept (c : Chip) : KeptPowered c.SealedSince where
  releaseHeld d := .step (dormantUnbound_kept.releaseHeld d) fun _ => by
    obtain ⟨_, _, e⟩ := d.releaseHeld_shape; rw [e]; exact .elsewhere
  backlog d l := .step (dormantUnbound_kept.backlog d l) fun _ => .elsewhere
  arrive d q hn := .step (dormantUnbound_kept.arrive d q hn) fun _ => by
    obtain ⟨_, _, _, e⟩ := d.arrive_shape q; rw [e]; exact .elsewhere
  choose d := .step (dormantUnbound_kept.choose d) fun _ => .elsewhere
  grant d := .step (dormantUnbound_kept.grant d) fun _ => by
    obtain ⟨_, _, _, e⟩ := d.grant_shape; rw [e]; exact .elsewhere
  accessDone d := .step (dormantUnbound_kept.accessDone d) fun _ => d.accessDone_seal
  commandWork d := .step (dormantUnbound_kept.commandWork d) d.commandWork_seal
  takeReply d := .step (dormantUnbound_kept.takeReply d) fun _ => d.takeReply_seal
  makeSilenceTest d r := .step (dormantUnbound_kept.makeSilenceTest d r) fun _ => d.makeSilenceTest_seal r
  makeRederivation d r := .step (dormantUnbound_kept.makeRederivation d r) fun _ => by
    obtain ⟨_, _, e⟩ := d.makeRederivation_shape r; rw [e]; exact .elsewhere
  compareSlot d k := .step (dormantUnbound_kept.compareSlot d k) fun _ => by
    obtain ⟨_, _, e⟩ := d.compareSlot_shape k; rw [e]; exact .elsewhere
  endSlot d k := .step (dormantUnbound_kept.endSlot d k) fun _ => (d.endSlot_alter k).seal
  sweepSlot d k := .step (dormantUnbound_kept.sweepSlot d k) fun _ => d.sweepSlot_seal k
  startRecord d := .step (dormantUnbound_kept.startRecord d) fun _ => by
    obtain ⟨_, _, e⟩ := d.startRecord_shape; rw [e]; exact .elsewhere
  sampleInput d liso l := .step (dormantUnbound_kept.sampleInput d liso l) fun _ => by
    obtain ⟨_, _, _, _, _, e⟩ := d.sampleInput_shape liso l; rw [e]; exact .elsewhere
  countEdge d := .step (dormantUnbound_kept.countEdge d) fun _ => d.countEdge_seal
  nextTick d := .step (dormantUnbound_kept.nextTick d) fun _ => d.nextTick_seal
  loadZones d := .step (dormantUnbound_kept.loadZones d) fun _ => by
    obtain ⟨_, _, _, _, _, e⟩ := d.loadZones_shape; rw [e]; exact .elsewhere
  shiftChain d b := .step (dormantUnbound_kept.shiftChain d b) fun _ => .elsewhere
  unbindByHostReset d := .step (dormantUnbound_kept.unbindByHostReset d) fun _ => .stage rfl rfl rfl fun _ => .idle rfl
  dsel d x := .step (dormantUnbound_kept.dsel d x) fun _ => .elsewhere
  hrstLow d b := .step (dormantUnbound_kept.hrstLow d b) fun _ => .elsewhere
  powerOnRelease d liso := .step (dormantUnbound_kept.powerOnRelease d liso) fun _ => by
    unfold Chip.powerOnRelease
    split
    · exact .elsewhere
    · exact .refl d

/-- Settles O12: a power-on reset clears the seal with the command; any other command keeps what stands since. -/
theorem sealKeepsThePlan : Obligations.SealKeepsThePlan := by
  have running (i : Instr) (hi : i ≠ .powerOnReset) (s t : State) (h : s.chip.SealRespected) (e : exec i s = .next t) :
      s.chip.SealedSince t.chip := by
    obtain ⟨c, hc, hP⟩ := (sealedSince_kept s.chip).exec i hi s ⟨h, fun hs => ⟨rfl, rfl, hs⟩⟩
    rw [hc] at e
    cases e
    exact hP
  constructor
  · intro s t h e
    unfold step at e
    split at e
    · cases e; exact h
    · rename_i i rest _
      by_cases hi : i = .powerOnReset
      · subst hi
        cases e
        exact ⟨Chip.powerOn_dormant _, nofun⟩
      · exact (running i hi (s.withPending rest) t h e).1
  · intro s t h hs hhead e
    unfold step at e
    split at e
    · cases e; exact ⟨rfl, rfl, hs⟩
    · rename_i i rest hp
      have hi : i ≠ .powerOnReset := fun hi => hhead (by rw [hp, hi]; rfl)
      exact (running i hi (s.withPending rest) t h e).2 hs

end Sys2Proof.Machine
end

