-- ==== Sys2Proof/Proofs/ResetFacts.lean ====
section
/-! SUPPORT. The step and the machine after reset: O1 to O4 are settled here. -/

namespace Sys2Proof.Machine

/-- Settles O1: the front command is what `step` runs. -/
theorem stepRunsTheFrontCommand : Obligations.StepRunsTheFrontCommand := fun _ _ _ => rfl

/-- Settles O2: every meaning answers a next state with the queue it was given. -/
theorem everyStepTakesOneCommand : Obligations.EveryStepTakesOneCommand := by
  refine fun s => ⟨?_, fun h => by rw [step, h]⟩
  cases hp : s.pending with
  | nil => exact ⟨s, by rw [step, hp], hp⟩
  | cons i rest =>
    obtain ⟨c, hc⟩ := exec_next i (s.withPending rest)
    exact ⟨_, by rw [step, hp]; exact hc, rfl⟩

/-- The tables after reset. -/
theorem reset_tables : (∀ r : Rec, Chip.reset.plan[r] = none ∧ Chip.reset.points[r] = PointRecord.fresh false) ∧
    (∀ z : Zone, Chip.reset.zones[z] = ZoneRecord.fresh) ∧ (∀ k : Fin 4, Chip.reset.slots[k] = none) ∧
    ∀ l : Loop, Chip.reset.lisoFiltered[l] = false ∧ Chip.reset.lisoStable[l] = 0 :=
  ⟨fun _ => ⟨Vector.getElem_replicate _, Vector.getElem_replicate _⟩, fun _ => Vector.getElem_replicate _,
    fun _ => Vector.getElem_replicate _, fun _ => ⟨Vector.getElem_replicate _, Vector.getElem_replicate _⟩⟩

/-- Settles O3. -/
theorem resetStandsAtPowerOnValues : Obligations.ResetStandsAtPowerOnValues := by
  obtain ⟨records, zones, slots, inputs⟩ := reset_tables
  refine ⟨rfl, rfl, rfl, rfl, rfl, rfl, rfl, rfl, rfl, rfl, rfl, rfl, rfl, rfl, rfl, rfl, rfl, rfl, rfl, rfl, rfl, rfl,
    fun r => ?_, rfl, rfl, rfl, rfl, rfl, rfl, inputs, fun z => ?_, rfl, rfl, slots, rfl, rfl, rfl, rfl, rfl, rfl, rfl, rfl⟩
  · obtain ⟨plan, point⟩ := records r
    simp only [State.reset, plan, point]
    exact ⟨trivial, rfl, rfl, rfl, rfl, rfl, rfl, rfl, rfl, rfl, rfl, rfl, rfl, rfl, rfl, rfl, rfl⟩
  · simp only [State.reset, zones z]
    exact ⟨rfl, rfl, rfl⟩

/-- The chip after reset is dormant. -/
theorem reset_dormantUnbound : Chip.reset.DormantUnbound := by
  obtain ⟨records, zones, slots, -⟩ := reset_tables
  refine ⟨.noHost rfl, fun _ => ⟨fun h hh => (by cases hh), rfl, rfl, fun r => ?_, rfl, fun z => ?_, rfl, slots, rfl, rfl, rfl,
    rfl, rfl, rfl, rfl, rfl⟩⟩
  · rw [(records r).2]; exact ⟨rfl, rfl, rfl⟩
  · rw [zones]; exact ⟨rfl, rfl⟩

theorem reset_derivedAt (r : Rec) : Chip.reset.DerivedAt r := by
  obtain ⟨records, -, -, inputs⟩ := reset_tables
  rw [Chip.derivedAt_iff, (records r).2]
  have suppression : Chip.reset.suppression r = false := by
    unfold Chip.suppression
    rw [(records r).1, (inputs (loopOf r)).1, show Chip.reset.zoneMask = 0 from rfl, maskWithholds_zero]
    rfl
  rw [suppression]
  exact ⟨rfl, rfl⟩

/-- Settles O4: nothing is in flight, queued or linked, and every table is at its fresh value. -/
theorem resetMeetsEveryFact : Obligations.ResetMeetsEveryFact := by
  obtain ⟨records, zones, slots, -⟩ := reset_tables
  have away : Chip.reset.NotAtPort := fun h hh => by cases hh
  have fires : Chip.reset.fires = 0 := Chip.fires_eq_zero fun r => by rw [(records r).2]; rfl
  refine ⟨rfl, ⟨away.portAgrees nofun, Nat.zero_le _⟩, Nat.zero_le _, Nat.zero_le _, .of_free slots, ⟨fires.symm, rfl⟩,
    .of_unbound rfl rfl, fun z => ?_, .of_free (fun z => by rw [State.reset, zones]; rfl) slots, .of_unbound rfl,
    ⟨.of_idle rfl, fun r => ?_⟩, fun r => ?_, reset_dormantUnbound, ⟨reset_dormantUnbound, nofun⟩,
    (Chip.fieldsDerived_iff _).mpr ⟨reset_dormantUnbound, fun r => .inr (reset_derivedAt r)⟩⟩
  · simp only [State.reset, zones]
    exact (maskWithholds_zero z).symm
  · simp only [State.reset, (records r).1, (records r).2]
    exact (PointRecord.fresh_facts false).1
  · simp only [State.reset, (records r).2]
    exact (PointRecord.fresh_facts false).2

end Sys2Proof.Machine
end


-- ==== Sys2Proof/Proofs/Decoder.lean ====
section
/-! SUPPORT. The Window Decoder sorts an access by the bind state and, once BOUND, by the window its word lies in (R1 to R9). -/

namespace Sys2Proof.Machine

theorem wholeEnables_iff (be : BitVec 4) : wholeEnables be = true ↔ be = 0xF#4 := by
  simp [wholeEnables]

/-- The disjoint pair of windows `n` shares no byte. -/
theorem Binding.Legal.apart {b : Binding} (h : b.Legal) {n : Nat} {x y : Range} (hp : (n, x, y) ∈ b.pairs) :
    x.1 + x.2 ≤ y.1 ∨ y.1 + y.2 ≤ x.1 ∨ y.2 = 0 := by
  have := h.disjoint _ hp
  simp only [Range.overlaps, decide_eq_false_iff_not] at this
  omega

/-- Settles O13: the two kinds of access by the three bind states. -/
theorem unboundAccessesPass : Obligations.UnboundAccessesPass := by
  intro c a w be hb
  cases hs : c.bind with
  | unbound =>
    refine ⟨by simp [Chip.classify, hs], fun k hk => (nomatch hk), fun _ => ?_⟩
    have hword : wordBase a = checksumAddress c.dsel ↔ a.toNat / 4 = (c.dsel.toNat * 0x200000 + 0x20) / 4 := by
      simp only [wordBase, checksumAddress]
      omega
    simp only [Chip.classify, hs, hword, wholeEnables_iff]
  | checking k => exact ⟨by simp [Chip.classify, hs], fun _ _ => by simp [Chip.classify, hs], fun h => (nomatch h)⟩
  | bound b => exact absurd hs (hb b)

/-! ### The windows of a legal binding -/

theorem Binding.window_point (b : Binding) (r : Rec) (hr : r.val < 192 * b.loops) (k : Nat) (hk : k < 4)
    (a : Nat) (ha : a = b.pointBase + 16 * r.val + 4 * k) : b.window a = .point r k := by
  have inside : b.pointBase ≤ a ∧ a < b.pointBase + b.loops * 3072 := by omega
  have point : recordAt ((a - b.pointBase) / 16) = r :=
    Fin.ext (by simp only [recordAt, Fin.val_ofNat]; omega)
  have word : (a - b.pointBase) / 4 % 4 = k := by omega
  simp only [Binding.window, if_pos inside, point, word]

theorem Binding.window_mailbox {b : Binding} (h : b.Legal) (i : Nat) (hi : i < 16) (a : Nat)
    (ha : a = b.mailboxBase + 4 * i) : b.window a = .mailbox i := by
  have apart := h.apart (n := 1) (x := b.pointRange) (y := b.mailboxRange) (by simp [Binding.pairs])
  simp only [Binding.pointRange, Binding.mailboxRange] at apart
  have word : (a - b.mailboxBase) / 4 = i := by omega
  rw [Binding.window, if_neg (by omega), if_pos (by omega), word]

theorem Binding.window_ring {b : Binding} (h : b.Legal) (a : Nat)
    (ha : b.ringBase ≤ a ∧ a < b.ringBase + 16 + 16 * b.capacity) : b.window a = .ring ((a - b.ringBase) / 4) := by
  have fromTable := h.apart (n := 2) (x := b.pointRange) (y := b.ringRange) (by simp [Binding.pairs])
  have fromMailbox := h.apart (n := 4) (x := b.mailboxRange) (y := b.ringRange) (by simp [Binding.pairs])
  simp only [Binding.pointRange, Binding.mailboxRange, Binding.ringRange] at fromTable fromMailbox
  rw [Binding.window, if_neg (by omega), if_neg (by omega), if_pos (by omega)]

theorem Binding.window_outside (b : Binding) (a : Nat)
    (hp : ¬(b.pointBase ≤ a ∧ a < b.pointBase + 3072 * b.loops))
    (hm : ¬(b.mailboxBase ≤ a ∧ a < b.mailboxBase + 64))
    (hr : ¬(b.ringBase ≤ a ∧ a < b.ringBase + 16 + 16 * b.capacity)) : b.window a = .outside := by
  rw [Binding.window, if_neg (by omega), if_neg hm, if_neg (by omega)]

theorem Chip.classify_bound_read (c : Chip) (b : Binding) (hb : c.bind = .bound b) (a : Addr) (be : BitVec 4) :
    c.classify ⟨a, .read be⟩ = (b.window (wordBase a)).treatRead := by
  simp only [Chip.classify, hb]

theorem Chip.classify_bound_write (c : Chip) (b : Binding) (hb : c.bind = .bound b) (a : Addr) (w : Word) (be : BitVec 4) :
    c.classify ⟨a, .write w be⟩ = (b.window (wordBase a)).treatWrite c.command.isSome w be := by
  simp only [Chip.classify, hb]

/-- A reply word's write forms an event or is malformed (R4, R54). -/
theorem treatReply_iff (r : Rec) (w : Word) (be : BitVec 4) :
    treatReply r w be = if be = 0xF#4 ∧ w.toNat % 8 ≤ 4 then .replyWrite r else .malformedWrite r := by
  have good : (wholeEnables be && decide (replyStatusCode w ≤ 4)) = true ↔ be = 0xF#4 ∧ w.toNat % 8 ≤ 4 := by
    rw [Bool.and_eq_true, wholeEnables_iff, decide_eq_true_eq, replyStatusCode]
  rw [treatReply]
  exact if_congr good rfl rfl

/-- Settles O14: the four words of a record, each by its window word. -/
theorem pointTableAccessesSort : Obligations.PointTableAccessesSort := by
  intro c b r a w be hb legal hr
  rw [c.classify_bound_read b hb, c.classify_bound_write b hb]
  refine ⟨fun ha => ?_, fun ha => ?_, fun ha => ?_, fun ha => ?_⟩
  · rw [Binding.window_point b r hr 0 (by omega) _ (by omega)]
    simp only [Window.treatRead, Window.treatWrite, wholeEnables_iff, and_self]
  · rw [Binding.window_point b r hr 1 (by omega) _ (by omega)]
    exact ⟨rfl, treatReply_iff r w be⟩
  · rw [Binding.window_point b r hr 2 (by omega) _ (by omega)]
    exact ⟨rfl, rfl⟩
  · rw [Binding.window_point b r hr 3 (by omega) _ (by omega)]
    exact ⟨rfl, rfl⟩

/-- A write to a mailbox word (R8, R147). -/
theorem Window.treatWrite_mailbox (command : Option Command) (w : Word) (be : BitVec 4) (i : Nat) :
    (Window.mailbox i).treatWrite command.isSome w be =
      if 6 ≤ i then .passed
      else if command ≠ none then .overrun
      else if i = 0 ∧ be = 0xF#4 ∧ w.extractLsb' 0 8 ≠ 0#8 then .commandWrite
      else .passed := by
  have code : field w 0 8 ≠ 0 ↔ w.extractLsb' 0 8 ≠ 0#8 := by
    exact not_congr (BitVec.toNat_inj (x := w.extractLsb' 0 8) (y := 0#8))
  cases command with
  | none =>
    simp only [Window.treatWrite, Option.isSome_none, wholeEnables_iff, code, Bool.false_eq_true, if_false, ne_eq,
      not_true_eq_false]
    by_cases hi : 6 ≤ i
    · rw [if_pos hi, if_neg (by omega)]
    · rw [if_neg hi]
  | some m =>
    simp only [Window.treatWrite, Option.isSome_some, if_true, ne_eq, reduceCtorEq, not_false_eq_true]
    by_cases hi : 6 ≤ i
    · rw [if_pos hi, if_neg (by omega)]
    · rw [if_neg hi, if_pos (by omega)]

/-- A write to a word of the ring window (R9). -/
theorem Window.treatWrite_ring (running : Bool) (w : Word) (be : BitVec 4) (i : Nat) :
    (Window.ring i).treatWrite running w be = if i = 1 ∧ be = 0xF#4 then .consumerWrite else .passed := by
  match i with
  | 0 => rfl
  | 1 => simp only [Window.treatWrite, wholeEnables_iff, true_and]
  | n + 2 => rw [if_neg (by omega)]; rfl

/-- Settles O15: the mailbox words, the ring words, and the words of no window. -/
theorem mailboxAndRingAccessesSort : Obligations.MailboxAndRingAccessesSort := by
  intro c b a w be hb legal
  rw [c.classify_bound_read b hb, c.classify_bound_write b hb]
  refine ⟨fun i hi ha => ?_, fun ha => ?_, fun ⟨hp, hm, hr⟩ => ?_⟩
  · rw [Binding.window_mailbox legal i hi _ ha]
    exact ⟨rfl, Window.treatWrite_mailbox _ _ _ _⟩
  · have consumer : (wordBase a - b.ringBase) / 4 = 1 ↔ wordBase a = b.ringBase + 4 := by
      have := legal.ringBase
      have : wordBase a % 4 = 0 := by simp [wordBase]
      omega
    rw [Binding.window_ring legal _ ha, Window.treatWrite_ring]
    exact ⟨rfl, if_congr (and_congr_left' consumer) rfl rfl⟩
  · rw [Binding.window_outside b _ hp hm hr]
    exact ⟨rfl, rfl⟩

end Sys2Proof.Machine
end


-- ==== Sys2Proof/Proofs/HostAccesses.lean ====
section
/-! SUPPORT. Host accesses at a chip at rest: passed and swallowed writes, overlay reads and their holds, and the taken writes
up to their block's event (R1, R5 to R12, R51 to R54, R179). -/

namespace Sys2Proof.Machine

/-! ### The settling of a chip with one access to let go -/

theorem State.next_congr (s : State) {c d : Chip} (h : c = d) :
    (.next (s.withChip c) : Host.Outcome State Fault Refusal) = .next (s.withChip d) := by rw [h]

theorem Chip.choose_fresh : InternalMaster.fresh.choose = InternalMaster.fresh := rfl

/-- When what a hold lets go leaves the path at rest, the settling is that release. -/
theorem Chip.settle_of_release (c : Chip) (h : c.releaseHeld.Quiet) : c.settle = c.releaseHeld := by
  have again : c.releaseHeld.releaseHeld = c.releaseHeld := by simp [Chip.releaseHeld.eq_1 c.releaseHeld, h.noHost]
  have settled : c.releaseHeld.settle = c.settle := by simp only [Chip.settle, again]
  rw [← settled, Chip.settle_quiet _ h]

/-- A chip with one access at rest in a hold settles to itself. -/
theorem Chip.settle_held (c : Chip) (h : HostAccess) (hh : c.host = some h) (hs : h.stage = .held)
    (held : c.releaseHeld = c) (hb : c.backlog = []) (hp : c.port = none) (hi : c.im.current = none)
    (hc : c.im.choose = c.im) : c.settle = c := by
  have present : Chip.present c.backlog c = c := by rw [hb]; simp only [Chip.present]; rw [← hb]
  have grant : c.grant = c := by
    rw [Chip.grant, if_neg (by rw [hp]; decide), if_neg (by rw [Chip.hostWaiting, hh]; simp [hs]), Chip.grantInternal, hi]
  simp only [Chip.settle, held, present, hc]
  exact grant

/-- At rest the Internal Master has nothing to choose. -/
theorem Chip.Quiet.choose {c : Chip} (h : c.Quiet) : c.im.choose = c.im := by
  simp [InternalMaster.choose, h.noCurrent, h.noBinding, h.noCommand, h.noReport]

/-- A held access of a chip otherwise at rest stays held whatever finishes at the port. -/
theorem Chip.accessDones_held (c : Chip) (h : c.Quiet) (x : HostAccess) (hs : x.stage = .held) (n : Nat)
    (held : Chip.releaseHeld { c with host := some x, answer := .none } = { c with host := some x, answer := .none }) :
    Chip.accessDones n { c with host := some x, answer := .none } = { c with host := some x, answer := .none } :=
  Chip.accessDones_idle _ n h.freePort
    (Chip.settle_held _ x rfl hs held h.noBacklog h.freePort h.noCurrent h.choose)

/-! ### Passed and swallowed writes -/

/-- A write that is acknowledged without an access leaves the chip at rest with the answer. -/
theorem Chip.Quiet.written {c : Chip} (h : c.Quiet) : Chip.Quiet { c with answer := .written } :=
  h.of_path ⟨rfl, rfl, rfl, rfl, rfl⟩

/-- Settles O17: the passed write is RAM's alone, the other two never reach the port. -/
theorem passedAndSwallowedWritesTakeNoBlock : Obligations.PassedAndSwallowedWritesTakeNoBlock := by
  intro s a w be quiet
  refine ⟨fun ram passed => ?_, fun swallowed => ?_, fun overrun => ?_⟩
  · refine ⟨Mem.writeWord s.chip.mem (wordBase a) be w, ?_, fun i => Mem.read_writeWord _ _ _ _ _ (wordBase_lt a) ram⟩
    exact s.next_congr ((s.chip.hostWrite_waits a w be .passed quiet passed rfl).trans
      (Chip.settle_quiet _ (quiet.of_path ⟨rfl, rfl, rfl, rfl, rfl⟩)))
  · exact s.next_congr (s.chip.hostPresents_swallowed _ quiet swallowed)
  · exact s.next_congr (s.chip.hostPresents_overrun _ quiet overrun)

/-! ### Overlay reads -/

/-- The model's test of an install in progress says what R12 asks. -/
theorem Chip.installing_iff (c : Chip) (r : Rec) : c.installing r = true ↔ c.InstallPending r := by
  have slots (P : Nat → Prop) : (∃ i ∈ [1, 2, 3, 4, 5, 6, 7, 8], P i) ↔ ∃ i, 1 ≤ i ∧ i ≤ 8 ∧ P i := by
    refine exists_congr fun i => ?_
    rw [← and_assoc]
    exact and_congr_left' (by simp; omega)
  unfold Chip.installing Chip.InstallPending
  cases hm : c.command with
  | none => simp
  | some m =>
    cases ht : c.transfer with
    | none => simp
    | some t =>
      cases hs : m.stage with
      | working w =>
        cases w with
        | planInstall n =>
          simp only [hs, List.any_eq_true, slots, Bool.and_eq_true, decide_eq_true_eq, bne_iff_ne, beq_iff_eq]
          constructor
          · rintro ⟨i, h1, h8, ⟨hn, hl⟩, hr⟩
            exact ⟨m, t, n, rfl, rfl, .inl ⟨hs, i, h1, hn, h8, hl, hr⟩⟩
          · rintro ⟨_, _, k, ⟨rfl⟩, ⟨rfl⟩, ⟨stage, i, h1, hn, h8, hl, hr⟩ | ⟨stage, _⟩⟩
            · cases hs.symm.trans stage
              exact ⟨i, h1, h8, ⟨hn, hl⟩, hr⟩
            · cases hs.symm.trans stage
        | restoreInstall n =>
          cases hp : t.position with
          | none => simp [hs, hp]
          | some b =>
            simp only [hs, hp, decide_eq_true_eq]
            constructor
            · intro h
              exact ⟨m, t, n, rfl, rfl, .inr ⟨hs, b, hp, h⟩⟩
            · rintro ⟨_, _, k, ⟨rfl⟩, ⟨rfl⟩, ⟨stage, _⟩ | ⟨stage, j, hj, h⟩⟩
              · cases hs.symm.trans stage
              · cases hs.symm.trans stage
                cases hp.symm.trans hj
                exact h
        | _ => simp [hs]
      | _ => simp [hs]

/-- A read hold is in force for a queued event at the point or an install pending there (R12). -/
theorem Chip.readHeld_iff (c : Chip) (r : Rec) :
    c.readHeld r = true ↔ (∃ e ∈ c.intake, e.point = r) ∨ c.InstallPending r := by
  simp only [Chip.readHeld, Bool.or_eq_true, List.any_eq_true, beq_iff_eq, Chip.installing_iff]

/-- The treatments of an overlay read of a record, with the word each answers. -/
inductive Overlay (c : Chip) (r : Rec) : Treatment → Word → Prop where
  | verdict : Overlay c r (.verdictRead r) (verdictWord c.points[r])
  | plan : Overlay c r (.planRead r) (planWord c.plan[r])

theorem Overlay.either {c : Chip} {r : Rec} {t : Treatment} {w : Word} (o : Overlay c r t w) :
    (t = .verdictRead r ∧ w = verdictWord c.points[r]) ∨ (t = .planRead r ∧ w = planWord c.plan[r]) := by
  cases o
  · exact .inl ⟨rfl, rfl⟩
  · exact .inr ⟨rfl, rfl⟩

/-- A held overlay read stays while its hold is in force. -/
theorem Overlay.stays {c d : Chip} {r : Rec} {t : Treatment} {w : Word} (o : Overlay d r t w) (q : HostRequest)
    (hc : c.host = some ⟨q, t, .held⟩) (held : c.readHeld r = true) : c.releaseHeld = c := by
  cases o <;> simp only [Chip.releaseHeld, hc, held, if_true]

/-- A held overlay read with no hold left is answered from the tables. -/
theorem Overlay.released {c : Chip} {r : Rec} {t : Treatment} {w : Word} (o : Overlay c r t w) (q : HostRequest)
    (hc : c.host = some ⟨q, t, .held⟩) (free : c.readHeld r = false) :
    c.releaseHeld = { c with host := none, answer := .read w } := by
  cases o <;> simp only [Chip.releaseHeld, hc, free, Bool.false_eq_true, if_false]

/-- An overlay read of a chip at rest with no hold in force is answered at once. -/
theorem Chip.hostRead_answered (c : Chip) (a : Addr) (be : BitVec 4) (r : Rec) (t : Treatment) (w : Word) (quiet : c.Quiet)
    (ht : c.classify ⟨a, .read be⟩ = t) (o : Overlay c r t w) (free : c.readHeld r = false) :
    c.hostRead ⟨a, be⟩ 0 = { c with answer := .read w } := by
  have run := c.hostPresents_overlay ⟨a, .read be⟩ t r w quiet ht o.either
  rw [free] at run
  exact run

/-- An overlay read of a chip at rest under a hold is held, whatever finishes at the port. -/
theorem Chip.hostRead_held (c : Chip) (a : Addr) (be : BitVec 4) (r : Rec) (t : Treatment) (w : Word) (n : Nat)
    (quiet : c.Quiet) (ht : c.classify ⟨a, .read be⟩ = t) (o : Overlay c r t w) (held : c.readHeld r = true) :
    c.hostRead ⟨a, be⟩ n = { c with host := some ⟨⟨a, .read be⟩, t, .held⟩, answer := .none } := by
  rw [Chip.hostRead, c.hostPresents_overlay ⟨a, .read be⟩ t r w quiet ht o.either, if_pos held]
  exact c.accessDones_held quiet _ rfl n (o.stays _ rfl held)

/-- HELD_READ_RELEASE of an overlay read with no hold left. -/
theorem Chip.settle_releasedRead (c : Chip) (q : HostRequest) (r : Rec) (t : Treatment) (w : Word) (o : Overlay c r t w)
    (hpor : c.porLow = false) (hb : c.backlog = []) (hp : c.port = none) (hi : c.im = InternalMaster.fresh)
    (free : c.readHeld r = false) (hc : c.host = some ⟨q, t, .held⟩) :
    c.event id = { c with host := none, answer := .read w } := by
  have released := o.released q hc free
  have quiet : c.releaseHeld.Quiet := by
    rw [released]
    exact ⟨hpor, rfl, hb, hp, congrArg (·.current) hi, congrArg (·.waitBinding) hi, congrArg (·.waitCommand) hi,
      congrArg (·.waitReport) hi⟩
  rw [Chip.event_high _ _ hpor, id, Chip.settle_of_release c quiet, released]

/-- Settles O18: each clause for both overlay words by their common rule. -/
theorem overlayReadsAnswerOrHold : Obligations.OverlayReadsAnswerOrHold := by
  refine ⟨fun s a be r quiet free => ⟨fun ht => ?_, fun ht => ?_⟩, Chip.readHeld_iff,
    fun s a be r n quiet cause => ⟨fun ht => ?_, fun ht => ?_⟩,
    fun s q r hpor hb hp hi free => ⟨fun hh => ?_, fun hh => ?_⟩⟩
  · exact s.next_congr (s.chip.hostRead_answered a be r _ _ quiet ht .verdict free)
  · exact s.next_congr (s.chip.hostRead_answered a be r _ _ quiet ht .plan free)
  · exact s.next_congr
      (s.chip.hostRead_held a be r _ _ n quiet ht .verdict ((s.chip.readHeld_iff r).2 cause))
  · exact s.next_congr
      (s.chip.hostRead_held a be r _ _ n quiet ht .plan ((s.chip.readHeld_iff r).2 cause))
  · exact s.next_congr (s.chip.settle_releasedRead q r _ _ .verdict hpor hb hp hi free hh)
  · exact s.next_congr (s.chip.settle_releasedRead q r _ _ .plan hpor hb hp hi free hh)

/-! ### Taken writes -/

/-- Settles O19: the serial write's DACK loads the latch alone. -/
theorem serialWriteLoadsTheLatch : Obligations.SerialWriteLoadsTheLatch := by
  intro s a w r quiet ht
  exact s.next_congr ((s.chip.hostWrite_waits a w 0xF#4 (.serialWrite r) quiet ht rfl).trans
    (Chip.settle_quiet _ (quiet.of_path ⟨rfl, rfl, rfl, rfl, rfl⟩)))

/-- A reply word with a legal STATUS puts its event last in the queue and empties the latch (R52, R53). -/
theorem Chip.formReply_some (c : Chip) (r : Rec) (w : Word) (body : ReplyBody)
    (h : replyBody w (if w.getLsbD 16 = true then settleSerial c.latch r else .absent) = some body) :
    c.formReply r w = { c with latch := none, intake := c.intake ++ [⟨r, body⟩] } := by
  have h' : replyBody w (if replySvalid w then settleSerial c.latch r else .absent) = some body := h
  simp only [Chip.formReply, h']

/-- With room in the queue it is not full (R11). -/
theorem Chip.intakeFull_of_room {c : Chip} (room : c.intake.length < 4) : c.intakeFull = false :=
  decide_eq_false (Nat.not_le.2 room)

/-- A reply write at rest with room in the queue runs to its event. -/
theorem Chip.hostWrite_reply (c : Chip) (a : Addr) (w : Word) (r : Rec) (body : ReplyBody) (quiet : c.Quiet)
    (room : c.intake.length < 4) (ht : c.classify ⟨a, .write w 0xF#4⟩ = .replyWrite r)
    (hbody : replyBody w (if w.getLsbD 16 = true then settleSerial c.latch r else .absent) = some body) :
    c.hostWrite a w 0xF#4 1 = c.withReply a w ⟨r, body⟩ := by
  have waits : (Treatment.replyWrite r).waits c = true := by rw [Treatment.waits, Chip.intakeFull_of_room room]; rfl
  have forms := Chip.formReply_some { c with mem := Mem.writeWord c.mem (wordBase a) 0xF#4 w, answer := .written } r w body
    hbody
  rw [c.hostWrite_waits a w 0xF#4 _ quiet ht waits, Chip.deliver, forms]
  exact Chip.settle_quiet _ (quiet.of_path ⟨rfl, rfl, rfl, rfl, rfl⟩)

/-- The body of a reply word by its STATUS (R53, R186). -/
theorem replyBody_garbled (w : Word) (x : EventSerial) (h : w.toNat % 8 = 3) : replyBody w x = some .garbled := by
  have status : field w 0 3 = 3 := by rw [field_eq]; omega
  simp only [replyBody, status]

theorem replyBody_noreply (w : Word) (x : EventSerial) (h : w.toNat % 8 = 4) : replyBody w x = some .noreply := by
  have status : field w 0 3 = 4 := by rw [field_eq]; omega
  simp only [replyBody, status]

theorem replyBody_good (w : Word) (x : EventSerial) (st : GoodStatus) (h : w.toNat % 8 = st.status.code) :
    replyBody w x = some (.good st (w.extractLsb' 4 3) (w.extractLsb' 8 8) x) := by
  have status : field w 0 3 = st.status.code := by rw [field_eq]; omega
  cases st <;> simp only [replyBody, status, GoodStatus.status, Status.code]

/-- Settles O20: the event's body by STATUS, its serial by the latch. -/
theorem replyWriteFormsItsEvent : Obligations.ReplyWriteFormsItsEvent := by
  intro s a w r st quiet room ht
  have runs (body : ReplyBody)
      (h : replyBody w (if w.getLsbD 16 = true then settleSerial s.chip.latch r else .absent) = some body) :
      exec (.replyWordWrite a w 1) s = .next (s.withChip (s.chip.withReply a w ⟨r, body⟩)) :=
    s.next_congr (s.chip.hostWrite_reply a w r body quiet room ht h)
  refine ⟨fun h => runs _ (replyBody_garbled w _ h), fun h => runs _ (replyBody_noreply w _ h), fun h absent => ?_,
    fun h present empty => ?_, fun holder v h present latch => ?_⟩
  · exact runs _ (by rw [absent, replyBody_good w _ st h]; rfl)
  · exact runs _ (by rw [present, empty, replyBody_good w _ st h]; rfl)
  · exact runs _ (by rw [present, latch, replyBody_good w _ st h]; rfl)

/-- A held reply write with room in the queue is let on to the arbiter and granted the port. -/
theorem Chip.settle_releasedReply (c : Chip) (q : HostRequest) (r : Rec) (hb : c.backlog = []) (hp : c.port = none)
    (hi : c.im = InternalMaster.fresh) (room : c.intake.length < 4) (hh : c.host = some ⟨q, .replyWrite r, .held⟩) :
    c.settle = { c with host := some ⟨q, .replyWrite r, .atPort⟩, port := some .host } := by
  have full := Chip.intakeFull_of_room room
  have released : c.releaseHeld = { c with host := some ⟨q, .replyWrite r, .waiting⟩ } := by
    simp only [Chip.releaseHeld, hh, full, Bool.false_eq_true, if_false]
  simp only [Chip.settle, released, hb, Chip.present, hi, Chip.choose_fresh]
  simp [Chip.grant, hp, Chip.hostWaiting, InternalMaster.fresh, Chip.grantHost]

/-- Settles O21: the full queue keeps the write held; with room its DACK forms the event. -/
theorem fullIntakeHoldsTheReplyWrite : Obligations.FullIntakeHoldsTheReplyWrite := by
  refine ⟨fun s a w r n quiet full ht => ?_, fun s a w r hpor hb hp hi room hh body hbody => ?_⟩
  · have isFull : s.chip.intakeFull = true := decide_eq_true full
    have run : s.chip.hostWrite a w 0xF#4 n =
        { s.chip with host := some ⟨⟨a, .write w 0xF#4⟩, .replyWrite r, .held⟩, answer := .none } := by
      rw [Chip.hostWrite, s.chip.hostPresents_heldReply _ r quiet ht isFull]
      exact s.chip.accessDones_held quiet _ rfl n (by
        have stillFull : Chip.intakeFull
          { s.chip with host := some ⟨⟨a, .write w 0xF#4⟩, .replyWrite r, .held⟩, answer := .none } = true := isFull
        simp only [Chip.releaseHeld, stillFull, if_true])
    exact s.next_congr run
  · generalize hc : s.chip = c at *
    have quiet : Chip.Quiet { c with host := none } :=
      ⟨hpor, rfl, hb, hp, congrArg (·.current) hi, congrArg (·.waitBinding) hi, congrArg (·.waitCommand) hi,
        congrArg (·.waitReport) hi⟩
    have forms := Chip.formReply_some
      { c with mem := Mem.writeWord c.mem (wordBase a) 0xF#4 w, port := none, host := none, answer := .written } r w body hbody
    have run : Chip.accessDones 1 (c.event id) = Chip.withReply { c with host := none } a w ⟨r, body⟩ := by
      rw [Chip.event_high _ _ hpor, id, Chip.settle_releasedReply c _ r hb hp hi room hh, Chip.accessDones,
        Chip.accessDones, Chip.event_high _ _ (by exact hpor), Chip.accessDone_write _ a w 0xF#4 (.replyWrite r) rfl rfl,
        Chip.deliver, forms]
      rw [Chip.withReply, ← hp]
      exact Chip.settle_quiet _ (quiet.of_path ⟨rfl, rfl, rfl, rfl, rfl⟩)
    exact s.next_congr (hc ▸ run)

/-- Settles O22: the block's event is the flag and its report. -/
theorem malformedWriteSetsBadWrite : Obligations.MalformedWriteSetsBadWrite := by
  intro s a w be r quiet ht
  have run := s.chip.hostWrite_waits a w be (.malformedWrite r) quiet ht rfl
  have detail : badWriteDetail w be =
      (if be = 0xF#4 then 2 else 1, word (if be = 0xF#4 then w.toNat % 8 else be.toNat)) := by
    by_cases whole : be = 0xF#4
    · rw [badWriteDetail, if_pos ((wholeEnables_iff be).2 whole), if_pos whole, if_pos whole]
      rfl
    · rw [badWriteDetail, if_neg (fun h => whole ((wholeEnables_iff be).1 h)), if_neg whole, if_neg whole]
      rfl
  rw [Chip.deliver, Chip.malformedReply, detail] at run
  exact s.next_congr run

/-- A CONSUMER write of a BOUND part finishes (R179, R181). -/
theorem Chip.consumerDone_bound (c : Chip) (b : Binding) (hb : c.bind = .bound b) (w : Word) :
    c.consumerDone w = if c.writer.accepts b.capacity (w.toNat % 1024) then
        Chip.startRecord
          { c with writer := { c.writer with consumer := w.toNat % 1024 },
                   irqPin := b.irqEnable && decide (0 < occupancy c.writer.producer (w.toNat % 1024) b.capacity) }
      else c := by
  have value : field w 0 10 = w.toNat % 1024 := by rw [field_eq]; omega
  simp only [Chip.consumerDone, hb, value, Chip.settleIrq, Chip.irqLevel]

/-- Settles O23: the model's acceptance test is the one of R179. -/
theorem consumerWriteIsJudged : Obligations.ConsumerWriteIsJudged := by
  intro s a w b quiet hb ht
  have run := s.chip.hostWrite_waits a w 0xF#4 .consumerWrite quiet ht rfl
  have done := Chip.consumerDone_bound
    { s.chip with mem := Mem.writeWord s.chip.mem (wordBase a) 0xF#4 w, answer := .written } b hb w
  refine ⟨fun accepted => ?_, fun rejected => ?_⟩
  · exact s.next_congr (run.trans (congrArg Chip.settle (done.trans (if_pos (decide_eq_true accepted)))))
  · have unchanged := done.trans (if_neg (by rw [Writer.accepts, decide_eq_true_eq]; exact rejected))
    exact s.next_congr (run.trans ((congrArg Chip.settle unchanged).trans
      (Chip.settle_quiet _ (quiet.of_path ⟨rfl, rfl, rfl, rfl, rfl⟩))))

end Sys2Proof.Machine
end


-- ==== Sys2Proof/Proofs/PackedWords.lean ====
section
/-! SUPPORT. The packed words as numbers: a concatenation is a sum of its parts' values, each by its place, so a field of it is
read off by division (R184 to R190). O16 is settled here. -/

namespace Sys2Proof.Machine

/-- A concatenation as a number. -/
theorem toNat_append_add {m n : Nat} (x : BitVec m) (y : BitVec n) : (x ++ y).toNat = x.toNat * 2 ^ n + y.toNat := by
  rw [BitVec.toNat_append, ← Nat.shiftLeft_add_eq_or_of_lt y.isLt, Nat.shiftLeft_eq]

/-! ### Codes fit their fields -/

theorem PointState.code_lt (x : PointState) : x.code < 8 := by cases x <;> decide
theorem Presence.code_lt (x : Presence) : x.code < 4 := by cases x <;> decide
theorem Verdict.code_lt (x : Verdict) : x.code < 4 := by cases x <;> decide
theorem ReportKind.code_lt (x : ReportKind) : x.code < 256 := by cases x <;> decide

/-! ### The words, as sums -/

theorem verdictWord_toNat (p : PointRecord) (h : p.InRange) : (verdictWord p).toNat =
    p.testCount * 16777216 + p.flags.toNat * 65536 + p.driftRun * 1024 + p.suppressed.toNat * 512 + p.armed.toNat * 256 +
      p.verdict.code * 64 + p.presence.code * 16 + p.state.code := by
  obtain ⟨-, -, drift, tests⟩ := h
  have state := p.state.code_lt
  have presence := p.presence.code_lt
  have verdict := p.verdict.code_lt
  simp only [verdictWord, toNat_append_add, BitVec.toNat_ofNat, BitVec.toNat_ofBool]
  omega

theorem planFields_toNat (e : PlanEntry) (low : BitVec 16) : (planFields e low).toNat =
    (e.zone.val + 1) * 16777216 + e.profile.val * 2097152 + e.cls.toNat * 262144 + e.enable.toNat * 131072 + 65536 +
      low.toNat := by
  simp only [planFields, toNat_append_add, BitVec.toNat_ofNat, BitVec.toNat_ofBool]
  omega

theorem recordWordOf_toNat (x : Report) (gap : Bool) (hl : x.loop < 8) (ha : x.addr < 256) (hz : x.zone < 128) :
    (recordWordOf x gap 0).toNat =
      x.zone * 16777216 + x.addr * 65536 + x.loop * 512 + gap.toNat * 256 + x.kind.code := by
  have kind := x.kind.code_lt
  simp only [recordWordOf, toNat_append_add, BitVec.toNat_ofNat, BitVec.toNat_ofBool]
  omega

theorem entryPosition_toNat (r : Rec) : (entryPosition r).toNat = (r.val / 192 + 1) + 256 * (r.val % 192 + 1) := by
  simp only [entryPosition, toNat_append_add, BitVec.toNat_ofNat, addressNumber, loopNumber]
  omega

theorem entryFirst_none_toNat (r : Rec) : (entryFirst r none).toNat = (entryPosition r).toNat := by
  simp only [entryFirst, toNat_append_add, BitVec.toNat_ofNat]
  omega

theorem snapshotStateWord_toNat (p : PointRecord) (h : p.InRange) : (snapshotStateWord p).toNat =
    p.testCount * 256 + p.foundClass.isSome.toNat * 128 + (p.foundClass.getD 0).toNat * 16 + p.state.code := by
  obtain ⟨-, -, -, tests⟩ := h
  have state := p.state.code_lt
  simp only [snapshotStateWord, toNat_append_add, BitVec.toNat_ofNat, BitVec.toNat_ofBool]
  omega

/-! ### The words' fields -/

theorem verdictWord_fields (p : PointRecord) (h : p.InRange) :
    let w := (verdictWord p).toNat
    w % 8 = p.state.code ∧ w / 16 % 4 = p.presence.code ∧ w / 64 % 4 = p.verdict.code ∧
    w / 256 % 2 = p.armed.toNat ∧ w / 512 % 2 = p.suppressed.toNat ∧ w / 1024 % 32 = p.driftRun ∧
    w / 65536 % 256 = p.flags.toNat ∧ w / 16777216 % 16 = p.testCount ∧
    w / 8 % 2 = 0 ∧ w / 32768 % 2 = 0 ∧ w / 268435456 = 0 := by
  have value := verdictWord_toNat p h
  obtain ⟨-, -, drift, tests⟩ := h
  have state := p.state.code_lt
  have presence := p.presence.code_lt
  have verdict := p.verdict.code_lt
  have armed := p.armed.toNat_lt
  have suppressed := p.suppressed.toNat_lt
  have flags := p.flags.isLt
  simp only [value]
  omega

theorem planWord_fields (e : PlanEntry) :
    let w := (planWord (some e)).toNat
    w % 65536 = e.label.toNat ∧ w / 65536 % 2 = 1 ∧ w / 131072 % 2 = e.enable.toNat ∧ w / 262144 % 8 = e.cls.toNat ∧
    w / 2097152 % 4 = e.profile.val ∧ w / 8388608 % 2 = 0 ∧ w / 16777216 % 128 = e.zone.val + 1 ∧ w / 2147483648 = 0 := by
  have enable := e.enable.toNat_lt
  simp only [planWord, planFields_toNat]
  omega

theorem recordWordOf_fields (x : Report) (gap : Bool) (hl : x.loop < 8) (ha : x.addr < 256) (hz : x.zone < 128) :
    let w := (recordWordOf x gap 0).toNat
    w % 256 = x.kind.code ∧ w / 256 % 2 = gap.toNat ∧ w / 512 % 8 = x.loop ∧ w / 4096 % 16 = 0 ∧
    w / 65536 % 256 = x.addr ∧ w / 16777216 = x.zone ∧
    (recordWordOf x gap 1).toNat = x.time % 4294967296 ∧ recordWordOf x gap 2 = x.detailA ∧
    recordWordOf x gap 3 = x.detailB := by
  have kind := x.kind.code_lt
  have isGap := gap.toNat_lt
  have time : (recordWordOf x gap 1).toNat = x.time % 4294967296 := BitVec.toNat_ofNat ..
  refine ⟨?_, ?_, ?_, ?_, ?_, ?_, time, rfl, rfl⟩ <;> rw [recordWordOf_toNat x gap hl ha hz] <;> omega

theorem pointEntry_fields (r : Rec) (entry : Option PlanEntry) (p : PointRecord) (h : p.InRange) :
    ∃ first second codes : Word,
      pointEntry r entry p = [first, second, codes, p.firstSerial.getD 0, p.secondSerial.getD 0] ∧
      first.toNat % 65536 = (r.val / 192 + 1) + 256 * (r.val % 192 + 1) ∧
      (entry = none → first.toNat < 65536 ∧ second = 0) ∧
      (∀ e, entry = some e →
        first.toNat / 65536 = (planWord (some e)).toNat / 65536 ∧ second.toNat = e.label.toNat) ∧
      codes.toNat % 8 = p.state.code ∧ codes.toNat / 8 % 2 = 0 ∧
      codes.toNat / 16 % 8 = (p.foundClass.getD 0).toNat ∧ codes.toNat / 128 % 2 = p.foundClass.isSome.toNat ∧
      codes.toNat / 256 = p.testCount := by
  have place := entryPosition_toNat r
  have codes := snapshotStateWord_toNat p h
  have state := p.state.code_lt
  have found := p.foundClass.isSome.toNat_lt
  have cls := (p.foundClass.getD 0).isLt
  refine ⟨entryFirst r entry, entrySecond entry, snapshotStateWord p, rfl, ?_, ?_, ?_, by omega, by omega, by omega, by omega,
    by omega⟩
  · cases entry with
    | none =>
      rw [entryFirst_none_toNat]
      omega
    | some e =>
      rw [entryFirst, planFields_toNat]
      omega
  · rintro rfl
    rw [entryFirst_none_toNat]
    exact ⟨by omega, rfl⟩
  · rintro e rfl
    rw [entryFirst, planWord, planFields_toNat, planFields_toNat]
    refine ⟨by omega, ?_⟩
    simp only [entrySecond, toNat_append_add, BitVec.toNat_ofNat]
    omega

/-- A bit of a word, by division. -/
theorem getLsbD_iff (w : Word) (i : Nat) : w.getLsbD i = true ↔ w.toNat / 2 ^ i % 2 = 1 := by
  rw [BitVec.getLsbD, Nat.testBit_eq_decide_div_mod_eq, decide_eq_true_eq]

theorem toNat_getLsbD (w : Word) (i : Nat) : (w.getLsbD i).toNat = w.toNat / 2 ^ i % 2 := by
  rw [BitVec.getLsbD, Nat.toNat_testBit]

theorem entryLoop_eq (first : Word) : entryLoop first = first.toNat % 8 := by
  rw [entryLoop, field_eq]
  omega

theorem entryAddress_eq (first : Word) : entryAddress first = first.toNat / 256 % 256 := by
  rw [entryAddress, field_eq]
  norm_num

theorem entryRecord_val (first : Word) (h1 : 1 ≤ first.toNat % 8) (h4 : first.toNat % 8 ≤ 4)
    (a1 : 1 ≤ first.toNat / 256 % 256) (a192 : first.toNat / 256 % 256 ≤ 192) :
    (entryRecord first).val = (first.toNat % 8 - 1) * 192 + (first.toNat / 256 % 256 - 1) := by
  rw [entryRecord, recordAt, entryLoop_eq, entryAddress_eq, Fin.val_ofNat, Nat.mod_eq_of_lt (by omega)]

theorem entryOf_some (first second : Word) (planned : first.toNat / 65536 % 2 = 1)
    (z1 : 1 ≤ first.toNat / 16777216 % 128) (z96 : first.toNat / 16777216 % 128 ≤ 96) :
    ∃ e, entryOf first second = some e ∧ e.enable.toNat = first.toNat / 131072 % 2 ∧
      e.cls.toNat = first.toNat / 262144 % 8 ∧ e.profile.val = first.toNat / 2097152 % 4 ∧
      e.zone.val + 1 = first.toNat / 16777216 % 128 ∧ e.label.toNat = second.toNat % 65536 := by
  refine ⟨_, if_pos ((getLsbD_iff first 16).2 planned), toNat_getLsbD first 17, ?_, ?_, ?_, ?_⟩
  · exact (field_eq first 18 3).trans (by omega)
  · simp only [field_eq, Fin.val_ofNat]
    omega
  · simp only [field_eq, Fin.val_ofNat]
    omega
  · exact (field_eq second 0 16).trans (by omega)

theorem walkEndDetail_eq (entries : Nat) (o : Bool) (h : entries < 256) :
    walkEndDetail entries o = word (entries + 256 * o.toNat) := by
  have bit := o.toNat_lt
  apply BitVec.eq_of_toNat_eq
  simp only [walkEndDetail, word, toNat_append_add, BitVec.toNat_ofNat, BitVec.toNat_ofBool]
  omega

/-- Settles O16: each word's fields by its value, the codes by their tables. -/
theorem packedWordsHoldTheirFields : Obligations.PackedWordsHoldTheirFields := by
  refine ⟨verdictWord_fields, rfl, planWord_fields, recordWordOf_fields, pointEntry_fields, fun first second => ⟨
    entryLoop_eq first, entryRecord_val first, fun absent => ?_, entryOf_some first second⟩, walkEndDetail_eq, rfl, rfl, rfl, rfl, rfl, rfl, rfl,
    rfl, rfl, rfl, rfl, rfl, rfl⟩
  have notPlanned : ¬first.getLsbD 16 = true := by
    rw [getLsbD_iff]
    omega
  exact if_neg notPlanned

end Sys2Proof.Machine
end


-- ==== Sys2Proof/Proofs/Port.lean ====
section
/-! SUPPORT. The downstream port: what it presents, what a DACK does, and the tables of the arbiter and the Internal Master
(R1, R17 to R22). O24 is settled here. -/

namespace Sys2Proof.Machine

/-! ### One more access after a row -/

theorem Chip.accessDones_succ (n : Nat) (c : Chip) :
    Chip.accessDones (n + 1) c = (Chip.accessDones n c).event Chip.accessDone := by
  induction n generalizing c with
  | zero => rfl
  | succ n ih => exact ih _

/-- A row with one more access after it is the row, then DOWNSTREAM_ACCESS_DONE (log 6). -/
theorem exec_oneMoreAfter (s : State) (i j : Instr) (h : i.oneMoreAfter = some j) :
    ∃ t, exec i s = .next t ∧ exec j s = exec .downstreamAccessDone t := by
  cases i <;> simp only [Instr.oneMoreAfter, Option.some.injEq, reduceCtorEq] at h <;> subst h <;>
    exact ⟨_, rfl, s.next_congr (Chip.accessDones_succ _ _)⟩

/-! ### The Internal Master -/

theorem InternalMaster.choose_current (m : InternalMaster) (h : m.current ≠ none) : m.choose = m :=
  if_pos (Option.isSome_iff_ne_none.2 h)

theorem InternalMaster.choose_of_no_current (m : InternalMaster) (h : m.current = none) :
    (∀ q, m.waitBinding = some q → m.choose = { m with current := some (.binding, q), waitBinding := none }) ∧
    (∀ q, m.waitBinding = none → m.waitCommand = some q → m.waitReport = none ∨ m.lastServed = .report →
      m.choose = { m with current := some (.command, q), waitCommand := none, lastServed := .command }) ∧
    (∀ q, m.waitBinding = none → m.waitReport = some q → m.waitCommand = none ∨ m.lastServed = .command →
      m.choose = { m with current := some (.report, q), waitReport := none, lastServed := .report }) ∧
    (m.waitBinding = none → m.waitCommand = none → m.waitReport = none → m.choose = m) := by
  obtain ⟨current, binding, command, report, last⟩ := m
  simp only at h ⊢
  subst h
  refine ⟨fun q hb => ?_, fun q hb hc turn => ?_, fun q hb hr turn => ?_, fun hb hc hr => ?_⟩
  · subst hb
    rfl
  · subst hb hc
    rcases turn with rfl | rfl
    · rfl
    · cases report <;> rfl
  · subst hb hr
    rcases turn with rfl | rfl
    · rfl
    · cases command <;> rfl
  · subst hb hc hr
    rfl

/-! ### The arbiter -/

/-- With no host access in flight or to come, settling is the Internal Master's choice and the grant. -/
theorem Chip.settle_noHost (c : Chip) (hh : c.host = none) (hb : c.backlog = []) :
    c.settle = Chip.grant { c with im := c.im.choose } := by
  have held : c.releaseHeld = c := by simp [Chip.releaseHeld, hh]
  have present : Chip.present c.backlog c = c := by rw [hb]; simp only [Chip.present]; rw [← hb]
  simp only [Chip.settle, held, present]

theorem Chip.grant_busy (c : Chip) (h : c.port ≠ none) : c.grant = c := if_pos (Option.isSome_iff_ne_none.2 h)

theorem Chip.hostWaiting_of {c : Chip} {h : HostAccess} (hh : c.host = some h) (hs : h.stage = .waiting) :
    c.hostWaiting = true := by
  rw [Chip.hostWaiting, hh]
  simp [hs]

/-- With a free port: the host alone, the Internal Master alone, and both by STARVE COUNT (R18). -/
theorem Chip.grant_host (c : Chip) (h : HostAccess) (hp : c.port = none) (hh : c.host = some h) (hs : h.stage = .waiting)
    (hc : c.im.current = none) : c.grant = { c with port := some .host, host := some { h with stage := .atPort } } := by
  rw [Chip.grant, if_neg (by rw [hp]; decide), if_pos (Chip.hostWaiting_of hh hs), if_neg (by rw [hc]; decide),
    Chip.grantHost, hh]

theorem Chip.grant_internal (c : Chip) (q : Client × MemRequest) (hp : c.port = none) (hw : c.hostWaiting = false)
    (hc : c.im.current = some q) : c.grant = { c with port := some (.internal q.1 q.2), starve := 0 } := by
  rw [Chip.grant, if_neg (by rw [hp]; decide), if_neg (by rw [hw]; decide), Chip.grantInternal, hc]

theorem Chip.grant_both (c : Chip) (h : HostAccess) (q : Client × MemRequest) (hp : c.port = none) (hh : c.host = some h)
    (hs : h.stage = .waiting) (hc : c.im.current = some q) :
    c.grant = if c.starve < 32 then
        { c with port := some .host, host := some { h with stage := .atPort }, starve := c.starve + 1 }
      else { c with port := some (.internal q.1 q.2), starve := 0 } := by
  rw [Chip.grant, if_neg (by rw [hp]; decide), if_pos (Chip.hostWaiting_of hh hs), if_pos (by rw [hc]; rfl),
    Chip.grantHost, Chip.grantInternal, hh, hc]
  rfl

theorem Chip.grant_none (c : Chip) (hw : c.hostWaiting = false) (hc : c.im.current = none) : c.grant = c := by
  have internal : c.grantInternal = c := by rw [Chip.grantInternal, hc]
  rw [Chip.grant, internal]
  simp only [hw, Bool.false_eq_true, if_false, ite_self]

/-! ### What the port presents -/

theorem MemRequest.presented_read (q : MemRequest) (h : q.wdata = none) : q.presented = ⟨q.addr, .read 0xF#4⟩ := by
  rw [MemRequest.presented, h]

theorem MemRequest.presented_write (q : MemRequest) (w : Word) (h : q.wdata = some w) :
    q.presented = ⟨q.addr, .write w 0xF#4⟩ := by
  rw [MemRequest.presented, h]

/-- An internal access, or one of its orphans, is presented as its request. -/
theorem Chip.downstream_request (c : Chip) (cl : Client) (q : MemRequest)
    (h : c.port = some (.internal cl q) ∨ c.port = some (.orphan q) ∨ c.port = some (.abandonedStatus q)) :
    c.downstream = some q.presented := by
  rcases h with h | h | h <;> rw [Chip.downstream, h]

/-! ### What a busy port keeps -/

/-- Letting a held access go leaves the host's part in the port's access: an access at the port is not held. -/
theorem Chip.releaseHeld_host (c : Chip) (h : ∀ x, c.host = some x → x.stage = .atPort) : c.releaseHeld = c := by
  unfold Chip.releaseHeld
  split <;> rename_i hh
  iterate 3 exact absurd (h _ hh) (fun e => nomatch e)
  rfl

/-- While an access of the host's stands, the backlog waits. -/
theorem Chip.present_host (c : Chip) (l : List HostRequest) (h : c.host.isSome = true) :
    Chip.present l c = { c with backlog := l } := by
  cases l with
  | nil => rfl
  | cons q rest => exact if_pos h

/-- What is presented is told by the port, and for the host's access by that access. -/
theorem Chip.downstream_congr {c d : Chip} (port : d.port = c.port) (host : c.port = some .host → d.host = c.host) :
    d.downstream = c.downstream := by
  unfold Chip.downstream
  rw [port]
  split
  · rfl
  · rename_i own
    rw [host own]
  all_goals rfl

/-- While the port is in use settling grants nothing. -/
theorem Chip.settle_ungranted (c : Chip) (hp : c.port ≠ none) :
    c.settle = { Chip.present c.releaseHeld.backlog c.releaseHeld with
      im := (Chip.present c.releaseHeld.backlog c.releaseHeld).im.choose } := by
  refine Chip.grant_busy _ ?_
  obtain ⟨h, a, released⟩ := c.releaseHeld_shape
  obtain ⟨h', b', a', o', presented⟩ := Chip.present_shape c.releaseHeld.backlog c.releaseHeld
  rw [presented, released]
  exact hp

/-- The port keeps its access until DACK (R17). -/
theorem Chip.settle_busy (c : Chip) (hp : c.port ≠ none) (agrees : c.PortAgrees) :
    c.settle.port = c.port ∧ c.settle.downstream = c.downstream := by
  have settled := c.settle_ungranted hp
  have port : c.settle.port = c.port := by
    obtain ⟨h, a, released⟩ := c.releaseHeld_shape
    obtain ⟨h', b', a', o', presented⟩ := Chip.present_shape c.releaseHeld.backlog c.releaseHeld
    rw [settled, presented, released]
  refine ⟨port, Chip.downstream_congr port fun own => ?_⟩
  obtain ⟨x, hx, stage⟩ := agrees.1 own
  have released : c.releaseHeld = c := c.releaseHeld_host fun y hy => by
    rw [hx] at hy
    cases hy
    exact stage
  rw [settled, released, Chip.present_host c c.backlog (by rw [hx]; rfl)]

/-! ### The DACK of an access that goes to no block -/

/-- A host read finishes: the host gets RAM's bytes in the lanes it enabled, and the port is free (R1, R17). -/
theorem Chip.accessDone_read (c : Chip) (a : Addr) (be : BitVec 4) (t : Treatment) (hp : c.port = some .host)
    (hh : c.host = some ⟨⟨a, .read be⟩, t, .atPort⟩) :
    c.accessDone = { c with port := none, host := none, answer := .read (Mem.readWord c.mem (wordBase a)) } := by
  simp only [Chip.accessDone, hp, hh, Chip.hostAccessDone]

theorem Chip.accessDone_orphan (c : Chip) (q : MemRequest) (hp : c.port = some (.orphan q)) :
    c.accessDone = { c with port := none, mem := q.perform c.mem } := by
  rw [Chip.accessDone, hp]

theorem Chip.accessDone_abandonedStatus (c : Chip) (q : MemRequest) (hp : c.port = some (.abandonedStatus q)) :
    c.accessDone = { c with port := none } := by
  rw [Chip.accessDone, hp]

/-- DOWNSTREAM_ACCESS_DONE is the DACK and the settling. -/
theorem exec_downstreamAccessDone (s : State) (hpor : s.chip.porLow = false) {d : Chip} (h : s.chip.accessDone = d) :
    exec .downstreamAccessDone s = .next (s.withChip d.settle) :=
  s.next_congr ((Chip.event_high _ _ hpor).trans (congrArg Chip.settle h))

/-- Settles O24: each table by its lemma above. -/
theorem portAnswersAndGrantsByItsTable : Obligations.PortAnswersAndGrantsByItsTable := by
  refine ⟨exec_oneMoreAfter, fun m => ⟨m.choose_current, m.choose_of_no_current⟩, fun c hh hb => c.settle_noHost hh hb,
    fun s hpor => ⟨fun a be t hp hh => ?_, fun q hp => ?_, fun q hp => ?_⟩, fun c => ⟨fun hp => ?_, fun h hp hh => ?_,
      fun cl q hp => ⟨fun hq => ?_, fun w hw => ?_⟩, c.grant_busy, c.settle_busy, c.grant_none⟩,
    fun c h q hp => ⟨fun hh hs hc => c.grant_host h hp hh hs hc, fun hw hc => c.grant_internal q hp hw hc,
      fun hh hs hc room => ?_, fun hh hs hc full => ?_⟩⟩
  · refine ⟨_, exec_downstreamAccessDone s hpor (s.chip.accessDone_read a be t hp hh), fun n hn _ => ?_⟩
    exact Mem.readWord_byte _ _ n hn
  · exact exec_downstreamAccessDone s hpor (s.chip.accessDone_orphan q hp)
  · exact exec_downstreamAccessDone s hpor (s.chip.accessDone_abandonedStatus q hp)
  · rw [Chip.downstream, hp]
  · rw [Chip.downstream, hp, hh]
    rfl
  · rw [c.downstream_request cl q hp, q.presented_read hq]
  · rw [c.downstream_request cl q hp, q.presented_write w hw]
  · rw [c.grant_both h q hp hh hs hc, if_pos room]
  · rw [c.grant_both h q hp hh hs hc, if_neg (Nat.not_lt.2 full)]

end Sys2Proof.Machine
end


-- ==== Sys2Proof/Proofs/BindingRun.lean ====
section
/-! SUPPORT. The Binding Unit's accesses (R23 to R29): the event of each, and the run of a good descriptor from its trigger to
BOUND. O25 and O26 are settled here. -/

namespace Sys2Proof.Machine

/-! ### A request granted, and its DACK -/

/-- With the port free and no host access, the request the Internal Master chooses takes the port (R18, R20). -/
theorem Chip.settle_issued (c : Chip) (q : Client × MemRequest) (hh : c.host = none) (hb : c.backlog = [])
    (hp : c.port = none) (hc : c.im.choose.current = some q) :
    c.settle = { c with im := c.im.choose, port := some (.internal q.1 q.2), starve := 0 } := by
  rw [c.settle_noHost hh hb]
  exact Chip.grant_internal _ q hp (by rw [Chip.hostWaiting, hh]) hc

/-- The chip when an access of its own has finished, before its client hears of it (R17). -/
def Chip.internalDone (c : Chip) (q : MemRequest) : Chip :=
  { c with mem := q.perform c.mem, port := none, im := { c.im with current := none } }

/-- An access of the part's own finishes: RAM, the port, the current request, then its client (R17, R20). -/
theorem Chip.accessDone_internal (c : Chip) (cl : Client) (q : MemRequest) (hp : c.port = some (.internal cl q)) :
    c.accessDone = (c.internalDone q).handBack cl (q.data c.mem) := by
  rw [Chip.accessDone, hp]
  rfl

/-- An access of the Binding Unit finishes. -/
theorem Chip.accessDone_binding (c : Chip) (q : MemRequest) (hp : c.port = some (.internal .binding q)) :
    c.accessDone = (c.internalDone q).bindingAccessDone (q.data c.mem) :=
  c.accessDone_internal .binding q hp

theorem MemRequest.data_read (q : MemRequest) (m : List Host.Cell) (h : q.wdata = none) :
    q.data m = Mem.readWord m (wordBase q.addr) := by rw [MemRequest.data, h]

/-! ### A check with its access at the port -/

/-- A chip at rest but for a check whose access is at the port. -/
def Chip.checkingAt (c : Chip) (k : Check) (q : MemRequest) : Chip :=
  { c with bind := .checking k, im := { c.im with current := some (.binding, q) }, port := some (.internal .binding q),
           starve := 0 }

/-- At rest, a request the Binding Unit issues is made current and granted the port (R18, R20). -/
theorem Chip.settle_issueBinding (c : Chip) (quiet : c.Quiet) (k : Check) (a : Nat) (w : Option Word) :
    Chip.settle (Chip.issueBinding { c with bind := .checking k } a w) = c.checkingAt k ⟨busAddr a, w⟩ := by
  have chosen : InternalMaster.choose { c.im with waitBinding := some ⟨busAddr a, w⟩ } =
      { c.im with current := some (.binding, ⟨busAddr a, w⟩) } := by
    rw [(InternalMaster.choose_of_no_current _ (by exact quiet.noCurrent)).1 _ rfl, ← quiet.noBinding]
  have settled := Chip.settle_issued (Chip.issueBinding { c with bind := .checking k } a w) (.binding, ⟨busAddr a, w⟩)
    quiet.noHost quiet.noBacklog quiet.freePort (congrArg InternalMaster.current chosen)
  exact settled.trans (congrArg (fun m => { c with
    bind := .checking k, im := m, port := some (.internal .binding ⟨busAddr a, w⟩), starve := 0 }) chosen)

/-- When the check's access has finished the path is at rest again. -/
theorem Chip.internalDone_checkingAt (c : Chip) (quiet : c.Quiet) (k : Check) (q : MemRequest) :
    (c.checkingAt k q).internalDone q = { c with mem := q.perform c.mem, bind := .checking k, starve := 0 } := by
  have none : ({ c.im with current := Option.none } : InternalMaster) = c.im := by rw [← quiet.noCurrent]
  have free := quiet.freePort
  rw [Chip.internalDone, Chip.checkingAt]
  simp only [none, ← free]

/-! ### The check's events -/

theorem bindStatusWord_eq (state : Nat) (reason : BindReason) (detail : Nat) (h : state < 256) :
    bindStatusWord state reason detail = word (state + 256 * reason.code + 65536 * detail) := by
  have code : reason.code < 5 := by cases reason <;> decide
  apply BitVec.eq_of_toNat_eq
  simp only [bindStatusWord, word, toNat_append_add, BitVec.toNat_ofNat]
  omega

/-- A word that is the first and no SIGNATURE rejects at once (R24). -/
theorem Chip.descriptorRead_signature (c : Chip) (k : Check) (d : Word) (hk : k.words = [])
    (hd : d ≠ Config.bindSignature) :
    c.descriptorRead k d = c.rejectCheck { k with words := k.words ++ [d] } .signature 0 := by
  exact if_pos ⟨by rw [hk]; rfl, hd⟩

/-- A word before the last is followed by the next read (R24). -/
theorem Chip.descriptorRead_next (c : Chip) (k : Check) (d : Word) (hk : k.words.length < 7)
    (hd : k.words = [] → d = Config.bindSignature) :
    c.descriptorRead k d = Chip.issueBinding { c with bind := .checking { k with words := k.words ++ [d] } }
      (descriptorAt k.location (k.words.length + 1)) none := by
  have signed : ¬((k.words ++ [d]).length = 1 ∧ d ≠ Config.bindSignature) := by
    rw [List.length_append, List.length_singleton]
    rintro ⟨one, bad⟩
    exact bad (hd (List.eq_nil_of_length_eq_zero (by omega)))
  have more : (k.words ++ [d]).length < 8 := by
    rw [List.length_append, List.length_singleton]
    omega
  have count : (k.words ++ [d]).length = k.words.length + 1 := by rw [List.length_append, List.length_singleton]
  refine (if_neg signed).trans ((if_pos more).trans ?_)
  rw [count]

/-- The last word brings the four tests (R24 to R27). -/
theorem Chip.descriptorRead_last (c : Chip) (k : Check) (d : Word) (hk : k.words.length = 7) :
    c.descriptorRead k d = match checkDescriptor k.location k.checksum (k.words ++ [d]) with
      | .error (reason, detail) => c.rejectCheck { k with words := k.words ++ [d] } reason detail
      | .ok b => c.acceptCheck { k with words := k.words ++ [d] } b := by
  have count : (k.words ++ [d]).length = 8 := by rw [List.length_append, List.length_singleton, hk]
  exact (if_neg (fun h => absurd (count.symm.trans h.1) (by decide))).trans (if_neg (by rw [count]; decide))

theorem Chip.bindingAccessDone_reading (c : Chip) (k : Check) (d : Word) (hb : c.bind = .checking k)
    (hk : k.phase = .reading) : c.bindingAccessDone d = c.descriptorRead k d := by
  simp only [Chip.bindingAccessDone, hb, hk]

theorem Chip.bindingAccessDone_rejecting (c : Chip) (k : Check) (reason : BindReason) (detail : Nat) (d : Word)
    (hb : c.bind = .checking k) (hk : k.phase = .rejecting reason detail) :
    c.bindingAccessDone d = { c with bind := .unbound } := by
  simp only [Chip.bindingAccessDone, hb, hk]

theorem Chip.bindingAccessDone_producer (c : Chip) (k : Check) (b : Binding) (d : Word) (hb : c.bind = .checking k)
    (hk : k.phase = .producer b) :
    c.bindingAccessDone d = Chip.issueBinding { c with bind := .checking { k with phase := .status b } }
      (descriptorAt k.location 9) (some (bindStatusWord 1 .none 0)) := by
  simp only [Chip.bindingAccessDone, hb, hk]

theorem Chip.bindingAccessDone_status (c : Chip) (k : Check) (b : Binding) (d : Word) (hb : c.bind = .checking k)
    (hk : k.phase = .status b) : c.bindingAccessDone d = c.enterBound b := by
  simp only [Chip.bindingAccessDone, hb, hk]

/-- The entry into BOUND: copies, counter, cycle count and an empty Report Writer, IRQ low (R29, R182). -/
theorem Chip.enterBound_eq (c : Chip) (b : Binding) : c.enterBound b =
    { c with bind := .bound b, seconds := 0, refCount := 0, writer := Writer.fresh, irqPin := false } := by
  have level : Chip.irqLevel { c with bind := .bound b, seconds := 0, refCount := 0, writer := Writer.fresh } = false := by
    simp [Chip.irqLevel, Writer.fresh, occupancy]
  simp only [Chip.enterBound, Chip.settleIrq, level]

/-- The trigger at rest: the write reaches RAM, the location is latched, w0's read takes the port (R1, R23). -/
theorem Chip.hostWrite_trigger (c : Chip) (dsel : BitVec 3) (a : Addr) (w : Word) (quiet : c.Quiet)
    (unbound : c.bind = .unbound) (hrst : c.hrstLow = false) (ha : wordBase a = dsel.toNat * 0x200000 + 0x20) :
    Chip.hostWrite { c with dsel := dsel } a w 0xF#4 1 =
      Chip.checkingAt { c with dsel := dsel, mem := Mem.writeWord c.mem (wordBase a) 0xF#4 w, answer := .written }
        { location := dsel, checksum := w, words := [], phase := .reading } ⟨busAddr (descriptorAt dsel 0), none⟩ := by
  have trigger : Chip.classify { c with dsel := dsel } ⟨a, .write w 0xF#4⟩ = .trigger dsel := by
    simp only [Chip.classify, unbound]
    exact if_pos ⟨ha, rfl, hrst⟩
  have atRest : Chip.Quiet { c with dsel := dsel } := quiet.of_path ⟨rfl, rfl, rfl, rfl, rfl⟩
  have started := Chip.hostWrite_waits _ a w 0xF#4 (.trigger dsel) atRest trigger rfl
  exact started.trans (Chip.settle_issueBinding
    { c with dsel := dsel, mem := Mem.writeWord c.mem (wordBase a) 0xF#4 w, answer := .written }
    (quiet.of_path ⟨rfl, rfl, rfl, rfl, rfl⟩) { location := dsel, checksum := w, words := [], phase := .reading }
    (descriptorAt dsel 0) none)

theorem busAddr_descriptorAt_zero (dsel : BitVec 3) :
    busAddr (descriptorAt dsel 0) = BitVec.ofNat 24 (dsel.toNat * 0x200000) := by
  rw [busAddr, descriptorAt, descriptorBase, Nat.mul_zero, Nat.add_zero]

theorem Chip.rejectedAtPort_of {c : Chip} {q : MemRequest} {k : Check} {reason : BindReason} {detail : Nat}
    (hp : c.port = some (.internal .binding q)) (hb : c.bind = .checking k) (hk : k.phase = .rejecting reason detail) :
    c.rejectedAtPort = true := by
  simp only [Chip.rejectedAtPort, hp, hb, hk]

theorem Chip.boundAtPort_of {c : Chip} {q : MemRequest} {k : Check} {b : Binding}
    (hp : c.port = some (.internal .binding q)) (hb : c.bind = .checking k) (hk : k.phase = .status b) :
    c.boundAtPort = true := by
  simp only [Chip.boundAtPort, hp, hb, hk]

/-- Settles O25: the trigger, each DACK by its phase, and the two ends. -/
theorem bindingEventsTakeTheirSteps : Obligations.BindingEventsTakeTheirSteps := by
  refine ⟨fun s dsel a w quiet unbound hrst ha => ?_, fun s q k hpor hp hb => ?_,
    fun s q k reason detail hpor hp hb hk => ?_, fun s q k b hpor hp hb hk => ?_⟩
  · rw [← busAddr_descriptorAt_zero]
    exact s.next_congr (s.chip.hostWrite_trigger dsel a w quiet unbound hrst ha)
  · have done := s.chip.accessDone_binding q hp
    refine ⟨fun hk hq => ?_, fun b hk => ?_⟩
    · rw [Chip.bindingAccessDone_reading (s.chip.internalDone q) k _ hb hk, q.data_read _ hq] at done
      refine ⟨fun first bad => ?_, fun more good => ?_, fun reason detail seven bad => ?_, fun b seven good => ?_⟩
      · rw [Chip.descriptorRead_signature (s.chip.internalDone q) k _ first bad] at done
        exact exec_downstreamAccessDone s hpor done
      · rw [Chip.descriptorRead_next (s.chip.internalDone q) k _ more good] at done
        exact exec_downstreamAccessDone s hpor done
      · rw [Chip.descriptorRead_last (s.chip.internalDone q) k _ seven, bad] at done
        rw [← bindStatusWord_eq 2 reason detail (by decide)]
        exact exec_downstreamAccessDone s hpor done
      · rw [Chip.descriptorRead_last (s.chip.internalDone q) k _ seven, good] at done
        exact exec_downstreamAccessDone s hpor done
    · rw [Chip.bindingAccessDone_producer (s.chip.internalDone q) k b _ hb hk] at done
      exact exec_downstreamAccessDone s hpor done
  · have done := s.chip.accessDone_binding q hp
    rw [Chip.bindingAccessDone_rejecting (s.chip.internalDone q) k reason detail _ hb hk] at done
    refine s.next_congr ((Chip.event_high _ _ hpor).trans (congrArg Chip.settle ?_))
    exact (if_pos (Chip.rejectedAtPort_of hp hb hk)).trans done
  · have done := s.chip.accessDone_binding q hp
    rw [Chip.bindingAccessDone_status (s.chip.internalDone q) k b _ hb hk, Chip.enterBound_eq] at done
    refine s.next_congr ((Chip.event_high _ _ hpor).trans (congrArg Chip.settle ?_))
    exact (if_pos (Chip.boundAtPort_of hp hb hk)).trans done

/-! ### The run of a good descriptor -/

theorem Chip.accessDones_add (m n : Nat) (c : Chip) :
    Chip.accessDones (m + n) c = Chip.accessDones n (Chip.accessDones m c) := by
  induction n with
  | zero => rfl
  | succ n ih => rw [← Nat.add_assoc, Chip.accessDones_succ, ih, Chip.accessDones_succ]

/-- The DACK of the check's access, its client's event given. -/
theorem Chip.checkingAt_done (c : Chip) (quiet : c.Quiet) (k : Check) (q : MemRequest) {d : Chip}
    (h : Chip.bindingAccessDone { c with mem := q.perform c.mem, bind := .checking k, starve := 0 } (q.data c.mem) = d) :
    (c.checkingAt k q).event Chip.accessDone = d.settle := by
  rw [Chip.event_high _ _ (by exact quiet.powered), Chip.accessDone_binding _ q rfl, c.internalDone_checkingAt quiet]
  exact congrArg Chip.settle h

/-- A read of the check's brings its word and the next read. -/
theorem Chip.checkingAt_read (c : Chip) (quiet : c.Quiet) (k : Check) (a : Addr) (hk : k.phase = .reading)
    (more : k.words.length < 7) (signed : k.words = [] → Mem.readWord c.mem (wordBase a) = Config.bindSignature) :
    (c.checkingAt k ⟨a, none⟩).event Chip.accessDone =
      c.checkingAt { k with words := k.words ++ [Mem.readWord c.mem (wordBase a)] }
        ⟨busAddr (descriptorAt k.location (k.words.length + 1)), none⟩ := by
  refine (c.checkingAt_done quiet k ⟨a, none⟩ ((Chip.bindingAccessDone_reading _ k _ rfl hk).trans
    (Chip.descriptorRead_next _ k _ more signed))).trans ?_
  exact Chip.settle_issueBinding { c with starve := 0 } (quiet.of_path ⟨rfl, rfl, rfl, rfl, rfl⟩) _ _ _

/-- The last read brings the write of PRODUCER when the tests pass. -/
theorem Chip.checkingAt_last (c : Chip) (quiet : c.Quiet) (k : Check) (a : Addr) (b : Binding) (hk : k.phase = .reading)
    (seven : k.words.length = 7)
    (good : checkDescriptor k.location k.checksum (k.words ++ [Mem.readWord c.mem (wordBase a)]) = .ok b) :
    (c.checkingAt k ⟨a, none⟩).event Chip.accessDone =
      c.checkingAt { k with words := k.words ++ [Mem.readWord c.mem (wordBase a)], phase := .producer b }
        ⟨busAddr b.ringBase, some 0⟩ := by
  have read := (Chip.bindingAccessDone_reading { c with mem := c.mem, bind := .checking k, starve := 0 } k
    (Mem.readWord c.mem (wordBase a)) rfl hk).trans (Chip.descriptorRead_last _ k _ seven)
  rw [good] at read
  refine (c.checkingAt_done quiet k ⟨a, none⟩ read).trans ?_
  exact Chip.settle_issueBinding { c with starve := 0 } (quiet.of_path ⟨rfl, rfl, rfl, rfl, rfl⟩) _ _ _

/-- PRODUCER written, BIND STATUS BOUND follows. -/
theorem Chip.checkingAt_producer (c : Chip) (quiet : c.Quiet) (k : Check) (q : MemRequest) (b : Binding)
    (hk : k.phase = .producer b) :
    (c.checkingAt k q).event Chip.accessDone = Chip.checkingAt { c with mem := q.perform c.mem } { k with phase := .status b }
        ⟨busAddr (descriptorAt k.location 9), some 1⟩ := by
  refine (c.checkingAt_done quiet k q (Chip.bindingAccessDone_producer _ k b _ rfl hk)).trans ?_
  exact Chip.settle_issueBinding { c with mem := q.perform c.mem, starve := 0 } (quiet.of_path ⟨rfl, rfl, rfl, rfl, rfl⟩) _ _ _

/-- BIND STATUS written, the part is BOUND and at rest. -/
theorem Chip.checkingAt_status (c : Chip) (quiet : c.Quiet) (k : Check) (q : MemRequest) (b : Binding)
    (hk : k.phase = .status b) :
    (c.checkingAt k q).event Chip.accessDone =
      { c with mem := q.perform c.mem, starve := 0, bind := .bound b, seconds := 0, refCount := 0, writer := Writer.fresh,
               irqPin := false } := by
  refine (c.checkingAt_done quiet k q ((Chip.bindingAccessDone_status _ k b _ rfl hk).trans (Chip.enterBound_eq _ b))).trans ?_
  exact Chip.settle_quiet _ (quiet.of_path ⟨rfl, rfl, rfl, rfl, rfl⟩)

/-- Word `i` of the descriptor at a location, in RAM. -/
def descriptorWord (m : List Host.Cell) (location : BitVec 3) (i : Nat) : Word := Mem.readWord m (descriptorAt location i)

theorem wordBase_descriptorAt (location : BitVec 3) (i : Nat) (h : i < 10) :
    wordBase (busAddr (descriptorAt location i)) = descriptorAt location i := by
  have := location.isLt
  simp only [wordBase, busAddr, descriptorAt, descriptorBase, BitVec.toNat_ofNat]
  omega

/-- The first reads of a check whose SIGNATURE is right (R24). -/
theorem Chip.checkingAt_reads (c : Chip) (quiet : c.Quiet) (location : BitVec 3) (checksum : Word)
    (signed : descriptorWord c.mem location 0 = Config.bindSignature) (n : Nat) (hn : n ≤ 7) :
    Chip.accessDones n (c.checkingAt ⟨location, checksum, [], .reading⟩ ⟨busAddr (descriptorAt location 0), none⟩) =
      c.checkingAt ⟨location, checksum, (List.range n).map (descriptorWord c.mem location), .reading⟩
        ⟨busAddr (descriptorAt location n), none⟩ := by
  induction n with
  | zero => rfl
  | succ n ih =>
    have count : ((List.range n).map (descriptorWord c.mem location)).length = n := by simp
    have place := wordBase_descriptorAt location n (by omega)
    have read := c.checkingAt_read quiet
      ⟨location, checksum, (List.range n).map (descriptorWord c.mem location), .reading⟩ (busAddr (descriptorAt location n)) rfl
      (by rw [count]; omega) (fun first => by
        have zero : n = 0 := count.symm.trans (congrArg List.length first)
        subst zero
        rw [place]
        exact signed)
    rw [Chip.accessDones_succ, ih (by omega), read, place, count, List.range_succ, List.map_append]
    rfl

/-- From the trigger to BOUND: eight reads and two writes (R24, R29). -/
theorem Chip.checkingAt_runs (c : Chip) (quiet : c.Quiet) (location : BitVec 3) (checksum : Word) (b : Binding)
    (good : checkDescriptor location checksum ((List.range 8).map (descriptorWord c.mem location)) = .ok b) :
    Chip.accessDones 10 (c.checkingAt ⟨location, checksum, [], .reading⟩ ⟨busAddr (descriptorAt location 0), none⟩) =
      { c with
        mem := (⟨busAddr (descriptorAt location 9), some 1⟩ : MemRequest).perform
          ((⟨busAddr b.ringBase, some 0⟩ : MemRequest).perform c.mem)
        starve := 0, bind := .bound b, seconds := 0, refCount := 0, writer := Writer.fresh, irqPin := false } := by
  have signed : descriptorWord c.mem location 0 = Config.bindSignature := by
    by_contra bad
    rw [checkDescriptor_signature location checksum ((List.range 8).map (descriptorWord c.mem location)) bad] at good
    cases good
  have words : (List.range 7).map (descriptorWord c.mem location) ++
      [Mem.readWord c.mem (wordBase (busAddr (descriptorAt location 7)))] =
      (List.range 8).map (descriptorWord c.mem location) := by
    rw [wordBase_descriptorAt location 7 (by decide)]
    rfl
  rw [Chip.accessDones_add 7 3, c.checkingAt_reads quiet location checksum signed 7 le_rfl, Chip.accessDones,
    c.checkingAt_last quiet _ _ b rfl (by simp) (by rw [words]; exact good), Chip.accessDones,
    c.checkingAt_producer quiet _ _ b rfl, Chip.accessDones,
    Chip.checkingAt_status { c with mem := (⟨busAddr b.ringBase, some 0⟩ : MemRequest).perform c.mem }
      (quiet.of_path ⟨rfl, rfl, rfl, rfl, rfl⟩) _ _ b rfl]
  rfl

/-- After the two writes PRODUCER reads 0 and BIND STATUS reads 1: the ring and the descriptor share no byte (R27, R29). -/
theorem readWord_boundRam (b : Binding) (legal : b.Legal) (location : BitVec 3) (here : b.location = location)
    (m : List Host.Cell) (hm : Mem.wf m = true) :
    let ram := (⟨busAddr (descriptorAt location 9), some 1⟩ : MemRequest).perform
      ((⟨busAddr b.ringBase, some 0⟩ : MemRequest).perform m)
    Mem.readWord ram b.ringBase = 0 ∧ Mem.readWord ram (descriptorAt location 9) = 1 := by
  have ringWf : Mem.wf ((⟨busAddr b.ringBase, some 0⟩ : MemRequest).perform m) = true := MemRequest.perform_wf _ _ hm
  have ringPlace : wordBase (busAddr b.ringBase) = b.ringBase := by
    have aligned := legal.ringBase
    have inside := legal.ringEnd
    simp only [Config.spaceEnd] at inside
    simp only [wordBase, busAddr, BitVec.toNat_ofNat]
    omega
  have statusPlace := wordBase_descriptorAt location 9 (by decide)
  have ringInside : b.ringBase + 3 < Config.spaceEnd := by rw [← ringPlace]; exact wordBase_lt _
  have statusInside : descriptorAt location 9 + 3 < Config.spaceEnd := by rw [← statusPlace]; exact wordBase_lt _
  have apart := legal.apart (n := 6) (x := b.ringRange) (y := b.descriptorRange) (by simp [Binding.pairs])
  simp only [Binding.ringRange, Binding.descriptorRange, here] at apart
  have elsewhere : b.ringBase + 3 < descriptorAt location 9 ∨ descriptorAt location 9 + 3 < b.ringBase := by
    rw [descriptorAt]
    omega
  intro ram
  rw [MemRequest.perform_write, ringPlace] at ringWf
  simp only [ram, MemRequest.perform_write, ringPlace, statusPlace]
  constructor
  · rw [Mem.readWord_writeWord_other _ _ _ _ statusInside ringWf elsewhere]
    exact Mem.readWord_writeWord _ _ _ ringInside hm
  · exact Mem.readWord_writeWord _ _ _ statusInside ringWf

/-- The trigger of a descriptor that passes the four tests, and ten more accesses (R24, R29). -/
theorem Chip.hostWrite_goodDescriptor (c : Chip) (dsel : BitVec 3) (a : Addr) (w : Word) (b : Binding) (quiet : c.Quiet)
    (ram : c.MemOk) (unbound : c.bind = .unbound) (hrst : c.hrstLow = false)
    (ha : wordBase a = dsel.toNat * 0x200000 + 0x20)
    (good : checkDescriptor dsel w
      ((List.range 8).map fun i => Mem.readWord c.mem (dsel.toNat * 0x200000 + 4 * i)) = .ok b) :
    Chip.hostWrite { c with dsel := dsel } a w 0xF#4 11 =
      { c with
        dsel := dsel, answer := .written
        mem := (⟨busAddr (descriptorAt dsel 9), some 1⟩ : MemRequest).perform
          ((⟨busAddr b.ringBase, some 0⟩ : MemRequest).perform (Mem.writeWord c.mem (wordBase a) 0xF#4 w))
        starve := 0, bind := .bound b, seconds := 0, refCount := 0, writer := Writer.fresh, irqPin := false } := by
  have hd := dsel.isLt
  have words : (List.range 8).map (descriptorWord (Mem.writeWord c.mem (wordBase a) 0xF#4 w) dsel) =
      (List.range 8).map fun i => Mem.readWord c.mem (dsel.toNat * 0x200000 + 4 * i) := by
    refine List.map_congr_left fun i hi => ?_
    have := List.mem_range.1 hi
    exact Mem.readWord_writeWord_other c.mem (wordBase a) _ w (wordBase_lt a) ram
      (by simp only [descriptorAt, descriptorBase]; omega)
  have run := Chip.checkingAt_runs
    { c with dsel := dsel, mem := Mem.writeWord c.mem (wordBase a) 0xF#4 w, answer := .written }
    (quiet.of_path ⟨rfl, rfl, rfl, rfl, rfl⟩) dsel w b (by rw [← good]; exact congrArg (checkDescriptor dsel w) words)
  exact (Chip.accessDones_add 1 10 _).trans
    ((congrArg (Chip.accessDones 10) (c.hostWrite_trigger dsel a w quiet unbound hrst ha)).trans run)

/-- Settles O26: the run from the trigger to BOUND, and RAM read back. -/
theorem goodDescriptorRunsToBound : Obligations.GoodDescriptorRunsToBound := by
  intro s dsel a w b quiet ram unbound hrst ha good
  have run := s.chip.hostWrite_goodDescriptor dsel a w b quiet ram unbound hrst ha good
  obtain ⟨legal, reads⟩ := checkDescriptor_ok _ _ _ b good
  obtain ⟨producer, status⟩ := readWord_boundRam b legal dsel reads.location _
    (Mem.writeWord_wf s.chip.mem (wordBase a) 0xF#4 w (wordBase_lt a) ram)
  have trigger : exec (.bindTrigger dsel a w 11) s =
      .next (s.withChip (Chip.hostWrite { s.chip with dsel := dsel } a w 0xF#4 11)) := rfl
  have place : dsel.toNat * 0x200000 + 0x24 = descriptorAt dsel 9 := by rw [descriptorAt, descriptorBase]
  refine ⟨_, trigger.trans (s.next_congr run), ?_⟩
  rw [place]
  exact ⟨rfl, rfl, rfl, rfl, rfl, rfl, producer, status, rfl, rfl, rfl, rfl, rfl⟩

end Sys2Proof.Machine
end


-- ==== Sys2Proof/Proofs/Timebase.lean ====
section
/-! SUPPORT. Second ticks, reference edges and the LISO filters (R33, R34, R66, R91, R99, R134). O28 and O31 are settled
here. -/

namespace Sys2Proof.Machine

/-! ### Ticks and edges -/

theorem Chip.startSweep_eq (c : Chip) : c.startSweep =
    { c with
      silenceOwed := if c.silenceOwed.any (fun r => c.points[r].presence == .live) then c.silenceOwed else c.livePoints
      silenceExempt :=
        if c.silenceOwed.any (fun r => c.points[r].presence == .live) then c.silenceExempt else c.intake.length } := by
  by_cases owed : c.silenceOwed.any (fun r => c.points[r].presence == .live) = true
  · rw [if_pos owed, if_pos owed]
    exact if_pos owed
  · rw [if_neg owed, if_neg owed]
    exact if_neg owed

theorem Chip.startRound_eq (c : Chip) : c.startRound =
    { c with walkOwed := if c.walkOwed.any c.slotComparable then c.walkOwed else
      (List.finRange 4).filter c.slotComparable } := by
  by_cases owed : c.walkOwed.any c.slotComparable = true
  · rw [if_pos owed]
    exact if_pos owed
  · rw [if_neg owed]
    exact if_neg owed

/-- A tick, field by field (R33, R34, R66, R134). -/
theorem Chip.tick_eq (c : Chip) : c.tick =
    { c with
      refCount := 0, seconds := min (c.seconds + 1) 4294967295
      silenceOwed := if c.silenceOwed.any (fun r => c.points[r].presence == .live) then c.silenceOwed else c.livePoints
      silenceExempt :=
        if c.silenceOwed.any (fun r => c.points[r].presence == .live) then c.silenceExempt else c.intake.length
      walkOwed := if c.walkOwed.any c.slotComparable then c.walkOwed else (List.finRange 4).filter c.slotComparable } := by
  rw [Chip.tick, Chip.startSweep_eq, Chip.startRound_eq]
  rfl

theorem Chip.nextTick_bound (c : Chip) (b : Binding) (hb : c.bind = .bound b) :
    c.nextTick = Chip.tick { c with lisoStable := Vector.replicate 4 0 } := by
  simp only [Chip.nextTick, hb]

theorem Chip.binding_of_not_bound {c : Chip} (h : ∀ b, c.bind ≠ .bound b) : c.binding = none := by
  unfold Chip.binding
  split
  · rename_i b hb
    exact absurd hb (h b)
  · rfl

/-- The Timebase at an edge of a BOUND part (R33). -/
theorem Chip.countEdge_bound (c : Chip) (b : Binding) (hb : c.bind = .bound b) :
    c.countEdge = if 32768 ≤ c.refCount + 1 then c.tick else { c with refCount := c.refCount + 1 } := by
  simp only [Chip.countEdge, hb]
  rfl

/-- The count at an edge changes the timebase and what is owed alone. -/
theorem Chip.countEdge_shape (c : Chip) : ∃ n t s x o, c.countEdge =
    { c with refCount := n, seconds := t, silenceOwed := s, silenceExempt := x, walkOwed := o } := by
  unfold Chip.countEdge
  split
  · split
    · obtain ⟨s, x, o, e⟩ := c.tick_shape
      exact ⟨_, _, s, x, o, e⟩
    · exact ⟨_, _, _, _, _, rfl⟩
  · exact ⟨_, _, _, _, _, rfl⟩

/-- The count at an edge goes by the binding, the cycle count and the counter. -/
theorem Chip.countEdge_congr {c d : Chip} (hb : d.bind = c.bind) (hn : d.refCount = c.refCount)
    (hs : d.seconds = c.seconds) : d.countEdge.refCount = c.countEdge.refCount ∧ d.countEdge.seconds = c.countEdge.seconds := by
  by_cases bound : ∃ b, c.bind = .bound b
  · obtain ⟨b, bound⟩ := bound
    rw [d.countEdge_bound b (hb.trans bound), c.countEdge_bound b bound, d.tick_eq, c.tick_eq, hn, hs]
    by_cases wrap : 32768 ≤ c.refCount + 1
    · simp only [if_pos wrap, and_self]
    · rw [if_neg wrap, if_neg wrap]
      exact ⟨rfl, rfl⟩
  · have idle : c.binding = none := Chip.binding_of_not_bound fun b h => bound ⟨b, h⟩
    have idle' : d.binding = none := Chip.binding_of_not_bound fun b h => bound ⟨b, hb ▸ h⟩
    rw [c.countEdge_unbound idle, d.countEdge_unbound idle']
    exact ⟨hn, hs⟩

/-! ### The filters -/

/-- A filter's level and count after a sample of its pin (R91). -/
def filterLevel (pin level : Bool) (count : Nat) : Bool := if pin ≠ level ∧ 16 ≤ count + 1 then pin else level

def filterCount (pin level : Bool) (count : Nat) : Nat := if pin ≠ level ∧ count + 1 < 16 then count + 1 else 0

/-- A sample whose pin stands at the filtered level, or whose count stays short, changes the counts alone. -/
theorem Chip.sampleInput_short (c : Chip) (liso : BitVec 4) (l : Loop)
    (h : liso.getLsbD l.val = c.lisoFiltered[l] ∨ c.lisoStable[l] + 1 < 16) :
    c.sampleInput liso l =
      { c with lisoStable := c.lisoStable.set l (filterCount (liso.getLsbD l.val) c.lisoFiltered[l] c.lisoStable[l]) } := by
  unfold Chip.sampleInput filterCount
  dsimp only
  by_cases level : liso.getLsbD l.val = c.lisoFiltered[l]
  · rw [if_pos level, if_neg (fun h => h.1 level)]
  · have short := h.resolve_left level
    rw [if_neg level, if_neg (by exact Nat.not_le.2 short), if_pos ⟨level, short⟩]

/-- The sixteenth sample of the other level turns the input over and makes the loop's consent event (R91, R99). -/
theorem Chip.sampleInput_turns (c : Chip) (liso : BitVec 4) (l : Loop) (level : liso.getLsbD l.val ≠ c.lisoFiltered[l])
    (long : 16 ≤ c.lisoStable[l] + 1) :
    c.sampleInput liso l = Chip.loopConsentEvent
      { c with lisoStable := c.lisoStable.set l 0, lisoFiltered := c.lisoFiltered.set l (liso.getLsbD l.val) } l
      (liso.getLsbD l.val) :=
  (if_neg level).trans (if_pos long)

@[simp] theorem Chip.loopConsentEvent_liso (c : Chip) (l : Loop) (w : Bool) :
    (c.loopConsentEvent l w).lisoFiltered = c.lisoFiltered ∧ (c.loopConsentEvent l w).lisoStable = c.lisoStable := by
  obtain ⟨v, i, e⟩ := c.loopConsentEvent_shape l w
  rw [e]
  exact ⟨rfl, rfl⟩

/-- A sample sets its own input's filter and no other's (R91). -/
theorem Chip.sampleInput_liso (c : Chip) (liso : BitVec 4) (l k : Loop) :
    (c.sampleInput liso l).lisoFiltered[k] =
      (if l = k then filterLevel (liso.getLsbD k.val) c.lisoFiltered[k] c.lisoStable[k] else c.lisoFiltered[k]) ∧
    (c.sampleInput liso l).lisoStable[k] =
      (if l = k then filterCount (liso.getLsbD k.val) c.lisoFiltered[k] c.lisoStable[k] else c.lisoStable[k]) := by
  have set {α : Type} (v : Vector α 4) (x : α) : (v.set l x)[k] = if l = k then x else v[k] := by
    simp only [Fin.getElem_fin, Vector.getElem_set, ← Fin.ext_iff]
  by_cases turn : liso.getLsbD l.val ≠ c.lisoFiltered[l] ∧ 16 ≤ c.lisoStable[l] + 1
  · rw [c.sampleInput_turns liso l turn.1 turn.2, (Chip.loopConsentEvent_liso _ l _).1, (Chip.loopConsentEvent_liso _ l _).2,
      set, set]
    by_cases hk : l = k
    · subst hk
      rw [if_pos rfl, if_pos rfl, if_pos rfl, if_pos rfl, filterLevel, filterCount, if_pos turn,
        if_neg (fun h => absurd h.2 (Nat.not_lt.2 turn.2))]
      exact ⟨rfl, rfl⟩
    · simp only [if_neg hk, and_self]
  · have short : liso.getLsbD l.val = c.lisoFiltered[l] ∨ c.lisoStable[l] + 1 < 16 := by
      by_cases level : liso.getLsbD l.val = c.lisoFiltered[l]
      · exact .inl level
      · exact .inr (Nat.not_le.1 fun long => turn ⟨level, long⟩)
    have count : (c.sampleInput liso l).lisoStable[k] = _ :=
      (congrArg (fun d : Chip => d.lisoStable[k]) (c.sampleInput_short liso l short)).trans (set _ _)
    rw [count, c.sampleInput_short liso l short]
    refine ⟨?_, ?_⟩
    · by_cases hk : l = k
      · subst hk
        rw [if_pos rfl, filterLevel, if_neg turn]
      · rw [if_neg hk]
    · by_cases hk : l = k
      · subst hk
        rfl
      · rw [if_neg hk, if_neg hk]

/-- Samples of different inputs set each its own filter (R91). -/
theorem Chip.samples_liso (liso : BitVec 4) (order : List Loop) (c : Chip) (nodup : order.Nodup) (k : Loop) :
    (order.foldl (fun c l => c.sampleInput liso l) c).lisoFiltered[k] =
      (if k ∈ order then filterLevel (liso.getLsbD k.val) c.lisoFiltered[k] c.lisoStable[k] else c.lisoFiltered[k]) ∧
    (order.foldl (fun c l => c.sampleInput liso l) c).lisoStable[k] =
      (if k ∈ order then filterCount (liso.getLsbD k.val) c.lisoFiltered[k] c.lisoStable[k] else c.lisoStable[k]) := by
  induction order generalizing c with
  | nil => exact ⟨rfl, rfl⟩
  | cons l rest ih =>
    obtain ⟨new, nodup⟩ := List.nodup_cons.1 nodup
    obtain ⟨level, count⟩ := c.sampleInput_liso liso l k
    obtain ⟨restLevel, restCount⟩ := ih (c.sampleInput liso l) nodup
    rw [List.foldl_cons, restLevel, restCount, level, count]
    by_cases hk : l = k
    · subst hk
      simp only [if_neg new, if_true, List.mem_cons_self, and_self]
    · simp only [if_neg hk, List.mem_cons, Ne.symm hk, false_or, and_self]

/-- The order of an edge's samples takes every input once (R91). -/
theorem sampleOrder_nodup (order : List Loop) : (sampleOrder order).Nodup := by
  have keep (l : List Loop) (done : List Loop) (h : done.Nodup) :
      (l.foldl (fun done k => if done.contains k then done else done ++ [k]) done).Nodup := by
    induction l generalizing done with
    | nil => exact h
    | cons k rest ih =>
      refine ih _ ?_
      show List.Nodup (if done.contains k then done else done ++ [k])
      by_cases hk : done.contains k = true
      · rw [if_pos hk]; exact h
      · rw [if_neg hk]
        exact List.nodup_append.2 ⟨h, List.nodup_singleton k, fun a ha b hb => by
          rintro rfl
          rw [List.mem_singleton] at hb
          subst hb
          exact hk (List.contains_iff_mem.2 ha)⟩
  exact keep _ [] List.nodup_nil

theorem mem_sampleOrder (order : List Loop) (k : Loop) : k ∈ sampleOrder order := by
  have gather (l : List Loop) (done : List Loop) (h : k ∈ done ∨ k ∈ l) :
      k ∈ l.foldl (fun done k => if done.contains k then done else done ++ [k]) done := by
    induction l generalizing done with
    | nil => exact h.resolve_right List.not_mem_nil
    | cons j rest ih =>
      refine ih _ ?_
      show k ∈ (if done.contains j then done else done ++ [j]) ∨ k ∈ rest
      rcases h with h | h
      · exact .inl (by split <;> simp [h])
      · rcases List.mem_cons.1 h with rfl | h
        · refine .inl ?_
          by_cases hj : done.contains k = true
          · rw [if_pos hj]; exact List.contains_iff_mem.1 hj
          · rw [if_neg hj]; simp
        · exact .inr h
  exact gather _ [] (.inr (List.mem_append_right _ (List.mem_finRange k)))

/-- The four samples of an edge (R91). -/
theorem Chip.sampleInputs_liso (c : Chip) (liso : BitVec 4) (order : List Loop) (k : Loop) :
    (c.sampleInputs liso order).lisoFiltered[k] = filterLevel (liso.getLsbD k.val) c.lisoFiltered[k] c.lisoStable[k] ∧
    (c.sampleInputs liso order).lisoStable[k] = filterCount (liso.getLsbD k.val) c.lisoFiltered[k] c.lisoStable[k] := by
  obtain ⟨level, count⟩ := Chip.samples_liso liso (sampleOrder order) c (sampleOrder_nodup order) k
  rw [if_pos (mem_sampleOrder order k)] at level count
  exact ⟨level, count⟩

/-- The samples change the filters, what is owed and what is reported alone. -/
theorem Chip.sampleInputs_shape (c : Chip) (liso : BitVec 4) (order : List Loop) : ∃ f n o w i,
    c.sampleInputs liso order = { c with lisoFiltered := f, lisoStable := n, rederivations := o, writer := w, im := i } := by
  refine kept_foldl (P := fun d => ∃ f n o w i,
    d = { c with lisoFiltered := f, lisoStable := n, rederivations := o, writer := w, im := i }) _ ?_ _ c ⟨_, _, _, _, _, rfl⟩
  rintro _ l ⟨f, n, o, w, i, rfl⟩
  obtain ⟨f', n', o', w', i', e⟩ := Chip.sampleInput_shape
    { c with lisoFiltered := f, lisoStable := n, rederivations := o, writer := w, im := i } liso l
  exact ⟨f', n', o', w', i', e⟩

/-- An edge, its count and its samples apart: the filters move by the pins, the timebase by its count (R33, R91). -/
theorem Chip.refEdge_facts (c : Chip) (liso : BitVec 4) (order : List Loop) (last : Bool) :
    (∀ k : Loop, (c.refEdge liso order last).lisoFiltered[k] =
        filterLevel (liso.getLsbD k.val) c.lisoFiltered[k] c.lisoStable[k] ∧
      (c.refEdge liso order last).lisoStable[k] = filterCount (liso.getLsbD k.val) c.lisoFiltered[k] c.lisoStable[k]) ∧
    (c.refEdge liso order last).refCount = c.countEdge.refCount ∧
    (c.refEdge liso order last).seconds = c.countEdge.seconds ∧
    (c.refEdge liso order last).points = c.points ∧ (c.refEdge liso order last).plan = c.plan ∧
    (c.refEdge liso order last).zoneMask = c.zoneMask ∧ (c.refEdge liso order last).shiftRegister = c.shiftRegister ∧
    (c.refEdge liso order last).mem = c.mem := by
  cases last with
  | false =>
    obtain ⟨f, n, o, w, i, samples⟩ := c.countEdge.sampleInputs_shape liso order
    have filters := c.countEdge.sampleInputs_liso liso order
    obtain ⟨m, t, s, x, q, count⟩ := c.countEdge_shape
    show (∀ k : Loop, (c.countEdge.sampleInputs liso order).lisoFiltered[k] = _ ∧
      (c.countEdge.sampleInputs liso order).lisoStable[k] = _) ∧ (c.countEdge.sampleInputs liso order).refCount = _ ∧
      (c.countEdge.sampleInputs liso order).seconds = _ ∧ (c.countEdge.sampleInputs liso order).points = _ ∧
      (c.countEdge.sampleInputs liso order).plan = _ ∧ (c.countEdge.sampleInputs liso order).zoneMask = _ ∧
      (c.countEdge.sampleInputs liso order).shiftRegister = _ ∧ (c.countEdge.sampleInputs liso order).mem = _
    refine ⟨fun k => ?_, ?_⟩
    · rw [(filters k).1, (filters k).2, count]
      exact ⟨rfl, rfl⟩
    · rw [samples, count]
      exact ⟨rfl, rfl, rfl, rfl, rfl, rfl, rfl⟩
  | true =>
    obtain ⟨f, n, o, w, i, samples⟩ := c.sampleInputs_shape liso order
    have filters := c.sampleInputs_liso liso order
    obtain ⟨m, t, s, x, q, count⟩ := (c.sampleInputs liso order).countEdge_shape
    show (∀ k : Loop, (c.sampleInputs liso order).countEdge.lisoFiltered[k] = _ ∧
      (c.sampleInputs liso order).countEdge.lisoStable[k] = _) ∧ (c.sampleInputs liso order).countEdge.refCount = _ ∧
      (c.sampleInputs liso order).countEdge.seconds = _ ∧ (c.sampleInputs liso order).countEdge.points = _ ∧
      (c.sampleInputs liso order).countEdge.plan = _ ∧ (c.sampleInputs liso order).countEdge.zoneMask = _ ∧
      (c.sampleInputs liso order).countEdge.shiftRegister = _ ∧ (c.sampleInputs liso order).countEdge.mem = _
    obtain ⟨counted, clocked⟩ := Chip.countEdge_congr (c := c) (d := c.sampleInputs liso order)
      (by rw [samples]) (by rw [samples]) (by rw [samples])
    refine ⟨fun k => ?_, counted, clocked, ?_⟩
    · rw [count]
      exact filters k
    · rw [count, samples]
      exact ⟨rfl, rfl, rfl, rfl, rfl⟩

/-- Settles O28: the tick's fields, and an edge's. -/
theorem timebaseCountsAndFiltersSample : Obligations.TimebaseCountsAndFiltersSample := by
  refine ⟨fun s hpor => ⟨fun b hb => ?_, fun hb => ?_⟩, fun s liso order last hpor => ?_⟩
  · refine s.next_congr ((Chip.event_high _ _ hpor).trans (congrArg Chip.settle ?_))
    exact (s.chip.nextTick_bound b hb).trans (Chip.tick_eq _)
  · refine s.next_congr ((Chip.event_high _ _ hpor).trans (congrArg Chip.settle ?_))
    exact s.chip.nextTick_unbound (Chip.binding_of_not_bound hb)
  · obtain ⟨filters, count, second, points, plan, mask, register, mem⟩ := s.chip.refEdge_facts liso order last
    refine ⟨_, s.next_congr (Chip.event_high _ _ hpor), ?_⟩
    simp only [State.withChip, Chip.settle_frame]
    refine ⟨filters, fun b hb short => ?_, fun b hb wrap => ?_, fun hb => ?_, points, plan, mask, register, mem⟩
    · rw [count, second, s.chip.countEdge_bound b hb, if_neg (by omega)]
      exact ⟨rfl, rfl⟩
    · rw [count, second, s.chip.countEdge_bound b hb, if_pos (by omega), Chip.tick_eq]
      exact ⟨rfl, rfl⟩
    · rw [count, second, s.chip.countEdge_unbound (Chip.binding_of_not_bound hb)]
      exact ⟨rfl, rfl⟩

/-! ### An input's change -/

/-- Samples of inputs whose pins stand at their filtered levels change the counts alone. -/
theorem Chip.samples_level (liso : BitVec 4) (order : List Loop) (c : Chip)
    (level : ∀ k ∈ order, liso.getLsbD k.val = c.lisoFiltered[k]) :
    ∃ n, order.foldl (fun c l => c.sampleInput liso l) c = { c with lisoStable := n } := by
  induction order generalizing c with
  | nil => exact ⟨_, rfl⟩
  | cons l rest ih =>
    rw [List.foldl_cons, c.sampleInput_short liso l (.inl (level l List.mem_cons_self))]
    exact ih _ fun k hk => level k (List.mem_cons_of_mem _ hk)

/-- The chip after an input of a loop has turned over (R91, R99, R101). -/
structure Chip.LoopTurned (c : Chip) (l : Loop) (d : Chip) : Prop where
  level : d.lisoFiltered[l] = !c.lisoFiltered[l]
  count : d.lisoStable[l] = 0
  others : ∀ k : Loop, k ≠ l → d.lisoFiltered[k] = c.lisoFiltered[k]
  owes : ∀ r : Rec, loopOf r = l → d.Owes r
  points : d.points = c.points
  plan : d.plan = c.plan
  zoneMask : d.zoneMask = c.zoneMask
  zones : d.zones = c.zones
  slots : d.slots = c.slots
  mem : d.mem = c.mem
  writer : d.writer = (if l.val < c.loops then
      (c.raise { kind := .consentChanged, loop := l.val + 1, addr := 0, zone := zoneNumber (pseudoZone l),
                 time := d.seconds, detailA := word (!c.lisoFiltered[l]).toNat, detailB := word 1 }).writer
    else c.writer)

/-- The pins of the run: the loop's at its other level, the others' at their filtered levels. -/
def Chip.PinsTurn (c : Chip) (l : Loop) (liso : BitVec 4) : Prop :=
  ∀ k : Loop, liso.getLsbD k.val = if k = l then !c.lisoFiltered[k] else c.lisoFiltered[k]

/-- The writer after a loop's consent event: the report for loops 1 to LOOPS (R101). -/
theorem Chip.loopConsentEvent_writer (c : Chip) (l : Loop) (w : Bool) :
    (c.loopConsentEvent l w).writer = (if l.val < c.loops then
      (c.raise { kind := .consentChanged, loop := l.val + 1, addr := 0, zone := zoneNumber (pseudoZone l),
                 time := c.seconds, detailA := word w.toNat, detailB := word 1 }).writer
    else c.writer) := by
  unfold Chip.loopConsentEvent
  dsimp only
  split <;> rfl

theorem Chip.loopConsentEvent_owes (c : Chip) (l : Loop) (w : Bool) (r : Rec) (h : loopOf r = l) :
    (c.loopConsentEvent l w).Owes r := by
  obtain ⟨v, i, e⟩ := c.loopConsentEvent_shape l w
  rw [e]
  exact Chip.oweRederivations_owes _ _ r (.inr ((mem_loopRecords l r).2 h))

/-- The samples that turn an input over. -/
theorem Chip.sampleInputs_turned (c : Chip) (l : Loop) (liso : BitVec 4) (pins : c.PinsTurn l liso)
    (long : c.lisoStable[l] = 15) : c.LoopTurned l (c.sampleInputs liso []) := by
  have filters := c.sampleInputs_liso liso []
  have pin := pins l
  rw [if_pos rfl] at pin
  have other : liso.getLsbD l.val ≠ c.lisoFiltered[l] := by
    rw [pin]
    exact Bool.not_ne_self _
  obtain ⟨before, after, order⟩ := List.append_of_mem (mem_sampleOrder [] l)
  have nodup := sampleOrder_nodup []
  rw [order] at nodup
  have notBefore : l ∉ before := fun h => (List.nodup_append.1 nodup).2.2 l h l List.mem_cons_self rfl
  have notAfter : l ∉ after := (List.nodup_cons.1 (List.nodup_append.1 nodup).2.1).1
  have levels (d : Chip) (same : ∀ k : Loop, k ≠ l → d.lisoFiltered[k] = c.lisoFiltered[k]) (ks : List Loop) (hl : l ∉ ks) :
      ∀ k ∈ ks, liso.getLsbD k.val = d.lisoFiltered[k] := fun k hk => by
    have ne : k ≠ l := fun h => hl (h ▸ hk)
    rw [pins k, if_neg ne, same k ne]
  obtain ⟨n, first⟩ := Chip.samples_level liso before c (levels c (fun _ _ => rfl) before notBefore)
  have stable : n[l] = 15 := by
    have kept := (Chip.samples_liso liso before c (List.nodup_append.1 nodup).1 l).2
    rw [if_neg notBefore, first] at kept
    exact kept.trans long
  have turns := Chip.sampleInput_turns { c with lisoStable := n } liso l other (by
    show 16 ≤ n[l] + 1
    omega)
  have last := Chip.samples_level liso after (Chip.sampleInput { c with lisoStable := n } liso l)
    (levels _ (fun k ne => by
      rw [(Chip.sampleInput_liso { c with lisoStable := n } liso l k).1, if_neg (Ne.symm ne)]) after notAfter)
  obtain ⟨n', last⟩ := last
  rw [turns] at last
  have whole : c.sampleInputs liso [] = { Chip.loopConsentEvent
      { c with lisoStable := n.set l 0, lisoFiltered := c.lisoFiltered.set l (liso.getLsbD l.val) } l
        (liso.getLsbD l.val) with lisoStable := n' } := by
    rw [Chip.sampleInputs, order, List.foldl_append, first, List.foldl_cons, turns]
    exact last
  obtain ⟨v, i, event⟩ := Chip.loopConsentEvent_shape
    { c with lisoStable := n.set l 0, lisoFiltered := c.lisoFiltered.set l (liso.getLsbD l.val) } l (liso.getLsbD l.val)
  refine ⟨?_, ?_, fun k ne => ?_, fun r hr => ?_, ?_, ?_, ?_, ?_, ?_, ?_, ?_⟩
  · rw [(filters l).1, filterLevel, if_pos ⟨other, by omega⟩, pin]
  · rw [(filters l).2, filterCount, if_neg (by omega)]
  · rw [(filters k).1, filterLevel, pins k, if_neg ne]
    exact if_neg fun h => h.1 rfl
  · rw [whole]
    exact Chip.loopConsentEvent_owes _ l _ r hr
  iterate 6 rw [whole, event]; rfl
  · have seconds : (c.sampleInputs liso []).seconds = c.seconds := by rw [whole, event]; rfl
    rw [seconds, ← pin, whole]
    refine (Chip.loopConsentEvent_writer _ l _).trans ?_
    exact if_congr Iff.rfl (Chip.raise_writer_congr _ _ _ rfl rfl) rfl

/-- What an edge with its samples short of the sixteenth leaves: all but the timebase, the counts and what is owed. -/
theorem Chip.refEdge_short (c : Chip) (liso : BitVec 4)
    (short : ∀ k : Loop, liso.getLsbD k.val = c.lisoFiltered[k] ∨ c.lisoStable[k] + 1 < 16) :
    ∃ n m t s x o, c.refEdge liso [] false =
      { c with lisoStable := n, refCount := m, seconds := t, silenceOwed := s, silenceExempt := x, walkOwed := o } := by
  have samples (order : List Loop) (nodup : order.Nodup) (d : Chip)
      (h : ∀ k ∈ order, liso.getLsbD k.val = d.lisoFiltered[k] ∨ d.lisoStable[k] + 1 < 16) :
      ∃ n, order.foldl (fun c l => c.sampleInput liso l) d = { d with lisoStable := n } := by
    induction order generalizing d with
    | nil => exact ⟨_, rfl⟩
    | cons l rest ih =>
      obtain ⟨new, nodup⟩ := List.nodup_cons.1 nodup
      rw [List.foldl_cons, d.sampleInput_short liso l (h l List.mem_cons_self)]
      refine ih nodup _ fun k hk => ?_
      have ne : l.val ≠ k.val := fun e => new (Fin.ext e ▸ hk)
      have kept (x : Nat) : (d.lisoStable.set l x)[k] = d.lisoStable[k] := by
        simp only [Fin.getElem_fin, Vector.getElem_set, if_neg ne]
      show _ = d.lisoFiltered[k] ∨ (d.lisoStable.set l _)[k] + 1 < 16
      rw [kept]
      exact h k (List.mem_cons_of_mem _ hk)
  obtain ⟨m, t, s, x, o, count⟩ := c.countEdge_shape
  obtain ⟨n, e⟩ := samples (sampleOrder []) (sampleOrder_nodup []) c.countEdge
    (by rw [count]; exact fun k _ => short k)
  exact ⟨n, m, t, s, x, o, by rw [show c.refEdge liso [] false = _ from e, count]⟩

/-- A run of edges with the pins held turns the input over at its sixteenth count (R91, log 11). -/
theorem Chip.refEdges_turned (liso : BitVec 4) (l : Loop) (n : Nat) (c : Chip) (pins : c.PinsTurn l liso)
    (h : c.lisoStable[l] + (n + 1) = 16) : c.LoopTurned l (Chip.refEdges liso (n + 1) c) := by
  induction n generalizing c with
  | zero =>
    obtain ⟨m, t, s, x, o, count⟩ := c.countEdge_shape
    have turned : c.countEdge.LoopTurned l (c.countEdge.sampleInputs liso []) :=
      Chip.sampleInputs_turned _ l liso (by rw [count]; exact pins) (by rw [count]; show c.lisoStable[l] = 15; omega)
    rw [count] at turned
    obtain ⟨level, cleared, others, owes, points, plan, mask, zones, slots, mem, writer⟩ := turned
    have last : Chip.refEdges liso 1 c = Chip.sampleInputs
        { c with refCount := m, seconds := t, silenceOwed := s, silenceExempt := x, walkOwed := o } liso [] := by
      rw [← count]; rfl
    rw [last]
    refine ⟨level, cleared, others, owes, points, plan, mask, zones, slots, mem, writer.trans ?_⟩
    exact if_congr Iff.rfl (Chip.raise_writer_congr _ _ _ rfl rfl) rfl
  | succ n ih =>
    have short : ∀ k : Loop, liso.getLsbD k.val = c.lisoFiltered[k] ∨ c.lisoStable[k] + 1 < 16 := fun k => by
      by_cases hk : k = l
      · subst hk
        exact .inr (by omega)
      · exact .inl (by rw [pins k, if_neg hk])
    have counts : (c.refEdge liso [] false).lisoStable[l] = c.lisoStable[l] + 1 := by
      have pin := pins l
      rw [if_pos rfl] at pin
      rw [((c.refEdge_facts liso [] false).1 l).2, filterCount, pin, if_pos ⟨Bool.not_ne_self _, by omega⟩]
    obtain ⟨v, m, t, s, x, o, edge⟩ := c.refEdge_short liso short
    rw [edge] at counts
    have turned := ih { c with lisoStable := v, refCount := m, seconds := t, silenceOwed := s, silenceExempt := x, walkOwed := o }
      pins (by rw [counts]; omega)
    obtain ⟨level, cleared, others, owes, points, plan, mask, zones, slots, mem, writer⟩ := turned
    have rest : Chip.refEdges liso (n + 1 + 1) c = Chip.refEdges liso (n + 1)
        { c with lisoStable := v, refCount := m, seconds := t, silenceOwed := s, silenceExempt := x, walkOwed := o } := by
      rw [← edge]; rfl
    rw [rest]
    refine ⟨level, cleared, others, owes, points, plan, mask, zones, slots, mem, writer.trans ?_⟩
    exact if_congr Iff.rfl (Chip.raise_writer_congr _ _ _ rfl rfl) rfl

/-- The pins of the run are the filtered levels with the loop's turned over. -/
theorem Chip.changePins (c : Chip) (l : Loop) : c.PinsTurn l (c.filteredLevels ^^^ (1#4 <<< l.val)) := by
  have bits : ∀ x3 x2 x1 x0 : Bool,
      let v := BitVec.ofBool x3 ++ BitVec.ofBool x2 ++ BitVec.ofBool x1 ++ BitVec.ofBool x0
      v.getLsbD 0 = x0 ∧ v.getLsbD 1 = x1 ∧ v.getLsbD 2 = x2 ∧ v.getLsbD 3 = x3 := by decide
  have levels (k : Loop) : c.filteredLevels.getLsbD k.val = c.lisoFiltered[k] := by
    obtain ⟨b0, b1, b2, b3⟩ := bits c.lisoFiltered[3] c.lisoFiltered[2] c.lisoFiltered[1] c.lisoFiltered[0]
    match k with
    | 0 => exact b0
    | 1 => exact b1
    | 2 => exact b2
    | 3 => exact b3
  have flip (k : Loop) : (1#4 <<< l.val).getLsbD k.val = decide (k = l) := by
    revert k l
    decide
  intro k
  rw [BitVec.getLsbD_xor, levels, flip]
  by_cases hk : k = l
  · rw [if_pos hk, decide_eq_true hk, Bool.xor_true]
  · rw [if_neg hk, decide_eq_false hk, Bool.xor_false]

/-- Settles O31: the run of edges turns the input over. -/
theorem loopIsolateChangeTurnsTheLevel : Obligations.LoopIsolateChangeTurnsTheLevel := by
  intro s l hpor short
  obtain ⟨n, hn⟩ : ∃ n, 16 - s.chip.lisoStable[l] = n + 1 := ⟨15 - s.chip.lisoStable[l], by omega⟩
  have run : s.chip.changeInput l = Chip.refEdges (s.chip.filteredLevels ^^^ (1#4 <<< l.val)) (n + 1) s.chip := by
    rw [← hn]; rfl
  have turned := Chip.refEdges_turned _ l n s.chip (s.chip.changePins l) (by omega)
  rw [← run] at turned
  obtain ⟨level, cleared, others, owes, points, plan, mask, zones, slots, mem, writer⟩ := turned
  refine ⟨_, s.next_congr (Chip.event_high _ _ hpor), ?_⟩
  simp only [State.withChip, Chip.settle_frame]
  refine ⟨level, cleared, others, owes, points, plan, mask, zones, slots, mem, fun b hb hl => ?_, fun hb => ?_⟩
  · have inLoops : l.val < s.chip.loops := by
      simp only [Chip.loops, hb]
      omega
    have zone : zoneNumber (pseudoZone l) = 97 + l.val := by
      simp only [zoneNumber, pseudoZone]
      omega
    have detail : word (!s.chip.lisoFiltered[l]).toNat = if s.chip.lisoFiltered[l] = true then 0 else 1 := by
      cases s.chip.lisoFiltered[l] <;> rfl
    rw [writer, if_pos inLoops, zone, detail]
    rfl
  · have outside : ¬l.val < s.chip.loops := by
      rcases hb with hb | ⟨b, hb, hl⟩
      · rw [Chip.loops_unbound _ (Chip.binding_of_not_bound hb)]
        omega
      · simp only [Chip.loops, hb]
        omega
    rw [writer, if_neg outside]

end Sys2Proof.Machine
end


-- ==== Sys2Proof/Proofs/ConsentEvents.lean ====
section
/-! SUPPORT. A zone load (R94, R95, R99, R101, R136) and the re-derivations a consent event leaves owed (R97 to R100, R102).
O30 and O33 are settled here. -/

namespace Sys2Proof.Machine

/-! ### Slots under a zone load -/

/-- The slot a zone is linked to is RUNNING or ENDING in it (R127). -/
theorem Chip.linkedSlot_zone (c : Chip) (z : Zone) (k : Fin 4) (h : c.linkedSlot z = some k) :
    ∃ w, c.slots[k] = some w ∧ realZone w.zone = z := by
  have found := List.find?_some h
  cases hk : c.slots[k] with
  | none => rw [hk] at found; cases found
  | some w => exact ⟨w, rfl, by rw [hk] at found; exact beq_iff_eq.1 found⟩

/-- What a slot's record becomes at an end request (R133). -/
def requested (reason : EndReason) (w : WalkSlot) : WalkSlot :=
  if !w.ending && w.reason.isNone then { w with reason := some reason } else w

theorem requested_zone (reason : EndReason) (w : WalkSlot) : (requested reason w).zone = w.zone := by
  unfold requested; split <;> rfl

theorem requested_twice (reason : EndReason) (w : WalkSlot) : requested reason (requested reason w) = requested reason w := by
  by_cases running : (!w.ending && w.reason.isNone) = true
  · rw [show requested reason w = { w with reason := some reason } from if_pos running]
    exact if_neg (by simp)
  · rw [show requested reason w = w from if_neg running]
    exact if_neg running

theorem Chip.requestEnd_slots (c : Chip) (k j : Fin 4) (reason : EndReason) :
    (c.requestEnd k reason).slots[j] = if j = k then c.slots[j].map (requested reason) else c.slots[j] := by
  unfold Chip.requestEnd
  cases hk : c.slots[k] with
  | none =>
    by_cases h : j = k
    · subst h; simp [hk]
    · simp [h]
  | some w =>
    dsimp only
    by_cases running : (!w.ending && w.reason.isNone) = true
    · rw [if_pos running]
      by_cases h : j = k
      · subst h
        rw [if_pos rfl, hk, Option.map_some, requested, if_pos running]
        simp [Chip.setSlot]
      · rw [if_neg h]
        simp [Chip.setSlot, Fin.val_ne_of_ne (Ne.symm h)]
    · rw [if_neg running]
      by_cases h : j = k
      · subst h
        rw [if_pos rfl, hk, Option.map_some, requested, if_neg running]
      · rw [if_neg h]

/-- A zone's link is told by the slots' zones. -/
theorem Chip.linkedSlot_congr {c d : Chip} (h : ∀ k : Fin 4, d.slots[k].map (·.zone) = c.slots[k].map (·.zone)) (z : Zone) :
    d.linkedSlot z = c.linkedSlot z := by
  unfold Chip.linkedSlot
  congr 1
  funext k
  have hk := h k
  cases hd : d.slots[k] <;> cases hc : c.slots[k] <;> rw [hd, hc] at hk <;> simp_all

theorem Chip.isolateZone_linkedSlot (c : Chip) (y : RealZone) (z : Zone) : (c.isolateZone y).linkedSlot z = c.linkedSlot z := by
  refine Chip.linkedSlot_congr (fun k => ?_) z
  unfold Chip.isolateZone
  split
  · split
    · rw [Chip.requestEnd_slots]
      split
      · rw [Option.map_map]
        exact congrArg (Option.map · _) (funext fun w => requested_zone _ w)
      · rfl
    · rfl
  · rfl

/-- A request reaches the slot of its own zone alone. -/
theorem Chip.isolateZone_slot (c : Chip) (y : RealZone) (k : Fin 4) (w : WalkSlot) (hw : c.slots[k] = some w)
    (hy : c.zoneMask.getLsbD y.val = true) :
    (c.isolateZone y).slots[k] = some (if c.linkedSlot (realZone y) = some k then requested .isolated w else w) := by
  rw [Chip.isolateZone, if_pos hy]
  cases hl : c.linkedSlot (realZone y) with
  | none => simpa using hw
  | some j =>
    rw [Chip.requestEnd_slots, hw]
    by_cases hj : k = j
    · subst hj; simp
    · rw [if_neg hj, if_neg (fun h => hj (Option.some.inj h).symm)]

theorem Chip.isolateZone_given (c : Chip) (y : RealZone) (hy : c.zoneMask.getLsbD y.val = false) : c.isolateZone y = c :=
  if_neg (by rw [hy]; decide)

/-- The load's requests reach a RUNNING slot with no reason through its own zone (R99, R136). -/
theorem Chip.isolates_slot (zs : List RealZone) (c : Chip) (z : RealZone) (k : Fin 4) (w : WalkSlot)
    (hz : c.zoneMask.getLsbD z.val = true) (hl : c.linkedSlot (realZone z) = some k) (hw : c.slots[k] = some w) :
    (zs.foldl Chip.isolateZone c).slots[k] = some (if z ∈ zs then requested .isolated w else w) := by
  induction zs generalizing c w with
  | nil => exact hw
  | cons y rest ih =>
    have mask : (c.isolateZone y).zoneMask = c.zoneMask := (c.isolateZone_zones y).2
    have next (w' : WalkSlot) (hw' : (c.isolateZone y).slots[k] = some w') := ih (c.isolateZone y) w' (by rw [mask]; exact hz)
      ((c.isolateZone_linkedSlot y _).trans hl) hw'
    rw [List.foldl_cons]
    by_cases own : y = z
    · subst own
      have moved := c.isolateZone_slot y k w hw hz
      rw [if_pos hl] at moved
      rw [next _ moved, if_pos List.mem_cons_self]
      have twice := requested_twice .isolated w
      rw [twice, ite_self]
    · have kept : (c.isolateZone y).slots[k] = some w := by
        cases hy : c.zoneMask.getLsbD y.val with
        | false => rw [c.isolateZone_given y hy]; exact hw
        | true =>
          rw [c.isolateZone_slot y k w hw hy, if_neg]
          intro both
          obtain ⟨v, hv, zone⟩ := c.linkedSlot_zone _ k hl
          obtain ⟨v', hv', zone'⟩ := c.linkedSlot_zone _ k both
          rw [hv] at hv'
          cases hv'
          exact own (realZone_injective (zone'.symm.trans zone))
      rw [next _ kept]
      simp only [List.mem_cons, Ne.symm own, false_or]

/-! ### The reports of a zone load -/

/-- The report of a zone's change of consent (R101). -/
def zoneReport (mask : BitVec 96) (now : Nat) (z : RealZone) : Report :=
  { kind := .consentChanged, loop := 0, addr := 0, zone := z.val + 1, time := now,
    detailA := if mask.getLsbD z.val = true then 1 else 0, detailB := 2 }

theorem Chip.zoneConsentChange_writer (c : Chip) (z : RealZone) :
    (c.zoneConsentChange z).writer = (c.raise (zoneReport c.zoneMask c.seconds z)).writer := by
  have detail : word (c.zoneMask.getLsbD z.val).toNat = if c.zoneMask.getLsbD z.val = true then 1 else 0 := by
    cases c.zoneMask.getLsbD z.val <;> rfl
  unfold Chip.zoneConsentChange Chip.raiseZone
  dsimp only
  rw [detail]
  exact Chip.raise_writer_congr _ _ _ rfl rfl

/-- The changes raise their reports in the order of the zones. -/
theorem Chip.consentChanges_writer (zs : List RealZone) (c d : Chip) (mask : BitVec 96) (now : Nat)
    (hb : c.bind = d.bind) (hw : c.writer = d.writer) (hm : c.zoneMask = mask) (hs : c.seconds = now) :
    (zs.foldl Chip.zoneConsentChange c).writer = (zs.foldl (fun d z => d.raise (zoneReport mask now z)) d).writer := by
  induction zs generalizing c d with
  | nil => exact hw
  | cons z rest ih =>
    refine ih _ _ ?_ ?_ ((c.zoneConsentChange_zoneMask z).trans hm) ?_
    · simpa [Chip.zoneConsentChange] using hb
    · rw [c.zoneConsentChange_writer z, hm, hs]
      exact Chip.raise_writer_congr _ _ _ hb hw
    · simpa [Chip.zoneConsentChange] using hs

theorem Chip.isolates_writer (zs : List RealZone) (c : Chip) : (zs.foldl Chip.isolateZone c).writer = c.writer :=
  kept_foldl (P := fun d => d.writer = c.writer) _ (fun d z h => by
    unfold Chip.isolateZone
    split
    · split
      · simpa using h
      · exact h
    · exact h) zs c rfl

/-- The slots stand under the changes of consent. -/
theorem Chip.consentChanges_slots (zs : List RealZone) (c : Chip) : (zs.foldl Chip.zoneConsentChange c).slots = c.slots :=
  kept_foldl (P := fun d => d.slots = c.slots) _ (fun d z h => by simpa [Chip.zoneConsentChange] using h) zs c rfl

theorem Chip.loadZones_writer (c : Chip) : c.loadZones.writer =
    ((changedZones c.zoneMask c.shiftRegister).foldl (fun d z => d.raise (zoneReport c.shiftRegister c.seconds z)) c).writer := by
  unfold Chip.loadZones
  exact (Chip.isolates_writer _ _).trans
    (Chip.consentChanges_writer _ { c with zoneMask := c.shiftRegister } c c.shiftRegister c.seconds rfl rfl rfl rfl)

/-- A load asks a RUNNING slot whose zone's consent it withholds to end (R136). -/
theorem Chip.loadZones_slot (c : Chip) (z : RealZone) (k : Fin 4) (w : WalkSlot)
    (old : c.zoneMask.getLsbD z.val = false) (new : c.shiftRegister.getLsbD z.val = true)
    (hl : c.linkedSlot (realZone z) = some k) (hw : c.slots[k] = some w) (running : w.ending = false) (none : w.reason = none) :
    c.loadZones.slots[k] = some { w with reason := some .isolated } := by
  have changed : z ∈ changedZones c.zoneMask c.shiftRegister := (mem_changedZones _ _ _).2 (by rw [old, new]; decide)
  have slots := Chip.consentChanges_slots (changedZones c.zoneMask c.shiftRegister) { c with zoneMask := c.shiftRegister }
  have mask := (Chip.consentChanges_zones (changedZones c.zoneMask c.shiftRegister) { c with zoneMask := c.shiftRegister }).1
  have result := Chip.isolates_slot (changedZones c.zoneMask c.shiftRegister)
    ((changedZones c.zoneMask c.shiftRegister).foldl Chip.zoneConsentChange { c with zoneMask := c.shiftRegister }) z k w
    (by rw [mask]; exact new) ((Chip.linkedSlot_congr (fun j => by rw [slots]) _).trans hl) (by rw [slots]; exact hw)
  rw [if_pos changed, requested, if_pos (by rw [running, none]; rfl)] at result
  unfold Chip.loadZones
  exact result

theorem Chip.oweRederivations_nil (c : Chip) : c.oweRederivations [] = c := by
  simp only [Chip.oweRederivations, List.filter_nil, List.map_nil, List.append_nil]

/-- A load of the mask as it stands changes nothing. -/
theorem Chip.loadZones_same (c : Chip) (h : c.zoneMask = c.shiftRegister) : c.loadZones = c := by
  have unchanged : changedZones c.zoneMask c.shiftRegister = [] := by
    rw [List.eq_nil_iff_forall_not_mem]
    intro z hz
    exact (mem_changedZones _ _ z).1 hz (by rw [h])
  have masked : ({ c with zoneMask := c.shiftRegister } : Chip) = c :=
    congrArg (fun m => ({ c with zoneMask := m } : Chip)) h.symm
  have noRecords : c.recordsOf [] = [] := by simp [Chip.recordsOf]
  unfold Chip.loadZones
  simp only [unchanged, masked, List.foldl_nil, noRecords]
  exact c.oweRederivations_nil

/-- Settles O30: the load's parts by their lemmas. -/
theorem zoneLoadTakesTheRegister : Obligations.ZoneLoadTakesTheRegister := by
  refine ⟨fun s zdat hpor => ⟨(s.chip.shiftChain zdat).shiftRegister, ?_, s.chip.shiftChain_getLsbD_zero zdat,
    fun k hpos hk => s.chip.shiftChain_getLsbD_of_pos zdat hpos hk⟩, fun s hpor => ?_⟩
  · rw [exec_zoneLoad_some, exec_zoneLoad_none, Chip.event_high _ _ hpor]
    exact s.next_congr (Chip.event_high _ _ (by exact hpor)).symm
  · refine ⟨s.withChip s.chip.loadZones.settle, (exec_zoneLoad_none s).trans (s.next_congr (Chip.event_high _ _ hpor)), ?_⟩
    have zones := s.chip.loadZones_zones
    have owes := s.chip.loadZones_owes
    have slots := s.chip.loadZones_slot
    have writer := s.chip.loadZones_writer
    have same := s.chip.loadZones_same
    obtain ⟨z, v, o, w, i, e⟩ := s.chip.loadZones_shape
    simp only [State.withChip, Chip.settle_frame, Chip.zout]
    refine ⟨by rw [e], by rw [e], fun z changed => ⟨?_, fun r hr => ?_⟩, fun z unchanged => ?_,
      fun z k w old new hl hw running none => slots z k w old new hl hw running none, by rw [e], by rw [e], by rw [e],
      by rw [e], fun _ => trivial, by rw [e], writer, fun h => by rw [same h]⟩
    · have member : realZone z ∈ (changedZones s.chip.zoneMask s.chip.shiftRegister).map realZone :=
        List.mem_map_of_mem ((mem_changedZones _ _ _).2 changed)
      rw [zones, if_pos member]
      simp only [maskWithholds_realZone]
    · exact owes r (.inr ⟨z, (mem_changedZones _ _ _).2 changed, hr⟩)
    · have absent : z ∉ (changedZones s.chip.zoneMask s.chip.shiftRegister).map realZone := fun h => by
        obtain ⟨y, hy, rfl⟩ := List.mem_map.1 h
        exact (mem_changedZones _ _ y).1 hy (unchanged y rfl)
      rw [zones, if_neg absent]

/-! ### Owed re-derivations -/

/-- An owed re-derivation is made: its point derived, its entry gone (R98, R99). -/
theorem Chip.makeRederivation_owed (c : Chip) (r : Rec) (h : c.Owes r) : c.makeRederivation r =
    Chip.setPoint { c with rederivations := c.rederivations.filter (fun o => o.point != r) } r (c.derived r c.points[r]) := by
  obtain ⟨o, ho, point⟩ := h
  exact if_pos (List.any_eq_true.2 ⟨o, ho, by rw [point]; exact beq_self_eq_true r⟩)

theorem Chip.makeRederivation_free (c : Chip) (r : Rec) (h : ¬c.Owes r) : c.makeRederivation r = c := by
  refine if_neg fun any => h ?_
  obtain ⟨o, ho, point⟩ := List.any_eq_true.1 any
  exact ⟨o, ho, beq_iff_eq.1 point⟩

theorem Vector.getElem_set_rec {α : Type} (v : Vector α 768) (r i : Rec) (x : α) :
    (v.set r x)[i] = if i = r then x else v[i] := by
  simp only [Fin.getElem_fin, Vector.getElem_set, Fin.ext_iff, eq_comm]

/-- The owed re-derivations of a list of points are made, each once (R99). -/
theorem Chip.makeRederivations_list (rs : List Rec) (c : Chip) : ∃ v : Vector PointRecord 768,
    rs.foldl Chip.makeRederivation c =
      { c with points := v, rederivations := c.rederivations.filter (fun o => decide (o.point ∉ rs)) } ∧
    ∀ r : Rec, (r ∈ rs ∧ c.Owes r → v[r] = c.derived r c.points[r]) ∧ (¬(r ∈ rs ∧ c.Owes r) → v[r] = c.points[r]) := by
  induction rs generalizing c with
  | nil =>
    refine ⟨c.points, ?_, fun r => ⟨fun h => absurd h.1 List.not_mem_nil, fun _ => rfl⟩⟩
    have kept : c.rederivations.filter (fun o => decide (o.point ∉ ([] : List Rec))) = c.rederivations :=
      List.filter_eq_self.2 fun o _ => decide_eq_true List.not_mem_nil
    rw [kept]
    rfl
  | cons q rest ih =>
    rw [List.foldl_cons]
    by_cases owed : c.Owes q
    · rw [c.makeRederivation_owed q owed]
      obtain ⟨v, run, values⟩ := ih (Chip.setPoint
        { c with rederivations := c.rederivations.filter (fun o => o.point != q) } q (c.derived q c.points[q]))
      refine ⟨v, run.trans ?_, fun r => ?_⟩
      · have left : (c.rederivations.filter (fun o => o.point != q)).filter (fun o => decide (o.point ∉ rest)) =
            c.rederivations.filter (fun o => decide (o.point ∉ q :: rest)) := by
          rw [List.filter_filter]
          refine List.filter_congr fun o _ => ?_
          rw [Bool.eq_iff_iff]
          simp [and_comm]
        rw [← left]
        rfl
      · have owes : Chip.Owes (Chip.setPoint
            { c with rederivations := c.rederivations.filter (fun o => o.point != q) } q (c.derived q c.points[q])) r ↔
            c.Owes r ∧ r ≠ q := by
          constructor
          · rintro ⟨o, ho, rfl⟩
            obtain ⟨mem, ne⟩ := List.mem_filter.1 ho
            exact ⟨⟨o, mem, rfl⟩, bne_iff_ne.1 ne⟩
          · rintro ⟨⟨o, mem, rfl⟩, ne⟩
            exact ⟨o, List.mem_filter.2 ⟨mem, bne_iff_ne.2 ne⟩, rfl⟩
        have record := Vector.getElem_set_rec c.points q r (c.derived q c.points[q])
        obtain ⟨made, kept⟩ := values r
        rw [owes] at made kept
        by_cases own : r = q
        · subst own
          rw [if_pos rfl] at record
          refine ⟨fun _ => (kept (by simp)).trans record, fun h => absurd ⟨List.mem_cons_self, owed⟩ h⟩
        · rw [if_neg own] at record
          refine ⟨fun h => (made ⟨(List.mem_cons.1 h.1).resolve_left own, h.2, own⟩).trans ?_,
            fun h => (kept fun g => h ⟨List.mem_cons_of_mem _ g.1, g.2.1⟩).trans record⟩
          exact congrArg (c.derived r) record
    · rw [c.makeRederivation_free q owed]
      obtain ⟨v, run, values⟩ := ih c
      refine ⟨v, run.trans ?_, fun r => ?_⟩
      · have left : c.rederivations.filter (fun o => decide (o.point ∉ rest)) =
            c.rederivations.filter (fun o => decide (o.point ∉ q :: rest)) := by
          refine List.filter_congr fun o ho => ?_
          have ne : o.point ≠ q := fun e => owed ⟨o, ho, e⟩
          rw [Bool.eq_iff_iff]
          simp [ne]
        rw [left]
      · have same : r ∈ q :: rest ∧ c.Owes r ↔ r ∈ rest ∧ c.Owes r := by
          constructor
          · rintro ⟨mem, owes⟩
            exact ⟨(List.mem_cons.1 mem).resolve_left fun e => owed (e ▸ owes), owes⟩
          · rintro ⟨mem, owes⟩
            exact ⟨List.mem_cons_of_mem _ mem, owes⟩
        rw [same]
        exact values r

/-- All the owed re-derivations are made: every point that owes one is derived, and none is owed after (R99). -/
theorem Chip.makeRederivations_all (c : Chip) : ∃ v : Vector PointRecord 768,
    c.makeRederivations true = { c with points := v, rederivations := [] } ∧
    ∀ r : Rec, (c.Owes r → v[r] = c.derived r c.points[r]) ∧ (¬c.Owes r → v[r] = c.points[r]) := by
  obtain ⟨v, run, values⟩ := Chip.makeRederivations_list (c.rederivations.map (·.point)) c
  have member (r : Rec) : r ∈ c.rederivations.map (·.point) ↔ c.Owes r := List.mem_map
  refine ⟨v, ?_, fun r => ?_⟩
  · have none : c.rederivations.filter (fun o => decide (o.point ∉ c.rederivations.map (·.point))) = [] :=
      List.filter_eq_nil_iff.2 fun o ho => by
        rw [decide_eq_true_eq, not_not]
        exact List.mem_map_of_mem ho
    rw [none, List.foldl_map] at run
    rw [← run, Chip.makeRederivations]
    congr 1
    exact List.filter_eq_self.2 fun _ _ => rfl
  · have values := values r
    rw [member, and_self] at values
    exact values

/-- ARMED of a BOUND part's point (R97). -/
theorem Chip.derived_bound (c : Chip) (b : Binding) (hb : c.bind = .bound b) (r : Rec) (p : PointRecord) :
    c.derived r p = { p with
      suppressed := c.suppression r
      armed := decide (c.suppression r = false ∧ (p.state = .matched ∨ p.state = .tested ∨ p.state = .commissioned) ∧
        (p.presence = .live ∨ (p.presence = .silent ∧ b.autoWithdraw = false))) } := by
  have withdraw : c.autoWithdraw = b.autoWithdraw := by rw [Chip.autoWithdraw, hb]
  have state : p.state.armable = decide (p.state = .matched ∨ p.state = .tested ∨ p.state = .commissioned) := by
    cases p.state <;> rfl
  have presence : p.presence.armable b.autoWithdraw =
      decide (p.presence = .live ∨ (p.presence = .silent ∧ b.autoWithdraw = false)) := by
    cases p.presence <;> cases b.autoWithdraw <;> rfl
  have armed : armedOf (c.suppression r) c.autoWithdraw p = decide (c.suppression r = false ∧
      (p.state = .matched ∨ p.state = .tested ∨ p.state = .commissioned) ∧
      (p.presence = .live ∨ (p.presence = .silent ∧ b.autoWithdraw = false))) := by
    rw [armedOf, withdraw, state, presence, Bool.eq_iff_iff]
    simp only [Bool.and_eq_true, Bool.not_eq_true', decide_eq_true_eq, and_assoc]
  rw [Chip.derived, armed]

/-- An ABSENT point is not ARMED (R97). -/
theorem Chip.derived_absent_eq (c : Chip) (r : Rec) (p : PointRecord) (h : p.presence = .absent) :
    c.derived r p = { p with suppressed := c.suppression r, armed := false } := by
  rw [← c.derived_absent r p h]
  rfl

/-- CONSENT_REDERIVATION of one point and of all, the settled record given (R98, R99). -/
theorem exec_consentRederivation (s : State) (hpor : s.chip.porLow = false) (settled : Rec → PointRecord)
    (h : ∀ r, s.chip.Owes r → s.chip.derived r s.chip.points[r] = settled r) :
    (∀ r : Rec, s.chip.Owes r →
      exec (.consentRederivation (.one r)) s = .next (s.withChip (Chip.settle
        (Chip.setPoint { s.chip with rederivations := s.chip.rederivations.filter (fun o => o.point != r) } r (settled r))))) ∧
    ∃ v : Vector PointRecord 768,
      (∀ r : Rec, (s.chip.Owes r → v[r] = settled r) ∧ (¬s.chip.Owes r → v[r] = s.chip.points[r])) ∧
      exec (.consentRederivation .all) s =
        .next (s.withChip (Chip.settle { s.chip with rederivations := [], points := v })) := by
  refine ⟨fun r owed => ?_, ?_⟩
  · have made := s.chip.makeRederivation_owed r owed
    rw [h r owed] at made
    exact s.next_congr ((Chip.event_high _ _ hpor).trans (congrArg Chip.settle made))
  · obtain ⟨v, made, values⟩ := s.chip.makeRederivations_all
    refine ⟨v, fun r => ⟨fun owed => ((values r).1 owed).trans (h r owed), (values r).2⟩, ?_⟩
    exact s.next_congr ((Chip.event_high _ _ hpor).trans (congrArg Chip.settle made))

/-- Settles O33: BOUND and not BOUND by what R97 derives. -/
theorem rederivationSetsSuppressedAndArmed : Obligations.RederivationSetsSuppressedAndArmed := by
  intro s hpor
  exact ⟨fun b hb => exec_consentRederivation s hpor _ fun r _ => s.chip.derived_bound b hb r _,
    fun _ absent => exec_consentRederivation s hpor _ fun r owed => s.chip.derived_absent_eq r _ (absent r owed)⟩

end Sys2Proof.Machine
end


-- ==== Sys2Proof/Proofs/ReplyTables.lean ====
section
/-! SUPPORT. The tables of a good reply's middle steps: the serial step, the class step, the re-derivation of STATE, and the Drift
Monitor (R59 to R62, R78 to R85). O40 and O41 are settled here. -/

namespace Sys2Proof.Machine

/-! ### One point's record -/

@[simp] theorem Chip.setPoint_same (c : Chip) (r : Rec) (p : PointRecord) : (c.setPoint r p).points[r] = p := by
  simp [Chip.setPoint]

theorem Chip.setPoint_other (c : Chip) (r i : Rec) (p : PointRecord) (h : i ≠ r) : (c.setPoint r p).points[i] = c.points[i] := by
  rw [Chip.setPoint, Vector.getElem_set_rec, if_neg h]

@[simp] theorem Chip.setPoint_setPoint (c : Chip) (r : Rec) (p q : PointRecord) :
    (c.setPoint r p).setPoint r q = c.setPoint r q := by
  simp [Chip.setPoint]

@[simp] theorem Chip.setPoint_self (c : Chip) (r : Rec) : c.setPoint r c.points[r] = c := by
  simp [Chip.setPoint]

theorem Chip.modPoint_eq (c : Chip) (r : Rec) (f : PointRecord → PointRecord) : c.modPoint r f = c.setPoint r (f c.points[r]) :=
  rfl

/-! ### The Drift Monitor -/

theorem Chip.latchWithReport_eq (c : Chip) (r : Rec) (f : Flag) (k : ReportKind) (now : Nat) (a b : Word) :
    c.latchWithReport r f k now a b = if c.points[r].flags.getLsbD f.number = true then c
      else (c.setPoint r { c.points[r] with flags := c.points[r].flags ||| (1#8 <<< f.number) }).raisePoint k r now a b := rfl

theorem Chip.sensorCheck_full (c : Chip) (r : Rec) (st : GoodStatus) (analog : BitVec 8) (now : Nat) (h : analog = 255#8) :
    c.sensorCheck r st analog now = c.latchWithReport r .sensor .sensor now (word st.status.code) 0 := if_pos h

theorem Chip.sensorCheck_below (c : Chip) (r : Rec) (st : GoodStatus) (analog : BitVec 8) (now : Nat) (h : analog ≠ 255#8) :
    c.sensorCheck r st analog now = c := if_neg h

/-- The drift run crosses to 16 from 15 exactly at a reading at or above the limit (R82). -/
theorem driftRunAfter_crosses (run analog limit : Nat) :
    run = 15 ∧ driftRunAfter run analog limit = 16 ↔ run = 15 ∧ limit ≤ analog := by
  unfold driftRunAfter
  split <;> omega

/-- The drift check's table (R82, R83). -/
theorem Chip.driftCheck_eq (c : Chip) (r : Rec) (analog : BitVec 8) (code : BitVec 4) (now : Nat) :
    let p := c.points[r]
    let limit := 48 + 4 * code.toNat
    let p' := { p with driftRun := if limit ≤ analog.toNat then min (p.driftRun + 1) 16 else p.driftRun - 1 }
    c.driftCheck r analog code now =
      if p.driftRun = 15 ∧ limit ≤ analog.toNat ∧ p.flags.getLsbD 0 = false then
        (c.setPoint r { p' with flags := p.flags ||| 1#8 }).raisePoint .drift r now (word analog.toNat) (word limit)
      else c.setPoint r p' := by
  intro p limit p'
  have crosses := driftRunAfter_crosses p.driftRun analog.toNat limit
  show (if p.driftRun = 15 ∧ driftRunAfter p.driftRun analog.toNat limit = 16 then
    (c.setPoint r p').latchWithReport r .drift .drift now (word analog.toNat) (word limit) else c.setPoint r p') = _
  by_cases cross : p.driftRun = 15 ∧ limit ≤ analog.toNat
  · rw [if_pos (crosses.2 cross), Chip.latchWithReport_eq, Chip.setPoint_same, Chip.setPoint_setPoint]
    by_cases set : p'.flags.getLsbD Flag.drift.number = true
    · rw [if_pos set, if_neg (fun h => Bool.noConfusion (set.symm.trans h.2.2))]
    · rw [if_neg set, if_pos ⟨cross.1, cross.2, Bool.eq_false_of_not_eq_true set⟩]
      rfl
  · rw [if_neg (fun h => cross (crosses.1 h)), if_neg (fun h => cross ⟨h.1, h.2.1⟩)]

/-- The pre-alarm check's table (R78, R84). -/
theorem Chip.prealarmCheck_eq (c : Chip) (r : Rec) (analog : BitVec 8) (code : BitVec 4) (now : Nat) :
    let p := c.points[r]
    let level := 128 + 6 * code.toNat
    c.prealarmCheck r analog code now =
      if level ≤ analog.toNat ∧ p.prealarmReady = true then
        (c.setPoint r { p with prealarmReady := false, flags := p.flags ||| 2#8 }).raisePoint .prealarm r now
          (word analog.toNat) (word level)
      else if analog.toNat ≤ level - 20 then c.setPoint r { p with prealarmReady := true }
      else c := by
  intro p level
  show (if level ≤ analog.toNat then if p.prealarmReady then _ else c
    else if analog.toNat ≤ level - 20 then _ else c) = _
  by_cases high : level ≤ analog.toNat
  · have notLow : ¬analog.toNat ≤ level - 20 := by omega
    by_cases ready : p.prealarmReady = true
    · rw [if_pos high, if_pos ready, if_pos ⟨high, ready⟩]
      rfl
    · rw [if_pos high, if_neg ready, if_neg (fun h => ready h.2), if_neg notLow]
  · rw [if_neg high, if_neg (c := level ≤ analog.toNat ∧ p.prealarmReady = true) (fun h => high h.1)]
    rfl

/-- Settles O40: each reply's checks, and each check's table. -/
theorem monitorFollowsItsTables : Obligations.MonitorFollowsItsTables := by
  intro c r analog code now
  refine ⟨?_, fun full => ⟨?_, ?_⟩, fun below => ⟨?_, ?_⟩, c.driftCheck_eq r analog code now,
    c.prealarmCheck_eq r analog code now⟩
  · by_cases full : analog = 255#8
    · rw [if_pos full]
      exact Chip.sensorCheck_full _ r .fault analog now full
    · rw [if_neg full]
      exact Chip.sensorCheck_below _ r .fault analog now full
  · exact (if_pos full).trans (Chip.sensorCheck_full _ r .normal analog now full)
  · exact (if_pos full).trans (Chip.sensorCheck_full _ r .alarm analog now full)
  · exact if_neg below
  · exact if_neg below

/-! ### STATE re-derived -/

theorem rederiveState_conflict (old entry : Option PlanEntry) (found : Option (BitVec 3)) (changed : Bool) :
    rederiveState .conflict old entry found changed = .conflict := rfl

/-- Any other point takes the STATE its entry and class give it, unless TESTED is kept (R59). -/
theorem rederiveState_other (before : PointState) (old entry : Option PlanEntry) (found : Option (BitVec 3)) (changed : Bool)
    (hc : before ≠ .conflict)
    (ht : ¬(before = .tested ∧ sameClassAndZone old entry = true ∧ changed = false ∧ stateFor entry found = .matched)) :
    rederiveState before old entry found changed = stateFor entry found :=
  (if_neg hc).trans (if_neg ht)

theorem stateFor_matched (e : PlanEntry) : stateFor (some e) (some e.cls) = .matched := if_pos rfl

theorem stateFor_mismatch (e : PlanEntry) (f : BitVec 3) (h : f ≠ e.cls) : stateFor (some e) (some f) = .mismatch := if_neg h

theorem sameClassAndZone_iff (old : Option PlanEntry) (e : PlanEntry) :
    sameClassAndZone old (some e) = true ↔ ∃ d, old = some d ∧ d.cls = e.cls ∧ d.zone = e.zone := by
  cases old with
  | none => simp [sameClassAndZone]
  | some d => simp [sameClassAndZone]

/-- The re-derivation table (R59). -/
theorem rederiveState_table (before : PointState) (old _entry : Option PlanEntry) (_found : Option (BitVec 3)) (changed : Bool)
    (e : PlanEntry) (f : BitVec 3) :
    (before ≠ .conflict →
       rederiveState before old none none changed = .vacant ∧
       rederiveState before old none (some f) changed = .unplanned ∧
       rederiveState before old (some e) none changed = .expected ∧
       (f ≠ e.cls → rederiveState before old (some e) (some f) changed = .mismatch)) ∧
     (∀ d, old = some d → d.cls = e.cls → d.zone = e.zone →
       rederiveState .tested old (some e) (some e.cls) false = .tested) ∧
     (before ≠ .conflict → before ≠ .tested →
       rederiveState before old (some e) (some e.cls) changed = .matched) ∧
     (rederiveState .tested old (some e) (some e.cls) true = .matched) ∧
     ((∀ d, old = some d → d.cls ≠ e.cls ∨ d.zone ≠ e.zone) →
       rederiveState .tested old (some e) (some e.cls) changed = .matched) := by
  refine ⟨fun hc => ⟨?_, ?_, ?_, fun hf => ?_⟩, fun d hd hcls hzone => ?_, fun hc ht => ?_, ?_, fun differ => ?_⟩
  · exact rederiveState_other before old none none changed hc fun h => nomatch h.2.2.2
  · exact rederiveState_other before old none (some f) changed hc fun h => nomatch h.2.2.2
  · exact rederiveState_other before old (some e) none changed hc fun h => nomatch h.2.2.2
  · rw [rederiveState_other before old (some e) (some f) changed hc fun h => ?_, stateFor_mismatch e f hf]
    rw [stateFor_mismatch e f hf] at h
    exact nomatch h.2.2.2
  · exact (if_neg (by decide)).trans
      (if_pos ⟨rfl, (sameClassAndZone_iff old e).2 ⟨d, hd, hcls, hzone⟩, rfl, stateFor_matched e⟩)
  · rw [rederiveState_other before old _ _ changed hc fun h => ht h.1, stateFor_matched]
  · rw [rederiveState_other .tested old _ _ true (by decide) (fun h => nomatch h.2.2.1), stateFor_matched]
  · rw [rederiveState_other .tested old _ _ changed (by decide) fun h => ?_, stateFor_matched]
    obtain ⟨d, hd, hcls, hzone⟩ := (sameClassAndZone_iff old e).1 h.2.1
    exact (differ d hd).elim (fun g => g hcls) (fun g => g hzone)

/-! ### The class step -/

/-- The STATE of a point whose class a reply brings or changes (R60). -/
def seenState (before : PointState) (entry : Option PlanEntry) (cls : BitVec 3) : PointState :=
  if before = .conflict then .conflict
  else match entry with
    | none => .unplanned
    | some e => if cls = e.cls then .matched else .mismatch

theorem rederiveState_seen (before : PointState) (entry : Option PlanEntry) (cls : BitVec 3) :
    rederiveState before entry entry (some cls) true = seenState before entry cls := by
  by_cases hc : before = .conflict
  · rw [hc]; rfl
  · rw [rederiveState_other before entry entry _ true hc (fun h => nomatch h.2.2.1)]
    cases entry <;> exact (if_neg hc).symm

theorem seenState_mismatch {before : PointState} {entry : Option PlanEntry} {cls : BitVec 3}
    (h : seenState before entry cls = .mismatch) : ∃ e, entry = some e := by
  unfold seenState at h
  split at h
  · cases h
  · cases entry with
    | none => cases h
    | some e => exact ⟨e, rfl⟩

/-- The chip after FOUND of a first sighting (R60). -/
def Chip.sighted (c : Chip) (r : Rec) (cls : BitVec 3) (now : Nat) : Chip :=
  (c.setPoint r { c.points[r] with
    foundClass := some cls, state := seenState c.points[r].state c.plan[r] cls }).raisePoint .found r now
      (word cls.toNat) (c.points[r].firstSerial.getD 0)

theorem Chip.firstSighting_eq (c : Chip) (r : Rec) (cls : BitVec 3) (now : Nat) :
    c.firstSighting r cls now =
      match seenState c.points[r].state c.plan[r] cls, c.plan[r] with
      | .mismatch, some e => (c.sighted r cls now).raisePoint .mismatch r now (word cls.toNat) (word e.cls.toNat)
      | _, _ => c.sighted r cls now := by
  have record : (c.sighted r cls now).points[r] = { c.points[r] with
      foundClass := some cls, state := seenState c.points[r].state c.plan[r] cls } := by
    simp [Chip.sighted]
  have sighted : Chip.raisePoint (c.modPoint r fun p =>
      { p with foundClass := some cls, state := rederiveState p.state c.plan[r] c.plan[r] (some cls) true }) .found r now
        (word cls.toNat) (((c.modPoint r fun p => { p with
          foundClass := some cls, state := rederiveState p.state c.plan[r] c.plan[r] (some cls) true }).points[r]).firstSerial.getD
            0) = c.sighted r cls now := by
    rw [Chip.modPoint_eq, Chip.setPoint_same, rederiveState_seen]
    rfl
  unfold Chip.firstSighting
  dsimp only
  rw [sighted, record] <;> rfl

theorem Chip.classStep_first (c : Chip) (r : Rec) (cls : BitVec 3) (now : Nat) (h : c.points[r].foundClass = none) :
    c.classStep r cls now = c.firstSighting r cls now := by
  unfold Chip.classStep
  rw [h]

/-- A first sighting that brings no MISMATCH raises FOUND alone. -/
theorem Chip.classStep_found (c : Chip) (r : Rec) (cls : BitVec 3) (now : Nat) (h : c.points[r].foundClass = none)
    (seen : seenState c.points[r].state c.plan[r] cls ≠ .mismatch) : c.classStep r cls now = c.sighted r cls now := by
  rw [c.classStep_first r cls now h, c.firstSighting_eq r cls now]
  split
  · rename_i mismatch _
    exact absurd mismatch seen
  · rfl

/-- One that brings it raises MISMATCH after FOUND. -/
theorem Chip.classStep_mismatch (c : Chip) (r : Rec) (cls : BitVec 3) (now : Nat) (e : PlanEntry)
    (h : c.points[r].foundClass = none) (seen : seenState c.points[r].state c.plan[r] cls = .mismatch)
    (plan : c.plan[r] = some e) :
    c.classStep r cls now = (c.sighted r cls now).raisePoint .mismatch r now (word cls.toNat) (word e.cls.toNat) := by
  rw [c.classStep_first r cls now h, c.firstSighting_eq r cls now, seen, plan]

theorem Chip.classStep_same (c : Chip) (r : Rec) (cls : BitVec 3) (now : Nat) (h : c.points[r].foundClass = some cls) :
    c.classStep r cls now = c := by
  unfold Chip.classStep
  rw [h]
  exact if_pos rfl

/-- A changed class latches its flag, raises its report and re-derives STATE, COMMISSIONED becoming CONFLICT (R60). -/
theorem Chip.classStep_change (c : Chip) (r : Rec) (cls was : BitVec 3) (now : Nat) (h : c.points[r].foundClass = some was)
    (ne : was ≠ cls) :
    c.classStep r cls now =
      (c.setPoint r { c.points[r] with
        foundClass := some cls, flags := c.points[r].flags ||| 0x80#8
        state := if c.points[r].state = .commissioned then .conflict
                 else seenState c.points[r].state c.plan[r] cls }).raisePoint .classChanged r now
        (word was.toNat) (word cls.toNat) := by
  have change : c.classStep r cls now = c.classChange r was cls now := by
    unfold Chip.classStep
    rw [h]
    exact if_neg ne
  rw [change, Chip.classChange_eq, Chip.modPoint_eq, rederiveState_seen]
  rfl

/-! ### The serial step -/

theorem Chip.serialStep_first (c : Chip) (r : Rec) (v : Word) (now : Nat) (h : c.points[r].firstSerial = none) :
    c.serialStep r (.present v) now = c.setPoint r { c.points[r] with firstSerial := some v } := by
  show c.serialPresent r v now = _
  unfold Chip.serialPresent
  dsimp only
  rw [h]
  rfl

/-- An event with a serial at a point that has one, by the serial it has and the second (R61). -/
theorem Chip.serialStep_again (c : Chip) (r : Rec) (v f : Word) (now : Nat) (h : c.points[r].firstSerial = some f) :
    c.serialStep r (.present v) now =
      if v = f then c
      else if c.points[r].secondSerial = some v then c
      else if c.points[r].secondSerial.isSome then
        (c.setPoint r { c.points[r] with secondSerial := some v }).raisePoint .conflict r now 1 v
      else (c.setPoint r { c.points[r] with secondSerial := some v, state := .conflict }).raisePoint .conflict r now 1 v := by
  show c.serialPresent r v now = _
  unfold Chip.serialPresent
  dsimp only
  split
  · rename_i none
    exact nomatch h.symm.trans none
  · rename_i g some
    cases h.symm.trans some
    rfl

/-- Settles O41: the three steps' tables by their lemmas. -/
theorem serialClassAndStateFollowTheirTables : Obligations.SerialClassAndStateFollowTheirTables := by
  refine ⟨fun c r now => ⟨rfl, rfl, fun h => rfl⟩, fun c r cls now => ?_, fun c r v f now => ?_,
    fun before old entry found changed e f => ⟨rfl, rederiveState_table before old entry found changed e f⟩⟩
  · exact ⟨fun first seen => c.classStep_found r cls now first seen,
      fun e first seen plan => c.classStep_mismatch r cls now e first seen plan, c.classStep_same r cls now,
      fun was h ne => c.classStep_change r cls was now h ne⟩
  · refine ⟨c.serialStep_first r v now, fun h => ?_, fun h ne second => ?_, fun h ne second => ?_,
      fun g h ne second other => ?_⟩
    · rw [c.serialStep_again r v v now h, if_pos rfl]
    · exact (c.serialStep_again r v f now h).trans ((if_neg ne).trans ((if_neg (by rw [second]; exact nofun)).trans
        (if_neg (by rw [second]; exact nofun))))
    · rw [c.serialStep_again r v f now h, if_neg ne, if_pos second]
    · exact (c.serialStep_again r v f now h).trans ((if_neg ne).trans
        ((if_neg (by rw [second]; exact fun e => other (Option.some.inj e).symm)).trans (if_pos (by rw [second]; rfl))))

end Sys2Proof.Machine
end


-- ==== Sys2Proof/Proofs/ReplyOrder.lean ====
section
/-! SUPPORT. What comes before a reply event, and the events without a good reply (R58, R63, R65 to R67, R70, R99). O34 and O39 are
settled here. -/

namespace Sys2Proof.Machine

/-! ### Reports raised beside changes of the tables -/

/-- A row of reports raised. -/
def Chip.raises (xs : List Report) (c : Chip) : Chip := xs.foldl Chip.raise c

/-- Reports look at nothing of the points and of what is owed, and leave it. -/
theorem Chip.raise_beside (c : Chip) (x : Report) (p : Vector PointRecord 768) (o : List OwedRederivation) (q : List Rec) :
    Chip.raise { c with points := p, rederivations := o, silenceOwed := q } x =
      { c.raise x with points := p, rederivations := o, silenceOwed := q } := by
  obtain ⟨hw, hi⟩ := Chip.raise_congr { c with points := p, rederivations := o, silenceOwed := q } c x rfl rfl rfl
  rw [Chip.raise_eq, hw, hi, Chip.raise_eq c]

theorem Chip.raises_beside (xs : List Report) (c : Chip) (p : Vector PointRecord 768) (o : List OwedRederivation)
    (q : List Rec) :
    Chip.raises xs { c with points := p, rederivations := o, silenceOwed := q } =
      { Chip.raises xs c with points := p, rederivations := o, silenceOwed := q } := by
  induction xs generalizing c with
  | nil => rfl
  | cons x rest ih =>
    show Chip.raises rest (Chip.raise _ x) = _
    rw [c.raise_beside x p o q, ih]
    rfl

theorem Chip.raises_eq (xs : List Report) (c : Chip) :
    ∃ w i, Chip.raises xs c = { c with writer := w, im := i } := by
  induction xs generalizing c with
  | nil => exact ⟨_, _, rfl⟩
  | cons x rest ih =>
    obtain ⟨w, i, e⟩ := c.raise_shape x
    obtain ⟨w', i', e'⟩ := ih (c.raise x)
    exact ⟨w', i', by rw [show Chip.raises (x :: rest) c = Chip.raises rest (c.raise x) from rfl, e', e]⟩

/-- Deriving looks at the consents, the plan and the binding. -/
theorem Chip.derived_raise (c : Chip) (x : Report) (r : Rec) (p : PointRecord) : (c.raise x).derived r p = c.derived r p := by
  rw [c.raise_eq x]
  rfl

/-! ### A silence test -/

/-- The SILENT report of a point by the timeout path (R67, R68). -/
def Chip.silenceReport (c : Chip) (r : Rec) : Report :=
  { kind := .silent, loop := loopNumber r, addr := addressNumber r, zone := zoneNumber (c.zoneOf r), time := c.seconds,
    detailA := 2, detailB := word c.points[r].lastGood }

/-- A point whose test now makes it SILENT (R66). -/
def Chip.expires (c : Chip) (r : Rec) : Bool :=
  decide (c.points[r].presence = .live ∧ c.silenceTimeout ≤ c.seconds - c.points[r].lastGood)

/-- A point gone SILENT: its flag, and its fields derived (R67). -/
def Chip.silenced (c : Chip) (r : Rec) : PointRecord :=
  c.derived r { c.points[r] with presence := .silent, flags := c.points[r].flags ||| 0x10#8 }

theorem Chip.silenceTest_expired (c : Chip) (r : Rec) (h : c.expires r = true) :
    c.silenceTest r = (c.raise (c.silenceReport r)).setPoint r (c.silenced r) := by
  have moved : c.silenceTest r = Chip.rederive (Chip.raisePoint (c.modPoint r fun p => { p with presence := .silent }.latch
      .silenced) .silent r c.seconds (word 2) (word c.points[r].lastGood)) r :=
    if_pos (of_decide_eq_true h)
  rw [moved, Chip.modPoint_raisePoint, Chip.rederive, Chip.modPoint_modPoint, Chip.modPoint_eq]
  have raised : c.raisePoint .silent r c.seconds (word 2) (word c.points[r].lastGood) = c.raise (c.silenceReport r) := rfl
  have points : (c.raise (c.silenceReport r)).points = c.points := by rw [Chip.raise_eq]
  have derives (p : PointRecord) (f : PointRecord → PointRecord) :
      ((c.raise (c.silenceReport r)).modPoint r f).derived r p = c.derived r p :=
    Chip.derived_raise c (c.silenceReport r) r p
  rw [raised, Function.comp, derives, points]
  rfl

theorem Chip.silenceTest_kept (c : Chip) (r : Rec) (h : c.expires r = false) : c.silenceTest r = c :=
  if_neg (of_decide_eq_false h)

theorem Chip.makeSilenceTest_owed (c : Chip) (r : Rec) (h : r ∈ c.silenceOwed) :
    c.makeSilenceTest r = Chip.silenceTest { c with silenceOwed := c.silenceOwed.filter (· != r) } r :=
  if_pos (List.contains_iff_mem.2 h)

theorem Chip.makeSilenceTest_free (c : Chip) (r : Rec) (h : r ∉ c.silenceOwed) : c.makeSilenceTest r = c :=
  if_neg fun g => h (List.contains_iff_mem.1 g)

/-! ### The owed silence tests -/

/-- An owed test of a point that expires. -/
def Chip.silenceDue (c : Chip) (r : Rec) : Bool := decide (r ∈ c.silenceOwed) && c.expires r

/-- An owed test of an expired point makes it SILENT with its report. -/
theorem Chip.makeSilenceTest_due (c : Chip) (r : Rec) (h : c.silenceDue r = true) :
    c.makeSilenceTest r =
      { c.raise (c.silenceReport r) with
        points := c.points.set r (c.silenced r), rederivations := c.rederivations
        silenceOwed := c.silenceOwed.filter (· != r) } := by
  obtain ⟨owed, expired⟩ := Bool.and_eq_true_iff.1 h
  rw [c.makeSilenceTest_owed r (of_decide_eq_true owed), Chip.silenceTest_expired _ r (by exact expired)]
  have beside := c.raise_beside (c.silenceReport r) c.points c.rederivations (c.silenceOwed.filter (· != r))
  have raised : Chip.raise { c with silenceOwed := c.silenceOwed.filter (· != r) }
      (Chip.silenceReport { c with silenceOwed := c.silenceOwed.filter (· != r) } r) =
      { c.raise (c.silenceReport r) with
        points := c.points, rederivations := c.rederivations, silenceOwed := c.silenceOwed.filter (· != r) } := beside
  rw [raised]
  rfl

/-- Any other test takes the point from what is owed alone. -/
theorem Chip.makeSilenceTest_other (c : Chip) (r : Rec) (h : c.silenceDue r = false) :
    c.makeSilenceTest r = { c with silenceOwed := c.silenceOwed.filter (· != r) } := by
  by_cases owed : r ∈ c.silenceOwed
  · have kept : c.expires r = false := by
      rw [Chip.silenceDue, decide_eq_true owed, Bool.true_and] at h
      exact h
    rw [c.makeSilenceTest_owed r owed, Chip.silenceTest_kept _ r (by exact kept)]
  · rw [c.makeSilenceTest_free r owed]
    have all : c.silenceOwed.filter (· != r) = c.silenceOwed :=
      List.filter_eq_self.2 fun x hx => bne_iff_ne.2 fun e => owed (e ▸ hx)
    rw [all]

/-- A row's first entry left out, then the rest. -/
theorem List.filter_not_mem_cons {α : Type} [DecidableEq α] (l t : List α) (q : α) :
    (l.filter (· != q)).filter (fun r => decide (r ∉ t)) = l.filter (fun r => decide (r ∉ q :: t)) := by
  rw [List.filter_filter]
  refine List.filter_congr fun r _ => ?_
  rw [Bool.eq_iff_iff]
  simp [and_comm]

/-- After a test of `q` the others are owed and expire as before. -/
theorem Chip.silenceDue_after (c d : Chip) (q : Rec) (owed : d.silenceOwed = c.silenceOwed.filter (· != q))
    (points : ∀ r, r ≠ q → d.points[r] = c.points[r]) (timeout : d.silenceTimeout = c.silenceTimeout)
    (seconds : d.seconds = c.seconds) (r : Rec) : d.silenceDue r = (c.silenceDue r && (r != q)) := by
  by_cases own : r = q
  · subst own
    have gone : r ∉ d.silenceOwed := by
      rw [owed]
      exact fun h => bne_iff_ne.1 (List.mem_filter.1 h).2 rfl
    rw [Chip.silenceDue, decide_eq_false gone, Bool.false_and, bne_self_eq_false, Bool.and_false]
  · have same : r ∈ d.silenceOwed ↔ r ∈ c.silenceOwed := by
      rw [owed, List.mem_filter, bne_iff_ne]
      exact ⟨fun h => h.1, fun h => ⟨h, own⟩⟩
    rw [Chip.silenceDue, Chip.silenceDue, decide_eq_decide.2 same, Chip.expires, Chip.expires, points r own, timeout, seconds,
      bne_iff_ne.2 own, Bool.and_true]

/-- A row of silence tests: each owed and expired point goes SILENT, once, with its report in the row's order (R66, R67). -/
theorem Chip.makeSilenceTests_list (rs : List Rec) (c : Chip) : ∃ v : Vector PointRecord 768,
    rs.foldl Chip.makeSilenceTest c =
      { Chip.raises ((rs.filter c.silenceDue).eraseDups.map c.silenceReport) c with
        points := v, rederivations := c.rederivations, silenceOwed := c.silenceOwed.filter (fun r => decide (r ∉ rs)) } ∧
    ∀ r : Rec, (r ∈ rs ∧ c.silenceDue r = true → v[r] = c.silenced r) ∧
      (¬(r ∈ rs ∧ c.silenceDue r = true) → v[r] = c.points[r]) := by
  induction rs generalizing c with
  | nil =>
    refine ⟨c.points, ?_, fun r => ⟨fun h => absurd h.1 List.not_mem_nil, fun _ => rfl⟩⟩
    have kept : c.silenceOwed.filter (fun r => decide (r ∉ ([] : List Rec))) = c.silenceOwed :=
      List.filter_eq_self.2 fun o _ => decide_eq_true List.not_mem_nil
    rw [kept]
    rfl
  | cons q rest ih =>
    rw [List.foldl_cons]
    cases due : c.silenceDue q with
    | true =>
      rw [c.makeSilenceTest_due q due]
      set d : Chip := { c.raise (c.silenceReport q) with
        points := c.points.set q (c.silenced q), rederivations := c.rederivations
        silenceOwed := c.silenceOwed.filter (· != q) } with hd
      have frame : d.plan = c.plan ∧ d.seconds = c.seconds ∧ d.bind = c.bind ∧ d.lisoFiltered = c.lisoFiltered ∧
          d.zoneMask = c.zoneMask := by rw [hd, c.raise_eq]; exact ⟨rfl, rfl, rfl, rfl, rfl⟩
      obtain ⟨plan, seconds, bind, liso, mask⟩ := frame
      have record (r : Rec) : d.points[r] = if r = q then c.silenced q else c.points[r] :=
        Vector.getElem_set_rec c.points q r (c.silenced q)
      have dues := c.silenceDue_after d q rfl (fun r ne => by rw [record, if_neg ne])
        (by unfold Chip.silenceTimeout; rw [bind]) seconds
      obtain ⟨v, run, values⟩ := ih d
      refine ⟨v, run.trans ?_, fun r => ?_⟩
      · have row : ((q :: rest).filter c.silenceDue).eraseDups = q :: (rest.filter d.silenceDue).eraseDups := by
          rw [List.filter_cons_of_pos due, List.eraseDups_cons, List.filter_filter]
          congr 2
          refine List.filter_congr fun r _ => ?_
          rw [dues, Bool.and_comm]
          rfl
        have reports : (rest.filter d.silenceDue).eraseDups.map d.silenceReport =
            (rest.filter d.silenceDue).eraseDups.map c.silenceReport := by
          refine List.map_congr_left fun r hr => ?_
          have member := (List.mem_filter.1 (List.mem_eraseDups.1 hr)).2
          rw [dues, Bool.and_eq_true, bne_iff_ne] at member
          rw [Chip.silenceReport, Chip.silenceReport, record, if_neg member.2, seconds, Chip.zoneOf, Chip.zoneOf, plan]
        rw [row, reports, List.map_cons, hd, Chip.raises_beside]
        have left := List.filter_not_mem_cons c.silenceOwed rest q
        simp only [left]
        rfl
      · have silenced (ne : r ≠ q) : d.silenced r = c.silenced r := by
          rw [Chip.silenced, Chip.silenced, record, if_neg ne, Chip.derived, Chip.derived,
            Chip.suppression_congr plan liso mask r, Chip.autoWithdraw, Chip.autoWithdraw, bind]
        obtain ⟨made, kept⟩ := values r
        rw [dues] at made kept
        by_cases own : r = q
        · subst own
          refine ⟨fun _ => (kept (by simp)).trans ((record r).trans (if_pos rfl)), fun h => absurd ⟨List.mem_cons_self, due⟩ h⟩
        · refine ⟨fun h => (made ⟨(List.mem_cons.1 h.1).resolve_left own, by simp [h.2, own]⟩).trans (silenced own),
            fun h => (kept fun g => h ⟨List.mem_cons_of_mem _ g.1, ?_⟩).trans ((record r).trans (if_neg own))⟩
          exact (Bool.and_eq_true_iff.1 g.2).1
    | false =>
      rw [c.makeSilenceTest_other q due]
      have dues (r : Rec) : Chip.silenceDue { c with silenceOwed := c.silenceOwed.filter (· != q) } r = c.silenceDue r := by
        rw [c.silenceDue_after { c with silenceOwed := c.silenceOwed.filter (· != q) } q rfl (fun _ _ => rfl) rfl rfl r]
        by_cases own : r = q
        · rw [own, due, Bool.false_and]
        · rw [bne_iff_ne.2 own, Bool.and_true]
      obtain ⟨v, run, values⟩ := ih { c with silenceOwed := c.silenceOwed.filter (· != q) }
      refine ⟨v, run.trans ?_, fun r => ?_⟩
      · have row : (q :: rest).filter c.silenceDue =
            rest.filter (Chip.silenceDue { c with silenceOwed := c.silenceOwed.filter (· != q) }) := by
          rw [List.filter_cons_of_neg (by rw [due]; decide)]
          exact List.filter_congr fun r _ => (dues r).symm
        have beside := Chip.raises_beside (((q :: rest).filter c.silenceDue).eraseDups.map c.silenceReport) c c.points
          c.rederivations (c.silenceOwed.filter (· != q))
        have left := List.filter_not_mem_cons c.silenceOwed rest q
        rw [← row, ← left]
        exact congrArg (fun d : Chip => { d with
          points := v, rederivations := c.rederivations
          silenceOwed := (c.silenceOwed.filter (· != q)).filter (fun r => decide (r ∉ rest)) }) beside
      · have member : r ∈ q :: rest ∧ c.silenceDue r = true ↔ r ∈ rest ∧ c.silenceDue r = true := by
          constructor
          · rintro ⟨mem, h⟩
            refine ⟨(List.mem_cons.1 mem).resolve_left fun e => ?_, h⟩
            rw [e, due] at h
            cases h
          · exact fun h => ⟨List.mem_cons_of_mem _ h.1, h.2⟩
        obtain ⟨made, kept⟩ := values r
        rw [dues, ← member] at made kept
        exact ⟨made, kept⟩

/-- All the owed tests are made, and none is owed after (R66). -/
theorem Chip.makeAllSilenceTests_eq (c : Chip) : ∃ v : Vector PointRecord 768,
    c.makeAllSilenceTests =
      { Chip.raises ((c.silenceOwed.filter c.expires).eraseDups.map c.silenceReport) c with
        points := v, rederivations := c.rederivations, silenceOwed := [] } ∧
    ∀ r : Rec, (r ∈ c.silenceOwed ∧ c.expires r = true → v[r] = c.silenced r) ∧
      (¬(r ∈ c.silenceOwed ∧ c.expires r = true) → v[r] = c.points[r]) := by
  obtain ⟨v, run, values⟩ := Chip.makeSilenceTests_list c.silenceOwed c
  have none : c.silenceOwed.filter (fun r => decide (r ∉ c.silenceOwed)) = [] :=
    List.filter_eq_nil_iff.2 fun r hr => by rw [decide_eq_true_eq, not_not]; exact hr
  have row : c.silenceOwed.filter c.silenceDue = c.silenceOwed.filter c.expires :=
    List.filter_congr fun r hr => by rw [Chip.silenceDue, decide_eq_true hr, Bool.true_and]
  have member (r : Rec) : r ∈ c.silenceOwed ∧ c.silenceDue r = true ↔ r ∈ c.silenceOwed ∧ c.expires r = true :=
    and_congr_right fun hr => by rw [Chip.silenceDue, decide_eq_true hr, Bool.true_and]
  rw [none, row] at run
  refine ⟨v, run, fun r => ?_⟩
  rw [← member]
  exact values r

/-! ### SILENCE_EXPIRY -/

theorem Chip.silenceTimeout_bound (c : Chip) (b : Binding) (hb : c.bind = .bound b) : c.silenceTimeout = b.silenceTimeout := by
  rw [Chip.silenceTimeout, hb]

theorem Chip.expires_bound (c : Chip) (b : Binding) (hb : c.bind = .bound b) (r : Rec) :
    c.expires r = true ↔ c.points[r].presence = .live ∧ b.silenceTimeout ≤ c.seconds - c.points[r].lastGood := by
  rw [Chip.expires, c.silenceTimeout_bound b hb, decide_eq_true_eq]

/-- Settles O39: the tests of a row and of one record. -/
theorem silenceExpiryTestsThePoint : Obligations.SilenceExpiryTestsThePoint := by
  refine ⟨fun s b hpor hb idle => ?_, fun s which hpor busy => ?_, fun s r b hpor hb idle owed => ?_⟩
  · obtain ⟨v, run, values⟩ := s.chip.makeAllSilenceTests_eq
    obtain ⟨w, i, raised⟩ := Chip.raises_eq ((s.chip.silenceOwed.filter s.chip.expires).eraseDups.map s.chip.silenceReport) s.chip
    rw [raised] at run
    have moved : (fun c : Chip => if c.stretching then c else c.makeAllSilenceTests) s.chip =
        { s.chip with writer := w, im := i, points := v, silenceOwed := [] } :=
      (if_neg (by rw [idle]; decide)).trans run
    refine ⟨_, s.next_congr ((Chip.event_high _ _ hpor).trans (congrArg Chip.settle moved)), ?_⟩
    simp only [State.withChip, Chip.settle_frame]
    refine ⟨trivial, fun r => ?_, trivial, trivial, trivial⟩
    have expired := and_congr_right (a := r ∈ s.chip.silenceOwed) fun _ => s.chip.expires_bound b hb r
    by_cases h : r ∈ s.chip.silenceOwed ∧ s.chip.expires r = true
    · exact ((values r).1 h).trans (if_pos (expired.1 h)).symm
    · exact ((values r).2 h).trans (if_neg fun g => h (expired.2 g)).symm
  · exact s.next_congr ((Chip.event_high _ _ hpor).trans (congrArg Chip.settle (if_pos busy)))
  · have test := s.chip.makeSilenceTest_owed r owed
    have running : ¬s.chip.stretching = true := by rw [idle]; decide
    refine ⟨fun live old => ?_, fun kept => ?_⟩
    · refine s.next_congr ((Chip.event_high _ _ hpor).trans (congrArg Chip.settle ((if_neg running).trans (test.trans ?_))))
      exact if_pos ⟨live, by rw [Chip.silenceTimeout_bound _ b (by exact hb)]; exact old⟩
    · refine s.next_congr ((Chip.event_high _ _ hpor).trans (congrArg Chip.settle ((if_neg running).trans (test.trans ?_))))
      exact if_neg fun h => kept (by rw [Chip.silenceTimeout_bound _ b (by exact hb)] at h; exact h)

/-! ### The head reply event -/

/-- Nothing precedes the head event (R66, R99). -/
theorem Chip.HeadReply.makeOwedBeforeReply {c : Chip} {e : ReplyEvent} {rest : List ReplyEvent} (h : c.HeadReply e rest) :
    c.makeOwedBeforeReply = c := by
  have none : c.rederivations.filter (fun o => false || o.exempt == 0) = [] :=
    List.filter_eq_nil_iff.2 fun o ho => by
      have := h.noRederivation o ho
      simp only [Bool.false_or, beq_iff_eq]
      omega
  have settled : c.makeRederivations false = c := by rw [Chip.makeRederivations, none]; rfl
  show (if (c.makeRederivations false).silenceExempt = 0 then _ else _) = _
  rw [settled]
  split
  · rename_i zero
    have nothing := h.noSilence.resolve_right (by omega)
    rw [Chip.makeAllSilenceTests, nothing]
    rfl
  · rfl

/-- REPLY_EVENT with nothing before the head event takes it (R55, R57). -/
theorem Chip.HeadReply.takeReply {c : Chip} {e : ReplyEvent} {rest : List ReplyEvent} (h : c.HeadReply e rest) :
    c.takeReply = (c.taken rest).processReply e := by
  unfold Chip.takeReply
  rw [h.head]
  exact (if_neg (by rw [h.noStretch]; decide)).trans (by rw [h.makeOwedBeforeReply]; rfl)

theorem exec_replyEvent (s : State) (hpor : s.chip.porLow = false) {d : Chip} (h : s.chip.takeReply = d) :
    exec .replyEvent s = .next (s.withChip d.settle) :=
  s.next_congr ((Chip.event_high _ _ hpor).trans (congrArg Chip.settle h))

/-- While a stretch runs, or with no event queued, none is taken (R70). -/
theorem Chip.takeReply_none (c : Chip) (h : c.stretching = true ∨ c.intake = []) : c.takeReply = c := by
  unfold Chip.takeReply
  split
  · rfl
  · rename_i e rest he
    have busy := h.resolve_right (by rw [he]; exact nofun)
    exact if_pos busy

/-- The row of SILENT reports, each point's zone read as it is raised. -/
theorem Chip.silenceReports_fold (c : Chip) (rs : List Rec) (d : Chip) (plan : d.plan = c.plan) :
    rs.foldl (fun d r => d.raisePoint .silent r c.seconds 2 (word c.points[r].lastGood)) d =
      Chip.raises (rs.map c.silenceReport) d := by
  induction rs generalizing d with
  | nil => rfl
  | cons r rest ih =>
    have report : d.raisePoint .silent r c.seconds 2 (word c.points[r].lastGood) = d.raise (c.silenceReport r) := by
      rw [Chip.raisePoint, Chip.silenceReport, Chip.zoneOf, Chip.zoneOf, plan]
    rw [List.foldl_cons, report, ih _ (by rw [Chip.raise_eq]; exact plan)]
    rfl

/-- What precedes the head event: the due re-derivations, then the due silence tests (R66, R99). -/
theorem Chip.makeOwedBeforeReply_eq (c : Chip) :
    let due (r : Rec) : Prop := ∃ o ∈ c.rederivations, o.point = r ∧ o.exempt = 0
    let expires (r : Rec) : Bool := decide (c.silenceExempt = 0) && c.expires r
    ∃ (v : Vector PointRecord 768) (owed : List OwedRederivation),
      c.makeOwedBeforeReply =
        { Chip.raises ((c.silenceOwed.filter expires).eraseDups.map c.silenceReport) c with
          points := v, rederivations := owed
          silenceOwed := if c.silenceExempt = 0 then [] else c.silenceOwed } ∧
      (∀ r : Rec, (r ∈ c.silenceOwed → expires r = true → v[r] = c.silenced r) ∧
        (¬(r ∈ c.silenceOwed ∧ expires r = true) → due r → v[r] = c.derived r c.points[r]) ∧
        (¬(r ∈ c.silenceOwed ∧ expires r = true) → ¬due r → v[r] = c.points[r])) ∧
      ∀ o, o ∈ owed ↔ o ∈ c.rederivations ∧ ¬due o.point := by
  intro due expires
  obtain ⟨v, rederived, values⟩ := Chip.makeRederivations_list ((c.rederivations.filter (fun o => false || o.exempt == 0)).map
    (·.point)) c
  rw [List.foldl_map] at rederived
  have member (r : Rec) : r ∈ (c.rederivations.filter (fun o => false || o.exempt == 0)).map (·.point) ↔ due r := by
    simp only [List.mem_map, List.mem_filter, Bool.false_or, beq_iff_eq]
    exact exists_congr fun o => ⟨fun h => ⟨h.1.1, h.2, h.1.2⟩, fun h => ⟨⟨h.1, h.2.2⟩, h.2.1⟩⟩
  have owes (r : Rec) : due r → c.Owes r := fun ⟨o, ho, point, _⟩ => ⟨o, ho, point⟩
  have first (r : Rec) : (due r → v[r] = c.derived r c.points[r]) ∧ (¬due r → v[r] = c.points[r]) := by
    obtain ⟨made, kept⟩ := values r
    rw [member] at made kept
    exact ⟨fun h => made ⟨h, owes r h⟩, fun h => kept fun g => h g.1⟩
  have presence (r : Rec) : v[r].presence = c.points[r].presence ∧ v[r].lastGood = c.points[r].lastGood ∧
      ({ v[r] with suppressed := c.points[r].suppressed, armed := c.points[r].armed } : PointRecord) = c.points[r] := by
    by_cases h : due r
    · rw [(first r).1 h]; exact ⟨rfl, rfl, rfl⟩
    · rw [(first r).2 h]; exact ⟨rfl, rfl, rfl⟩
  set owed := c.rederivations.filter fun o => decide (o.point ∉ (c.rederivations.filter (fun o => false || o.exempt == 0)).map
    (·.point)) with howed
  have left (o : OwedRederivation) : o ∈ owed ↔ o ∈ c.rederivations ∧ ¬due o.point := by
    rw [howed, List.mem_filter, decide_eq_true_eq, member]
  set d : Chip := { c with points := v, rederivations := owed } with hd
  have before : c.makeRederivations false = d := rederived
  have expiresSame (r : Rec) : d.expires r = c.expires r := by
    show decide (v[r].presence = .live ∧ c.silenceTimeout ≤ c.seconds - v[r].lastGood) = _
    rw [(presence r).1, (presence r).2.1]
    rfl
  by_cases exempt : c.silenceExempt = 0
  · obtain ⟨u, run, settled⟩ := d.makeAllSilenceTests_eq
    have row : c.silenceOwed.filter d.expires = c.silenceOwed.filter expires :=
      List.filter_congr fun r _ => by
        rw [expiresSame]
        show _ = (decide (c.silenceExempt = 0) && c.expires r)
        rw [decide_eq_true exempt, Bool.true_and]
    have reports : d.silenceReport = c.silenceReport := funext fun r => by
      show ({ kind := .silent, loop := loopNumber r, addr := addressNumber r, zone := zoneNumber (c.zoneOf r), time := c.seconds,
              detailA := 2, detailB := word v[r].lastGood } : Report) = _
      rw [(presence r).2.1]
      rfl
    refine ⟨u, owed, ?_, fun r => ?_, left⟩
    · rw [if_pos exempt]
      show (if (c.makeRederivations false).silenceExempt = 0 then _ else _) = _
      rw [before, if_pos (by exact exempt), run, reports]
      rw [show d.silenceOwed = c.silenceOwed from rfl, row]
      have beside := Chip.raises_beside ((c.silenceOwed.filter expires).eraseDups.map c.silenceReport) c v owed c.silenceOwed
      exact congrArg (fun x : Chip => { x with points := u, rederivations := owed, silenceOwed := [] }) beside
    · have expiry : expires r = d.expires r := by
        rw [expiresSame]
        show (decide (c.silenceExempt = 0) && c.expires r) = _
        rw [decide_eq_true exempt, Bool.true_and]
      obtain ⟨made, kept⟩ := settled r
      rw [expiry]
      refine ⟨fun hr he => (made ⟨hr, he⟩).trans ?_, fun h hdue => (kept h).trans ((first r).1 hdue),
        fun h hdue => (kept h).trans ((first r).2 hdue)⟩
      show c.derived r { v[r] with presence := .silent, flags := v[r].flags ||| 0x10#8 } = _
      rw [Chip.silenced]
      by_cases h : due r
      · rw [(first r).1 h]; rfl
      · rw [(first r).2 h]
  · have none : c.silenceOwed.filter expires = [] := List.filter_eq_nil_iff.2 fun r _ => by
      show ¬(decide (c.silenceExempt = 0) && c.expires r) = true
      rw [decide_eq_false exempt, Bool.false_and]
      exact Bool.false_ne_true
    have never (r : Rec) : ¬expires r = true := by
      show ¬(decide (c.silenceExempt = 0) && c.expires r) = true
      rw [decide_eq_false exempt, Bool.false_and]
      exact Bool.false_ne_true
    refine ⟨v, owed, ?_, fun r => ⟨fun _ h => absurd h (never r), fun _ => (first r).1, fun _ => (first r).2⟩, left⟩
    rw [if_neg exempt, none]
    show (if (c.makeRederivations false).silenceExempt = 0 then _ else _) = _
    rw [before, if_neg (by exact exempt)]
    rfl

/-! ### Events without a good reply -/

theorem Chip.derived_setPoint (c : Chip) (q : Rec) (p : PointRecord) (r : Rec) :
    (c.setPoint q p).derived r = c.derived r := rfl

/-- A point's record derived where it has just been set. -/
theorem Chip.rederive_setPoint (c : Chip) (r : Rec) (p : PointRecord) :
    (c.setPoint r p).rederive r = c.setPoint r (c.derived r p) := by
  rw [Chip.rederive, Chip.modPoint_eq, Chip.setPoint_same, Chip.derived_setPoint, Chip.setPoint_setPoint]

theorem Chip.noreplyLimit_bound (c : Chip) (b : Binding) (hb : c.bind = .bound b) : c.noreplyLimit = b.noreplyLimit := by
  rw [Chip.noreplyLimit, hb]

/-- NOREPLY at the limit of a LIVE point makes it SILENT (R65, R67). -/
theorem Chip.noreply_silences (c : Chip) (b : Binding) (hb : c.bind = .bound b) (r : Rec) (live : c.points[r].presence = .live)
    (short : c.points[r].noreplyRun < 15) (limit : c.points[r].noreplyRun + 1 = b.noreplyLimit) :
    c.noreply r = ((c.setPoint r { c.points[r] with
        lastStatus := some .noreply, noreplyRun := min (c.points[r].noreplyRun + 1) 15
        presence := .silent, flags := c.points[r].flags ||| 0x10#8 }).raisePoint .silent r c.seconds 1
          (word c.points[r].lastGood)).rederive r := by
  have record : (c.modPoint r PointRecord.runsNoreply).points[r] = c.points[r].runsNoreply := Chip.setPoint_same _ _ _
  have entered : (c.modPoint r PointRecord.runsNoreply).presenceNoreply r c.points[r].noreplyRun c.seconds =
      (c.modPoint r PointRecord.runsNoreply).enterSilent r c.seconds 1 :=
    if_pos ⟨by rw [record]; exact live, short, limit.trans (Chip.noreplyLimit_bound _ b hb).symm⟩
  show Chip.rederive ((c.modPoint r PointRecord.runsNoreply).presenceNoreply r c.points[r].noreplyRun c.seconds) r = _
  rw [entered, Chip.enterSilent, record, Chip.modPoint_modPoint]
  rfl

/-- Any other NOREPLY counts alone (R58, R65). -/
theorem Chip.noreply_counts (c : Chip) (b : Binding) (hb : c.bind = .bound b) (r : Rec)
    (h : ¬(c.points[r].presence = .live ∧ c.points[r].noreplyRun < 15 ∧ c.points[r].noreplyRun + 1 = b.noreplyLimit)) :
    c.noreply r = c.setPoint r (c.derived r
      { c.points[r] with lastStatus := some .noreply, noreplyRun := min (c.points[r].noreplyRun + 1) 15 }) := by
  have record : (c.modPoint r PointRecord.runsNoreply).points[r] = c.points[r].runsNoreply := Chip.setPoint_same _ _ _
  have kept : (c.modPoint r PointRecord.runsNoreply).presenceNoreply r c.points[r].noreplyRun c.seconds =
      c.modPoint r PointRecord.runsNoreply :=
    if_neg fun g => h ⟨by rw [record] at g; exact g.1, g.2.1, g.2.2.trans (Chip.noreplyLimit_bound _ b hb)⟩
  show Chip.rederive ((c.modPoint r PointRecord.runsNoreply).presenceNoreply r c.points[r].noreplyRun c.seconds) r = _
  rw [kept]
  exact c.rederive_setPoint r _

/-- GARBLED bringing its run from 2 to 3 makes the point CONFLICT (R63). -/
theorem Chip.garbledReply_conflicts (c : Chip) (r : Rec) (h : c.points[r].garbledRun = 2) :
    c.garbledReply r = ((c.setPoint r { c.points[r] with
      lastStatus := some .garbled, garbledRun := min (c.points[r].garbledRun + 1) 3, state := .conflict }).raisePoint
        .conflict r c.seconds 2 0).rederive r := by
  have step : (c.modPoint r PointRecord.runsGarbled).garbledStep r c.points[r].garbledRun c.seconds = _ := if_pos h
  show Chip.rederive ((c.modPoint r PointRecord.runsGarbled).garbledStep r c.points[r].garbledRun c.seconds) r = _
  rw [step, Chip.modPoint_modPoint]
  rfl

theorem Chip.garbledReply_counts (c : Chip) (r : Rec) (h : c.points[r].garbledRun ≠ 2) :
    c.garbledReply r = c.setPoint r (c.derived r
      { c.points[r] with lastStatus := some .garbled, garbledRun := min (c.points[r].garbledRun + 1) 3 }) := by
  have step : (c.modPoint r PointRecord.runsGarbled).garbledStep r c.points[r].garbledRun c.seconds = _ := if_neg h
  show Chip.rederive ((c.modPoint r PointRecord.runsGarbled).garbledStep r c.points[r].garbledRun c.seconds) r = _
  rw [step]
  exact c.rederive_setPoint r _

/-- A point whose test, owed from before the head event, makes it SILENT (R66). -/
def Chip.expiresBefore (c : Chip) (b : Binding) (r : Rec) : Bool :=
  decide (c.silenceExempt = 0 ∧ c.points[r].presence = .live ∧ b.silenceTimeout ≤ c.seconds - c.points[r].lastGood)

theorem Chip.expiresBefore_eq (c : Chip) (b : Binding) (hb : c.bind = .bound b) (r : Rec) :
    (decide (c.silenceExempt = 0) && c.expires r) = c.expiresBefore b r := by
  rw [Bool.eq_iff_iff, Bool.and_eq_true, c.expires_bound b hb r, Chip.expiresBefore, decide_eq_true_eq, decide_eq_true_eq]

/-- Settles O34: no event taken; what precedes the head; NOREPLY; GARBLED. -/
theorem repliesComeAfterWhatIsOwedAndMissesCount : Obligations.RepliesComeAfterWhatIsOwedAndMissesCount := by
  refine ⟨fun s hpor idle => exec_replyEvent s hpor (s.chip.takeReply_none idle), fun s b e rest hpor hb running head => ?_,
    fun s r rest b head hb => ⟨fun live short limit => ?_, fun h => ?_⟩, fun s r rest head => ⟨fun h => ?_, fun h => ?_⟩⟩
  · obtain ⟨v, owed, before, points, left⟩ := s.chip.makeOwedBeforeReply_eq
    simp only [s.chip.expiresBefore_eq b hb] at before points
    have raised := s.chip.silenceReports_fold (s.chip.silenceOwed.filter (s.chip.expiresBefore b)).eraseDups s.chip rfl
    refine ⟨v, owed, points, left, ?_⟩
    intro d
    have made : d = { Chip.raises ((s.chip.silenceOwed.filter (s.chip.expiresBefore b)).eraseDups.map s.chip.silenceReport)
        s.chip with
        points := v, rederivations := owed, silenceOwed := if s.chip.silenceExempt = 0 then [] else s.chip.silenceOwed } := by
      rw [← raised]; rfl
    rw [made]
    obtain ⟨w, i, row⟩ := Chip.raises_eq ((s.chip.silenceOwed.filter (s.chip.expiresBefore b)).eraseDups.map s.chip.silenceReport) s.chip
    rw [row] at before ⊢
    let x : Chip := { s.chip with
      points := v, rederivations := owed, writer := w, im := i
      silenceOwed := if s.chip.silenceExempt = 0 then [] else s.chip.silenceOwed }
    have first : x.HeadReply e rest := by
      refine ⟨hpor, head, running, fun o ho => Nat.pos_of_ne_zero fun zero => ?_, ?_⟩
      · obtain ⟨mem, notDue⟩ := (left o).1 ho
        exact notDue ⟨o, mem, rfl, zero⟩
      · by_cases exempt : s.chip.silenceExempt = 0
        · exact .inl (if_pos exempt)
        · exact .inr (Nat.pos_of_ne_zero exempt)
    refine ⟨first, ?_⟩
    have taken : s.chip.takeReply = Chip.processReply (s.chip.makeOwedBeforeReply.dequeueReply rest) e := by
      unfold Chip.takeReply
      rw [head]
      exact if_neg (by rw [running]; decide)
    rw [before] at taken
    rw [exec_replyEvent s hpor taken]
    exact (exec_replyEvent (s.withChip x) hpor first.takeReply).symm
  · exact exec_replyEvent s head.powered
      (head.takeReply.trans (Chip.noreply_silences (s.chip.taken rest) b hb r live short limit))
  · exact exec_replyEvent s head.powered (head.takeReply.trans (Chip.noreply_counts (s.chip.taken rest) b hb r h))
  · exact exec_replyEvent s head.powered (head.takeReply.trans (Chip.garbledReply_conflicts (s.chip.taken rest) r h))
  · exact exec_replyEvent s head.powered (head.takeReply.trans (Chip.garbledReply_counts (s.chip.taken rest) r h))

end Sys2Proof.Machine
end


-- ==== Sys2Proof/Proofs/AlarmEvents.lean ====
section
/-! SUPPORT. The Alarm Qualifier's moves (R105 to R114, R123, R125, R130, R131): the coincidence, the capture, the outcomes of an
onset, and the verdict step. O37 and O38 are settled here. -/

namespace Sys2Proof.Machine

/-! ### Verdicts -/

theorem Chip.setVerdict_record (c : Chip) (r i : Rec) (v : Verdict) :
    (c.setVerdict r v).points[i] = if i = r then { c.points[r] with verdict := v } else c.points[i] :=
  Vector.getElem_set_rec _ _ _ _

/-- A report raised leaves the tables. -/
theorem Chip.raise_tables (c : Chip) (x : Report) : (c.raise x).points = c.points ∧ (c.raise x).zones = c.zones ∧
    (c.raise x).slots = c.slots ∧ (c.raise x).fireCount = c.fireCount ∧ (c.raise x).firePin = c.firePin ∧
    (c.raise x).plan = c.plan ∧ (c.raise x).bind = c.bind := by
  rw [c.raise_eq x]
  exact ⟨rfl, rfl, rfl, rfl, rfl, rfl, rfl⟩

/-! ### FIRE by coincidence -/

/-- The FIRE report of a point by coincidence with another (R114, R125). -/
def Chip.fireReport (c : Chip) (r other : Rec) (now : Nat) : Report :=
  { kind := .fire, loop := r.val / 192 + 1, addr := r.val % 192 + 1, zone := (c.zoneOf r).val + 1, time := now, detailA := 3,
    detailB := word other.val }

/-- What FIRE by coincidence does at one of its points (R114, R123). -/
structure Chip.Coincides (c : Chip) (r other : Rec) (now : Nat) (d : Chip) : Prop where
  points : ∀ i : Rec, d.points[i] = if i = r then { c.points[r] with verdict := .fire } else c.points[i]
  fireCount : d.fireCount = c.fireCount + (if c.points[r].verdict = .fire then 0 else 1)
  firePin : c.points[r].verdict ≠ .fire → d.firePin = true
  writer : d.writer = if c.points[r].verdict = .fire then c.writer else (c.raise (c.fireReport r other now)).writer
  zones : d.zones = c.zones
  slots : d.slots = c.slots
  plan : d.plan = c.plan
  bind : d.bind = c.bind

theorem Chip.coincide_coincides (c : Chip) (r other : Rec) (now : Nat) : c.Coincides r other now (c.coincide r other now) := by
  by_cases fire : c.points[r].verdict = .fire
  · rw [show c.coincide r other now = c from if_pos fire]
    refine ⟨fun i => ?_, ?_, fun h => absurd fire h, (if_pos fire).symm, rfl, rfl, rfl, rfl⟩
    · by_cases own : i = r
      · subst own
        rw [if_pos rfl, ← fire]
      · rw [if_neg own]
    · rw [if_pos fire, Nat.add_zero]
  · have count : (c.setVerdict r .fire).fireCount = c.fireCount + 1 := by
      rw [Chip.setVerdict_fireCount, fireCountAfter, if_neg (fun h => fire h.1), if_pos ⟨fire, rfl⟩]
    rw [show c.coincide r other now = (c.setVerdict r .fire).raise (c.fireReport r other now) from if_neg fire]
    obtain ⟨points, zones, slots, fireCount, firePin, plan, bind⟩ :=
      (c.setVerdict r .fire).raise_tables (c.fireReport r other now)
    refine ⟨fun i => by rw [points]; exact c.setVerdict_record r i .fire, by rw [fireCount, count, if_neg fire],
      fun _ => ?_, ?_, zones, slots, plan, bind⟩
    · rw [firePin, Chip.setVerdict_firePin, count]
      exact decide_eq_true (Nat.succ_pos _)
    · rw [if_neg fire]
      exact Chip.raise_writer_congr _ _ _ rfl rfl

/-! ### The coincidence check -/

theorem Chip.modZone_zone (c : Chip) (z : Zone) (f : ZoneRecord → ZoneRecord) : (c.modZone z f).zones[z] = f c.zones[z] := by
  simp

/-- What a coincidence of `p` with the opener `q` in a zone leaves (R114). -/
structure Chip.Coincided (c : Chip) (z : Zone) (q p : Rec) (now : Nat) (d : Chip) : Prop where
  point : d.points[p] = { c.points[p] with verdict := .fire }
  partner : d.points[q] = { c.points[q] with verdict := .fire }
  others : ∀ i : Rec, i ≠ p → i ≠ q → d.points[i] = c.points[i]
  opener : d.zones[z].opener = none
  fireCount : d.fireCount = c.fireCount + (if c.points[q].verdict = .fire then 1 else 2)
  firePin : d.firePin = true
  writer : d.writer = (c.coincidenceReports z q p (decide (c.points[q].verdict ≠ .fire)) now).writer
  slots : ∀ k, c.zones[z].walkSlot = some k → d.slots[k] = c.slots[k].map (requested .breakout)

theorem Chip.breakout_linked (c : Chip) (z : Zone) (k : Fin 4) (h : c.zones[z].walkSlot = some k) :
    c.breakout z = c.requestEnd k .breakout := by
  rw [Chip.breakout, h]

theorem Chip.breakout_frame (c : Chip) (z : Zone) : ∃ s, c.breakout z = { c with slots := s } := by
  unfold Chip.breakout
  split
  · exact c.requestEnd_shape _ _
  · exact ⟨_, rfl⟩

/-- The COINCIDENCE report of a zone for its opener and the other point (R114). -/
def coincidenceReport (z : Zone) (q p : Rec) (now : Nat) : Report :=
  { kind := .coincidence, loop := 0, addr := 0, zone := z.val + 1, time := now, detailA := word q.val,
    detailB := word p.val }

/-- The report, then FIRE at the opener, then FIRE at the other point, then the opener gone and the slot asked (R114). -/
theorem Chip.Coincided.of_steps {c c0 d1 d2 : Chip} {z : Zone} {q p : Rec} {now : Nat}
    (raised : c0 = c.raise (coincidenceReport z q p now)) (first : c0.Coincides q p now d1) (second : d1.Coincides p q now d2)
    (ne : q ≠ p) (fresh : c.points[p].verdict ≠ .fire) :
    c.Coincided z q p now ((d2.modZone z fun zr => { zr with opener := none }).breakout z) := by
  have tables := c.raise_tables (coincidenceReport z q p now)
  rw [← raised] at tables
  obtain ⟨points0, zones0, slots0, count0, -, plan0, bind0⟩ := tables
  obtain ⟨s, broken⟩ := Chip.breakout_frame (d2.modZone z fun zr => { zr with opener := none }) z
  have record1 (i : Rec) : d1.points[i] = if i = q then { c.points[q] with verdict := .fire } else c.points[i] := by
    rw [first.points, points0]
  have fresh1 : d1.points[p].verdict ≠ .fire := by
    rw [record1, if_neg (Ne.symm ne)]
    exact fresh
  refine ⟨?_, ?_, fun i hp hq => ?_, ?_, ?_, ?_, ?_, fun k hk => ?_⟩
  · rw [broken]
    refine (second.points p).trans ?_
    rw [if_pos rfl, record1, if_neg (Ne.symm ne)]
  · rw [broken]
    refine (second.points q).trans ?_
    rw [if_neg ne, record1, if_pos rfl]
  · rw [broken]
    refine (second.points i).trans ?_
    rw [if_neg hp, record1, if_neg hq]
  · rw [broken]
    exact congrArg ZoneRecord.opener (d2.modZone_zone z fun zr => { zr with opener := none })
  · rw [broken]
    refine second.fireCount.trans ?_
    rw [first.fireCount, if_neg fresh1, points0, count0]
    split <;> rfl
  · rw [broken]
    exact second.firePin fresh1
  · have reportQ : c0.fireReport q p now = c.fireReport q p now := by
      rw [Chip.fireReport, Chip.fireReport, Chip.zoneOf, Chip.zoneOf, plan0]
    have reportP : d1.fireReport p q now = c.fireReport p q now := by
      rw [Chip.fireReport, Chip.fireReport, Chip.zoneOf, Chip.zoneOf, first.plan, plan0]
    have bind1 : d1.bind = c0.bind := first.bind
    rw [broken]
    refine second.writer.trans ?_
    rw [if_neg fresh1, reportP]
    by_cases fire : c.points[q].verdict = .fire
    · have writer1 : d1.writer = c0.writer := by rw [first.writer, points0, if_pos fire]
      rw [decide_eq_false (not_not.2 fire), Chip.raise_writer_congr d1 c0 _ bind1 writer1, raised]
      rfl
    · have writer1 : d1.writer = (c0.raise (c.fireReport q p now)).writer := by
        rw [first.writer, points0, if_neg fire, reportQ]
      have bindQ : (c0.raise (c.fireReport q p now)).bind = c0.bind := (c0.raise_tables _).2.2.2.2.2.2
      rw [decide_eq_true fire, Chip.raise_writer_congr d1 _ _ (bind1.trans bindQ.symm) writer1, raised]
      rfl
  · have zones2 : d2.zones = c.zones := (second.zones.trans first.zones).trans zones0
    have slots2 : d2.slots = c.slots := (second.slots.trans first.slots).trans slots0
    have linked : (d2.modZone z fun zr => { zr with opener := none }).zones[z].walkSlot = some k := by
      rw [Chip.modZone_zone, zones2]
      exact hk
    rw [Chip.breakout_linked _ z k linked, Chip.requestEnd_slots, if_pos rfl]
    show d2.slots[k].map _ = _
    rw [slots2]

theorem Chip.coincidence_coincided (c : Chip) (z : Zone) (q p : Rec) (now : Nat) (ne : q ≠ p)
    (fresh : c.points[p].verdict ≠ .fire) : c.Coincided z q p now (c.coincidence z q p now) :=
  .of_steps rfl (Chip.coincide_coincides _ q p now) (Chip.coincide_coincides _ p q now) ne fresh

/-- The reports of a coincidence go by the binding, the writer and the plan. -/
theorem Chip.coincidenceReports_writer {c d : Chip} (hb : c.bind = d.bind) (hw : c.writer = d.writer) (hp : c.plan = d.plan)
    (z : Zone) (q p : Rec) (fresh : Bool) (now : Nat) :
    (c.coincidenceReports z q p fresh now).writer = (d.coincidenceReports z q p fresh now).writer := by
  have report (r other : Rec) : c.fireReport r other now = d.fireReport r other now := by
    rw [Chip.fireReport, Chip.fireReport, Chip.zoneOf, Chip.zoneOf, hp]
  have step {a b : Chip} (x : Report) (hab : a.bind = b.bind) (hw : a.writer = b.writer) :
      (a.raise x).bind = (b.raise x).bind ∧ (a.raise x).writer = (b.raise x).writer :=
    ⟨by rw [a.raise_eq, b.raise_eq]; exact hab, Chip.raise_writer_congr _ _ _ hab hw⟩
  have first := step (coincidenceReport z q p now) hb hw
  show (Chip.raise (if fresh then (c.raise (coincidenceReport z q p now)).raise (c.fireReport q p now) else
      c.raise (coincidenceReport z q p now)) (c.fireReport p q now)).writer =
    (Chip.raise (if fresh then (d.raise (coincidenceReport z q p now)).raise (d.fireReport q p now) else
      d.raise (coincidenceReport z q p now)) (d.fireReport p q now)).writer
  rw [report q p, report p q]
  cases fresh with
  | false => exact (step _ first.1 first.2).2
  | true =>
    have second := step (d.fireReport q p now) first.1 first.2
    exact (step _ second.1 second.2).2

/-- With a partner the check is its coincidence; with none the point becomes the opener (R113, R114). -/
theorem Chip.coincidenceCheck_partner (c : Chip) (z : Zone) (p : Rec) (o : Opener) (now : Nat)
    (ho : c.zones[z].opener = some o)
    (h : now < o.expiry ∧ o.point ≠ p ∧ c.points[o.point].suppressed = false) :
    c.coincidenceCheck z p now = c.coincidence z o.point p now := by
  have partner : c.partner z p now = some o.point := by
    rw [Chip.partner, ho]
    exact if_pos h
  rw [Chip.coincidenceCheck, partner]

theorem Chip.coincidenceCheck_none (c : Chip) (z : Zone) (p : Rec) (now : Nat)
    (h : ∀ o, c.zones[z].opener = some o → ¬(now < o.expiry ∧ o.point ≠ p ∧ c.points[o.point].suppressed = false)) :
    c.coincidenceCheck z p now = c.modZone z fun zr =>
      { zr with opener := some { point := p, expiry := min (now + c.coincidenceWindow) 4294967295 } } := by
  have partner : c.partner z p now = none := by
    unfold Chip.partner
    split
    · rename_i o ho
      exact if_neg (h o ho)
    · rfl
  rw [Chip.coincidenceCheck, partner]
  rfl

theorem Chip.coincidenceWindow_bound (c : Chip) (b : Binding) (hb : c.bind = .bound b) :
    c.coincidenceWindow = b.coincidenceWindow := by
  rw [Chip.coincidenceWindow, hb]

theorem requested_running (reason : EndReason) (w : WalkSlot) (he : w.ending = false) (hr : w.reason = none) :
    requested reason w = { w with reason := some reason } := if_pos (by rw [he, hr]; rfl)

/-- Settles O38: the two outcomes of the check. -/
theorem coincidenceMakesTwoFiresOrAnOpener : Obligations.CoincidenceMakesTwoFiresOrAnOpener := by
  refine ⟨fun c z p b now hb none => ?_, fun c z p q o now ho hq expiry ne clear fresh => ?_⟩
  · rw [c.coincidenceCheck_none z p now none, c.coincidenceWindow_bound b hb]
    rfl
  · subst hq
    have done := c.coincidence_coincided z o.point p now ne fresh
    rw [← c.coincidenceCheck_partner z p o now ho ⟨expiry, ne, clear⟩] at done
    refine ⟨done.point, done.partner, done.others, done.opener, done.fireCount, done.firePin, done.writer,
      fun k w hk hw he hr => ?_⟩
    rw [done.slots k hk, hw, Option.map_some, requested_running _ w he hr]

/-! ### The capture -/

/-- The TEST HIT report of a point (R131, R142). -/
def Chip.hitReport (c : Chip) (r : Rec) (now count : Nat) : Report :=
  { kind := .testHit, loop := r.val / 192 + 1, addr := r.val % 192 + 1, zone := (c.zoneOf r).val + 1, time := now,
    detailA := word count, detailB := word c.points[r].captured.testCount }

/-- What a capture does (R130, R131). -/
structure Chip.Captured (c : Chip) (k : Fin 4) (r : Rec) (now : Nat) (w : WalkSlot) (d : Chip) : Prop where
  points : ∀ i : Rec, d.points[i] = if i = r then { c.points[r].captured with verdict := .test } else c.points[i]
  slot : d.slots[k] = some (w.hit r)
  zones : d.zones = c.zones
  fireCount : d.fireCount = c.fireCount
  writer : d.writer = (c.raise (c.hitReport r now ((w.hit r).hitCount r))).writer
  plan : d.plan = c.plan
  bind : d.bind = c.bind

/-- The TEST HIT report of a slot's record after its hit, as the model forms it. -/
def Chip.slotReport (c : Chip) (w : WalkSlot) (r : Rec) (now : Nat) : Report :=
  { kind := .testHit, loop := loopNumber r, addr := addressNumber r, zone := zoneNumber (realZone w.zone), time := now,
    detailA := word (w.hitCount r), detailB := word c.points[r].testCount }

theorem Chip.recordHit_some (c : Chip) (k : Fin 4) (r : Rec) (now : Nat) (w : WalkSlot) (h : c.slots[k] = some w) :
    c.recordHit k r now = Chip.raise (c.setSlot k (some (w.hit r))) (c.slotReport (w.hit r) r now) := by
  unfold Chip.recordHit
  rw [h]
  rfl

theorem WalkSlot.hit_zone (w : WalkSlot) (r : Rec) : (w.hit r).zone = w.zone := by
  unfold WalkSlot.hit
  split
  · rfl
  · split <;> rfl

theorem Chip.capture_captured (c : Chip) (k : Fin 4) (r : Rec) (now : Nat) (w : WalkSlot) (hv : c.points[r].verdict = .none)
    (hw : c.slots[k] = some w) (zone : realZone w.zone = c.zoneOf r) : c.Captured k r now w (c.capture k r now) := by
  generalize hd : (c.setVerdict r .test).modPoint r PointRecord.captured = d
  have capture : c.capture k r now = d.recordHit k r now := by rw [← hd]; rfl
  have points (i : Rec) : d.points[i] = if i = r then { c.points[r].captured with verdict := .test } else c.points[i] := by
    have own : (c.setVerdict r .test).points[r] = { c.points[r] with verdict := .test } := by
      rw [Chip.setVerdict_record, if_pos rfl]
    rw [← hd]
    refine (Vector.getElem_set_rec _ r i _).trans ?_
    by_cases h : i = r
    · rw [if_pos h, if_pos h, own]
      rfl
    · rw [if_neg h, if_neg h, Chip.setVerdict_record, if_neg h]
  have slots : d.slots = c.slots := by rw [← hd]; rfl
  have count : d.fireCount = c.fireCount := by
    rw [← hd]
    show fireCountAfter c.fireCount c.points[r].verdict .test = _
    rw [hv]
    rfl
  have rest : d.zones = c.zones ∧ d.plan = c.plan ∧ d.bind = c.bind ∧ d.writer = c.writer := by
    rw [← hd]; exact ⟨rfl, rfl, rfl, rfl⟩
  obtain ⟨zones, plan, bind, writer⟩ := rest
  have report : d.slotReport (w.hit r) r now = c.hitReport r now ((w.hit r).hitCount r) := by
    unfold Chip.slotReport
    rw [points, if_pos rfl, WalkSlot.hit_zone, zone]
    rfl
  rw [capture, d.recordHit_some k r now w (by rw [slots]; exact hw), report]
  obtain ⟨points', zones', slots', count', -, plan', bind'⟩ :=
    (d.setSlot k (some (w.hit r))).raise_tables (c.hitReport r now ((w.hit r).hitCount r))
  refine ⟨fun i => by rw [points']; exact points i, ?_, zones'.trans zones, count'.trans count, ?_, plan'.trans plan,
    bind'.trans bind⟩
  · rw [slots']
    simp [Chip.setSlot]
  · exact Chip.raise_writer_congr _ _ _ bind writer

/-- The slot that captures a point whose STATE can be tested (R108 outcome 2). -/
theorem armable_iff (s : PointState) : s.armable = true ↔ s = .matched ∨ s = .tested ∨ s = .commissioned := by
  cases s <;> simp [PointState.armable]

theorem Chip.qualify_captured (c : Chip) (r : Rec) (k : Fin 4) (now : Nat) (clear : c.points[r].suppressed = false)
    (testable : c.points[r].state.armable = true) (linked : c.zones[c.zoneOf r].walkSlot = some k) (kind : OnsetKind) :
    c.qualify r now kind = (c.capture k r now).coincidenceCheck (c.zoneOf r) r now := by
  have slot : c.capturingSlot (c.zoneOf r) r = some k := (if_pos testable).trans linked
  unfold Chip.qualify
  dsimp only
  rw [if_neg (by rw [clear]; decide), slot]

/-! The hit list after a capture, by the entry the point has (R131). -/

theorem WalkSlot.hit_new (w : WalkSlot) (r : Rec) (h : ∀ x ∈ w.hits, x.point ≠ r) (room : w.hits.length < 32) :
    w.hit r = { w with hits := w.hits ++ [{ point := r, count := 1 }] } ∧ (w.hit r).hitCount r = 1 := by
  have absent : ¬(w.hits.any fun x => x.point == r) = true := fun any => by
    obtain ⟨x, hx, e⟩ := List.any_eq_true.1 any
    exact h x hx (beq_iff_eq.1 e)
  have hit : w.hit r = { w with hits := w.hits ++ [{ point := r, count := 1 }] } := (if_neg absent).trans (if_pos room)
  refine ⟨hit, ?_⟩
  have none : w.hits.find? (fun x => x.point == r) = none :=
    List.find?_eq_none.2 fun x hx e => h x hx (beq_iff_eq.1 e)
  rw [hit, WalkSlot.hitCount, List.find?_append, none]
  simp

theorem WalkSlot.hit_full (w : WalkSlot) (r : Rec) (h : ∀ x ∈ w.hits, x.point ≠ r) (full : 32 ≤ w.hits.length) :
    w.hit r = { w with overflowed := true } ∧ (w.hit r).hitCount r = 0 := by
  have absent : ¬(w.hits.any fun x => x.point == r) = true := fun any => by
    obtain ⟨x, hx, e⟩ := List.any_eq_true.1 any
    exact h x hx (beq_iff_eq.1 e)
  have hit : w.hit r = { w with overflowed := true } := (if_neg absent).trans (if_neg (Nat.not_lt.2 full))
  refine ⟨hit, ?_⟩
  have none : w.hits.find? (fun x => x.point == r) = none :=
    List.find?_eq_none.2 fun x hx e => h x hx (beq_iff_eq.1 e)
  rw [hit, WalkSlot.hitCount, none]

theorem WalkSlot.hit_again (w : WalkSlot) (r : Rec) (n : Nat) (has : ∃ x ∈ w.hits, x.point = r)
    (count : ∀ x ∈ w.hits, x.point = r → x.count = n) :
    w.hit r = { w with hits := w.hits.map fun x => if x.point = r then { x with count := min (n + 1) 255 } else x } ∧
    (w.hit r).hitCount r = min (n + 1) 255 := by
  have present : (w.hits.any fun x => x.point == r) = true := by
    obtain ⟨x, hx, e⟩ := has
    exact List.any_eq_true.2 ⟨x, hx, beq_iff_eq.2 e⟩
  have entries : (w.hits.map fun x => if x.point = r then { x with count := min (x.count + 1) 255 } else x) =
      w.hits.map fun x => if x.point = r then { x with count := min (n + 1) 255 } else x := by
    refine List.map_congr_left fun x hx => ?_
    by_cases e : x.point = r
    · rw [if_pos e, if_pos e, count x hx e]
    · rw [if_neg e, if_neg e]
  have hit : w.hit r =
      { w with hits := w.hits.map fun x => if x.point = r then { x with count := min (n + 1) 255 } else x } :=
    (if_pos present).trans (by rw [entries])
  refine ⟨hit, ?_⟩
  obtain ⟨x, hx, e⟩ := has
  have found : ∃ y, (w.hit r).hits.find? (fun x => x.point == r) = some y ∧ y.count = min (n + 1) 255 := by
    rw [hit]
    cases hf : (w.hits.map fun x => if x.point = r then { x with count := min (n + 1) 255 } else x).find?
        (fun x => x.point == r) with
    | none =>
      refine absurd (List.find?_eq_none.1 hf _ (List.mem_map_of_mem hx)) (not_not.2 ?_)
      rw [if_pos e]
      exact beq_iff_eq.2 e
    | some y =>
      refine ⟨y, rfl, ?_⟩
      have point : y.point = r := by simpa using List.find?_some hf
      obtain ⟨v, _, hv⟩ := List.mem_map.1 (List.mem_of_find?_eq_some hf)
      by_cases own : v.point = r
      · rw [if_pos own] at hv
        rw [← hv]
      · rw [if_neg own] at hv
        rw [← hv] at point
        exact absurd point own
  obtain ⟨y, hy, value⟩ := found
  rw [WalkSlot.hitCount, hy]
  exact value

/-- A capture and its coincidence check, the slot's record after its hit given. -/
theorem Chip.qualify_capture (c : Chip) (r : Rec) (k : Fin 4) (w : WalkSlot) (now : Nat)
    (clear : c.points[r].suppressed = false) (testable : c.points[r].state.armable = true)
    (hv : c.points[r].verdict = .none) (linked : c.zones[c.zoneOf r].walkSlot = some k) (hw : c.slots[k] = some w)
    (zone : realZone w.zone = c.zoneOf r) :
    let p' := { c.points[r].captured with verdict := .test }
    let z := c.zoneOf r
    let c' := c.qualify r now .reply
    let report := c.hitReport r now ((w.hit r).hitCount r)
    ((∀ o, c.zones[z].opener = some o → ¬(now < o.expiry ∧ o.point ≠ r ∧ c.points[o.point].suppressed = false)) →
      c'.points[r] = p' ∧ (∀ i : Rec, i ≠ r → c'.points[i] = c.points[i]) ∧ c'.slots[k] = some (w.hit r) ∧
      c'.zones[z].opener = some { point := r, expiry := min (now + c.coincidenceWindow) 4294967295 } ∧
      c'.fireCount = c.fireCount ∧ c'.writer = (c.raise report).writer) ∧
    (∀ o q, c.zones[z].opener = some o → o.point = q → now < o.expiry → q ≠ r → c.points[q].suppressed = false →
      c'.points[r] = { p' with verdict := .fire } ∧ c'.points[q] = { c.points[q] with verdict := .fire } ∧
      (∀ i : Rec, i ≠ r → i ≠ q → c'.points[i] = c.points[i]) ∧ c'.zones[z].opener = none ∧
      c'.slots[k] = some (requested .breakout (w.hit r)) ∧
      c'.fireCount = c.fireCount + (if c.points[q].verdict = .fire then 1 else 2) ∧
      c'.writer = ((Chip.coincidenceReports (c.raise report) z q r
        (decide (c.points[q].verdict ≠ .fire)) now)).writer) := by
  intro p' z c' report
  have captured := c.capture_captured k r now w hv hw zone
  have result : c' = (c.capture k r now).coincidenceCheck z r now := c.qualify_captured r k now clear testable linked .reply
  rw [result]
  generalize c.capture k r now = d at captured
  have record (i : Rec) (h : i ≠ r) : d.points[i] = c.points[i] := by rw [captured.points, if_neg h]
  refine ⟨fun none => ?_, fun o q ho hq expiry ne free => ?_⟩
  · rw [d.coincidenceCheck_none z r now fun o ho => by
      rw [captured.zones] at ho
      exact fun h => none o ho ⟨h.1, h.2.1, by rw [← record _ h.2.1]; exact h.2.2⟩]
    refine ⟨(captured.points r).trans (if_pos rfl), record, captured.slot, ?_, captured.fireCount, captured.writer⟩
    have window : d.coincidenceWindow = c.coincidenceWindow := by
      unfold Chip.coincidenceWindow; rw [captured.bind]
    rw [Chip.modZone_zone, window]
  · subst hq
    have own : d.points[r] = p' := (captured.points r).trans (if_pos rfl)
    have done := d.coincidence_coincided z o.point r now ne (by rw [own]; exact nofun)
    rw [← d.coincidenceCheck_partner z r o now (by rw [captured.zones]; exact ho)
      ⟨expiry, ne, by rw [record _ ne]; exact free⟩] at done
    have other := record o.point ne
    refine ⟨by rw [done.point, own], by rw [done.partner, other], fun i hr hq => ?_, done.opener, ?_, ?_, ?_⟩
    · rw [done.others i hr hq, record i hr]
    · rw [done.slots k (by rw [captured.zones]; exact linked), captured.slot]
      rfl
    · rw [done.fireCount, captured.fireCount, other]
    · rw [done.writer, other]
      exact Chip.coincidenceReports_writer (captured.bind.trans (c.raise_tables report).2.2.2.2.2.2.symm) captured.writer
        (captured.plan.trans (c.raise_tables report).2.2.2.2.2.1.symm) z o.point r _ now

theorem requested_eq (reason : EndReason) (w : WalkSlot) :
    requested reason w = if w.ending = false ∧ w.reason = none then { w with reason := some reason } else w := by
  have running : (!w.ending && w.reason.isNone) = true ↔ w.ending = false ∧ w.reason = none := by
    rw [Bool.and_eq_true, Bool.not_eq_true', Option.isNone_iff_eq_none]
  exact if_congr running rfl rfl

/-- Settles O37: one capture, the hit list by the entry the point has. -/
theorem captureInAZoneUnderTest : Obligations.CaptureInAZoneUnderTest := by
  intro c r k w now p z clear testable hv linked hw zone p' c' report captured
  have outcome := c.qualify_capture r k w now clear ((armable_iff _).2 testable) hv linked hw zone
  have captures (w' : WalkSlot) (count : Nat) (hit : w.hit r = w') (hits : (w.hit r).hitCount r = count)
      (phase : w'.ending = w.ending ∧ w'.reason = w.reason) : captured w' count := by
    have broken : requested .breakout w' =
        if w.ending = false ∧ w.reason = none then { w' with reason := some .breakout } else w' :=
      (requested_eq .breakout w').trans (if_congr (by rw [phase.1, phase.2]) rfl rfl)
    rw [hits, hit, broken] at outcome
    exact outcome
  refine ⟨fun new room => ?_, fun new full => ?_, fun n has count => ?_⟩
  · obtain ⟨hit, hits⟩ := w.hit_new r new room
    exact captures _ _ hit hits ⟨rfl, rfl⟩
  · obtain ⟨hit, hits⟩ := w.hit_full r new full
    exact captures _ _ hit hits ⟨rfl, rfl⟩
  · obtain ⟨hit, hits⟩ := w.hit_again r n has count
    exact captures _ _ hit hits ⟨rfl, rfl⟩

end Sys2Proof.Machine
end


-- ==== Sys2Proof/Proofs/GoodReplies.lean ====
section
/-! SUPPORT. A good reply's steps and an onset's outcomes (R46, R57, R58, R64, R106 to R114, R120). O35 and O36 are settled here. -/

namespace Sys2Proof.Machine

/-! ### The first and the last step -/

theorem Chip.presenceGood_silent (c : Chip) (r : Rec) (previous now : Nat) (h : c.points[r].presence = .silent) :
    c.presenceGood r previous now =
      (c.setPoint r { c.points[r] with presence := .live }).raisePoint .returned r now (word (now - previous)) 0 := if_pos h

theorem Chip.presenceGood_other (c : Chip) (r : Rec) (previous now : Nat) (h : c.points[r].presence ≠ .silent) :
    c.presenceGood r previous now = c.setPoint r { c.points[r] with presence := .live } := if_neg h

theorem Chip.verdictStep_onset (c : Chip) (r : Rec) (now : Nat) (h : c.points[r].verdict = .none) :
    c.verdictStep r .alarm now = c.qualify r now .reply := by
  unfold Chip.verdictStep
  rw [h]

theorem Chip.verdictStep_alarm (c : Chip) (r : Rec) (now : Nat) (h : c.points[r].verdict ≠ .none) :
    c.verdictStep r .alarm now = c := by
  unfold Chip.verdictStep
  cases hv : c.points[r].verdict with
  | none => exact absurd hv h
  | _ => rfl

theorem Chip.verdictStep_test (c : Chip) (r : Rec) (st : GoodStatus) (now : Nat) (hs : st ≠ .alarm)
    (h : c.points[r].verdict = .test) : c.verdictStep r st now = c.setVerdict r .none := by
  unfold Chip.verdictStep
  rw [h]
  cases st with
  | alarm => exact absurd rfl hs
  | normal => rfl
  | fault => rfl

theorem Chip.verdictStep_other (c : Chip) (r : Rec) (st : GoodStatus) (now : Nat) (hs : st ≠ .alarm)
    (h : c.points[r].verdict ≠ .test) : c.verdictStep r st now = c := by
  unfold Chip.verdictStep
  cases hv : c.points[r].verdict with
  | test => exact absurd hv h
  | _ => cases st with
    | alarm => exact absurd rfl hs
    | _ => rfl

/-- A TEST that ends leaves the FIRE count (R120, R123). -/
theorem Chip.setVerdict_ofTest (c : Chip) (r : Rec) (h : c.points[r].verdict = .test) :
    c.setVerdict r .none =
      { c.setPoint r { c.points[r] with verdict := .none } with firePin := decide (0 < c.fireCount) } := by
  have count : fireCountAfter c.fireCount c.points[r].verdict .none = c.fireCount := by rw [h]; rfl
  unfold Chip.setVerdict
  rw [count]
  rfl

/-! ### A good reply of the class found -/

/-- The steps of a good reply before its verdict (R57). -/
def Chip.replySteps (c : Chip) (r : Rec) (st : GoodStatus) (cls : BitVec 3) (analog : BitVec 8) (serial : EventSerial) : Chip :=
  (((((c.setPoint r { c.points[r] with
      lastStatus := some st.status, noreplyRun := 0, garbledRun := 0, lastGood := c.seconds }).presenceGood r
        c.points[r].lastGood c.seconds).serialStep r serial c.seconds).classStep r cls c.seconds).rederive r).driftMonitor r st
    analog (c.pointCode r) c.seconds

theorem Chip.goodReply_eq (c : Chip) (r : Rec) (st : GoodStatus) (cls : BitVec 3) (analog : BitVec 8) (serial : EventSerial) :
    c.goodReply r st cls analog serial = (c.replySteps r st cls analog serial).verdictStep r st c.seconds := rfl

/-- Steps 1 to 6 of a reply of the class found, with no serial, at a point not SILENT (R57, R58, R64). -/
theorem Chip.replySteps_same (c : Chip) (r : Rec) (st : GoodStatus) (cls : BitVec 3) (analog : BitVec 8)
    (hf : c.points[r].foundClass = some cls) (hp : c.points[r].presence ≠ .silent) :
    c.replySteps r st cls analog .absent =
      (c.setPoint r (c.afterSameReply r st)).driftMonitor r st analog (c.pointCode r) c.seconds := by
  set p : PointRecord := { c.points[r] with
    lastStatus := some st.status, noreplyRun := 0, garbledRun := 0, lastGood := c.seconds } with hpdef
  have record : (c.setPoint r p).points[r] = p := c.setPoint_same r p
  have presence : (c.setPoint r p).presenceGood r c.points[r].lastGood c.seconds =
      c.setPoint r { p with presence := .live } := by
    rw [Chip.presenceGood_other _ r _ _ (by rw [record]; exact hp), record, Chip.setPoint_setPoint]
  have cls : (c.setPoint r { p with presence := .live }).classStep r cls c.seconds = c.setPoint r { p with presence := .live } :=
    Chip.classStep_same _ r cls _ (by rw [Chip.setPoint_same]; exact hf)
  unfold Chip.replySteps
  rw [presence, show (c.setPoint r { p with presence := .live }).serialStep r .absent c.seconds =
    c.setPoint r { p with presence := .live } from rfl, cls, Chip.rederive_setPoint]
  rfl

/-- An ALARM below full scale spends READY alone (R85). -/
theorem Chip.replySteps_alarm (c : Chip) (r : Rec) (cls : BitVec 3) (analog : BitVec 8)
    (hf : c.points[r].foundClass = some cls) (hp : c.points[r].presence ≠ .silent) (below : analog ≠ 255#8) :
    c.replySteps r .alarm cls analog .absent = c.setPoint r { c.afterSameReply r .alarm with prealarmReady := false } := by
  rw [c.replySteps_same r .alarm cls analog hf hp]
  refine (if_neg below).trans ?_
  rw [Chip.modPoint_eq, Chip.setPoint_same, Chip.setPoint_setPoint]

/-- A quiet NORMAL drains the drift run and gives READY back (R82, R84). -/
theorem Chip.replySteps_quiet (c : Chip) (r : Rec) (cls : BitVec 3) (analog : BitVec 8)
    (hf : c.points[r].foundClass = some cls) (hp : c.points[r].presence ≠ .silent)
    (low : analog.toNat < 48 + 4 * (c.pointCode r).toNat) :
    c.replySteps r .normal cls analog .absent = c.setPoint r
      { c.afterSameReply r .normal with driftRun := c.points[r].driftRun - 1, prealarmReady := true } := by
  have code := (c.pointCode r).isLt
  have below : analog ≠ 255#8 := by
    rintro rfl
    simp only [BitVec.toNat_ofNat] at low
    omega
  have notDrift : ¬48 + 4 * (c.pointCode r).toNat ≤ analog.toNat := by omega
  rw [c.replySteps_same r .normal cls analog hf hp]
  refine (if_neg below).trans ?_
  rw [Chip.driftCheck_eq, Chip.setPoint_same, if_neg (fun h => notDrift h.2.1), Chip.prealarmCheck_eq, Chip.setPoint_setPoint,
    Chip.setPoint_same, if_neg (fun h => absurd h.1 (by omega)), if_pos (by omega), Chip.setPoint_setPoint, if_neg notDrift]
  rfl

/-- The steps before the last leave the verdict (R57). -/
theorem Chip.replySteps_verdict (c : Chip) (r : Rec) (st : GoodStatus) (cls : BitVec 3) (analog : BitVec 8)
    (serial : EventSerial) : (c.replySteps r st cls analog serial).points[r].verdict = c.points[r].verdict := by
  set c0 := c.setPoint r { c.points[r] with
      lastStatus := some st.status, noreplyRun := 0, garbledRun := 0, lastGood := c.seconds } with h0
  have start : c0.points[r].verdict = c.points[r].verdict := by rw [h0, Chip.setPoint_same]
  have presence := (c0.presenceGood_move r c.points[r].lastGood c.seconds).step.verdict
  have serialV := ((c0.presenceGood r c.points[r].lastGood c.seconds).serialStep_move r serial c.seconds).step.verdict
  have clsV := (((c0.presenceGood r c.points[r].lastGood c.seconds).serialStep r serial c.seconds).classStep_move r cls
    c.seconds).step.verdict
  have derived := ((((c0.presenceGood r c.points[r].lastGood c.seconds).serialStep r serial c.seconds).classStep r cls
    c.seconds).rederive_move r).step.verdict
  have monitor := (((((c0.presenceGood r c.points[r].lastGood c.seconds).serialStep r serial c.seconds).classStep r cls
    c.seconds).rederive r).driftMonitor_move r st analog (c.pointCode r) c.seconds).step.same
  exact (congrArg PointRecord.verdict monitor).trans (derived.trans (clsV.trans (serialV.trans (presence.trans start))))

/-- A good reply at the head is taken (R55, R57). -/
theorem Chip.HeadReply.goodReply {c : Chip} {r : Rec} {st : GoodStatus} {cls : BitVec 3} {analog : BitVec 8}
    {serial : EventSerial} {rest : List ReplyEvent} (h : c.HeadReply ⟨r, .good st cls analog serial⟩ rest) :
    c.takeReply = ((c.taken rest).replySteps r st cls analog serial).verdictStep r st c.seconds := h.takeReply

/-- Settles O35: the steps, the first, the last, and a quiet NORMAL through all. -/
theorem goodReplyTakesItsSteps : Obligations.GoodReplyTakesItsSteps := by
  refine ⟨fun s r rest st cls analog serial head => exec_replyEvent s head.powered head.goodReply,
    fun c r previous now => ⟨c.presenceGood_silent r previous now, c.presenceGood_other r previous now⟩,
    fun c r st now => ⟨c.verdictStep_onset r now, c.verdictStep_alarm r now,
      fun hs h => (c.verdictStep_test r st now hs h).trans (c.setVerdict_ofTest r h), c.verdictStep_other r st now⟩,
    fun s r rest cls analog head hf hp hv low => ?_⟩
  have steps := (s.chip.taken rest).replySteps_quiet r cls analog hf hp low
  refine exec_replyEvent s head.powered (head.goodReply.trans ?_)
  rw [steps, Chip.verdictStep_other _ r .normal _ (by decide) (by rw [Chip.setPoint_same]; exact hv)]
  rfl

/-! ### The outcomes of an onset -/

/-- HELD with its report, for a cause (R109, R112). -/
theorem Chip.qualify_suppressed (c : Chip) (r : Rec) (now : Nat) (h : c.points[r].suppressed = true) :
    c.qualify r now .reply = c.hold r now 1 := if_pos h

/-- With no slot to capture it the onset goes by ARMED (R111, R112). -/
theorem Chip.qualify_uncaptured (c : Chip) (r : Rec) (now : Nat) (clear : c.points[r].suppressed = false)
    (h : c.points[r].state.armable = false ∨ c.zones[c.zoneOf r].walkSlot = none) :
    c.qualify r now .reply =
      if c.points[r].armed = true then (c.setVerdict r .fire).raisePoint .fire r now 1 0
      else (c.hold r now 2).coincidenceCheck (c.zoneOf r) r now := by
  have slot : c.capturingSlot (c.zoneOf r) r = none := by
    rcases h with untestable | unlinked
    · exact if_neg (by rw [untestable]; decide)
    · rw [Chip.capturingSlot, unlinked, ite_self]
  unfold Chip.qualify
  dsimp only
  rw [if_neg (by rw [clear]; decide), slot]
  rfl

/-- What HELD does (R105, R112, R123). -/
theorem Chip.hold_facts (c : Chip) (r : Rec) (now cause : Nat) (hv : c.points[r].verdict = .none) :
    (c.hold r now cause).zones = c.zones ∧ (c.hold r now cause).slots = c.slots ∧ (c.hold r now cause).bind = c.bind ∧
    (c.hold r now cause).fireCount = c.fireCount ∧
    ∀ i : Rec, (c.hold r now cause).points[i] = if i = r then { c.points[r] with verdict := .held } else c.points[i] := by
  have count : (c.setVerdict r .held).fireCount = c.fireCount := by
    rw [Chip.setVerdict_fireCount, hv]
    rfl
  obtain ⟨points, zones, slots, fireCount, -, -, bind⟩ := (c.setVerdict r .held).raise_tables
    { kind := .held, loop := loopNumber r, addr := addressNumber r, zone := zoneNumber (c.zoneOf r), time := now,
      detailA := word cause, detailB := word c.points[r].state.code }
  refine ⟨zones, slots, bind, fireCount.trans count, fun i => ?_⟩
  exact (congrArg (fun v : Vector PointRecord 768 => v[i]) points).trans (c.setVerdict_record r i .held)

theorem not_armable_iff (s : PointState) : s.armable = false ↔ ¬(s = .matched ∨ s = .tested ∨ s = .commissioned) := by
  rw [← armable_iff, Bool.not_eq_true]

/-- The first outcome whose condition holds (R108 to R112). -/
theorem Chip.qualify_table (c : Chip) (r : Rec) (now : Nat) :
    let p := c.points[r]
    let z := c.zoneOf r
    let testable : Prop := p.state = .matched ∨ p.state = .tested ∨ p.state = .commissioned
    let held (cause : Nat) : Chip := (c.setVerdict r .held).raisePoint .held r now (word cause) (word p.state.code)
    (p.suppressed = true → c.qualify r now .reply = held 1) ∧
    (∀ k, p.suppressed = false → testable → c.zones[z].walkSlot = some k →
      c.qualify r now .reply = (c.capture k r now).coincidenceCheck z r now) ∧
    (p.suppressed = false → (¬testable ∨ c.zones[z].walkSlot = none) → p.armed = true →
      c.qualify r now .reply = (c.setVerdict r .fire).raisePoint .fire r now 1 0) ∧
    (p.suppressed = false → (¬testable ∨ c.zones[z].walkSlot = none) → p.armed = false →
      c.qualify r now .reply = (held 2).coincidenceCheck z r now) := by
  intro p z testable held
  refine ⟨c.qualify_suppressed r now, fun k clear test linked =>
    c.qualify_captured r k now clear ((armable_iff _).2 test) linked .reply, fun clear free armed => ?_, fun clear free unarmed => ?_⟩
  · rw [c.qualify_uncaptured r now clear (free.imp (not_armable_iff _).2 id), if_pos armed]
  · rw [c.qualify_uncaptured r now clear (free.imp (not_armable_iff _).2 id), if_neg (by rw [unarmed]; decide)]
    rfl

/-- An ALARM at VERDICT NONE runs its steps and is qualified (R57, R106). -/
theorem Chip.HeadReply.onset {c : Chip} {r : Rec} {cls : BitVec 3} {analog : BitVec 8} {serial : EventSerial}
    {rest : List ReplyEvent} (h : c.HeadReply ⟨r, .good .alarm cls analog serial⟩ rest) (hv : c.points[r].verdict = .none) :
    c.takeReply = ((c.taken rest).replySteps r .alarm cls analog serial).qualify r c.seconds .reply :=
  h.goodReply.trans (Chip.verdictStep_onset _ r _ ((Chip.replySteps_verdict _ r _ cls analog serial).trans hv))

/-- Settles O36: the outcomes' table, any onset, and the onset of the class found. -/
theorem onsetIsQualified : Obligations.OnsetIsQualified := by
  refine ⟨Chip.qualify_table, fun s r rest cls analog serial head hv => exec_replyEvent s head.powered (head.onset hv),
    fun s r rest cls analog b head hb hf hp hv below => ?_⟩
  intro z now p c answers held partner unconfirmed
  have steps := (s.chip.taken rest).replySteps_alarm r cls analog hf hp below
  have taken : s.chip.takeReply = c.qualify r now .reply :=
    (head.onset hv).trans (congrArg (fun d : Chip => d.qualify r now .reply) steps)
  have own : c.points[r] = p := Chip.setPoint_same _ r p
  have elsewhere (i : Rec) (h : i ≠ r) : c.points[i] = s.chip.points[i] := Chip.setPoint_other _ r i p h
  have verdict : c.points[r].verdict = .none := by rw [own]; exact hv
  obtain ⟨suppressed, -, fires, holds⟩ := c.qualify_table r now
  rw [own] at suppressed fires holds
  obtain ⟨zones, slots, bind, count, points⟩ := c.hold_facts r now 2 verdict
  have hold : held 2 = c.hold r now 2 := by
    show (c.setVerdict r .held).raisePoint .held r now (word 2) (word p.state.code) = _
    rw [← own]
    rfl
  have ownHeld : (c.hold r now 2).points[r] = { p with verdict := .held } := by rw [points, if_pos rfl, own]
  have elsewhereHeld (i : Rec) (h : i ≠ r) : (c.hold r now 2).points[i] = s.chip.points[i] := by
    rw [points, if_neg h, elsewhere i h]
  have checked (un : unconfirmed) : s.chip.takeReply = (c.hold r now 2).coincidenceCheck z r now := by
    obtain ⟨clear, unarmed, free⟩ := un
    rw [← hold]
    exact taken.trans (holds clear free.symm unarmed)
  refine ⟨fun h => exec_replyEvent s head.powered (taken.trans (suppressed h)),
    fun clear free armed => exec_replyEvent s head.powered (taken.trans (fires clear (.inr free) armed)),
    fun un none => exec_replyEvent s head.powered ((checked un).trans ?_), fun o un ho hpart => ?_⟩
  · rw [Chip.coincidenceCheck_none _ z r now fun o ho => ?_, Chip.coincidenceWindow_bound _ b (bind.trans hb), hold]
    rw [zones] at ho
    exact fun h => none o ho ⟨h.1, h.2.1, by rw [← elsewhereHeld _ h.2.1]; exact h.2.2⟩
  · obtain ⟨expiry, ne, clear⟩ := hpart
    have done := Chip.coincidence_coincided (c.hold r now 2) z o.point r now ne (by rw [ownHeld]; exact nofun)
    rw [← Chip.coincidenceCheck_partner (c.hold r now 2) z r o now (by rw [zones]; exact ho)
      ⟨expiry, ne, by rw [elsewhereHeld _ ne]; exact clear⟩] at done
    have other := elsewhereHeld o.point ne
    refine ⟨_, exec_replyEvent s head.powered (checked un), by rw [done.point, ownHeld], by rw [done.partner, other],
      fun i hr hq => by rw [done.others i hr hq, elsewhereHeld i hr], done.opener, ?_, done.firePin, ?_,
      fun k w hk hw he hr => ?_⟩
    · rw [done.fireCount, other, count]
      rfl
    · rw [done.writer, other, hold]
    · rw [done.slots k (by rw [zones]; exact hk), slots]
      show s.chip.slots[k].map _ = _
      rw [hw, Option.map_some, requested_running _ w he hr]

end Sys2Proof.Machine
end


-- ==== Sys2Proof/Proofs/WalkEvents.lean ====
section
/-! SUPPORT. The Walk-Test Unit's events: an end request, the expiry comparison, the end and the clear sweep (R107, R133 to R138,
R142). O42, O43 and O44 are settled here. -/

namespace Sys2Proof.Machine

/-! ### End requests -/

theorem Chip.requestEnd_dropped (c : Chip) (k : Fin 4) (w : WalkSlot) (reason : EndReason) (h : c.slots[k] = some w)
    (busy : (!w.ending && w.reason.isNone) = false) : c.requestEnd k reason = c := by
  rw [Chip.requestEnd, h]
  exact if_neg (by rw [busy]; decide)

theorem Chip.requestEnd_recorded (c : Chip) (k : Fin 4) (w : WalkSlot) (reason : EndReason) (h : c.slots[k] = some w)
    (he : w.ending = false) (hr : w.reason = none) :
    c.requestEnd k reason = c.setSlot k (some { w with reason := some reason }) := by
  rw [Chip.requestEnd, h]
  exact if_pos (by rw [he, hr]; rfl)

/-! ### The expiry comparison -/

/-- An owed comparison of a RUNNING slot with no reason (R134). -/
theorem Chip.compareSlot_running (c : Chip) (k : Fin 4) (w : WalkSlot) (owed : k ∈ c.walkOwed) (hw : c.slots[k] = some w)
    (he : w.ending = false) (hr : w.reason = none) :
    c.compareSlot k =
      if w.finish ≤ c.seconds then
        Chip.setSlot { c with walkOwed := c.walkOwed.filter (· != k) } k (some { w with reason := some .expired })
      else { c with walkOwed := c.walkOwed.filter (· != k) } := by
  have comparable : w.comparable = true := by rw [WalkSlot.comparable, he, hr]; rfl
  have slot : ({ c with walkOwed := c.walkOwed.filter (· != k) } : Chip).slots[k] = some w := hw
  refine (if_pos (List.contains_iff_mem.2 owed)).trans ?_
  rw [← Chip.requestEnd_recorded _ k w _ slot he hr]
  dsimp only
  rw [hw]
  exact if_congr (by rw [comparable, Bool.true_and, decide_eq_true_iff]) rfl rfl

/-- Settles O42: the request's table, and the comparison on either side of END. -/
theorem endRequestsFollowTheirTable : Obligations.EndRequestsFollowTheirTable := by
  refine ⟨fun c k w reason => ⟨c.requestEnd_free k reason, fun hw he => ?_, fun hw hr => ?_,
    c.requestEnd_recorded k w reason⟩, fun s k w hpor owed hw he hr => ⟨fun due => ?_, fun early => ?_⟩⟩
  · exact c.requestEnd_dropped k w reason hw (by rw [he]; rfl)
  · exact c.requestEnd_dropped k w reason hw (by rw [Option.isNone_eq_false_iff.2 (Option.isSome_iff_ne_none.2 hr), Bool.and_false])
  all_goals
    refine s.next_congr ((Chip.event_high _ _ hpor).trans (congrArg Chip.settle ?_))
    refine (s.chip.compareSlot_running k w owed hw he hr).trans ?_
  · exact if_pos due
  · exact if_neg (Nat.not_le.2 early)

/-! ### The end event -/

/-- Settles O43: one event, its three steps written out. -/
theorem walkEndEventEndsTheSlot : Obligations.WalkEndEventEndsTheSlot := by
  intro s k w reason hpor hw he hr
  refine s.next_congr ((Chip.event_high _ _ hpor).trans (congrArg Chip.settle ?_))
  unfold Chip.endSlot
  simp only [hw, he, hr]
  rfl

/-! ### A re-qualification's outcomes -/

/-- SUPPRESSED holds the point, with the onset's own cause (R109). -/
theorem Chip.requalify_suppressed (c : Chip) (r : Rec) (now : Nat) (h : c.points[r].suppressed = true) :
    c.qualify r now .requalification = c.hold r now 3 := if_pos h

/-- With no slot to capture it the point goes by ARMED (R111, R112). -/
theorem Chip.requalify_uncaptured (c : Chip) (r : Rec) (now : Nat) (clear : c.points[r].suppressed = false)
    (h : c.points[r].state.armable = false ∨ c.zones[c.zoneOf r].walkSlot = none) :
    c.qualify r now .requalification =
      if c.points[r].armed = true then (c.setVerdict r .fire).raisePoint .fire r now 2 0
      else (c.hold r now 4).coincidenceCheck (c.zoneOf r) r now := by
  have slot : c.capturingSlot (c.zoneOf r) r = none := by
    rcases h with untestable | unlinked
    · exact if_neg (by rw [untestable]; decide)
    · rw [Chip.capturingSlot, unlinked, ite_self]
  unfold Chip.qualify
  dsimp only
  rw [if_neg (by rw [clear]; decide), slot]
  rfl

/-- The first outcome whose condition holds (R107 to R112). -/
theorem Chip.requalify_table (c : Chip) (r : Rec) (now : Nat) :
    let p := c.points[r]
    let z := c.zoneOf r
    let testable : Prop := p.state = .matched ∨ p.state = .tested ∨ p.state = .commissioned
    let held (cause : Nat) : Chip := (c.setVerdict r .held).raisePoint .held r now (word cause) (word p.state.code)
    (p.suppressed = true → c.qualify r now .requalification = held 3) ∧
    (∀ k, p.suppressed = false → testable → c.zones[z].walkSlot = some k →
      c.qualify r now .requalification = (c.capture k r now).coincidenceCheck z r now ∧
      c.qualify r now .reply = c.qualify r now .requalification) ∧
    (p.suppressed = false → (¬testable ∨ c.zones[z].walkSlot = none) → p.armed = true →
      c.qualify r now .requalification = (c.setVerdict r .fire).raisePoint .fire r now 2 0) ∧
    (p.suppressed = false → (¬testable ∨ c.zones[z].walkSlot = none) → p.armed = false →
      c.qualify r now .requalification = (held 4).coincidenceCheck z r now) := by
  intro p z testable held
  refine ⟨c.requalify_suppressed r now, fun k clear test linked => ?_, fun clear free armed => ?_, fun clear free unarmed => ?_⟩
  · have captured := c.qualify_captured r k now clear ((armable_iff _).2 test) linked
    exact ⟨captured _, (captured _).trans (captured _).symm⟩
  · rw [c.requalify_uncaptured r now clear (free.imp (not_armable_iff _).2 id), if_pos armed]
  · rw [c.requalify_uncaptured r now clear (free.imp (not_armable_iff _).2 id), if_neg (by rw [unarmed]; decide)]
    rfl

/-! ### The clear sweep -/

/-- A record the sweep of a slot has still to clear (R138). -/
def Chip.clearDue (c : Chip) (w : WalkSlot) (i : Rec) : Prop :=
  w.sweep ≤ i.val ∧ c.points[i].verdict = .test ∧ c.zoneOf i = realZone w.zone

theorem Chip.nextTest_pred (c : Chip) (w : WalkSlot) (i : Rec) :
    (decide (w.sweep ≤ i.val) && c.points[i].verdict == .test && c.zoneOf i == realZone w.zone) = true ↔ c.clearDue w i := by
  rw [Bool.and_eq_true, Bool.and_eq_true, decide_eq_true_iff, beq_iff_eq, beq_iff_eq, and_assoc]
  exact Iff.rfl

/-- A search through a finite type's values finds the first that passes. -/
theorem find?_finRange_some {n : Nat} (p : Fin n → Bool) (k : Fin n) (hk : p k = true) (first : ∀ j, j < k → p j = false) :
    (List.finRange n).find? p = some k := by
  refine List.find?_eq_some_iff_getElem.2 ⟨hk, k.val, by simp, by simp, fun j hj => ?_⟩
  have before := first ⟨j, hj.trans k.isLt⟩ hj
  simpa using before

theorem Chip.nextTest_some (c : Chip) (w : WalkSlot) (r : Rec) (due : c.clearDue w r) (first : ∀ i : Rec, i < r → ¬c.clearDue w i) :
    c.nextTest w.zone w.sweep = some r :=
  find?_finRange_some _ r ((c.nextTest_pred w r).2 due) fun i hi =>
    Bool.eq_false_iff.2 fun h => first i hi ((c.nextTest_pred w i).1 h)

theorem Chip.nextTest_none (c : Chip) (w : WalkSlot) (past : ∀ i : Rec, ¬c.clearDue w i) :
    c.nextTest w.zone w.sweep = none :=
  List.find?_eq_none.2 fun i _ h => past i ((c.nextTest_pred w i).1 h)

theorem Chip.sweepSlot_clear (c : Chip) (k : Fin 4) (w : WalkSlot) (r : Rec) (hw : c.slots[k] = some w) (he : w.ending = true)
    (h : c.nextTest w.zone w.sweep = some r) : c.sweepSlot k = c.clearTest k w r := by
  rw [Chip.sweepSlot, hw]
  exact (if_pos he).trans (by rw [h])

theorem Chip.sweepSlot_past (c : Chip) (k : Fin 4) (w : WalkSlot) (hw : c.slots[k] = some w) (he : w.ending = true)
    (h : c.nextTest w.zone w.sweep = none) : c.sweepSlot k = c.freeSlot k w := by
  rw [Chip.sweepSlot, hw]
  exact (if_pos he).trans (by rw [h])

theorem Chip.clearTest_quiet (c : Chip) (k : Fin 4) (w : WalkSlot) (r : Rec) (h : c.points[r].lastStatus ≠ some .alarm) :
    c.clearTest k w r =
      (c.setSlot k (some { w with cleared := w.cleared + 1, sweep := r.val + 1 })).setVerdict r .none := by
  have again : (c.points[r].lastStatus == some .alarm) = false := beq_eq_false_iff_ne.2 h
  unfold Chip.clearTest
  rw [again]
  rfl

/-- A point still in alarm is handed back to the Alarm Qualifier (R107, R138). -/
theorem Chip.clearTest_alarm (c : Chip) (k : Fin 4) (w : WalkSlot) (r : Rec) (h : c.points[r].lastStatus = some .alarm) :
    c.clearTest k w r =
      (((c.setSlot k (some { w with cleared := w.cleared + 1, sweep := r.val + 1,
                                    handedBack := w.handedBack + 1 })).setVerdict r .none).rederive r).qualify r w.endNow
        .requalification := by
  have again : (c.points[r].lastStatus == some .alarm) = true := beq_iff_eq.2 h
  unfold Chip.clearTest
  rw [again]
  rfl

theorem Chip.freeSlot_alone (c : Chip) (k : Fin 4) (w : WalkSlot) (h : ∀ m, c.command = some m → m.stage ≠ .waitingSlot k) :
    c.freeSlot k w = c.setSlot k none := by
  show (match c.command with
    | some m => if m.stage = CommandStage.waitingSlot k then (c.setSlot k none).complete (done w.result) else c.setSlot k none
    | none => c.setSlot k none) = _
  cases hm : c.command with
  | none => rfl
  | some m => exact if_neg (h m hm)

theorem Chip.freeSlot_awaited (c : Chip) (k : Fin 4) (w : WalkSlot) (m : Command) (hm : c.command = some m)
    (h : m.stage = .waitingSlot k) : c.freeSlot k w = (c.setSlot k none).complete (done w.result) := by
  show (match c.command with
    | some m => if m.stage = CommandStage.waitingSlot k then (c.setSlot k none).complete (done w.result) else c.setSlot k none
    | none => c.setSlot k none) = _
  rw [hm]
  exact if_pos h

/-- One move of the sweep. -/
theorem exec_walkClear (s : State) (k : Fin 4) (hpor : s.chip.porLow = false) {d : Chip} (h : s.chip.sweepSlot k = d) :
    exec (.walkClearEvent k 1) s = .next (s.withChip d.settle) :=
  s.next_congr ((Chip.event_high s.chip (fun c => c.sweepSlot k) hpor).trans (congrArg Chip.settle h))

/-- Settles O44: the outcomes of a re-qualification, then the sweep's next record and its end. -/
theorem walkClearEventClearsOrFrees : Obligations.WalkClearEventClearsOrFrees := by
  refine ⟨Chip.requalify_table, fun s k w r hpor hw he => ?_⟩
  refine ⟨fun due first quiet => ?_, fun due first alarm => ?_, fun past alone => ?_,
    fun m b reason past _ hm waiting hr => ?_⟩ <;> refine exec_walkClear s k hpor ?_
  · rw [s.chip.sweepSlot_clear k w r hw he (s.chip.nextTest_some w r due first), s.chip.clearTest_quiet k w r quiet]
  · rw [s.chip.sweepSlot_clear k w r hw he (s.chip.nextTest_some w r due first), s.chip.clearTest_alarm k w r alarm]
  · rw [s.chip.sweepSlot_past k w hw he (s.chip.nextTest_none w past), s.chip.freeSlot_alone k w alone]
  · rw [s.chip.sweepSlot_past k w hw he (s.chip.nextTest_none w past), s.chip.freeSlot_awaited k w m hm waiting,
      WalkSlot.result, hr]
    rfl

end Sys2Proof.Machine
end


-- ==== Sys2Proof/Proofs/Reports.lean ====
section
/-! SUPPORT. The pending queue and the Report Writer (R175 to R178, R181, R188). O45 and O46 are settled here. -/

namespace Sys2Proof.Machine

/-! ### The pending queue -/

theorem dropNewestOther_none (q : List Report) (h : ∀ y ∈ q, y.isAlarm = true) : dropNewestOther q = none := by
  induction q with
  | nil => rfl
  | cons r rest ih =>
    rw [dropNewestOther, ih fun y hy => h y (List.mem_cons_of_mem _ hy)]
    exact if_pos (h r List.mem_cons_self)

/-- Of the non-ALARM entries the one nearest the tail is dropped (R176). -/
theorem dropNewestOther_append (front back : List Report) (x : Report) (hx : x.isAlarm = false)
    (h : ∀ y ∈ back, y.isAlarm = true) : dropNewestOther (front ++ x :: back) = some (front ++ back) := by
  induction front with
  | nil =>
    rw [List.nil_append, dropNewestOther, dropNewestOther_none back h]
    exact if_neg (by rw [hx]; decide)
  | cons r rest ih =>
    rw [List.cons_append, dropNewestOther, ih]
    rfl

theorem Writer.arrive_room (w : Writer) (r : Report) (h : w.queue.length < 16) :
    w.arrive r = { w with queue := w.queue ++ [r] } := if_pos h

theorem Writer.arrive_alarm (w : Writer) (r : Report) (h : w.queue.length = 16) (alarm : r.isAlarm = true) :
    w.arrive r = match dropNewestOther w.queue with
      | some q => { w with queue := q ++ [r], gap := true }
      | none => { w with gap := true } :=
  (if_neg (by rw [h]; decide)).trans (if_pos alarm)

theorem Writer.arrive_other (w : Writer) (r : Report) (h : w.queue.length = 16) (other : r.isAlarm = false) :
    w.arrive r = { w with gap := true } :=
  (if_neg (by rw [h]; decide)).trans (if_neg (by rw [other]; decide))

/-- The command in hand makes its own next event. -/
theorem Chip.AtWork.commandWork {c : Chip} {m : Command} {b : Binding} {code : BitVec 8} {w : Work}
    (h : c.AtWork m b code w) : c.commandWork = c.work m w := by
  rw [Chip.commandWork, h.inHand]
  show (match m.stage with | .working w => c.work m w | _ => c) = _
  rw [h.stage]

/-- Settles O45: the table by the queue's length and the report's class, and QUERY's last event. -/
theorem pendingQueueFollowsItsTable : Obligations.PendingQueueFollowsItsTable := by
  intro w r _
  refine ⟨w.arrive_room r, fun front back x full alarm split hx hback => ?_, fun full alarm all => ?_,
    w.arrive_other r, fun c m b q work => work.commandWork⟩
  · rw [w.arrive_alarm r full alarm, split, dropNewestOther_append front back x hx hback]
  · rw [w.arrive_alarm r full alarm, dropNewestOther_none _ all]

/-! ### Forming a report and starting its record -/

theorem ReportKind.classBit_eq (k : ReportKind) : k.classBit = k.code / 16 := by cases k <;> rfl

theorem Chip.forms_bound (c : Chip) (b : Binding) (k : ReportKind) (hb : c.bind = .bound b) :
    c.forms k = b.classMask.getLsbD (k.code / 16) := by
  rw [Chip.forms, hb, ← k.classBit_eq]

theorem Chip.raise_formed (c : Chip) (b : Binding) (x : Report) (hb : c.bind = .bound b)
    (h : b.classMask.getLsbD (x.kind.code / 16) = true) :
    c.raise x = Chip.startRecord { c with writer := c.writer.arrive x } := if_pos ((c.forms_bound b _ hb).trans h)

theorem Chip.raise_masked (c : Chip) (b : Binding) (x : Report) (hb : c.bind = .bound b)
    (h : b.classMask.getLsbD (x.kind.code / 16) = false) : c.raise x = c :=
  if_neg (by rw [c.forms_bound b _ hb, h]; decide)

theorem Chip.binding_none_of (c : Chip) (h : ∀ b, c.bind ≠ .bound b) : c.binding = none := by
  rw [Chip.binding]
  cases hb : c.bind with
  | bound b => exact absurd hb (h b)
  | _ => rfl

theorem Chip.raise_notBound (c : Chip) (x : Report) (h : ∀ b, c.bind ≠ .bound b) : c.raise x = c := by
  have unformed : c.forms x.kind = false := by
    rw [Chip.forms]
    cases hb : c.bind with
    | bound b => exact absurd hb (h b)
    | _ => rfl
  exact if_neg (by rw [unformed]; decide)

/-- The ring is full when the slot after PRODUCER is CONSUMER's. -/
theorem Writer.full_iff (w : Writer) (capacity : Nat) : w.full capacity = true ↔ (w.producer + 1) % capacity = w.consumer :=
  beq_iff_eq

theorem Chip.startRecord_busy (c : Chip) (b : Binding) (hb : c.bind = .bound b)
    (h : c.writer.inHand ≠ none ∨ c.writer.queue = [] ∨ (c.writer.producer + 1) % b.capacity = c.writer.consumer) :
    c.startRecord = c := by
  unfold Chip.startRecord
  rw [hb]
  dsimp only
  cases hh : c.writer.inHand with
  | some _ => rfl
  | none =>
    cases hq : c.writer.queue with
    | nil => rfl
    | cons r rest =>
      refine if_pos ((c.writer.full_iff _).2 ?_)
      rcases h with hand | empty | full
      · exact absurd hh hand
      · rw [hq] at empty
        cases empty
      · exact full

/-- A writer that starts the head entry issues word 0 of its slot (R177, R178, R188). -/
theorem Chip.startRecord_starts (c : Chip) (b : Binding) (r : Report) (rest : List Report) (hb : c.bind = .bound b)
    (hh : c.writer.inHand = none) (hq : c.writer.queue = r :: rest)
    (room : (c.writer.producer + 1) % b.capacity ≠ c.writer.consumer) :
    c.startRecord =
      { c with
        writer := { c.writer with queue := rest, gap := false,
                                  inHand := some { report := r, gap := c.writer.gap, written := 0 } },
        im := { c.im with
                waitReport := some ⟨BitVec.ofNat 24 (b.ringBase + 16 + 16 * c.writer.producer),
                                    some (recordWordOf r c.writer.gap 0)⟩ } } := by
  have empty : ¬c.writer.full b.capacity = true := fun h => room ((c.writer.full_iff _).1 h)
  unfold Chip.startRecord
  rw [hb, hh, hq]
  exact if_neg empty

/-! ### The record's accesses -/

/-- A write of the record that is not its last issues the next (R178). -/
theorem Chip.reportWriteDone_next (c : Chip) (b : Binding) (h : RecordInHand) (hb : c.bind = .bound b)
    (hh : c.writer.inHand = some h) (more : h.written < 4) :
    c.reportWriteDone =
      { c with
        writer := { c.writer with inHand := some { h with written := h.written + 1 } },
        im := { c.im with
                waitReport := some (if h.written < 3
                  then ⟨BitVec.ofNat 24 (b.ringBase + 16 + 16 * c.writer.producer + 4 * (h.written + 1)),
                        some (recordWordOf h.report h.gap (h.written + 1))⟩
                  else ⟨BitVec.ofNat 24 b.ringBase,
                        some (word ((c.writer.producer + 1) % b.capacity))⟩) } } := by
  have issued : c.reportWriteDone = Chip.issueReport
      { c with writer := { c.writer with inHand := some { h with written := h.written + 1 } } }
      (b.recordWrite { c.writer with inHand := some { h with written := h.written + 1 } } { h with written := h.written + 1 }).1
      (some (b.recordWrite { c.writer with inHand := some { h with written := h.written + 1 } }
        { h with written := h.written + 1 }).2) := by
    unfold Chip.reportWriteDone
    rw [hb, hh]
    exact if_pos more
  rw [issued, Binding.recordWrite]
  by_cases word : h.written < 3
  · rw [if_pos word, if_pos (by show h.written + 1 < 4; omega)]
    rfl
  · rw [if_neg word, if_neg (by show ¬h.written + 1 < 4; omega)]
    rfl

/-- The PRODUCER write publishes the record (R178, R181). -/
theorem Chip.reportWriteDone_last (c : Chip) (b : Binding) (h : RecordInHand) (hb : c.bind = .bound b)
    (hh : c.writer.inHand = some h) (last : h.written = 4) :
    c.reportWriteDone = Chip.startRecord
      { c with
        writer := { c.writer with producer := (c.writer.producer + 1) % b.capacity, inHand := none },
        irqPin := b.irqEnable && decide (0 <
          ((c.writer.producer + 1) % b.capacity + b.capacity - c.writer.consumer) % b.capacity) } := by
  have level : Chip.irqLevel { c with
      writer := { c.writer with producer := (c.writer.producer + 1) % b.capacity, inHand := none } } =
      (b.irqEnable && decide (0 <
        ((c.writer.producer + 1) % b.capacity + b.capacity - c.writer.consumer) % b.capacity)) := by
    unfold Chip.irqLevel
    simp only [hb]
    rfl
  have published : c.reportWriteDone = c.publish b := by
    unfold Chip.reportWriteDone
    rw [hb, hh]
    exact if_neg (by rw [last]; decide)
  rw [published, Chip.publish, Chip.settleIrq, level]

theorem exec_reportRecordPublish (s : State) (q : MemRequest) (h : RecordInHand) (hpor : s.chip.porLow = false)
    (hp : s.chip.port = some (.internal .report q)) (hh : s.chip.writer.inHand = some h) (last : h.written = 4) {d : Chip}
    (done : s.chip.accessDone = d) : exec .reportRecordPublish s = .next (s.withChip d.settle) := by
  have atPort : s.chip.producerAtPort = true := by
    rw [Chip.producerAtPort, hp, hh]
    exact beq_iff_eq.2 last
  exact s.next_congr ((Chip.event_high _ _ hpor).trans (congrArg Chip.settle ((if_pos atPort).trans done)))

theorem Chip.accessDone_report (c : Chip) (q : MemRequest) (hp : c.port = some (.internal .report q)) :
    c.accessDone = (c.internalDone q).reportWriteDone := c.accessDone_internal .report q hp

/-- Settles O46: forming, starting, the record's writes and its publishing. -/
theorem recordsAreWrittenAndPublished : Obligations.RecordsAreWrittenAndPublished := by
  refine ⟨fun c x => ⟨fun b hb => c.raise_formed b x hb, fun b hb => c.raise_masked b x hb, fun unbound =>
      ⟨c.raise_notBound x unbound, c.startRecord_unbound (c.binding_none_of unbound)⟩, fun b hb => c.startRecord_busy b hb⟩,
    fun s b r rest hpor hb hh hq room => ?_, fun s b h q hpor hb hp hh => ⟨fun more => ?_, fun last => ?_⟩⟩
  · exact s.next_congr ((Chip.event_high _ _ hpor).trans
      (congrArg Chip.settle (s.chip.startRecord_starts b r rest hb hh hq room)))
  · refine exec_downstreamAccessDone s hpor ((s.chip.accessDone_report q hp).trans ?_)
    exact (s.chip.internalDone q).reportWriteDone_next b h hb hh more
  · refine exec_reportRecordPublish s q h hpor hp hh last ((s.chip.accessDone_report q hp).trans ?_)
    exact (s.chip.internalDone q).reportWriteDone_last b h hb hh last

end Sys2Proof.Machine
end


-- ==== Sys2Proof/Proofs/CommandEvents.lean ====
section
/-! SUPPORT. The Command Engine's rows and accesses (R146 to R150): what a row runs, what a DACK brings, the take of a command
word and the reading of its operands. O47 is settled here. -/

namespace Sys2Proof.Machine

/-! ### The rows -/

/-- A mailbox command's row is its code's. -/
theorem exec_mailbox (s : State) (i : Instr) (code : BitVec 8) (how : CommandStep) (h : i.mailboxStep = some (code, how)) :
    exec i s = .next (s.withChip (s.chip.commandRow code how)) := by
  cases i <;> cases h <;> rfl

/-- One event of the command in hand, by its row. -/
theorem exec_run (s : State) (i : Instr) (code : BitVec 8) (m : Command) (n : Nat) (hi : i.mailboxStep = some (code, .run n))
    (hm : s.chip.command = some m) (hc : m.code = code) :
    exec i s = .next (s.withChip (Chip.advances n s.chip)) := by
  have runs : s.chip.runs code = true := by
    rw [Chip.runs, hm]
    exact beq_iff_eq.2 hc
  exact (exec_mailbox s i code _ hi).trans (s.next_congr (if_pos runs))

theorem Chip.working_work (c : Chip) (m : Command) (w : Work) (hm : c.command = some m) (hs : m.stage = .working w) :
    c.working = true := by
  rw [Chip.working, hm]
  show (match m.stage with | .working _ => true | _ => false) = true
  rw [hs]

theorem Chip.working_access (c : Chip) (m : Command) (hm : c.command = some m) (hs : ∀ w, m.stage ≠ .working w) :
    c.working = false := by
  rw [Chip.working, hm]
  show (match m.stage with | .working _ => true | _ => false) = false
  cases h : m.stage with
  | working w => exact absurd h (hs w)
  | _ => rfl

theorem Chip.working_idle (c : Chip) (hm : c.command = none) : c.working = false := by rw [Chip.working, hm]

theorem Chip.commandWork_work_eq (c : Chip) (m : Command) (w : Work) (hm : c.command = some m) (hs : m.stage = .working w) :
    c.commandWork = c.work m w := by
  rw [Chip.commandWork, hm]
  show (match m.stage with | .working w => c.work m w | _ => c) = _
  rw [hs]

/-- A work event of the command in hand. -/
theorem Chip.advance_work (c : Chip) (m : Command) (w : Work) (hpor : c.porLow = false) (hm : c.command = some m)
    (hs : m.stage = .working w) : c.advance = (c.work m w).settle := by
  rw [Chip.advance, Chip.event_high _ _ hpor, if_pos (c.working_work m w hm hs), c.commandWork_work_eq m w hm hs]

/-- The end of the access at the port, on the way of the command in hand. -/
theorem Chip.advance_access (c : Chip) (hpor : c.porLow = false) (h : c.working = false) :
    c.advance = c.accessDone.settle := by
  rw [Chip.advance, Chip.event_high _ _ hpor, if_neg (by rw [h]; decide)]

/-- The command in hand's own work, by its row. -/
theorem exec_runWork (s : State) (i : Instr) (m : Command) (b : Binding) (code : BitVec 8) (w : Work)
    (work : s.chip.AtWork m b code w) (hi : i.mailboxStep = some (code, .run 1)) {d : Chip} (h : s.chip.work m w = d) :
    exec i s = .next (s.withChip d.settle) := by
  refine (exec_run s i code m 1 hi work.inHand work.isCode).trans (s.next_congr ?_)
  exact (s.chip.advance_work m w work.powered work.inHand work.stage).trans (congrArg Chip.settle h)

/-- The check of the command in hand is a work event. -/
theorem Chip.AtCheck.atWork {c : Chip} {m : Command} {b : Binding} {code : BitVec 8} (h : c.AtCheck m b code) :
    c.AtWork m b code .check := ⟨h.powered, h.bound, h.inHand, h.isCode, h.stage⟩

theorem exec_runCheck (s : State) (i : Instr) (m : Command) (b : Binding) (code : BitVec 8) (check : s.chip.AtCheck m b code)
    (hi : i.mailboxStep = some (code, .run 1)) {d : Chip} (h : s.chip.checkCommand m = d) :
    exec i s = .next (s.withChip d.settle) := exec_runWork s i m b code .check check.atWork hi h

/-- A DACK of the command in hand, by the row of the access or by its own. -/
theorem exec_commandAccess (s : State) (i : Instr) (m : Command) (q : MemRequest) (hpor : s.chip.porLow = false)
    (hp : s.chip.port = some (.internal .command q)) (hm : s.chip.command = some m) (hs : ∀ w, m.stage ≠ .working w)
    (hi : i = .downstreamAccessDone ∨ i.mailboxStep = some (m.code, .run 1)) {d : Chip}
    (h : (s.chip.internalDone q).commandAccessDone (q.data s.chip.mem) = d) : exec i s = .next (s.withChip d.settle) := by
  have done : s.chip.accessDone = d := (s.chip.accessDone_internal .command q hp).trans h
  rcases hi with rfl | row
  · exact exec_downstreamAccessDone s hpor done
  · refine (exec_run s i m.code m 1 row hm rfl).trans (s.next_congr ?_)
    exact (s.chip.advance_access hpor (s.chip.working_access m hm hs)).trans (congrArg Chip.settle done)

theorem Chip.advances_add (m n : Nat) (c : Chip) : Chip.advances (m + n) c = Chip.advances n (Chip.advances m c) := by
  induction m generalizing c with
  | zero => rw [Nat.zero_add]; rfl
  | succ m ih =>
    rw [Nat.succ_add]
    exact ih c.advance

theorem Chip.advances_succ (n : Nat) (c : Chip) : Chip.advances (n + 1) c = Chip.advances n c.advance := rfl

/-! ### What a DACK brings, by the stage -/

section
variable {c : Chip} {m : Command} (hm : c.command = some m) (d : Word)
include hm

theorem Chip.commandAccessDone_announcing (hs : m.stage = .announcing) : c.commandAccessDone d = c.readOperand m := by
  simp only [Chip.commandAccessDone, hm, hs]

theorem Chip.commandAccessDone_operands (hs : m.stage = .operands) : c.commandAccessDone d = c.operandRead m d := by
  simp only [Chip.commandAccessDone, hm, hs]

theorem Chip.commandAccessDone_transferring (a : Transfer) (hs : m.stage = .transferring a) :
    c.commandAccessDone d = c.transferDone m a d := by
  simp only [Chip.commandAccessDone, hm, hs]

theorem Chip.commandAccessDone_detail (k : Completion) (hs : m.stage = .detail k) :
    c.commandAccessDone d = c.writeResult m k 0 := by
  simp only [Chip.commandAccessDone, hm, hs]

theorem Chip.commandAccessDone_result (k : Completion) (i : Nat) (hs : m.stage = .result k i) :
    c.commandAccessDone d = if i < 7 then c.writeResult m k (i + 1) else c.writeStatus m k := by
  simp only [Chip.commandAccessDone, hm, hs]

theorem Chip.commandAccessDone_status (k : Completion) (hs : m.stage = .status k) :
    c.commandAccessDone d = c.commandOver m k := by
  simp only [Chip.commandAccessDone, hm, hs]

end

theorem commandWord_code (code tag : BitVec 8) (upper : BitVec 16) : (commandWord code tag upper).extractLsb' 0 8 = code := by
  have := code.isLt
  apply BitVec.eq_of_toNat_eq
  simp only [commandWord, BitVec.extractLsb'_toNat, toNat_append_add, Nat.shiftRight_eq_div_pow]
  omega

theorem commandWord_tag (code tag : BitVec 8) (upper : BitVec 16) : (commandWord code tag upper).extractLsb' 8 8 = tag := by
  have := code.isLt
  have := tag.isLt
  apply BitVec.eq_of_toNat_eq
  simp only [commandWord, BitVec.extractLsb'_toNat, toNat_append_add, Nat.shiftRight_eq_div_pow]
  omega

section
variable {c : Chip} {b : Binding} (hb : c.bind = .bound b) (m : Command)
include hb

theorem Chip.readOperand_bound : c.readOperand m =
    Chip.issueCommand (c.goto m .operands) (b.mailboxBase + 4 * (m.operands.length + 1)) none := by
  rw [Chip.readOperand, hb]
  rfl

theorem Chip.writeResult_bound (k : Completion) (i : Nat) : c.writeResult m k i =
    Chip.issueCommand (c.goto m (.result k i)) (b.mailboxBase + 4 * (8 + i)) (some (k.result.getD i 0)) := by
  rw [Chip.writeResult, hb]
  rfl

theorem Chip.writeStatus_bound (k : Completion) : c.writeStatus m k =
    Chip.issueCommand (c.goto m (.status k)) (b.mailboxBase + 24)
      (some (statusWord k.final.code k.reason.code m.tag c.overrun)) := by
  rw [Chip.writeStatus, hb]
  rfl

theorem Chip.complete_bound (hm : c.command = some m) (k : Completion) : c.complete k =
    Chip.issueCommand (c.goto m (.detail k)) (b.mailboxBase + 28) (some k.detail) := by
  unfold Chip.complete
  split
  · rename_i m' b' hm' hb'
    rw [hm] at hm'
    rw [hb] at hb'
    cases hm'
    cases hb'
    rfl
  · rename_i no
    exact (no m b hm hb).elim

/-- The take of a command word (R146), with STATUS RUNNING issued (R148). -/
theorem Chip.takeCommand_bound (code tag : BitVec 8) (upper : BitVec 16) :
    c.takeCommand (upper ++ tag ++ code) =
      Chip.issueCommand
        { c with command := some { code := code, tag := tag, preparedAtTake := c.prepared, operands := [],
                                   stage := .announcing },
                 prepared := false, overrun := false, transfer := transferAtTake code }
        (b.mailboxBase + 24) (some (0#8 ++ tag ++ 0#8 ++ 1#8)) := by
  have running : statusWord 1 0 tag false = 0#8 ++ tag ++ 0#8 ++ 1#8 := by
    rw [statusWord, show (BitVec.ofBool false ++ 0#7 : BitVec 8) = 0#8 from rfl]
  have code' : (upper ++ tag ++ code : Word).extractLsb' 0 8 = code := commandWord_code code tag upper
  have tag' : (upper ++ tag ++ code : Word).extractLsb' 8 8 = tag := commandWord_tag code tag upper
  rw [← running]
  unfold Chip.takeCommand
  split
  · rename_i b' hb'
    rw [hb] at hb'
    cases hb'
    rw [code', tag']
    rfl
  · rename_i no
    exact (no b hb).elim

end

/-- An operand before the fifth is followed by the next read. -/
theorem Chip.operandRead_next (c : Chip) (b : Binding) (m : Command) (d : Word) (hb : c.bind = .bound b)
    (h : m.operands.length < 4) :
    c.operandRead m d = Chip.issueCommand (c.goto { m with operands := m.operands ++ [d] } .operands)
      (b.mailboxBase + 4 * (m.operands.length + 2)) none := by
  have count : (m.operands ++ [d]).length = m.operands.length + 1 := by rw [List.length_append, List.length_singleton]
  have fewer : ¬5 ≤ (m.operands ++ [d]).length := by omega
  refine (if_neg fewer).trans ((Chip.readOperand_bound hb _).trans ?_)
  rw [show ({ m with operands := m.operands ++ [d] } : Command).operands.length + 1 = m.operands.length + 2 by
    rw [count]]

theorem Chip.operandRead_last (c : Chip) (m : Command) (d : Word) (h : 4 ≤ m.operands.length) :
    c.operandRead m d = c.goto { m with operands := m.operands ++ [d] } (.working .check) :=
  if_pos (by rw [List.length_append, List.length_singleton]; omega)

/-! ### A command's access at a part otherwise at rest -/

/-- The marks a grant to the Command Engine leaves (R18, R21). -/
def Chip.served (c : Chip) : Chip := { c with starve := 0, im := { c.im with lastServed := .command } }

/-- A chip at rest but for a command whose access is at the port. -/
def Chip.commandAt (c : Chip) (m : Command) (q : MemRequest) : Chip :=
  { c with command := some m, starve := 0, port := some (.internal .command q),
           im := { c.im with current := some (.command, q), lastServed := .command } }

theorem Chip.served_quiet {c : Chip} (quiet : c.Quiet) : c.served.Quiet :=
  ⟨quiet.powered, quiet.noHost, quiet.noBacklog, quiet.freePort, quiet.noCurrent, quiet.noBinding, quiet.noCommand,
    quiet.noReport⟩

theorem Chip.settle_commandAt (c : Chip) (quiet : c.Quiet) (m : Command) (a : Nat) (w : Option Word) :
    Chip.settle (Chip.issueCommand { c with command := some m } a w) = c.commandAt m ⟨BitVec.ofNat 24 a, w⟩ :=
  Chip.settle_issueCommand { c with command := some m } (quiet.of_path ⟨rfl, rfl, rfl, rfl, rfl⟩) ⟨BitVec.ofNat 24 a, w⟩

/-- When the command's access has finished the path is at rest again. -/
theorem Chip.internalDone_commandAt (c : Chip) (quiet : c.Quiet) (m : Command) (q : MemRequest) :
    (c.commandAt m q).internalDone q = { c.served with mem := q.perform c.mem, command := some m } := by
  have current := quiet.noCurrent
  have port := quiet.freePort
  rw [Chip.internalDone, Chip.commandAt, Chip.served]
  simp only [← current, ← port]

/-- The DACK of a command's access. -/
theorem Chip.advance_commandAt (c : Chip) (quiet : c.Quiet) (m : Command) (q : MemRequest) (hs : ∀ w, m.stage ≠ .working w)
    {d : Chip}
    (h : Chip.commandAccessDone { c.served with mem := q.perform c.mem, command := some m } (q.data c.mem) = d) :
    (c.commandAt m q).advance = d.settle := by
  have idle : (c.commandAt m q).working = false := (c.commandAt m q).working_access m rfl hs
  have done : (c.commandAt m q).accessDone = d := by
    rw [(c.commandAt m q).accessDone_internal .command q rfl, c.internalDone_commandAt quiet m q]
    exact h
  exact ((c.commandAt m q).advance_access quiet.powered idle).trans (congrArg Chip.settle done)

/-! ### Reading the operands -/

theorem wordBase_mailbox {b : Binding} (legal : b.Legal) (i : Nat) (hi : i < 16) :
    wordBase (BitVec.ofNat 24 (b.mailboxBase + 4 * i)) = b.mailboxBase + 4 * i := by
  have aligned := legal.mailboxBase
  have inside := legal.mailboxEnd
  simp only [Config.spaceEnd] at inside
  simp only [wordBase, BitVec.toNat_ofNat]
  omega

/-- STATUS RUNNING's DACK issues the read of w1. -/
theorem Chip.commandAt_announcing (c : Chip) (quiet : c.Quiet) (b : Binding) (hb : c.bind = .bound b) (m : Command)
    (q : MemRequest) (hs : m.stage = .announcing) :
    (c.commandAt m q).advance = Chip.commandAt { c.served with mem := q.perform c.mem } { m with stage := .operands }
      ⟨BitVec.ofNat 24 (b.mailboxBase + 4 * (m.operands.length + 1)), none⟩ := by
  refine (c.advance_commandAt quiet m q (fun w h => by rw [hs] at h; cases h)
    ((Chip.commandAccessDone_announcing rfl _ hs).trans (Chip.readOperand_bound (by exact hb) m))).trans ?_
  exact Chip.settle_commandAt { c.served with mem := q.perform c.mem } ((Chip.served_quiet quiet).of_path ⟨rfl, rfl, rfl, rfl, rfl⟩)
    { m with stage := .operands } _ none

/-- An operand's DACK issues the read of the next. -/
theorem Chip.commandAt_operand (c : Chip) (quiet : c.Quiet) (b : Binding) (legal : b.Legal) (hb : c.bind = .bound b) (m : Command)
    (n : Nat) (hs : m.stage = .operands) (hn : m.operands.length = n) (h : n < 4) :
    (c.commandAt m ⟨BitVec.ofNat 24 (b.mailboxBase + 4 * (n + 1)), none⟩).advance =
      Chip.commandAt c.served { m with operands := m.operands ++ [Mem.readWord c.mem (b.mailboxBase + 4 * (n + 1))] }
        ⟨BitVec.ofNat 24 (b.mailboxBase + 4 * (n + 2)), none⟩ := by
  subst hn
  refine (c.advance_commandAt quiet m _ (fun w h => by rw [hs] at h; cases h)
    ((Chip.commandAccessDone_operands rfl _ hs).trans (Chip.operandRead_next _ b m _ hb h))).trans ?_
  rw [MemRequest.data_read _ _ rfl, wordBase_mailbox legal _ (by omega), ← hs]
  exact Chip.settle_commandAt c.served (Chip.served_quiet quiet) _ _ none

/-- The fifth operand's DACK leaves the command at its check. -/
theorem Chip.commandAt_lastOperand (c : Chip) (quiet : c.Quiet) (b : Binding) (legal : b.Legal) (m : Command)
    (hs : m.stage = .operands) (h : m.operands.length = 4) :
    (c.commandAt m ⟨BitVec.ofNat 24 (b.mailboxBase + 4 * 5), none⟩).advance =
      { c.served with command := some { m with
          operands := m.operands ++ [Mem.readWord c.mem (b.mailboxBase + 4 * 5)], stage := .working .check } } := by
  refine (c.advance_commandAt quiet m _ (fun w h => by rw [hs] at h; cases h)
    ((Chip.commandAccessDone_operands rfl _ hs).trans (Chip.operandRead_last _ m _ (by omega)))).trans ?_
  rw [MemRequest.data_read _ _ rfl, wordBase_mailbox legal _ (by omega)]
  exact Chip.settle_quiet _ ((Chip.served_quiet quiet).of_path ⟨rfl, rfl, rfl, rfl, rfl⟩)

/-- The five operand reads. -/
theorem Chip.commandAt_operands (c : Chip) (quiet : c.Quiet) (b : Binding) (legal : b.Legal) (hb : c.bind = .bound b)
    (m : Command) (hs : m.stage = .operands) (ho : m.operands = []) :
    Chip.advances 5 (c.commandAt m ⟨BitVec.ofNat 24 (b.mailboxBase + 4 * 1), none⟩) =
      { c.served with command := some { m with
          operands := [1, 2, 3, 4, 5].map fun k => Mem.readWord c.mem (b.mailboxBase + 4 * k), stage := .working .check } } := by
  obtain ⟨code, tag, prepared, operands, stage⟩ := m
  dsimp only at hs ho
  subst hs ho
  have quiet' := Chip.served_quiet quiet
  have hb' : c.served.bind = .bound b := hb
  have first : (c.commandAt ⟨code, tag, prepared, [], .operands⟩ ⟨BitVec.ofNat 24 (b.mailboxBase + 4 * 1), none⟩).advance =
      c.served.commandAt ⟨code, tag, prepared, [Mem.readWord c.mem (b.mailboxBase + 4 * 1)], .operands⟩
        ⟨BitVec.ofNat 24 (b.mailboxBase + 4 * 2), none⟩ :=
    c.commandAt_operand quiet b legal hb ⟨code, tag, prepared, [], .operands⟩ 0 rfl rfl (by decide)
  have next (operands : List Word) (n : Nat) (hn : operands.length = n) (h : n < 4) :
      (c.served.commandAt ⟨code, tag, prepared, operands, .operands⟩
        ⟨BitVec.ofNat 24 (b.mailboxBase + 4 * (n + 1)), none⟩).advance =
      c.served.commandAt ⟨code, tag, prepared, operands ++ [Mem.readWord c.mem (b.mailboxBase + 4 * (n + 1))], .operands⟩
        ⟨BitVec.ofNat 24 (b.mailboxBase + 4 * (n + 2)), none⟩ :=
    c.served.commandAt_operand quiet' b legal hb' ⟨code, tag, prepared, operands, .operands⟩ n rfl hn h
  rw [Chip.advances_succ, first, Chip.advances_succ, next _ 1 rfl (by decide), Chip.advances_succ,
    next _ 2 rfl (by decide), Chip.advances_succ, next _ 3 rfl (by decide), Chip.advances_succ]
  exact c.served.commandAt_lastOperand quiet' b legal ⟨code, tag, prepared, _, .operands⟩ rfl rfl

/-! ### The take -/

/-- A nonzero command word written whole to the mailbox of an idle engine is taken (R8, R146). -/
theorem Chip.classify_commandWord (c : Chip) (b : Binding) (hb : c.bind = .bound b) (legal : b.Legal)
    (idle : c.command = none) (code tag : BitVec 8) (upper : BitVec 16) (a : Addr) (hcode : code ≠ 0#8)
    (ha : wordBase a = b.mailboxBase) : c.classify ⟨a, .write (commandWord code tag upper) 0xF#4⟩ = .commandWrite := by
  rw [c.classify_bound_write b hb, Binding.window_mailbox legal 0 (by decide) _ (by rw [ha, Nat.mul_zero, Nat.add_zero]),
    Window.treatWrite_mailbox, if_neg (by decide), if_neg (not_not.2 idle), commandWord_code, if_pos ⟨rfl, rfl, hcode⟩]

/-- The chip of a host's command write once the word is taken, before STATUS RUNNING reaches RAM (R146). -/
def Chip.takenCommand (c : Chip) (b : Binding) (code tag : BitVec 8) (upper : BitVec 16) : Chip :=
  { c with mem := Mem.writeWord c.mem b.mailboxBase 0xF#4 (upper ++ tag ++ code), answer := .written,
           command := some { code := code, tag := tag, preparedAtTake := c.prepared, operands := [], stage := .announcing },
           prepared := false, overrun := false, transfer := transferAtTake code }

/-- The word's DACK is the first event of the row. -/
theorem Chip.commandRow_word (c : Chip) (quiet : c.Quiet) (b : Binding) (hb : c.bind = .bound b) (legal : b.Legal)
    (idle : c.command = none) (code tag : BitVec 8) (upper : BitVec 16) (a : Addr) (n : Nat) (hcode : code ≠ 0#8)
    (ha : wordBase a = b.mailboxBase) :
    c.commandRow code (.word a tag upper (n + 1)) =
      Chip.advances n (Chip.settle (Chip.issueCommand (c.takenCommand b code tag upper) (b.mailboxBase + 24)
        (some (0#8 ++ tag ++ 0#8 ++ 1#8)))) := by
  have kind := c.classify_commandWord b hb legal idle code tag upper a hcode ha
  have waits := c.hostPresents_waits _ _ quiet kind rfl
  have working : (c.hostPresents ⟨a, .write (commandWord code tag upper) 0xF#4⟩).working = false := by
    rw [waits]
    exact Chip.working_idle _ idle
  have powered : (c.hostPresents ⟨a, .write (commandWord code tag upper) 0xF#4⟩).porLow = false := by
    rw [waits]
    exact quiet.powered
  have dack : (c.hostPresents ⟨a, .write (commandWord code tag upper) 0xF#4⟩).advance =
      c.hostWrite a (commandWord code tag upper) 0xF#4 1 :=
    (Chip.advance_access _ powered working).trans (Chip.event_high _ _ powered).symm
  have taken := Chip.takeCommand_bound
    (c := { c with mem := Mem.writeWord c.mem (wordBase a) 0xF#4 (commandWord code tag upper), answer := .written })
    hb code tag upper
  refine congrArg (Chip.advances n) (dack.trans ((c.hostWrite_waits a _ 0xF#4 _ quiet kind rfl).trans
    (congrArg Chip.settle (taken.trans ?_))))
  rw [ha]
  rfl

/-- The word, STATUS RUNNING and the five operand reads. -/
theorem Chip.commandRow_wordToCheck (c : Chip) (quiet : c.Quiet) (ok : c.MemOk) (b : Binding) (hb : c.bind = .bound b)
    (legal : b.Legal) (idle : c.command = none) (code tag : BitVec 8) (upper : BitVec 16) (a : Addr) (hcode : code ≠ 0#8)
    (ha : wordBase a = b.mailboxBase) :
    c.commandRow code (.word a tag upper 7) =
      { c with
        mem := Mem.writeWord (Mem.writeWord c.mem b.mailboxBase 0xF#4 (upper ++ tag ++ code)) (b.mailboxBase + 24)
          0xF#4 (0#8 ++ tag ++ 0#8 ++ 1#8),
        answer := .written,
        command := some { code := code, tag := tag, preparedAtTake := c.prepared,
                          operands := [1, 2, 3, 4, 5].map fun k => Mem.readWord c.mem (b.mailboxBase + 4 * k),
                          stage := .working .check },
        prepared := false, overrun := false, transfer := transferAtTake code, starve := 0,
        im := { c.im with lastServed := .command } } := by
  have inside := legal.mailboxEnd
  simp only [Config.spaceEnd] at inside
  set t := c.takenCommand b code tag upper with ht
  set word : Word := 0#8 ++ tag ++ 0#8 ++ 1#8 with hword
  have quiet' : t.Quiet := quiet.of_path ⟨rfl, rfl, rfl, rfl, rfl⟩
  set q : MemRequest := ⟨BitVec.ofNat 24 (b.mailboxBase + 24), some word⟩ with hq
  set m : Command := ⟨code, tag, c.prepared, [], .announcing⟩ with hmdef
  have start : Chip.settle (t.issueCommand (b.mailboxBase + 24) (some word)) = t.commandAt m q :=
    t.settle_commandAt quiet' m _ _
  have ram : q.perform t.mem = Mem.writeWord t.mem (b.mailboxBase + 24) 0xF#4 word := by
    rw [hq, MemRequest.perform_write, show b.mailboxBase + 24 = b.mailboxBase + 4 * 6 from rfl,
      wordBase_mailbox legal 6 (by decide)]
  have announced := t.commandAt_announcing quiet' b hb m q rfl
  set u : Chip := { t.served with mem := q.perform t.mem } with hu
  have read := u.commandAt_operands ((Chip.served_quiet quiet').of_path ⟨rfl, rfl, rfl, rfl, rfl⟩) b legal hb
    { m with stage := .operands } rfl rfl
  have operands : ([1, 2, 3, 4, 5].map fun k => Mem.readWord u.mem (b.mailboxBase + 4 * k)) =
      [1, 2, 3, 4, 5].map fun k => Mem.readWord c.mem (b.mailboxBase + 4 * k) := by
    refine List.map_congr_left fun k hk => ?_
    have small : 1 ≤ k ∧ k ≤ 5 := by simp at hk; omega
    have okWord : Mem.wf t.mem = true := 
      Mem.writeWord_wf c.mem b.mailboxBase 0xF#4 (upper ++ tag ++ code) (by simp only [Config.spaceEnd]; omega) ok
    rw [show u.mem = q.perform t.mem from rfl, ram,
      Mem.readWord_writeWord_other _ _ _ _ (by simp only [Config.spaceEnd]; omega) okWord (by omega)]
    exact Mem.readWord_writeWord_other _ _ _ _ (by simp only [Config.spaceEnd]; omega) ok (by omega)
  rw [c.commandRow_word quiet b hb legal idle code tag upper a 6 hcode ha, start, Chip.advances_succ, announced]
  refine read.trans ?_
  rw [operands]
  exact congrArg (fun mem : List Host.Cell => { u.served with
    mem := mem, command := some ⟨code, tag, c.prepared, [1, 2, 3, 4, 5].map fun k => Mem.readWord c.mem (b.mailboxBase + 4 * k),
      .working .check⟩ }) ram

/-- Settles O47: a DACK at each of the two stages, and the word's row for seven events and for one. -/
theorem commandWordIsTakenAndOperandsRead : Obligations.CommandWordIsTakenAndOperandsRead := by
  refine ⟨fun s m b q i hpor hb hp hm hi => ?_, fun s b i code tag upper a quiet ok hb legal idle hi hcode ha => ?_,
    fun s b i code tag upper a quiet hb legal idle hi hcode ha => ?_⟩
  · have bound : (s.chip.internalDone q).bind = .bound b := hb
    have inHand : (s.chip.internalDone q).command = some m := hm
    refine ⟨fun hs => ?_, fun hs hq => ?_⟩
    · exact exec_commandAccess s i m q hpor hp hm (fun w h => by rw [hs] at h; cases h) hi
        ((Chip.commandAccessDone_announcing inHand _ hs).trans (Chip.readOperand_bound bound m))
    · have stage : ∀ w, m.stage ≠ .working w := fun w h => by rw [hs] at h; cases h
      rw [← q.data_read s.chip.mem hq]
      refine ⟨fun few => ?_, fun many => ?_⟩
      · exact exec_commandAccess s i m q hpor hp hm stage hi
          ((Chip.commandAccessDone_operands inHand _ hs).trans (Chip.operandRead_next _ b m _ bound few))
      · exact exec_commandAccess s i m q hpor hp hm stage hi
          ((Chip.commandAccessDone_operands inHand _ hs).trans (Chip.operandRead_last _ m _ many))
  · exact (exec_mailbox s i code _ hi).trans
      (s.next_congr (s.chip.commandRow_wordToCheck quiet ok b hb legal idle code tag upper a hcode ha))
  · exact (exec_mailbox s i code _ hi).trans
      (s.next_congr (s.chip.commandRow_word quiet b hb legal idle code tag upper a 0 hcode ha))

end Sys2Proof.Machine
end


-- ==== Sys2Proof/Proofs/Refusals.lean ====
section
/-! SUPPORT. The checks that turn a command away (R41, R69, R71 to R73, R119, R148, R151, R153). O48 is settled here. -/

namespace Sys2Proof.Machine

/-! ### The code's own check -/

section
variable {c : Chip} {m : Command}

theorem Chip.checkCommand_sealed (hc : sealChecked m.code = true) (hs : c.sealed = true) :
    c.checkCommand m = c.complete (refuse .sealed 0) := if_pos ⟨hc, hs⟩

/-- A code that consults no seal goes to its own check (R41). -/
theorem notSealed_of_code {code : BitVec 8} {s : Bool} (h : sealChecked code = false) : ¬(sealChecked code ∧ s = true) :=
  fun both => by rw [h] at both; exact absurd both.1 (by decide)

theorem notSealed_of_unsealed {code : BitVec 8} {s : Bool} (h : s = false) : ¬(sealChecked code ∧ s = true) :=
  fun both => by rw [h] at both; exact absurd both.2 (by decide)

theorem Chip.checkCommand_planLoad (hc : m.code = 1) (hs : c.sealed = false) :
    c.checkCommand m = c.checkTransfer (c.checkPlanLoad m) := by
  rw [Chip.checkCommand, if_neg (notSealed_of_unsealed hs), hc]; rfl

theorem Chip.checkCommand_snapshot (hc : m.code = 2) : c.checkCommand m = c.checkTransfer (c.checkSnapshot m) := by
  rw [Chip.checkCommand, hc, if_neg (notSealed_of_code (by decide))]; rfl

theorem Chip.checkCommand_restore (hc : m.code = 3) (hs : c.sealed = false) :
    c.checkCommand m = c.checkTransfer (c.checkRestore m) := by
  rw [Chip.checkCommand, if_neg (notSealed_of_unsealed hs), hc]; rfl

theorem Chip.checkCommand_profileSet (hc : m.code = 4) (hs : c.sealed = false) : c.checkCommand m = c.checkProfileSet m := by
  rw [Chip.checkCommand, if_neg (notSealed_of_unsealed hs), hc]; rfl

theorem Chip.checkCommand_sealPlan (hc : m.code = 5) : c.checkCommand m = c.checkSeal := by
  rw [Chip.checkCommand, hc, if_neg (notSealed_of_code (by decide))]; rfl

theorem Chip.checkCommand_walkStart (hc : m.code = 6) : c.checkCommand m = c.checkWalkStart m := by
  rw [Chip.checkCommand, hc, if_neg (notSealed_of_code (by decide))]; rfl

theorem Chip.checkCommand_walkEnd (hc : m.code = 7) : c.checkCommand m = c.checkWalkEnd m := by
  rw [Chip.checkCommand, hc, if_neg (notSealed_of_code (by decide))]; rfl

theorem Chip.checkCommand_accept (hc : m.code = 8) : c.checkCommand m = c.checkAccept m := by
  rw [Chip.checkCommand, hc, if_neg (notSealed_of_code (by decide))]; rfl

theorem Chip.checkCommand_release (hc : m.code = 9) (hs : c.sealed = false) : c.checkCommand m = c.checkRelease m := by
  rw [Chip.checkCommand, if_neg (notSealed_of_unsealed hs), hc]; rfl

theorem Chip.checkCommand_adopt (hc : m.code = 10) : c.checkCommand m = c.checkAdopt m := by
  rw [Chip.checkCommand, hc, if_neg (notSealed_of_code (by decide))]; rfl

theorem Chip.checkCommand_clearFlags (hc : m.code = 11) : c.checkCommand m = c.checkClearFlags m := by
  rw [Chip.checkCommand, hc, if_neg (notSealed_of_code (by decide))]; rfl

theorem Chip.checkCommand_clearVerdict (hc : m.code = 12) : c.checkCommand m = c.checkClearVerdict m := by
  rw [Chip.checkCommand, hc, if_neg (notSealed_of_code (by decide))]; rfl

theorem Chip.checkCommand_revertPrepare (hc : m.code = 13) (hs : c.sealed = false) : c.checkCommand m = c.complete (done []) := by
  rw [Chip.checkCommand, if_neg (notSealed_of_unsealed hs), hc]; rfl

theorem Chip.checkCommand_revert (hc : m.code = 14) (hs : c.sealed = false) : c.checkCommand m = c.checkRevert m := by
  rw [Chip.checkCommand, if_neg (notSealed_of_unsealed hs), hc]; rfl

theorem Chip.checkCommand_query (hc : m.code = 15) : c.checkCommand m = c.gotoWork m (.query 0 Census.zero) := by
  rw [Chip.checkCommand, hc, if_neg (notSealed_of_code (by decide))]; rfl

theorem Chip.checkCommand_reset (hc : m.code = 16) : c.checkCommand m = c.complete (done []) := by
  rw [Chip.checkCommand, hc, if_neg (notSealed_of_code (by decide))]; rfl

theorem sealChecked_iff (code : BitVec 8) : sealChecked code = true ↔ code.toNat ∈ [1, 3, 4, 9, 13, 14] :=
  List.contains_iff_mem

/-- A code that names no command (R148). -/
theorem Chip.checkCommand_unknown (h : ¬(1 ≤ m.code.toNat ∧ m.code.toNat ≤ 16)) :
    c.checkCommand m = c.complete (refuse .unknownCommand m.code.toNat) := by
  have unsealed : sealChecked m.code = false := by
    rw [Bool.eq_false_iff]
    intro consulted
    have := (sealChecked_iff _).1 consulted
    simp only [List.mem_cons, List.not_mem_nil, or_false] at this
    omega
  rw [Chip.checkCommand, if_neg (notSealed_of_code unsealed)]
  generalize m.code.toNat = n at h
  split
  case h_17 => rfl
  all_goals exact absurd ⟨by decide, by decide⟩ h

end

/-! ### The operands of a range -/

theorem Chip.loops_bound (c : Chip) (b : Binding) (hb : c.bind = .bound b) : c.loops = b.loops := by rw [Chip.loops, hb]

section
variable {loops : Nat} {m : Command}

theorem rangeFault_loop (h : ¬(1 ≤ m.num 1 ∧ m.num 1 ≤ loops)) : rangeFault loops m = some 1 := if_pos h

theorem rangeFault_start (h1 : 1 ≤ m.num 1 ∧ m.num 1 ≤ loops) (h : ¬(1 ≤ m.num 2 ∧ m.num 2 ≤ 192)) :
    rangeFault loops m = some 2 := (if_neg (not_not.2 h1)).trans (if_pos h)

theorem rangeFault_count (h1 : 1 ≤ m.num 1 ∧ m.num 1 ≤ loops) (h2 : 1 ≤ m.num 2 ∧ m.num 2 ≤ 192)
    (h : ¬(1 ≤ m.num 3 ∧ m.num 3 ≤ 192 ∧ m.num 2 + m.num 3 - 1 ≤ 192)) : rangeFault loops m = some 3 :=
  (if_neg (not_not.2 h1)).trans ((if_neg (not_not.2 h2)).trans (if_pos h))

theorem rangeFault_none {b : Binding} (h : m.RangeOk b) : rangeFault b.loops m = none := by
  obtain ⟨loop, start, count, last⟩ := h
  exact (if_neg (not_not.2 loop)).trans ((if_neg (not_not.2 ⟨start, by omega⟩)).trans
    (if_neg (not_not.2 ⟨count, by omega, last⟩)))

theorem adoptFault_loop (h : ¬(1 ≤ m.num 1 ∧ m.num 1 ≤ loops)) : adoptFault loops m = some 1 := if_pos h

theorem adoptFault_start (h1 : 1 ≤ m.num 1 ∧ m.num 1 ≤ loops) (h : ¬(1 ≤ m.num 2 ∧ m.num 2 ≤ 192)) :
    adoptFault loops m = some 2 := (if_neg (not_not.2 h1)).trans (if_pos h)

theorem adoptFault_choice (h1 : 1 ≤ m.num 1 ∧ m.num 1 ≤ loops) (h2 : 1 ≤ m.num 2 ∧ m.num 2 ≤ 192)
    (h : ¬(m.num 3 = 1 ∨ m.num 3 = 2)) : adoptFault loops m = some 3 :=
  (if_neg (not_not.2 h1)).trans ((if_neg (not_not.2 h2)).trans (if_pos h))

theorem adoptFault_none (h1 : 1 ≤ m.num 1 ∧ m.num 1 ≤ loops) (h2 : 1 ≤ m.num 2 ∧ m.num 2 ≤ 192)
    (h : m.num 3 = 1 ∨ m.num 3 = 2) : adoptFault loops m = none :=
  (if_neg (not_not.2 h1)).trans ((if_neg (not_not.2 h2)).trans (if_neg (not_not.2 h)))

end

theorem Chip.checkRange_fault (c : Chip) (m : Command) (ok : PointRecord → Bool) (w : Work) (i : Nat)
    (h : rangeFault c.loops m = some i) : c.checkRange m ok w = c.complete (refuse .badOperand i) := by
  rw [Chip.checkRange, h]

theorem Chip.checkRange_failing (c : Chip) (m : Command) (ok : PointRecord → Bool) (w : Work) (i : Nat)
    (h : rangeFault c.loops m = none) (bad : c.firstFailing m.firstRecord (m.num 3) ok = some i) :
    c.checkRange m ok w = c.complete (refuse .wrongState i) := by
  rw [Chip.checkRange, h]
  show (match c.firstFailing m.firstRecord (m.num 3) ok with
    | some i => c.complete (refuse .wrongState i)
    | none => c.gotoWork m w) = _
  rw [bad]

theorem Chip.checkRange_ok (c : Chip) (m : Command) (ok : PointRecord → Bool) (w : Work)
    (h : rangeFault c.loops m = none) (good : c.firstFailing m.firstRecord (m.num 3) ok = none) :
    c.checkRange m ok w = c.gotoWork m w := by
  rw [Chip.checkRange, h]
  show (match c.firstFailing m.firstRecord (m.num 3) ok with
    | some i => c.complete (refuse .wrongState i)
    | none => c.gotoWork m w) = _
  rw [good]

theorem Chip.checkClearFlags_fault (c : Chip) (m : Command) (i : Nat) (h : rangeFault c.loops m = some i) :
    c.checkClearFlags m = c.complete (refuse .badOperand i) := by rw [Chip.checkClearFlags, h]

theorem Chip.checkClearVerdict_fault (c : Chip) (m : Command) (i : Nat) (h : rangeFault c.loops m = some i) :
    c.checkClearVerdict m = c.complete (refuse .badOperand i) := by rw [Chip.checkClearVerdict, h]

theorem Chip.checkAdopt_fault (c : Chip) (m : Command) (i : Nat) (h : adoptFault c.loops m = some i) :
    c.checkAdopt m = c.complete (refuse .badOperand i) := by rw [Chip.checkAdopt, h]

/-- Each range command turns a bad operand away (R69, R119). -/
theorem Chip.checkCommand_rangeFault {c : Chip} {m : Command} {i : Nat} (hc : m.code.toNat ∈ [8, 9, 11, 12])
    (hs : m.code = 9 → c.sealed = false) (h : rangeFault c.loops m = some i) :
    c.checkCommand m = c.complete (refuse .badOperand i) := by
  simp only [List.mem_cons, List.not_mem_nil, or_false] at hc
  have code {n : Nat} (e : m.code.toNat = n) : m.code = BitVec.ofNat 8 n := by rw [← e, BitVec.ofNat_toNat, BitVec.setWidth_eq]
  rcases hc with e | e | e | e
  · exact (Chip.checkCommand_accept (code e)).trans (c.checkRange_fault m _ _ i h)
  · exact (Chip.checkCommand_release (code e) (hs (code e))).trans (c.checkRange_fault m _ _ i h)
  · exact (Chip.checkCommand_clearFlags (code e)).trans (c.checkClearFlags_fault m i h)
  · exact (Chip.checkCommand_clearVerdict (code e)).trans (c.checkClearVerdict_fault m i h)

/-! ### The first point that fails -/

theorem Command.covers_iff (m : Command) (r : Rec) :
    m.covers r = true ↔ m.firstRecord ≤ r.val ∧ r.val < m.firstRecord + m.num 3 := by
  rw [Command.covers, decide_eq_true_iff]
  rfl

/-- A range lies inside the tables (R69). -/
theorem Command.RangeOk.inside {m : Command} {b : Binding} (h : m.RangeOk b) (legal : b.Legal) :
    m.firstRecord + m.num 3 ≤ 768 := by
  obtain ⟨loop, start, count, last⟩ := h
  have loops := legal.loops
  rw [Command.firstRecord]
  omega

theorem recordAt_val (r : Rec) : recordAt r.val = r := Fin.ext (Nat.mod_eq_of_lt r.isLt)

theorem Chip.points_recordAt (c : Chip) (r : Rec) : c.points[recordAt r.val] = c.points[r] :=
  congrArg (fun i : Rec => c.points[i]) (recordAt_val r)

theorem Chip.firstFailing_none (c : Chip) (start count : Nat) (ok : PointRecord → Bool) (inside : start + count ≤ 768)
    (h : ∀ r : Rec, start ≤ r.val → r.val < start + count → ok c.points[r] = true) : c.firstFailing start count ok = none := by
  refine List.find?_eq_none.2 fun i hi => ?_
  obtain ⟨j, hj, rfl⟩ := List.mem_map.1 hi
  have below := List.mem_range.1 hj
  have good := h ⟨start + j, by omega⟩ (Nat.le_add_right _ _) (by show start + j < _; omega)
  rw [← c.points_recordAt ⟨start + j, by omega⟩] at good
  rw [good]
  decide

theorem Chip.firstFailing_some (c : Chip) (start count : Nat) (ok : PointRecord → Bool) (inside : start + count ≤ 768) (r : Rec)
    (hr : start ≤ r.val ∧ r.val < start + count) (bad : ok c.points[r] = false)
    (before : ∀ i : Rec, start ≤ i.val → i < r → ok c.points[i] = true) : c.firstFailing start count ok = some r.val := by
  refine List.find?_eq_some_iff_getElem.2 ⟨by rw [c.points_recordAt, bad]; rfl, r.val - start, ?_, ?_, fun j hj => ?_⟩
  · rw [List.length_map, List.length_range]
    omega
  · rw [List.getElem_map, List.getElem_range]
    omega
  · have good := before ⟨start + j, by omega⟩ (Nat.le_add_right _ _) (by show start + j < r.val; omega)
    rw [← c.points_recordAt ⟨start + j, by omega⟩] at good
    rw [List.getElem_map, List.getElem_range, good]
    rfl

/-! ### ADOPT -/

theorem Chip.checkAdopt_wrongState (c : Chip) (m : Command) (r : Rec) (h : adoptFault c.loops m = none)
    (hr : r.val = m.firstRecord) (bad : c.points[r].adoptable (m.num 3 == 2) = false) :
    c.checkAdopt m = c.complete (refuse .wrongState r.val) := by
  have at_r : recordAt m.firstRecord = r := by rw [← hr, recordAt_val]
  have record : (c.points[recordAt m.firstRecord]).adoptable (m.num 3 == 2) = false :=
    (congrArg (fun i : Rec => c.points[i].adoptable (m.num 3 == 2)) at_r).trans bad
  unfold Chip.checkAdopt
  rw [h]
  exact (if_neg (by rw [record]; decide)).trans (by rw [hr])

theorem PointRecord.not_adoptable {p : PointRecord} {second : Bool}
    (h : p.state ≠ .conflict ∨ (second = true ∧ p.secondSerial = none)) : p.adoptable second = false := by
  rw [PointRecord.adoptable, Bool.and_eq_false_iff]
  rcases h with other | ⟨chosen, absent⟩
  · exact .inl (beq_eq_false_iff_ne.2 other)
  · exact .inr (by rw [chosen, absent]; rfl)

theorem acceptable_iff (p : PointRecord) :
    p.acceptable = true ↔ p.state = .tested ∧ p.presence = .live ∧ p.firstSerial.isSome = true := by
  rw [PointRecord.acceptable, Bool.and_eq_true, Bool.and_eq_true, beq_iff_eq, beq_iff_eq, and_assoc]

/-- ACCEPT's test of a point (R71). -/
theorem accept_ok_iff (p : PointRecord) : (p.state == .commissioned || p.acceptable) = true ↔
    p.state = .commissioned ∨ (p.state = .tested ∧ p.presence = .live ∧ p.firstSerial.isSome = true) := by
  rw [Bool.or_eq_true, beq_iff_eq, acceptable_iff]

/-- Settles O48: each refusal by the check that makes it. -/
theorem refusalsComeInTheirOrder : Obligations.RefusalsComeInTheirOrder := by
  intro s m b i code check hi turnsAway first
  have hc := check.isCode
  subst hc
  have loops := s.chip.loops_bound b check.bound
  have turns {reason : Reason} {detail : Nat} (h : s.chip.checkCommand m = s.chip.complete (refuse reason detail)) :
      turnsAway reason detail := exec_runCheck s i m b m.code check hi h
  refine ⟨fun unknown => turns (Chip.checkCommand_unknown unknown),
    fun six hs => turns (Chip.checkCommand_sealed ((sealChecked_iff _).2 six) hs), fun code hs prepared => turns ?_,
    fun code hs => ⟨fun h => turns ?_, fun h1 h => turns ?_, fun h1 h2 h => turns ?_, fun range code11 h => turns ?_⟩,
    fun code => ⟨fun h => turns ?_, fun h1 h => turns ?_, fun h1 h2 n1 n2 => turns ?_, fun r h1 h2 hr choice bad => turns ?_⟩,
    fun r legal range covers hs isBad before => turns ?_⟩
  · exact (Chip.checkCommand_revert code hs).trans (if_neg (by rw [prepared]; decide))
  · exact Chip.checkCommand_rangeFault code hs (rangeFault_loop (by rw [loops]; exact h))
  · exact Chip.checkCommand_rangeFault code hs (rangeFault_start (by rw [loops]; exact h1) h)
  · exact Chip.checkCommand_rangeFault code hs (rangeFault_count (by rw [loops]; exact h1) h2 h)
  · rw [Chip.checkCommand_clearFlags code11, Chip.checkClearFlags, loops, rangeFault_none range]
    exact if_pos h
  · exact (Chip.checkCommand_adopt code).trans (Chip.checkAdopt_fault _ m 1 (adoptFault_loop (by rw [loops]; exact h)))
  · exact (Chip.checkCommand_adopt code).trans (Chip.checkAdopt_fault _ m 2 (adoptFault_start (by rw [loops]; exact h1) h))
  · exact (Chip.checkCommand_adopt code).trans (Chip.checkAdopt_fault _ m 3
      (adoptFault_choice (by rw [loops]; exact h1) h2 (not_or.2 ⟨n1, n2⟩)))
  · refine (Chip.checkCommand_adopt code).trans (s.chip.checkAdopt_wrongState m r
      (adoptFault_none (by rw [loops]; exact h1) h2 choice) hr (PointRecord.not_adoptable ?_))
    exact bad.imp_right fun h => ⟨beq_iff_eq.2 h.1, h.2⟩
  · have fault : rangeFault s.chip.loops m = none := by rw [loops]; exact rangeFault_none range
    have inside := range.inside legal
    have covered := (m.covers_iff r).1 covers
    have earlier (i : Rec) (h : m.firstRecord ≤ i.val) (hr : i < r) :=
      before i ((m.covers_iff i).2 ⟨h, by have := Fin.lt_def.1 hr; omega⟩) hr
    rcases isBad with ⟨code, accept⟩ | ⟨code, release⟩
    · refine (Chip.checkCommand_accept code).trans (s.chip.checkRange_failing m _ _ r.val fault
        (s.chip.firstFailing_some _ _ _ inside r covered ?_ fun i h hr => ?_))
      · rw [Bool.eq_false_iff]
        exact fun good => ((accept_ok_iff _).1 good).elim accept.1 accept.2
      · by_contra no
        refine earlier i h hr (.inl ⟨code, ?_⟩)
        exact not_or.1 fun good => no ((accept_ok_iff _).2 good)
    · refine (Chip.checkCommand_release code (hs code)).trans (s.chip.checkRange_failing m _ _ r.val fault
        (s.chip.firstFailing_some _ _ _ inside r covered (beq_eq_false_iff_ne.2 release) fun i h hr => ?_))
      by_contra no
      exact earlier i h hr (.inr ⟨code, fun good => no (beq_iff_eq.2 good)⟩)

end Sys2Proof.Machine
end


-- ==== Sys2Proof/Proofs/Completion.lean ====
section
/-! SUPPORT. A completion's accesses, its return to IDLE, and the unbind of RESET (R149, R150, R152, R156). O49 and O50 are
settled here. -/

namespace Sys2Proof.Machine

/-! ### The return to IDLE -/

theorem commandDoneB_eq (final : FinalState) (reason : Reason) :
    commandDoneB final reason = word (final.code + 256 * reason.code) := by
  cases final <;> cases reason <;> rfl

/-- A command other than RESET returns to IDLE with COMMAND DONE (R149, R150, R152). -/
theorem Chip.commandOver_idle (c : Chip) (m : Command) (k : Completion) (h : m.code ≠ 16) : c.commandOver m k =
    Chip.raise { c with command := none, transfer := none,
                        prepared := if m.code = 13 ∧ k.final = .done then true else c.prepared }
      { kind := .commandDone, loop := 0, addr := 0, zone := 0, time := c.seconds,
        detailA := 0#16 ++ m.tag ++ m.code, detailB := word (k.final.code + 256 * k.reason.code) } := by
  rw [← commandDoneB_eq]
  exact if_neg h

theorem Chip.commandOver_reset (c : Chip) (m : Command) (k : Completion) (h : m.code = 16) :
    c.commandOver m k = c.unbindByCommand := if_pos h

/-! ### The completion's accesses -/

/-- RAM with a word written to mailbox word `i`. -/
def Binding.writeMailbox (b : Binding) (mem : List Host.Cell) (i : Nat) (w : Word) : List Host.Cell :=
  Mem.writeWord mem (b.mailboxBase + 4 * i) 0xF#4 w

theorem Binding.perform_mailbox {b : Binding} (legal : b.Legal) (mem : List Host.Cell) (i : Nat) (hi : i < 16) (w : Word) :
    (⟨BitVec.ofNat 24 (b.mailboxBase + 4 * i), some w⟩ : MemRequest).perform mem = b.writeMailbox mem i w := by
  rw [MemRequest.perform_write, wordBase_mailbox legal i hi]
  rfl

theorem Binding.writeMailbox_wf {b : Binding} (legal : b.Legal) {mem : List Host.Cell} (ok : Mem.wf mem = true) (i : Nat)
    (hi : i < 16) (w : Word) : Mem.wf (b.writeMailbox mem i w) = true :=
  Mem.writeWord_wf _ _ _ _ (by have := legal.mailboxEnd; simp only [Config.spaceEnd] at this ⊢; omega) ok

theorem Binding.readWord_writeMailbox {b : Binding} (legal : b.Legal) {mem : List Host.Cell} (ok : Mem.wf mem = true)
    (i j : Nat) (hi : i < 16) (w : Word) : Mem.readWord (b.writeMailbox mem i w) (b.mailboxBase + 4 * j) =
      if j = i then w else Mem.readWord mem (b.mailboxBase + 4 * j) := by
  have inside : b.mailboxBase + 4 * i + 3 < Config.spaceEnd := by
    have := legal.mailboxEnd
    simp only [Config.spaceEnd] at this ⊢
    omega
  by_cases h : j = i
  · subst h
    rw [if_pos rfl]
    exact Mem.readWord_writeWord _ _ _ inside ok
  · rw [if_neg h]
    exact Mem.readWord_writeWord_other _ _ _ _ inside ok (by omega)

theorem Binding.read_writeMailbox {b : Binding} (legal : b.Legal) {mem : List Host.Cell} (ok : Mem.wf mem = true)
    (i x : Nat) (hi : i < 16) (w : Word) (h : x < b.mailboxBase + 4 * i ∨ b.mailboxBase + 4 * i + 4 ≤ x) :
    Mem.read (b.writeMailbox mem i w) x = Mem.read mem x := by
  have inside : b.mailboxBase + 4 * i + 3 < Config.spaceEnd := by
    have := legal.mailboxEnd
    simp only [Config.spaceEnd] at this ⊢
    omega
  exact (Mem.read_writeWord _ _ _ _ _ inside ok).trans (if_neg (by omega))

/-- RAM after the first `n` RESULT words of a completion (R149). -/
def Binding.resultRam (b : Binding) (k : Completion) (mem : List Host.Cell) : Nat → List Host.Cell
  | 0 => mem
  | n + 1 => b.writeMailbox (b.resultRam k mem n) (8 + n) (k.result.getD n 0)

/-- A chip with its RAM and the marks of a served command. -/
def Chip.servedAt (c : Chip) (mem : List Host.Cell) : Chip := { c.served with mem := mem }

theorem Chip.servedAt_quiet (c : Chip) (quiet : c.Quiet) (mem : List Host.Cell) : (c.servedAt mem).Quiet :=
  (Chip.served_quiet quiet).of_path ⟨rfl, rfl, rfl, rfl, rfl⟩

section
variable (c : Chip) (quiet : c.Quiet) (b : Binding) (hb : c.bind = .bound b) (m : Command) (k : Completion)
include quiet hb

/-- A completion at rest: the DETAIL write takes the port. -/
theorem Chip.settle_complete (hm : c.command = some m) : Chip.settle (c.complete k) =
    c.commandAt { m with stage := .detail k } ⟨BitVec.ofNat 24 (b.mailboxBase + 4 * 7), some k.detail⟩ := by
  rw [Chip.complete_bound hb m hm k]
  exact c.settle_commandAt quiet { m with stage := .detail k } _ _

variable (legal : b.Legal)
include legal

/-- DETAIL's DACK issues the first RESULT word. -/
theorem Chip.commandAt_detail (w : Word) :
    (c.commandAt { m with stage := .detail k } ⟨BitVec.ofNat 24 (b.mailboxBase + 4 * 7), some w⟩).advance =
      (c.servedAt (b.writeMailbox c.mem 7 w)).commandAt { m with stage := .result k 0 }
        ⟨BitVec.ofNat 24 (b.mailboxBase + 4 * (8 + 0)), some (k.result.getD 0 0)⟩ := by
  refine (c.advance_commandAt quiet { m with stage := .detail k } _ nofun
    ((Chip.commandAccessDone_detail rfl _ k rfl).trans (Chip.writeResult_bound (by exact hb) _ k 0))).trans ?_
  rw [b.perform_mailbox legal _ 7 (by decide)]
  exact Chip.settle_commandAt (c.servedAt (b.writeMailbox c.mem 7 w)) (c.servedAt_quiet quiet _)
    { m with stage := .result k 0 } _ _

/-- A RESULT word's DACK issues the next. -/
theorem Chip.commandAt_result (w : Word) (i : Nat) (hi : i < 7) :
    (c.commandAt { m with stage := .result k i } ⟨BitVec.ofNat 24 (b.mailboxBase + 4 * (8 + i)), some w⟩).advance =
      (c.servedAt (b.writeMailbox c.mem (8 + i) w)).commandAt { m with stage := .result k (i + 1) }
        ⟨BitVec.ofNat 24 (b.mailboxBase + 4 * (8 + (i + 1))), some (k.result.getD (i + 1) 0)⟩ := by
  refine (c.advance_commandAt quiet { m with stage := .result k i } _ nofun
    ((Chip.commandAccessDone_result rfl _ k i rfl).trans ((if_pos hi).trans
      (Chip.writeResult_bound (by exact hb) _ k (i + 1))))).trans ?_
  rw [b.perform_mailbox legal _ (8 + i) (by omega)]
  exact Chip.settle_commandAt (c.servedAt (b.writeMailbox c.mem (8 + i) w)) (c.servedAt_quiet quiet _)
    { m with stage := .result k (i + 1) } _ _

/-- The last RESULT word's DACK issues the final STATUS. -/
theorem Chip.commandAt_lastResult (w : Word) :
    (c.commandAt { m with stage := .result k 7 } ⟨BitVec.ofNat 24 (b.mailboxBase + 4 * (8 + 7)), some w⟩).advance =
      (c.servedAt (b.writeMailbox c.mem (8 + 7) w)).commandAt { m with stage := .status k }
        ⟨BitVec.ofNat 24 (b.mailboxBase + 4 * 6), some (statusWord k.final.code k.reason.code m.tag c.overrun)⟩ := by
  refine (c.advance_commandAt quiet { m with stage := .result k 7 } _ nofun
    ((Chip.commandAccessDone_result rfl _ k 7 rfl).trans ((if_neg (by decide)).trans
      (Chip.writeStatus_bound (by exact hb) _ k)))).trans ?_
  rw [b.perform_mailbox legal _ (8 + 7) (by decide)]
  exact Chip.settle_commandAt (c.servedAt (b.writeMailbox c.mem (8 + 7) w)) (c.servedAt_quiet quiet _)
    { m with stage := .status k } _ _

omit hb in
/-- The final STATUS's DACK ends the command. -/
theorem Chip.commandAt_status (w : Word) :
    (c.commandAt { m with stage := .status k } ⟨BitVec.ofNat 24 (b.mailboxBase + 4 * 6), some w⟩).advance =
      Chip.settle (Chip.commandOver
        { c.servedAt (b.writeMailbox c.mem 6 w) with command := some { m with stage := .status k } }
        { m with stage := .status k } k) := by
  refine (c.advance_commandAt quiet { m with stage := .status k } _ nofun
    (Chip.commandAccessDone_status rfl _ k rfl)).trans ?_
  rw [b.perform_mailbox legal _ 6 (by decide)]
  rfl

/-- The RESULT words one after the other. -/
theorem Chip.commandAt_results (n : Nat) (hn : n ≤ 7) :
    Chip.advances n (c.commandAt { m with stage := .result k 0 }
      ⟨BitVec.ofNat 24 (b.mailboxBase + 4 * (8 + 0)), some (k.result.getD 0 0)⟩) =
      (c.servedAt (b.resultRam k c.mem n)).commandAt { m with stage := .result k n }
        ⟨BitVec.ofNat 24 (b.mailboxBase + 4 * (8 + n)), some (k.result.getD n 0)⟩ := by
  induction n with
  | zero => rfl
  | succ n ih =>
    rw [Chip.advances_add, ih (by omega)]
    exact Chip.commandAt_result (c.servedAt (b.resultRam k c.mem n)) (c.servedAt_quiet quiet _) b hb m k legal _ n (by omega)

end

/-- RAM after a completion (R149). -/
def Binding.completionRam (b : Binding) (mem : List Host.Cell) (k : Completion) (status : Word) : List Host.Cell :=
  b.writeMailbox (b.resultRam k (b.writeMailbox mem 7 k.detail) 8) 6 status

theorem Chip.servedAt_servedAt (c : Chip) (mem mem' : List Host.Cell) : (c.servedAt mem).servedAt mem' = c.servedAt mem' := rfl

theorem Chip.servedAt_mem (c : Chip) (mem : List Host.Cell) : (c.servedAt mem).mem = mem := rfl

theorem Chip.servedAt_overrun (c : Chip) (mem : List Host.Cell) : (c.servedAt mem).overrun = c.overrun := rfl

theorem Chip.advances_zero (c : Chip) : Chip.advances 0 c = c := rfl

/-- The ten accesses of a completion. -/
theorem Chip.advances_complete (c : Chip) (quiet : c.Quiet) (b : Binding) (hb : c.bind = .bound b) (legal : b.Legal)
    (m : Command) (k : Completion) (hm : c.command = some m) :
    Chip.advances 10 (Chip.settle (c.complete k)) = Chip.settle (Chip.commandOver
      { c.servedAt (b.completionRam c.mem k (statusWord k.final.code k.reason.code m.tag c.overrun)) with
        command := some { m with stage := .status k } } { m with stage := .status k } k) := by
  have rest (mem : List Host.Cell) : (c.servedAt mem).Quiet := c.servedAt_quiet quiet mem
  have bound (mem : List Host.Cell) : (c.servedAt mem).bind = .bound b := hb
  have detail := c.commandAt_detail quiet b hb m k legal k.detail
  have results := Chip.commandAt_results _ (rest (b.writeMailbox c.mem 7 k.detail)) b (bound _) m k legal 7 (Nat.le_refl _)
  have last (mem : List Host.Cell) := (c.servedAt mem).commandAt_lastResult (rest mem) b (bound mem) m k legal (k.result.getD 7 0)
  have status (mem : List Host.Cell) (w : Word) :
      ((c.servedAt mem).commandAt { m with stage := .status k } ⟨BitVec.ofNat 24 (b.mailboxBase + 4 * 6), some w⟩).advance =
        Chip.settle (Chip.commandOver
          { c.servedAt (b.writeMailbox mem 6 w) with command := some { m with stage := .status k } }
          { m with stage := .status k } k) := (c.servedAt mem).commandAt_status (rest mem) b m k legal w
  simp only [Chip.servedAt_servedAt, Chip.servedAt_mem, Chip.servedAt_overrun] at results last
  rw [c.settle_complete quiet b hb m k hm, Chip.advances_succ, detail, Chip.advances_add 7 2, results, Chip.advances_succ,
    last, Chip.advances_succ, status, Binding.completionRam, Binding.resultRam]
  exact Chip.advances_zero _

/-! ### RAM after a completion -/

section
variable {b : Binding} (legal : b.Legal) (k : Completion) {mem : List Host.Cell} (ok : Mem.wf mem = true)
include legal ok

theorem Binding.resultRam_wf (n : Nat) (hn : n ≤ 8) : Mem.wf (b.resultRam k mem n) = true := by
  induction n with
  | zero => exact ok
  | succ n ih => exact Binding.writeMailbox_wf legal (ih (by omega)) (8 + n) (by omega) _

theorem Binding.readWord_resultRam (n : Nat) (hn : n ≤ 8) (j : Nat) :
    Mem.readWord (b.resultRam k mem n) (b.mailboxBase + 4 * j) =
      if 8 ≤ j ∧ j < 8 + n then k.result.getD (j - 8) 0 else Mem.readWord mem (b.mailboxBase + 4 * j) := by
  induction n with
  | zero => exact (if_neg (by omega)).symm
  | succ n ih =>
    refine (Binding.readWord_writeMailbox legal (Binding.resultRam_wf legal k ok n (by omega)) (8 + n) j (by omega) _).trans ?_
    by_cases here : j = 8 + n
    · rw [if_pos here, if_pos (by omega), here, Nat.add_sub_cancel_left]
    · rw [if_neg here, ih (by omega)]
      exact if_congr (by omega) rfl rfl

theorem Binding.read_resultRam (n : Nat) (hn : n ≤ 8) (x : Nat)
    (h : x < b.mailboxBase + 32 ∨ b.mailboxBase + 32 + 4 * n ≤ x) : Mem.read (b.resultRam k mem n) x = Mem.read mem x := by
  induction n with
  | zero => rfl
  | succ n ih =>
    exact (Binding.read_writeMailbox legal (Binding.resultRam_wf legal k ok n (by omega)) (8 + n) x (by omega) _ (by omega)).trans
      (ih (by omega) (by omega))

/-- DETAIL, RESULT and STATUS as a completion leaves them, and every byte outside them. -/
theorem Binding.completionRam_words (status : Word) :
    Mem.readWord (b.completionRam mem k status) (b.mailboxBase + 28) = k.detail ∧
    (∀ j, j < 8 → Mem.readWord (b.completionRam mem k status) (b.mailboxBase + 32 + 4 * j) = k.result.getD j 0) ∧
    Mem.readWord (b.completionRam mem k status) (b.mailboxBase + 24) = status ∧
    ∀ x, x < b.mailboxBase + 24 ∨ b.mailboxBase + 64 ≤ x → Mem.read (b.completionRam mem k status) x = Mem.read mem x := by
  have okDetail := Binding.writeMailbox_wf legal ok 7 (by decide) k.detail
  have okResult := Binding.resultRam_wf legal k okDetail 8 (Nat.le_refl _)
  have word (j : Nat) : Mem.readWord (b.completionRam mem k status) (b.mailboxBase + 4 * j) =
      if j = 6 then status else if 8 ≤ j ∧ j < 16 then k.result.getD (j - 8) 0
        else if j = 7 then k.detail else Mem.readWord mem (b.mailboxBase + 4 * j) := by
    rw [Binding.completionRam, Binding.readWord_writeMailbox legal okResult 6 j (by decide),
      Binding.readWord_resultRam legal k okDetail 8 (Nat.le_refl _), Binding.readWord_writeMailbox legal ok 7 j (by decide)]
  refine ⟨(word 7).trans ?_, fun j hj => ?_, (word 6).trans (if_pos rfl), fun x hx => ?_⟩
  · rw [if_neg (by decide), if_neg (by decide), if_pos rfl]
  · have at_j := word (8 + j)
    rw [if_neg (by omega), if_pos (by omega), Nat.add_sub_cancel_left] at at_j
    rw [← at_j, Nat.mul_add, Nat.add_assoc]
  · rw [Binding.completionRam, Binding.read_writeMailbox legal okResult 6 x (by decide) _ (by omega),
      Binding.read_resultRam legal k okDetail 8 (Nat.le_refl _) x (by omega),
      Binding.read_writeMailbox legal ok 7 x (by decide) _ (by omega)]

end

/-- Settles O49: the ten accesses, the end they bring, and RAM. -/
theorem completionReachesTheMailbox : Obligations.CompletionReachesTheMailbox := by
  intro s c m b i k quiet ok hb legal hm hi _ answers
  have words := Binding.completionRam_words legal k ok (statusWord k.final.code k.reason.code m.tag c.overrun)
  have events := c.advances_complete quiet b hb legal m k hm
  generalize b.completionRam c.mem k (statusWord k.final.code k.reason.code m.tag c.overrun) = mem at words events
  obtain ⟨detail, result, status, outside⟩ := words
  have inHand : (Chip.settle (c.complete k)).command = some { m with stage := .detail k } := by
    rw [c.settle_complete quiet b hb m k hm]
    rfl
  have run {d : Chip} (h : Chip.commandOver { c.servedAt mem with command := some { m with stage := .status k } }
      { m with stage := .status k } k = d) : answers d :=
    (exec_run (s.withChip _) i m.code _ 10 hi inHand rfl).trans
      (s.next_congr (events.trans (congrArg Chip.settle h)))
  refine ⟨mem, fun code => run (Chip.commandOver_idle _ { m with stage := .status k } k code),
    fun code => ⟨Chip.unbindByCommand { c with mem := mem }, run ?_, rfl, rfl, rfl, rfl, rfl, rfl⟩, detail, result, status, outside⟩
  exact Chip.commandOver_reset _ { m with stage := .status k } k code

/-! ### The end of a command in the row's own words -/

/-- The host's access as the unbind of RESET leaves it (R16, R156). -/
def HostAccess.released (h : HostAccess) : HostAccess :=
  if h.stage = .held then { h.untaken with stage := .waiting } else h.untaken

theorem exec_commandComplete (s : State) (m : Command) (k : Completion) (q : MemRequest) (hpor : s.chip.porLow = false)
    (hp : s.chip.port = some (.internal .command q)) (hm : s.chip.command = some m) (hs : m.stage = .status k) {d : Chip}
    (h : (s.chip.internalDone q).commandOver m k = d) : exec .commandComplete s = .next (s.withChip d.settle) := by
  have atPort : s.chip.finalStatusAtPort = true := by
    rw [Chip.finalStatusAtPort, hp, hm]
    show (match m.stage with | .status _ => true | _ => false) = true
    rw [hs]
  have inHand : (s.chip.internalDone q).command = some m := hm
  have done : s.chip.accessDone = d := (s.chip.accessDone_internal .command q hp).trans
    ((Chip.commandAccessDone_status inHand _ k hs).trans h)
  exact s.next_congr ((Chip.event_high _ _ hpor).trans (congrArg Chip.settle ((if_pos atPort).trans done)))

/-- Settles O50: the two ends, and the two commands that complete at their check. -/
theorem finalStatusEndsTheCommand : Obligations.FinalStatusEndsTheCommand := by
  refine ⟨fun s m k q hpor hp hm hs => ⟨fun code => ?_, fun code => ?_⟩, fun s m b check unsealed => ?_, fun s m b check => ?_⟩
  · exact exec_commandComplete s m k q hpor hp hm hs (Chip.commandOver_idle _ m k code)
  · obtain ⟨points, zones, slots⟩ := (s.chip.internalDone q).unbindBlocks_tables
    have host : (s.chip.internalDone q).unbindByCommand.host = s.chip.host.map HostAccess.released := rfl
    refine ⟨_, exec_commandComplete s m k q hpor hp hm hs (Chip.commandOver_reset _ m k code), rfl, rfl, rfl, rfl, rfl, rfl, rfl,
      rfl, rfl, rfl, rfl, rfl, rfl, rfl, rfl, rfl, rfl, rfl, rfl, slots, zones, points, fun none => ?_, fun h hh held => ?_,
      fun h hh free => ?_, rfl, rfl, rfl, rfl, rfl, rfl, rfl, rfl, rfl, rfl, rfl, rfl⟩
    · rw [host, none]
      rfl
    · rw [host, hh, Option.map_some, HostAccess.released, if_pos held]
      rfl
    · rw [host, hh, Option.map_some, HostAccess.released, if_neg free]
      rfl
  · exact exec_runCheck s _ m b 13 check rfl (Chip.checkCommand_revertPrepare check.isCode unsealed)
  · exact exec_runCheck s _ m b 16 check rfl (Chip.checkCommand_reset check.isCode)

end Sys2Proof.Machine
end


-- ==== Sys2Proof/Proofs/OneEventCommands.lean ====
section
/-! SUPPORT. The commands whose work is their check: PROFILE SET, SEAL, WALK START, WALK END and ADOPT (R43, R47, R73, R128, R129,
R135). O51, O52 and O54 are settled here. -/

namespace Sys2Proof.Machine

/-! ### PROFILE SET and SEAL -/

theorem Command.num_operand (m : Command) (i : Nat) : m.num i = (m.operand i).toNat := rfl

theorem lowBits_eq (w : Word) (n : Nat) : w.extractLsb' 0 n = BitVec.ofNat n w.toNat := by
  apply BitVec.eq_of_toNat_eq
  rw [BitVec.extractLsb'_toNat, BitVec.toNat_ofNat, Nat.shiftRight_zero]

theorem Chip.checkProfileSet_set (c : Chip) (m : Command) (k : Fin 4) (hk : m.num 1 = k.val) (h : m.num 2 ≤ 15) :
    c.checkProfileSet m = Chip.complete { c with profiles := c.profiles.set k (BitVec.ofNat 4 (m.num 2)) }
      (doneWith [word c.profiles[k].toNat]) := by
  have slot : Fin.ofNat 4 (m.num 1) = k := Fin.ext (by rw [Fin.val_ofNat, hk, Nat.mod_eq_of_lt k.isLt])
  have set (i : Fin 4) (hi : i = k) :
      Chip.complete { c with profiles := c.profiles.set i ((m.operand 2).extractLsb' 0 4) } (done [word c.profiles[i].toNat]) =
      Chip.complete { c with profiles := c.profiles.set k (BitVec.ofNat 4 (m.num 2)) } (doneWith [word c.profiles[k].toNat]) := by
    subst hi
    rw [lowBits_eq]
    rfl
  exact (if_neg (by omega)).trans ((if_neg (by omega)).trans (set _ slot))

/-- Settles O51: the operands' checks, the slot's new code, and the seal. -/
theorem profileSetAndSealTakeEffect : Obligations.ProfileSetAndSealTakeEffect := by
  refine ⟨fun s m b check unsealed => ?_, fun s m b check => ?_⟩
  · have own := Chip.checkCommand_profileSet check.isCode unsealed
    refine ⟨fun h => ?_, fun h1 h => ?_, fun k hk h => ?_⟩ <;> refine exec_runCheck s _ m b 4 check rfl (own.trans ?_)
    · exact if_pos h
    · exact (if_neg (Nat.not_lt.2 h1)).trans (if_pos h)
    · exact s.chip.checkProfileSet_set m k hk h
  · refine exec_runCheck s _ m b 5 check rfl ((Chip.checkCommand_sealPlan check.isCode).trans ?_)
    cases hs : s.chip.sealed <;> simp only [Chip.checkSeal, hs] <;> rfl

/-! ### The slot of a zone -/

theorem Chip.linkedSlot_isSome_iff (c : Chip) (z : Zone) :
    (c.linkedSlot z).isSome = true ↔ ∃ (k : Fin 4) (w : WalkSlot), c.slots[k] = some w ∧ realZone w.zone = z := by
  refine ⟨fun h => ?_, fun ⟨k, w, hw, zone⟩ => ?_⟩
  · obtain ⟨k, hk⟩ := Option.isSome_iff_exists.1 h
    exact ⟨k, c.linkedSlot_zone z k hk⟩
  · rw [Chip.linkedSlot, List.find?_isSome]
    refine ⟨k, List.mem_finRange k, ?_⟩
    rw [hw]
    exact beq_iff_eq.2 zone

theorem Chip.linkedSlot_isSome (c : Chip) (z : RealZone) (k : Fin 4) (w : WalkSlot) (hw : c.slots[k] = some w)
    (zone : w.zone = z) : (c.linkedSlot (realZone z)).isSome = true :=
  (c.linkedSlot_isSome_iff _).2 ⟨k, w, hw, congrArg realZone zone⟩

theorem Chip.linkedSlot_none (c : Chip) (z : RealZone) (h : ∀ (k : Fin 4) (w : WalkSlot), c.slots[k] = some w → w.zone ≠ z) :
    c.linkedSlot (realZone z) = none := by
  rw [← Option.not_isSome_iff_eq_none, c.linkedSlot_isSome_iff]
  rintro ⟨k, w, hw, zone⟩
  exact h k w hw (realZone_injective zone)

/-- A zone that one slot alone holds is linked to it (R127). -/
theorem Chip.linkedSlot_only (c : Chip) (z : RealZone) (k : Fin 4) (w : WalkSlot) (hw : c.slots[k] = some w)
    (zone : w.zone = z) (only : ∀ (j : Fin 4) (v : WalkSlot), c.slots[j] = some v → v.zone = w.zone → j = k) :
    c.linkedSlot (realZone z) = some k := by
  obtain ⟨j, hj⟩ := Option.isSome_iff_exists.1 (c.linkedSlot_isSome z k w hw zone)
  obtain ⟨v, hv, there⟩ := c.linkedSlot_zone _ j hj
  rw [hj, only j v hv ((realZone_injective there).trans zone.symm)]

/-! ### WALK START -/

section
variable (c : Chip) (m : Command) (z : RealZone) (hz : m.num 1 = z.val + 1)

theorem Chip.checkWalkStart_minutes (h1 : 1 ≤ m.num 1 ∧ m.num 1 ≤ 96) (h : ¬(1 ≤ m.num 2 ∧ m.num 2 ≤ 120)) :
    c.checkWalkStart m = c.complete (refuse .badOperand 2) := (if_neg (not_not.2 h1)).trans (if_pos h)

include hz

theorem walkZone_eq : (Fin.ofNat 96 (m.num 1 - 1) : RealZone) = z :=
  Fin.ext (by rw [Fin.val_ofNat, hz, Nat.add_sub_cancel, Nat.mod_eq_of_lt z.isLt])

variable (minutes : 1 ≤ m.num 2 ∧ m.num 2 ≤ 120)
include minutes

/-! With good operands the zone, the slots and the consent decide, in this order (R128, R129). -/

theorem Chip.checkWalkStart_busy (h : (c.linkedSlot (realZone z)).isSome = true) :
    c.checkWalkStart m = c.complete (refuse .zoneBusy 0) := by
  have zone := walkZone_eq m z hz
  subst zone
  exact (if_neg (not_not.2 (by omega))).trans ((if_neg (not_not.2 minutes)).trans (if_pos h))

theorem Chip.checkWalkStart_full (h : c.linkedSlot (realZone z) = none) (full : c.freeSlotNumber = none) :
    c.checkWalkStart m = c.complete (refuse .noSlot 0) := by
  have zone := walkZone_eq m z hz
  subst zone
  refine (if_neg (not_not.2 (by omega))).trans ((if_neg (not_not.2 minutes)).trans
    ((if_neg (by rw [h]; decide)).trans ?_))
  rw [full]

theorem Chip.checkWalkStart_free (h : c.linkedSlot (realZone z) = none) (k : Fin 4) (free : c.freeSlotNumber = some k) :
    c.checkWalkStart m =
      if c.zones[realZone z].withheld then c.complete (refuse .zoneIsolated 0) else c.startWalk k z (m.num 2) := by
  have zone := walkZone_eq m z hz
  subst zone
  refine (if_neg (not_not.2 (by omega))).trans ((if_neg (not_not.2 minutes)).trans
    ((if_neg (by rw [h]; decide)).trans ?_))
  rw [free]

end

theorem Chip.freeSlotNumber_none (c : Chip) (h : ∀ k : Fin 4, c.slots[k] ≠ none) : c.freeSlotNumber = none :=
  List.find?_eq_none.2 fun k _ free => h k (Option.isNone_iff_eq_none.1 free)

theorem Chip.freeSlotNumber_first (c : Chip) (k : Fin 4) (h : c.slots[k] = none) (first : ∀ j : Fin 4, j < k → c.slots[j] ≠ none) :
    c.freeSlotNumber = some k :=
  find?_finRange_some _ k (Option.isNone_iff_eq_none.2 h) fun j hj =>
    Bool.eq_false_iff.2 fun free => first j hj (Option.isNone_iff_eq_none.1 free)

/-! ### WALK END -/

theorem Chip.slotOfOperand_none (c : Chip) (n : Nat) (h : ∀ (k : Fin 4) (w : WalkSlot), c.slots[k] = some w → w.zone.val + 1 ≠ n) :
    c.slotOfOperand n = none := by
  by_cases real : 1 ≤ n ∧ n ≤ 96
  · refine (if_pos real).trans (c.linkedSlot_none _ fun k w hw zone => h k w hw ?_)
    rw [zone, Fin.val_ofNat]
    omega
  · exact if_neg real

theorem Chip.slotOfOperand_only (c : Chip) (n : Nat) (k : Fin 4) (w : WalkSlot) (hw : c.slots[k] = some w)
    (zone : w.zone.val + 1 = n) (only : ∀ (j : Fin 4) (v : WalkSlot), c.slots[j] = some v → v.zone = w.zone → j = k) :
    c.slotOfOperand n = some k := by
  have inside := w.zone.isLt
  refine (if_pos (by omega)).trans (c.linkedSlot_only _ k w hw (Fin.ext ?_) only)
  rw [Fin.val_ofNat]
  omega

/-- Settles O52: the checks of WALK START in their order, its start, and WALK END's two outcomes. -/
theorem walkStartAndWalkEndTakeEffect : Obligations.WalkStartAndWalkEndTakeEffect := by
  refine ⟨fun s m b check => ?_, fun s m b check => ?_⟩
  · intro c turnsAway
    have own := Chip.checkCommand_walkStart (c := c) check.isCode
    have turns {d : Chip} (h : c.checkWalkStart m = d) := exec_runCheck s (.walkStart (.run 1)) m b 6 check rfl (own.trans h)
    refine ⟨fun h => turns (if_pos h), fun h1 h => turns (c.checkWalkStart_minutes m h1 h), fun z hz minutes => ?_⟩
    refine ⟨fun ⟨k, w, hw, zone⟩ => turns (c.checkWalkStart_busy m z hz minutes (c.linkedSlot_isSome z k w hw zone)),
      fun unlinked => ?_⟩
    have alone := c.linkedSlot_none z unlinked
    refine ⟨fun full => turns (c.checkWalkStart_full m z hz minutes alone (c.freeSlotNumber_none full)), fun k free first => ?_⟩
    have decided := c.checkWalkStart_free m z hz minutes alone k (c.freeSlotNumber_first k free first)
    refine ⟨fun held => turns (decided.trans (if_pos held)), fun given =>
      ⟨endWord (c.seconds + 60 * m.num 2), fun fits => if_pos fits, ?_⟩⟩
    exact turns (decided.trans (if_neg (by rw [given]; decide)))
  · have own := Chip.checkCommand_walkEnd (c := s.chip) check.isCode
    refine ⟨fun none => ?_, fun k w hw zone only => ?_⟩ <;> refine exec_runCheck s _ m b 7 check rfl (own.trans ?_)
    · rw [Chip.checkWalkEnd, s.chip.slotOfOperand_none _ none]
      rfl
    · rw [Chip.checkWalkEnd, s.chip.slotOfOperand_only _ k w hw zone only]
      rfl

/-! ### ADOPT -/

theorem Chip.checkAdopt_adopts (c : Chip) (m : Command) (r : Rec) (h : adoptFault c.loops m = none)
    (hr : r.val = m.firstRecord) (good : c.points[r].adoptable (m.num 3 == 2) = true) :
    c.checkAdopt m = c.adoptPoint r (m.num 3 == 2) := by
  have at_r : recordAt m.firstRecord = r := by rw [← hr, recordAt_val]
  subst at_r
  unfold Chip.checkAdopt
  rw [h]
  exact if_pos good

/-- ADOPT's event: the point derived over what it adopts (R73). -/
theorem Chip.adoptPoint_eq (c : Chip) (r : Rec) (second : Bool) : c.adoptPoint r second =
    Chip.complete (c.setPoint r (c.derived r (c.points[r].adopted c.plan[r] second)))
      (doneWith [(if second then c.points[r].secondSerial else c.points[r].firstSerial).getD 0,
                 (if second then c.points[r].firstSerial else c.points[r].secondSerial).getD 0]) := by
  rw [← Chip.rederive_setPoint]
  rfl

/-- Settles O54: FIRST chosen and SECOND chosen. -/
theorem adoptSettlesTheConflict : Obligations.AdoptSettlesTheConflict := by
  intro s m b r check legal h1 h2 hr conflict c p after
  have loops := s.chip.loops_bound b check.bound
  have adopts (second : Bool) (choice : (m.num 3 == 2) = second) (operand : m.num 3 = 1 ∨ m.num 3 = 2)
      (present : second = true → p.secondSerial.isSome = true) :
      exec (.adopt (.run 1)) s = .next (s.withChip (Chip.settle (c.adoptPoint r second))) := by
    refine exec_runCheck s _ m b 10 check rfl ((Chip.checkCommand_adopt check.isCode).trans ?_)
    subst choice
    refine c.checkAdopt_adopts m r (adoptFault_none (by rw [loops]; exact h1) h2 operand) hr ?_
    rw [PointRecord.adoptable, Bool.and_eq_true, beq_iff_eq, Bool.or_eq_true, Bool.not_eq_true']
    refine ⟨conflict, ?_⟩
    cases second : (m.num 3 == 2) with
    | false => exact .inl rfl
    | true => exact .inr (present second)
  refine ⟨fun first => (adopts false (by rw [first]; rfl) (.inl first) nofun).trans (s.next_congr ?_),
    fun second present => (adopts true (by rw [second]; rfl) (.inr second) fun _ => present).trans (s.next_congr ?_)⟩
  · exact congrArg Chip.settle (c.adoptPoint_eq r false)
  · exact congrArg Chip.settle (c.adoptPoint_eq r true)

end Sys2Proof.Machine
end


-- ==== Sys2Proof/Proofs/RangeRuns.lean ====
section
/-! SUPPORT. Commands that work one point an event: the counts and changes of a range of records, a run of work events, and the
stretches (R69 to R72, R75, R153). O53 is settled here. -/

namespace Sys2Proof.Machine

/-! ### Counting records -/

/-- How many of `n` records from `start` hold a property. -/
def countRange (p : Rec → Bool) (start n : Nat) : Nat := (List.range n).countP fun i => p (recordAt (start + i))

theorem countRange_zero (p : Rec → Bool) (start : Nat) : countRange p start 0 = 0 := rfl

theorem countRange_succ (p : Rec → Bool) (start n : Nat) :
    countRange p start (n + 1) = if p (recordAt (start + n)) = true then countRange p start n + 1 else countRange p start n := by
  rw [countRange, List.range_succ, List.countP_append, List.countP_singleton]
  split <;> rfl

theorem countRange_append (p : Rec → Bool) (start m n : Nat) :
    countRange p start (m + n) = countRange p start m + countRange p (start + m) n := by
  induction n with
  | zero => rfl
  | succ n ih =>
    rw [Nat.add_succ, countRange_succ, countRange_succ, ih, Nat.add_assoc start m n]
    split <;> rfl

theorem countRange_congr {p q : Rec → Bool} {start n : Nat} (inside : start + n ≤ 768)
    (h : ∀ r : Rec, start ≤ r.val → r.val < start + n → p r = q r) : countRange p start n = countRange q start n := by
  refine List.countP_congr fun i hi => ?_
  have below := List.mem_range.1 hi
  have same := h ⟨start + i, by omega⟩ (Nat.le_add_right _ _) (by show start + i < _; omega)
  rw [← recordAt_val ⟨start + i, by omega⟩] at same
  rw [same]

theorem countRange_none {p : Rec → Bool} {start n : Nat} (inside : start + n ≤ 768)
    (h : ∀ r : Rec, start ≤ r.val → r.val < start + n → p r = false) : countRange p start n = 0 :=
  (countRange_congr inside h).trans (congrFun List.countP_false _)

theorem countRange_le (p : Rec → Bool) (start n : Nat) : countRange p start n ≤ n :=
  List.countP_le_length.trans_eq List.length_range

theorem countRange_all {p : Rec → Bool} {start n : Nat} (inside : start + n ≤ 768)
    (h : ∀ r : Rec, start ≤ r.val → r.val < start + n → p r = true) : countRange p start n = n :=
  (countRange_congr inside h).trans ((congrFun List.countP_true _).trans List.length_range)

/-- The records that do not hold it are the rest. -/
theorem countRange_not (p : Rec → Bool) (start n : Nat) : countRange (fun r => !p r) start n = n - countRange p start n := by
  have split := List.length_eq_countP_add_countP (fun i => p (recordAt (start + i))) (l := List.range n)
  rw [List.length_range] at split
  have rest : countRange (fun r => !p r) start n = (List.range n).countP fun i => ¬p (recordAt (start + i)) = true := by
    refine List.countP_congr fun i _ => ?_
    simp
  rw [rest]
  exact (Nat.sub_eq_of_eq_add (split.trans (Nat.add_comm _ _))).symm

theorem finRange_eq : List.finRange 768 = (List.range 768).map recordAt := by
  refine List.ext_getElem (by simp) fun i h1 h2 => Fin.ext ?_
  have hi : i < 768 := by simpa using h1
  simp [recordAt, Nat.mod_eq_of_lt hi]

theorem countRecords_eq (p : Rec → Bool) : countRecords p = countRange p 0 768 := by
  rw [countRecords, finRange_eq, List.countP_map, countRange]
  refine List.countP_congr fun i _ => ?_
  rw [Nat.zero_add]
  rfl

theorem countRecords_congr {p q : Rec → Bool} (h : ∀ r, p r = q r) : countRecords p = countRecords q := by rw [funext h]

/-- Counting the records of a range is counting in the range. -/
theorem countRecords_range (p : Rec → Bool) (start n : Nat) (inside : start + n ≤ 768) (range : Rec → Bool)
    (hrange : ∀ r : Rec, range r = true ↔ start ≤ r.val ∧ r.val < start + n) :
    countRecords (fun r => range r && p r) = countRange p start n := by
  have out (r : Rec) (h : ¬(start ≤ r.val ∧ r.val < start + n)) : (range r && p r) = false := by
    rw [Bool.eq_false_iff.2 fun g => h ((hrange r).1 g), Bool.false_and]
  have into (r : Rec) (h : start ≤ r.val ∧ r.val < start + n) : (range r && p r) = p r := by
    rw [(hrange r).2 h, Bool.true_and]
  have before : countRange (fun r => range r && p r) 0 start = 0 := countRange_none (by omega) fun r _ h => out r (by omega)
  have after : countRange (fun r => range r && p r) (start + n) (768 - (start + n)) = 0 :=
    countRange_none (by omega) fun r h _ => out r (by omega)
  have whole := (countRange_append (fun r => range r && p r) 0 start n).symm
  rw [countRecords_eq, show 768 = start + n + (768 - (start + n)) by omega, countRange_append, ← whole, before, Nat.zero_add,
    Nat.zero_add, Nat.zero_add, after, Nat.add_zero]
  exact countRange_congr inside fun r h1 h2 => into r ⟨h1, h2⟩

/-! ### Changing the points of a range -/

/-- The point table with the first `n` records from `start` changed, one after the other. -/
def rangePoints (f : PointRecord → PointRecord) (start : Nat) (v : Vector PointRecord 768) : Nat → Vector PointRecord 768
  | 0 => v
  | n + 1 => (rangePoints f start v n).set (recordAt (start + n)) (f (rangePoints f start v n)[recordAt (start + n)])

theorem rangePoints_record (f : PointRecord → PointRecord) (start : Nat) (v : Vector PointRecord 768) (n : Nat)
    (inside : start + n ≤ 768) (r : Rec) :
    (rangePoints f start v n)[r] = if start ≤ r.val ∧ r.val < start + n then f v[r] else v[r] := by
  induction n generalizing r with
  | zero => exact (if_neg (by omega)).symm
  | succ n ih =>
    have here : (recordAt (start + n)).val = start + n := Nat.mod_eq_of_lt (by omega)
    have own : (rangePoints f start v n)[recordAt (start + n)] = v[recordAt (start + n)] :=
      (ih (by omega) _).trans (if_neg (by omega))
    refine (Vector.getElem_set_rec _ _ r _).trans ?_
    rw [own]
    by_cases same : r = recordAt (start + n)
    · rw [if_pos same, if_pos (by rw [same, here]; omega), same]
    · have other : r.val ≠ start + n := fun h => same (Fin.ext (h.trans here.symm))
      rw [if_neg same, ih (by omega)]
      exact if_congr (by omega) rfl rfl

/-- The next record of a range still stands as it stood. -/
theorem rangePoints_next (f : PointRecord → PointRecord) (start : Nat) (v : Vector PointRecord 768) (n : Nat)
    (inside : start + n < 768) : (rangePoints f start v n)[recordAt (start + n)] = v[recordAt (start + n)] := by
  have here : (recordAt (start + n)).val = start + n := Nat.mod_eq_of_lt inside
  exact (rangePoints_record f start v n (by omega) _).trans (if_neg (by omega))

/-! ### A run of work events -/

/-- A work event of a command at an otherwise resting part. -/
theorem Chip.advance_gotoWork (d : Chip) (quiet : d.Quiet) (m : Command) (w : Work) :
    (d.gotoWork m w).advance = ((d.gotoWork m w).work { m with stage := .working w } w).settle :=
  (d.gotoWork m w).advance_work { m with stage := .working w } w quiet.powered rfl rfl

theorem Chip.settle_gotoWork (d : Chip) (quiet : d.Quiet) (m : Command) (w : Work) : (d.gotoWork m w).settle = d.gotoWork m w :=
  Chip.settle_quiet _ (quiet.of_path ⟨rfl, rfl, rfl, rfl, rfl⟩)

/-- A completion does not depend on the stage it is reached from. -/
theorem Chip.complete_gotoWork (d : Chip) (b : Binding) (hb : d.bind = .bound b) (m : Command) (hm : d.command = some m)
    (w : Work) (k : Completion) : (d.gotoWork m w).complete k = d.complete k := by
  rw [Chip.complete_bound (c := d.gotoWork m w) hb { m with stage := .working w } rfl, Chip.complete_bound hb m hm]
  rfl

/-- A run of events that each lead to the next work, the last to its own end. -/
theorem Chip.advances_run (m : Command) (d : Nat → Chip) (w : Nat → Work) (n : Nat) (e : Chip)
    (step : ∀ j, j < n → ((d j).gotoWork m (w j)).advance = (d (j + 1)).gotoWork m (w (j + 1)))
    (last : ((d n).gotoWork m (w n)).advance = e) : Chip.advances (n + 1) ((d 0).gotoWork m (w 0)) = e := by
  have reach (j : Nat) (hj : j ≤ n) : Chip.advances j ((d 0).gotoWork m (w 0)) = (d j).gotoWork m (w j) := by
    induction j with
    | zero => rfl
    | succ j ih =>
      rw [Chip.advances_add, ih (by omega)]
      exact step j (by omega)
  rw [Chip.advances_add, reach n (Nat.le_refl n)]
  exact last

/-- A range command at its check, whose check leads to its work: the check's event, then the run. -/
theorem exec_rangeRun (s : State) (i : Instr) (m : Command) (b : Binding) (code : BitVec 8) (n : Nat) (w : Work)
    (check : s.chip.AtCheck m b code) (quiet : s.chip.Quiet) (hi : i.mailboxStep = some (code, .run (n + 1)))
    (passes : s.chip.checkCommand m = s.chip.gotoWork m w) {d : Chip} (run : Chip.advances n (s.chip.gotoWork m w) = d.settle) :
    exec i s = .next (s.withChip d.settle) := by
  have first : s.chip.advance = s.chip.gotoWork m w := by
    rw [s.chip.advance_work m .check check.powered check.inHand check.stage, ← s.chip.settle_gotoWork quiet m w, ← passes]
    rfl
  refine (exec_run s i code m (n + 1) hi check.inHand check.isCode).trans (s.next_congr ?_)
  rw [Chip.advances_succ, first, run]

/-! ### ACCEPT, RELEASE and REVERT -/

/-- A point as a stretch leaves it (R70). -/
def Stretch.leaves (k : Stretch) (p : PointRecord) : PointRecord := (k.change p).getD p

/-- One event of a stretch, its point's change and its two counts. -/
theorem Chip.stretchEvent_eq (c : Chip) (m : Command) (k : Stretch) (next left changed skipped : Nat) :
    c.stretchEvent m k next left changed skipped =
      let p := c.points[recordAt next]
      let d := c.setPoint (recordAt next) (k.leaves p)
      let changed := if (k.change p).isSome = true then changed + 1 else changed
      let skipped := if (!(k.change p).isSome) = true then skipped + 1 else skipped
      if 1 < left then d.gotoWork m (.stretch k (next + 1) (left - 1) changed skipped)
      else d.complete (done (k.result changed skipped)) := by
  unfold Chip.stretchEvent Stretch.leaves
  cases h : k.change c.points[recordAt next] with
  | none =>
    simp only [h, Option.getD_none, c.setPoint_self (recordAt next)]
    rfl
  | some q =>
    simp only [h]
    rfl

/-- A stretch over a range runs to completion with its counts (R70 to R72, R75). -/
theorem Chip.stretch_runs (c : Chip) (quiet : c.Quiet) (b : Binding) (hb : c.bind = .bound b) (m : Command)
    (hm : c.command = some m) (k : Stretch) (start n : Nat) (inside : start + (n + 1) ≤ 768) :
    Chip.advances (n + 1) (c.gotoWork m (.stretch k start (n + 1) 0 0)) = Chip.settle (Chip.complete
      { c with points := rangePoints k.leaves start c.points (n + 1) }
      (done (k.result (countRange (fun r => (k.change c.points[r]).isSome) start (n + 1))
        (countRange (fun r => !(k.change c.points[r]).isSome) start (n + 1))))) := by
  let d (j : Nat) : Chip := { c with points := rangePoints k.leaves start c.points j }
  let changed (j : Nat) : Nat := countRange (fun r => (k.change c.points[r]).isSome) start j
  let skipped (j : Nat) : Nat := countRange (fun r => !(k.change c.points[r]).isSome) start j
  let w (j : Nat) : Work := .stretch k (start + j) (n + 1 - j) (changed j) (skipped j)
  have rest (j : Nat) : (d j).Quiet := quiet.of_path ⟨rfl, rfl, rfl, rfl, rfl⟩
  have event (j : Nat) (hj : j < n + 1) : ((d j).gotoWork m (w j)).advance = Chip.settle
      (if 1 < n + 1 - j then (d (j + 1)).gotoWork m (.stretch k (start + j + 1) (n + 1 - j - 1) (changed (j + 1)) (skipped (j + 1)))
        else ((d (j + 1)).gotoWork m (w j)).complete (done (k.result (changed (j + 1)) (skipped (j + 1))))) := by
    have point : (d j).points[recordAt (start + j)] = c.points[recordAt (start + j)] :=
      rangePoints_next k.leaves start c.points j (by omega)
    have more : changed (j + 1) = if (k.change (d j).points[recordAt (start + j)]).isSome = true then changed j + 1 else changed j := by
      rw [point]
      exact countRange_succ _ start j
    have fewer : skipped (j + 1) =
        if (!(k.change (d j).points[recordAt (start + j)]).isSome) = true then skipped j + 1 else skipped j := by
      rw [point]
      exact countRange_succ _ start j
    rw [more, fewer]
    exact ((d j).advance_gotoWork (rest j) m (w j)).trans (congrArg Chip.settle
      (Chip.stretchEvent_eq ((d j).gotoWork m (w j)) { m with stage := .working (w j) } k (start + j) (n + 1 - j) (changed j) (skipped j)))
  refine Chip.advances_run m d w n _ (fun j hj => ?_) ?_
  · rw [event j (by omega), if_pos (by omega), show n + 1 - j - 1 = n + 1 - (j + 1) by omega]
    exact (d (j + 1)).settle_gotoWork (rest (j + 1)) m (w (j + 1))
  · rw [event n (by omega), if_neg (by omega), (d (n + 1)).complete_gotoWork b hb m hm]

/-- The row of a stretch whose check passes. -/
theorem exec_stretch (s : State) (i : Instr) (m : Command) (b : Binding) (code : BitVec 8) (k : Stretch) (start n : Nat)
    (check : s.chip.AtCheck m b code) (quiet : s.chip.Quiet) (hi : i.mailboxStep = some (code, .run (n + 1))) (pos : 0 < n)
    (inside : start + n ≤ 768) (passes : s.chip.checkCommand m = s.chip.gotoWork m (.stretch k start n 0 0)) :
    exec i s = .next (s.withChip (Chip.settle (Chip.complete
      { s.chip with points := rangePoints k.leaves start s.chip.points n }
      (done (k.result (countRange (fun r => (k.change s.chip.points[r]).isSome) start n)
        (countRange (fun r => !(k.change s.chip.points[r]).isSome) start n)))))) := by
  obtain ⟨n, rfl⟩ : ∃ j, n = j + 1 := ⟨n - 1, by omega⟩
  exact exec_rangeRun s i m b code (n + 1) _ check quiet hi passes
    (s.chip.stretch_runs quiet b check.bound m check.inHand k start n inside)

/-! What each stretch does at a point (R71, R72, R75). -/

theorem Stretch.change_accept_isSome (p : PointRecord) : (Stretch.accept.change p).isSome = p.acceptable := by
  rw [Stretch.change]
  cases p.acceptable <;> rfl

theorem Stretch.accept_leaves (p : PointRecord)
    (h : p.state = .commissioned ∨ (p.state = .tested ∧ p.presence = .live ∧ p.firstSerial.isSome = true)) :
    Stretch.accept.leaves p = { p with state := .commissioned } ∧ p.acceptable = (p.state == .tested) := by
  rcases h with commissioned | tested
  · have not : p.acceptable = false := Bool.eq_false_iff.2 fun h => by
      have := ((acceptable_iff p).1 h).1
      rw [commissioned] at this
      cases this
    refine ⟨?_, by rw [not, commissioned]; rfl⟩
    rw [Stretch.leaves, Stretch.change, not, ← commissioned]
    rfl
  · have good := (acceptable_iff p).2 tested
    refine ⟨?_, by rw [good, tested.1]; rfl⟩
    rw [Stretch.leaves, Stretch.change, good]
    rfl

theorem Stretch.release_leaves (p : PointRecord) (h : p.state = .commissioned) :
    Stretch.release.leaves p = { p with state := .tested } ∧ (Stretch.release.change p).isSome = true := by
  have change : Stretch.release.change p = some { p with state := .tested } := if_pos h
  exact ⟨by rw [Stretch.leaves, change]; rfl, by rw [change]; rfl⟩

theorem Stretch.result_release (changed skipped : Nat) : Stretch.release.result changed skipped = [word changed] := rfl

theorem Stretch.result_revert (changed skipped : Nat) : Stretch.revert.result changed skipped = [word changed] := rfl

/-- The points a REVERT takes back (R75). -/
def PointRecord.revertible (p : PointRecord) : Bool := p.state == .tested || p.state == .commissioned

theorem PointRecord.revertible_iff (p : PointRecord) : p.revertible = true ↔ p.state = .tested ∨ p.state = .commissioned := by
  rw [PointRecord.revertible, Bool.or_eq_true, beq_iff_eq, beq_iff_eq]

theorem Stretch.revert_leaves (p : PointRecord) :
    (Stretch.revert.leaves p = if p.revertible = true then { p with state := .matched, testCount := 0 } else p) ∧
    (Stretch.revert.change p).isSome = p.revertible := by
  have change : Stretch.revert.change p = if p.revertible = true then some { p with state := .matched, testCount := 0 } else none :=
    if_congr p.revertible_iff.symm rfl rfl
  rw [Stretch.leaves, change]
  cases p.revertible <;> exact ⟨rfl, rfl⟩

/-- Settles O53: each stretch by its run. -/
theorem stretchesRunTheirRanges : Obligations.StretchesRunTheirRanges := by
  intro s m b quiet legal c
  refine ⟨fun check range good => ?_, fun check unsealed range good => ?_, fun check unsealed prepared => ?_⟩
  · have inside := range.inside legal
    have fault : rangeFault c.loops m = none := by rw [c.loops_bound b check.bound]; exact rangeFault_none range
    have covered (r : Rec) (h1 : m.firstRecord ≤ r.val) (h2 : r.val < m.firstRecord + m.num 3) := good r ((m.covers_iff r).2 ⟨h1, h2⟩)
    have passes : c.checkCommand m = c.gotoWork m (.stretch .accept m.firstRecord (m.num 3) 0 0) :=
      (Chip.checkCommand_accept check.isCode).trans (c.checkRange_ok m _ _ fault
        (c.firstFailing_none _ _ _ inside fun r h1 h2 => (accept_ok_iff _).2 (covered r h1 h2)))
    have changed : countRange (fun r => (Stretch.accept.change c.points[r]).isSome) m.firstRecord (m.num 3) =
        countRecords fun r => m.covers r && c.points[r].state == .tested := by
      rw [countRecords_range (fun r : Rec => c.points[r].state == .tested) _ _ inside m.covers m.covers_iff]
      exact countRange_congr inside fun r h1 h2 =>
        (Stretch.change_accept_isSome _).trans (Stretch.accept_leaves _ (covered r h1 h2)).2
    intro n
    refine ⟨rangePoints Stretch.accept.leaves m.firstRecord c.points (m.num 3), fun r => ?_,
      (exec_stretch s (.accept (.run (m.num 3 + 1))) m b 8 .accept _ _ check quiet rfl range.count inside passes).trans ?_⟩
    · rw [rangePoints_record _ _ _ _ inside]
      by_cases here : m.covers r = true
      · rw [if_pos here, if_pos ((m.covers_iff r).1 here)]
        exact (Stretch.accept_leaves _ (good r here)).1
      · rw [if_neg here, if_neg (fun h => here ((m.covers_iff r).2 h))]
    · rw [countRange_not, changed]
      rfl
  · have inside := range.inside legal
    have fault : rangeFault c.loops m = none := by rw [c.loops_bound b check.bound]; exact rangeFault_none range
    have covered (r : Rec) (h1 : m.firstRecord ≤ r.val) (h2 : r.val < m.firstRecord + m.num 3) := good r ((m.covers_iff r).2 ⟨h1, h2⟩)
    have passes : c.checkCommand m = c.gotoWork m (.stretch .release m.firstRecord (m.num 3) 0 0) :=
      (Chip.checkCommand_release check.isCode unsealed).trans (c.checkRange_ok m _ _ fault
        (c.firstFailing_none _ _ _ inside fun r h1 h2 => beq_iff_eq.2 (covered r h1 h2)))
    have changed : countRange (fun r => (Stretch.release.change c.points[r]).isSome) m.firstRecord (m.num 3) = m.num 3 :=
      countRange_all inside fun r h1 h2 => (Stretch.release_leaves _ (covered r h1 h2)).2
    refine ⟨rangePoints Stretch.release.leaves m.firstRecord c.points (m.num 3), fun r => ?_,
      (exec_stretch s (.release (.run (m.num 3 + 1))) m b 9 .release _ _ check quiet rfl range.count inside passes).trans ?_⟩
    · rw [rangePoints_record _ _ _ _ inside]
      by_cases here : m.covers r = true
      · rw [if_pos here, if_pos ((m.covers_iff r).1 here)]
        exact (Stretch.release_leaves _ (good r here)).1
      · rw [if_neg here, if_neg (fun h => here ((m.covers_iff r).2 h))]
    · rw [Stretch.result_release, changed]
      rfl
  · have passes : c.checkCommand m = c.gotoWork m (.stretch .revert 0 768 0 0) :=
      (Chip.checkCommand_revert check.isCode unsealed).trans (if_pos prepared)
    have changed : countRange (fun r => (Stretch.revert.change c.points[r]).isSome) 0 768 =
        countRecords fun r : Rec => c.points[r].revertible := by
      rw [countRecords_eq]
      exact countRange_congr (by decide) fun r _ _ => (Stretch.revert_leaves _).2
    intro hit
    refine ⟨rangePoints Stretch.revert.leaves 0 c.points 768, fun r => ?_,
      (exec_stretch s (.revert (.run 769)) m b 14 .revert 0 768 check quiet rfl (by decide) (by decide) passes).trans ?_⟩
    · rw [rangePoints_record _ _ _ _ (by decide), if_pos ⟨Nat.zero_le _, (by rw [Nat.zero_add]; exact r.isLt)⟩]
      exact (Stretch.revert_leaves _).1
    · rw [Stretch.result_revert, changed]
      rfl

end Sys2Proof.Machine
end


-- ==== Sys2Proof/Proofs/ClearingAndQuery.lean ====
section
/-! SUPPORT. The runs of CLEAR FLAGS, CLEAR VERDICT and QUERY (R69, R74, R119, R122, R123, R154, R155). O55 and O56 are settled
here. -/

namespace Sys2Proof.Machine

/-! ### CLEAR FLAGS -/

/-- CLEAR FLAGS over a range (R74). -/
theorem Chip.clearFlags_runs (c : Chip) (quiet : c.Quiet) (b : Binding) (hb : c.bind = .bound b) (m : Command)
    (hm : c.command = some m) (mask : BitVec 8) (start n : Nat) (inside : start + (n + 1) ≤ 768) :
    Chip.advances (n + 1) (c.gotoWork m (.clearFlags start (n + 1) mask 0)) = Chip.settle (Chip.complete
      { c with points := rangePoints (·.clearFlags mask) start c.points (n + 1) }
      (done [word (countRange (fun r => c.points[r].anyFlag mask) start (n + 1))])) := by
  let d (j : Nat) : Chip := { c with points := rangePoints (·.clearFlags mask) start c.points j }
  let count (j : Nat) : Nat := countRange (fun r => c.points[r].anyFlag mask) start j
  let w (j : Nat) : Work := .clearFlags (start + j) (n + 1 - j) mask (count j)
  have rest (j : Nat) : (d j).Quiet := quiet.of_path ⟨rfl, rfl, rfl, rfl, rfl⟩
  have event (j : Nat) (hj : j < n + 1) : ((d j).gotoWork m (w j)).advance = Chip.settle
      (if 1 < n + 1 - j then (d (j + 1)).gotoWork m (.clearFlags (start + j + 1) (n + 1 - j - 1) mask (count (j + 1)))
        else ((d (j + 1)).gotoWork m (w j)).complete (done [word (count (j + 1))])) := by
    have more : count (j + 1) = if (d j).points[recordAt (start + j)].anyFlag mask = true then count j + 1 else count j := by
      rw [show (d j).points[recordAt (start + j)] = c.points[recordAt (start + j)] from
        rangePoints_next _ start c.points j (by omega)]
      exact countRange_succ _ start j
    rw [more]
    exact (d j).advance_gotoWork (rest j) m (w j)
  refine Chip.advances_run m d w n _ (fun j hj => ?_) ?_
  · rw [event j (by omega), if_pos (by omega), show n + 1 - j - 1 = n + 1 - (j + 1) by omega]
    exact (d (j + 1)).settle_gotoWork (rest (j + 1)) m (w (j + 1))
  · rw [event n (by omega), if_neg (by omega), (d (n + 1)).complete_gotoWork b hb m hm]

/-! ### CLEAR VERDICT -/

theorem Verdict.standing_eq (v : Verdict) : v.standing = (v == .fire || v == .held) := by cases v <;> rfl

/-- A verdict that CLEAR VERDICT clears (R122). -/
def PointRecord.clears (p : PointRecord) : Bool := p.verdict.standing && p.lastStatus != some .alarm

/-- A verdict that stays for its alarm (R122). -/
def PointRecord.stays (p : PointRecord) : Bool := p.verdict.standing && p.lastStatus == some .alarm

/-- A point as CLEAR VERDICT leaves it (R122). -/
def PointRecord.cleared (p : PointRecord) : PointRecord := if p.clears = true then { p with verdict := .none } else p

/-- Counting a vector's entries is counting its indexes. -/
theorem countP_toList {α : Type} {n : Nat} (v : Vector α n) (p : α → Bool) :
    v.toList.countP p = (List.finRange n).countP fun i : Fin n => p v[i] := by
  have list : v.toList = (List.finRange n).map fun i : Fin n => v[i] := List.ext_getElem (by simp) fun i h1 h2 => by simp
  rw [list, List.countP_map]
  rfl

/-- How many records of a point table hold FIRE. -/
@[irreducible] def fireRecords (v : Vector PointRecord 768) : Nat := countRecords fun r => v[r].verdict == .fire

/-- The FIRE count counts records (R123). -/
theorem Chip.fires_eq (c : Chip) : c.fires = fireRecords c.points := by
  unfold fireRecords countRecords
  rw [Chip.fires, countP_toList]

/-- A chip's points replaced, with the FIRE count and the pin that go with them (R123). -/
def Chip.withVerdicts (c : Chip) (v : Vector PointRecord 768) : Chip :=
  { c with points := v, fireCount := fireRecords v, firePin := decide (0 < fireRecords v) }

theorem Chip.withVerdicts_fireRight (c : Chip) (v : Vector PointRecord 768) : (c.withVerdicts v).FireRight :=
  ⟨(Chip.fires_eq (c.withVerdicts v)).symm, rfl⟩

theorem Chip.withVerdicts_self (c : Chip) (h : c.FireRight) : c.withVerdicts c.points = c := by
  obtain ⟨count, pin⟩ := h
  rw [c.fires_eq] at count
  rw [Chip.withVerdicts, ← count, ← pin]

/-- A clear at a point keeps the count and the pin right (R122, R123). -/
theorem Chip.withVerdicts_clear (c : Chip) (v : Vector PointRecord 768) (r : Rec) :
    (if v[r].clears = true then (c.withVerdicts v).setVerdict r .none else c.withVerdicts v) =
      c.withVerdicts (v.set r v[r].cleared) := by
  by_cases h : v[r].clears = true
  · have cleared : v[r].cleared = { v[r] with verdict := .none } := if_pos h
    have right := (Chip.setVerdict_fires (c.withVerdicts v) r .none (c.withVerdicts_fireRight v)).1
    rw [Chip.fires_eq] at right
    have count : fireCountAfter (fireRecords v) v[r].verdict .none = fireRecords (v.set r v[r].cleared) := by
      rw [cleared]
      exact right
    rw [if_pos h, Chip.withVerdicts, Chip.withVerdicts, ← count, cleared]
    rfl
  · rw [if_neg h, PointRecord.cleared, if_neg h]
    exact congrArg c.withVerdicts (by simp)

/-- One event of CLEAR VERDICT, its point's clear given, with its two counts. -/
theorem Chip.clearVerdictEvent_of (c d : Chip) (m : Command) (next left cleared alarmed : Nat)
    (h : (if c.points[recordAt next].clears = true then c.setVerdict (recordAt next) .none else c) = d) :
    c.clearVerdictEvent m next left cleared alarmed =
      if 1 < left then d.gotoWork m (.clearVerdict (next + 1) (left - 1)
        (if c.points[recordAt next].clears = true then cleared + 1 else cleared)
        (if c.points[recordAt next].stays = true then alarmed + 1 else alarmed))
      else d.complete (done [word (if c.points[recordAt next].clears = true then cleared + 1 else cleared),
        word (if c.points[recordAt next].stays = true then alarmed + 1 else alarmed)]) := by
  subst h
  rfl

/-- CLEAR VERDICT over a range (R122, R123). -/
theorem Chip.clearVerdict_runs (c : Chip) (quiet : c.Quiet) (b : Binding) (hb : c.bind = .bound b) (m : Command)
    (hm : c.command = some m) (right : c.FireRight) (start n : Nat) (inside : start + (n + 1) ≤ 768) :
    Chip.advances (n + 1) (c.gotoWork m (.clearVerdict start (n + 1) 0 0)) = Chip.settle (Chip.complete
      (c.withVerdicts (rangePoints PointRecord.cleared start c.points (n + 1)))
      (done [word (countRange (fun r => c.points[r].clears) start (n + 1)),
             word (countRange (fun r => c.points[r].stays) start (n + 1))])) := by
  let v (j : Nat) := rangePoints PointRecord.cleared start c.points j
  let d (j : Nat) : Chip := c.withVerdicts (v j)
  let clear (j : Nat) : Nat := countRange (fun r => c.points[r].clears) start j
  let stay (j : Nat) : Nat := countRange (fun r => c.points[r].stays) start j
  let w (j : Nat) : Work := .clearVerdict (start + j) (n + 1 - j) (clear j) (stay j)
  have rest (j : Nat) : (d j).Quiet := quiet.of_path ⟨rfl, rfl, rfl, rfl, rfl⟩
  have event (j : Nat) (hj : j < n + 1) : ((d j).gotoWork m (w j)).advance = Chip.settle
      (if 1 < n + 1 - j then (d (j + 1)).gotoWork m (.clearVerdict (start + j + 1) (n + 1 - j - 1) (clear (j + 1)) (stay (j + 1)))
        else ((d (j + 1)).gotoWork m (w j)).complete (done [word (clear (j + 1)), word (stay (j + 1))])) := by
    have point : (v j)[recordAt (start + j)] = c.points[recordAt (start + j)] := rangePoints_next _ start c.points j (by omega)
    have moreClear : clear (j + 1) = if (v j)[recordAt (start + j)].clears = true then clear j + 1 else clear j := by
      rw [point]
      exact countRange_succ _ start j
    have moreStay : stay (j + 1) = if (v j)[recordAt (start + j)].stays = true then stay j + 1 else stay j := by
      rw [point]
      exact countRange_succ _ start j
    have stage : ((d j).gotoWork m (w j)).withVerdicts (v (j + 1)) = (d (j + 1)).gotoWork m (w j) := rfl
    have cleared : (if ((d j).gotoWork m (w j)).points[recordAt (start + j)].clears = true then
        ((d j).gotoWork m (w j)).setVerdict (recordAt (start + j)) .none else (d j).gotoWork m (w j)) =
        (d (j + 1)).gotoWork m (w j) :=
      (((d j).gotoWork m (w j)).withVerdicts_clear (v j) (recordAt (start + j))).trans stage
    rw [(d j).advance_gotoWork (rest j) m (w j), moreClear, moreStay]
    exact congrArg Chip.settle (Chip.clearVerdictEvent_of _ _ { m with stage := .working (w j) } _ _ _ _ cleared)
  have start0 : c.gotoWork m (.clearVerdict start (n + 1) 0 0) = (d 0).gotoWork m (w 0) := by
    rw [show d 0 = c from c.withVerdicts_self right]
    rfl
  rw [start0]
  refine Chip.advances_run m d w n _ (fun j hj => ?_) ?_
  · rw [event j (by omega), if_pos (by omega), show n + 1 - j - 1 = n + 1 - (j + 1) by omega]
    exact (d (j + 1)).settle_gotoWork (rest (j + 1)) m (w (j + 1))
  · rw [event n (by omega), if_neg (by omega), (d (n + 1)).complete_gotoWork b hb m hm]

/-- The check of CLEAR FLAGS leads to its work (R69, R74). -/
theorem Chip.checkClearFlags_ok (c : Chip) (m : Command) (h : rangeFault c.loops m = none) (small : m.num 4 ≤ 255) :
    c.checkClearFlags m = c.gotoWork m (.clearFlags m.firstRecord (m.num 3) (BitVec.ofNat 8 (m.num 4)) 0) := by
  rw [Chip.checkClearFlags, h, Command.num_operand m 4, ← lowBits_eq]
  exact if_neg (Nat.not_lt.2 small)

theorem Chip.checkClearVerdict_ok (c : Chip) (m : Command) (h : rangeFault c.loops m = none) :
    c.checkClearVerdict m = c.gotoWork m (.clearVerdict m.firstRecord (m.num 3) 0 0) := by rw [Chip.checkClearVerdict, h]

/-- Settles O55: each command by its run. -/
theorem clearingCommandsRunTheirRanges : Obligations.ClearingCommandsRunTheirRanges := by
  intro s m b quiet legal range c
  have inside := range.inside legal
  obtain ⟨n, hn⟩ : ∃ n, m.num 3 = n + 1 := ⟨m.num 3 - 1, by have := range.count; omega⟩
  have inside' : m.firstRecord + (n + 1) ≤ 768 := hn ▸ inside
  refine ⟨fun check small => ?_, fun check right => ?_⟩
  · intro mask
    have fault : rangeFault c.loops m = none := by rw [c.loops_bound b check.bound]; exact rangeFault_none range
    have passes := (Chip.checkCommand_clearFlags check.isCode).trans (c.checkClearFlags_ok m fault small)
    have run := c.clearFlags_runs quiet b check.bound m check.inHand mask m.firstRecord n inside'
    rw [← hn, ← countRecords_range (fun r => c.points[r].anyFlag mask) _ _ inside m.covers m.covers_iff] at run
    refine ⟨rangePoints (·.clearFlags mask) m.firstRecord c.points (m.num 3), fun r => ?_,
      exec_rangeRun s _ m b 11 (m.num 3) _ check quiet rfl passes run⟩
    rw [rangePoints_record _ _ _ _ inside]
    exact if_congr (m.covers_iff r).symm rfl rfl
  · intro stands clears stays fires
    have fault : rangeFault c.loops m = none := by rw [c.loops_bound b check.bound]; exact rangeFault_none range
    have passes := (Chip.checkCommand_clearVerdict check.isCode).trans (c.checkClearVerdict_ok m fault)
    have run := c.clearVerdict_runs quiet b check.bound m check.inHand right m.firstRecord n inside'
    have clears_eq (r : Rec) : clears r = (m.covers r && c.points[r].clears) := by
      rw [PointRecord.clears, Verdict.standing_eq, ← Bool.and_assoc]
    have stays_eq (r : Rec) : stays r = (m.covers r && c.points[r].stays) := by
      rw [PointRecord.stays, Verdict.standing_eq, ← Bool.and_assoc]
    rw [← hn, ← countRecords_range (fun r => c.points[r].clears) _ _ inside m.covers m.covers_iff,
      ← countRecords_range (fun r => c.points[r].stays) _ _ inside m.covers m.covers_iff,
      ← countRecords_congr clears_eq, ← countRecords_congr stays_eq] at run
    have record (r : Rec) : (rangePoints PointRecord.cleared m.firstRecord c.points (m.num 3))[r] =
        if clears r = true then { c.points[r] with verdict := .none } else c.points[r] := by
      rw [rangePoints_record _ _ _ _ inside, PointRecord.cleared, clears_eq]
      by_cases here : m.covers r = true
      · rw [if_pos ((m.covers_iff r).1 here), here, Bool.true_and]
      · rw [if_neg (fun h => here ((m.covers_iff r).2 h)), if_neg (fun h => here (Bool.and_eq_true_iff.1 h).1)]
    have count : fireRecords (rangePoints PointRecord.cleared m.firstRecord c.points (m.num 3)) = fires := by
      unfold fireRecords
      refine countRecords_congr fun r => ?_
      rw [record]
      cases clears r with
      | false => rw [Bool.not_false, Bool.and_true]; rfl
      | true => rw [Bool.not_true, Bool.and_false]; rfl
    refine ⟨_, record, ?_⟩
    rw [← count]
    exact exec_rangeRun s _ m b 12 (m.num 3) _ check quiet rfl passes run

/-! ### QUERY -/

/-- The census before QUERY's read number `n`: the points in order, then the slots, then the seal (R154). -/
def Chip.censusAt (c : Chip) : Nat → Census
  | 0 => Census.zero
  | n + 1 =>
    if n < 768 then (c.censusAt n).add c.points[recordAt n]
    else if n = 768 then { c.censusAt n with slots := c.activeSlots }
    else { c.censusAt n with sealBit := c.sealed.toNat }

theorem Chip.censusAt_point (c : Chip) (n : Nat) (h : n < 768) :
    c.censusAt (n + 1) = (c.censusAt n).add c.points[recordAt n] := by rw [Chip.censusAt, if_pos h]

theorem Chip.censusAt_slots (c : Chip) (n : Nat) (h : n = 768) :
    c.censusAt (n + 1) = { c.censusAt n with slots := c.activeSlots } := by
  rw [Chip.censusAt, if_neg (by omega), if_pos h]

theorem Chip.censusAt_seal (c : Chip) (n : Nat) (h : n = 769) :
    c.censusAt (n + 1) = { c.censusAt n with sealBit := c.sealed.toNat } := by
  rw [Chip.censusAt, if_neg (by omega), if_neg (by omega)]

/-- QUERY's reads (R154). -/
theorem Chip.query_runs (c : Chip) (quiet : c.Quiet) (b : Binding) (hb : c.bind = .bound b) (m : Command)
    (hm : c.command = some m) : Chip.advances (770 + 1) (c.gotoWork m (.query 0 Census.zero)) =
      Chip.settle (c.complete (done ((c.censusAt 770).result c.writer.queue.length))) := by
  let w (j : Nat) : Work := .query j (c.censusAt j)
  have event (j : Nat) : (c.gotoWork m (w j)).advance =
      Chip.settle (Chip.queryEvent (c.gotoWork m (w j)) { m with stage := .working (w j) } j (c.censusAt j)) :=
    c.advance_gotoWork quiet m (w j)
  refine Chip.advances_run m (fun _ => c) w 770 _ (fun j hj => ?_) ?_
  · rw [event j, ← c.settle_gotoWork quiet m (w (j + 1))]
    refine congrArg Chip.settle ?_
    have lead (n : Nat) (hn : j + 1 = n) {q : Census} (h : c.censusAt (j + 1) = q) :
        c.gotoWork m (.query n q) = c.gotoWork m (w (j + 1)) := by rw [← hn, ← h]
    by_cases point : j < 768
    · exact (if_pos point).trans (lead _ rfl (c.censusAt_point j point))
    · by_cases slots : j = 768
      · exact (if_neg point).trans ((if_pos slots).trans (lead 769 (by rw [slots]) (c.censusAt_slots j slots)))
      · have last : j = 769 := by omega
        exact (if_neg point).trans ((if_neg slots).trans ((if_pos last).trans (lead 770 (by rw [last]) (c.censusAt_seal j last))))
  · rw [event 770]
    refine congrArg Chip.settle ?_
    refine (if_neg (by decide)).trans ((if_neg (by decide)).trans ((if_neg (by decide)).trans ?_))
    exact c.complete_gotoWork b hb m hm (w 770) _

/-! The census in numbers (R154, R155, R187). -/

theorem bump_entry {n : Nat} (v : Vector Nat n) (i j : Nat) (hj : j < n) :
    (bump v i)[j] = if i = j then v[j] + 1 else v[j] := by
  rw [bump, getElem_tabulate]
  exact if_congr eq_comm rfl rfl

/-- The three tables after `n` points. -/
theorem Chip.censusAt_counts (c : Chip) (n : Nat) (hn : n ≤ 768) :
    (∀ (i : Nat) (h : i < 8), (c.censusAt n).states[i] = countRange (fun r => c.points[r].state.code = i) 0 n) ∧
    (∀ (i : Nat) (h : i < 3), (c.censusAt n).presences[i] = countRange (fun r => c.points[r].presence.code = i) 0 n) ∧
    ∀ (i : Nat) (h : i < 4), (c.censusAt n).verdicts[i] = countRange (fun r => c.points[r].verdict.code = i) 0 n := by
  induction n with
  | zero =>
    exact ⟨fun i h => Vector.getElem_replicate h, fun i h => Vector.getElem_replicate h, fun i h => Vector.getElem_replicate h⟩
  | succ n ih =>
    obtain ⟨states, presences, verdicts⟩ := ih (by omega)
    rw [c.censusAt_point n (by omega)]
    have counted (code : Rec → Nat) (i : Nat) : countRange (fun r => code r = i) 0 (n + 1) =
        if code (recordAt n) = i then countRange (fun r => code r = i) 0 n + 1 else countRange (fun r => code r = i) 0 n := by
      rw [countRange_succ, Nat.zero_add]
      exact if_congr decide_eq_true_iff rfl rfl
    refine ⟨fun i h => ?_, fun i h => ?_, fun i h => ?_⟩
    · exact (bump_entry _ _ i h).trans (by rw [states i h, counted fun r => c.points[r].state.code])
    · exact (bump_entry _ _ i h).trans (by rw [presences i h, counted fun r => c.points[r].presence.code])
    · exact (bump_entry _ _ i h).trans (by rw [verdicts i h, counted fun r => c.points[r].verdict.code])

theorem PointState.beq_code (s t : PointState) : (s == t) = decide (s.code = t.code) := by cases s <;> cases t <;> rfl

theorem Presence.beq_code (s t : Presence) : (s == t) = decide (s.code = t.code) := by cases s <;> cases t <;> rfl

theorem Verdict.beq_code (s t : Verdict) : (s == t) = decide (s.code = t.code) := by cases s <;> cases t <;> rfl

theorem countPair_eq (first second : Nat) (h : first < 65536) :
    countPair first second = word (first + 65536 * second) := by
  apply BitVec.eq_of_toNat_eq
  simp only [countPair, word, toNat_append_add, BitVec.toNat_ofNat]
  omega

theorem queryTailWord_eq (slots pending : Nat) (sealBit : Bool) :
    queryTailWord slots sealBit.toNat pending = word (slots % 256 + 256 * sealBit.toNat + 65536 * (pending % 256)) := by
  have bit := Bool.toNat_le sealBit
  apply BitVec.eq_of_toNat_eq
  simp only [queryTailWord, word, toNat_append_add, BitVec.toNat_ofNat]
  omega

theorem countRecords_le (p : Rec → Bool) : countRecords p ≤ 768 := by
  rw [countRecords_eq]
  exact countRange_le p 0 768

/-- The three tables once every point is counted. -/
theorem Chip.censusAt_end (c : Chip) :
    (∀ (x : PointState) (h : x.code < 8), (c.censusAt 770).states[x.code] = countRecords fun r => c.points[r].state == x) ∧
    (∀ (x : Presence) (h : x.code < 3), (c.censusAt 770).presences[x.code] = countRecords fun r => c.points[r].presence == x) ∧
    (∀ (x : Verdict) (h : x.code < 4), (c.censusAt 770).verdicts[x.code] = countRecords fun r => c.points[r].verdict == x) ∧
    (c.censusAt 770).slots = c.activeSlots ∧ (c.censusAt 770).sealBit = c.sealed.toNat := by
  obtain ⟨states, presences, verdicts⟩ := c.censusAt_counts 768 (Nat.le_refl _)
  rw [c.censusAt_seal 769 rfl, c.censusAt_slots 768 rfl]
  refine ⟨fun x h => ?_, fun x h => ?_, fun x h => ?_, rfl, rfl⟩
  · simp only [PointState.beq_code, countRecords_eq]
    exact states _ h
  · simp only [Presence.beq_code, countRecords_eq]
    exact presences _ h
  · simp only [Verdict.beq_code, countRecords_eq]
    exact verdicts _ h

/-- Settles O56: the run of QUERY, and its eight words. -/
theorem queryCountsEveryPoint : Obligations.QueryCountsEveryPoint := by
  intro s m b quiet check c st pr ve active
  have passes : c.checkCommand m = c.gotoWork m (.query 0 Census.zero) := Chip.checkCommand_query check.isCode
  have run := c.query_runs quiet b check.bound m check.inHand
  obtain ⟨states, presences, verdicts, slots, sealBit⟩ := c.censusAt_end
  have state (x : PointState) : st x < 65536 := Nat.lt_of_le_of_lt (countRecords_le _) (by decide)
  have presence (x : Presence) : pr x < 65536 := Nat.lt_of_le_of_lt (countRecords_le _) (by decide)
  have verdict (x : Verdict) : ve x < 65536 := Nat.lt_of_le_of_lt (countRecords_le _) (by decide)
  have active' : c.activeSlots = active := countP_toList c.slots Option.isSome
  have words : [word (st .vacant + 65536 * st .expected), word (st .unplanned + 65536 * st .matched),
       word (st .mismatch + 65536 * st .conflict), word (st .tested + 65536 * st .commissioned),
       word (pr .absent + 65536 * pr .live), word (pr .silent + 65536 * ve .fire), word (ve .test + 65536 * ve .held),
       word (active % 256 + 256 * c.sealed.toNat + 65536 * (c.writer.queue.length % 256))] =
      (c.censusAt 770).result c.writer.queue.length := by
    rw [← countPair_eq _ _ (state _), ← countPair_eq _ _ (state _), ← countPair_eq _ _ (state _), ← countPair_eq _ _ (state _),
      ← countPair_eq _ _ (presence _), ← countPair_eq _ _ (presence _), ← countPair_eq _ _ (verdict _), ← queryTailWord_eq,
      ← active', ← slots, ← sealBit]
    have st' (x : PointState) (h : x.code < 8) : st x = (c.censusAt 770).states[x.code] := (states x h).symm
    have pr' (x : Presence) (h : x.code < 3) : pr x = (c.censusAt 770).presences[x.code] := (presences x h).symm
    have ve' (x : Verdict) (h : x.code < 4) : ve x = (c.censusAt 770).verdicts[x.code] := (verdicts x h).symm
    rw [st' .vacant (by decide), st' .expected (by decide), st' .unplanned (by decide), st' .matched (by decide),
      st' .mismatch (by decide), st' .conflict (by decide), st' .tested (by decide), st' .commissioned (by decide),
      pr' .absent (by decide), pr' .live (by decide), pr' .silent (by decide), ve' .fire (by decide), ve' .test (by decide),
      ve' .held (by decide)]
    generalize c.censusAt 770 = q
    rfl
  rw [← words] at run
  exact exec_rangeRun s _ m b 15 771 _ check quiet rfl passes run

end Sys2Proof.Machine
end


-- ==== Sys2Proof/Proofs/PlanLoad.lean ====
section
/-! SUPPORT. The Transfer Engine's reads, the buffer check, an entry's install, and PLAN LOAD (R37, R118, R158 to R165, R189).
O57 is settled here. -/

namespace Sys2Proof.Machine

/-! ### The buffer check -/

theorem Range.overlaps_comm (x y : Range) : x.overlaps y = y.overlaps x := by
  exact decide_eq_decide.2 And.comm

theorem Binding.bufferOk_iff (b : Binding) (start len : Nat) : b.bufferOk start len = true ↔ b.BufferPasses start len := by
  simp only [Binding.bufferOk, Bool.and_eq_true, beq_iff_eq, List.all_cons, List.all_nil, Bool.not_eq_true',
    Range.overlaps_comm (start, len), and_true, Config.spaceEnd]
  exact ⟨fun ⟨⟨aligned, inside⟩, point, mailbox, ring, descriptor⟩ =>
      ⟨aligned, of_decide_eq_true inside, point, mailbox, ring, descriptor⟩,
    fun ⟨aligned, inside, point, mailbox, ring, descriptor⟩ => 
      ⟨⟨aligned, decide_eq_true inside⟩, point, mailbox, ring, descriptor⟩⟩

theorem Binding.bufferOk_false (b : Binding) (start len : Nat) : b.bufferOk start len = false ↔ ¬b.BufferPasses start len := by
  rw [← b.bufferOk_iff, Bool.not_eq_true]

/-! ### A transfer's check, work and reads -/

theorem Chip.checkTransfer_eq (c : Chip) (b : Binding) (t : TransferEngine) (f : Binding → TransferEngine → Chip)
    (hb : c.bind = .bound b) (ht : c.transfer = some t) : c.checkTransfer f = f b t := by
  rw [Chip.checkTransfer, hb, ht]

theorem Chip.transferWork_eq (c : Chip) (t : TransferEngine) (f : TransferEngine → Chip) (ht : c.transfer = some t) :
    c.transferWork f = f t := by rw [Chip.transferWork, ht]

/-- The chip with a transfer set and the read of its block's first word issued. -/
def Chip.reading (c : Chip) (m : Command) (t : TransferEngine) (base : Nat) : Chip :=
  { c with transfer := some t, command := some { m with stage := .transferring .read },
           im := { c.im with waitCommand := some ⟨BitVec.ofNat 24 base, none⟩ } }

theorem TransferEngine.base_plan (t : TransferEngine) (m : Command) (k : Nat) (hc : m.code = 1) (hk : t.position = some k) :
    t.base m = m.num 1 + 80 * k := by
  rw [TransferEngine.base, hk]
  exact if_pos hc

theorem TransferEngine.base_state (t : TransferEngine) (m : Command) (k : Nat) (hc : m.code ≠ 1) (hk : t.position = some k) :
    t.base m = m.num 1 + 64 + 176 * k := by
  rw [TransferEngine.base, hk]
  exact if_neg hc

theorem TransferEngine.base_header (t : TransferEngine) (m : Command) (hk : t.position = none) : t.base m = m.num 1 := by
  rw [TransferEngine.base, hk]

theorem TransferEngine.block_eq (t : TransferEngine) (k : Nat) (hk : t.position = some k) : t.block = k := by
  rw [TransferEngine.block, hk]
  rfl

/-- The read of a block begins (R159). -/
theorem Chip.startBlock_plan (c : Chip) (m : Command) (t : TransferEngine) (k : Nat) (hc : m.code = 1) :
    c.startBlock m t (some k) =
      c.reading m { t with position := some k, words := [], sum := 0 } (m.num 1 + 80 * k) := by
  rw [← TransferEngine.base_plan { t with position := some k, words := [], sum := 0 } m k hc rfl]
  rfl

theorem Chip.startBlock_state (c : Chip) (m : Command) (t : TransferEngine) (k : Nat) (hc : m.code ≠ 1) :
    c.startBlock m t (some k) =
      c.reading m { t with position := some k, words := [], sum := 0 } (m.num 1 + 64 + 176 * k) := by
  rw [← TransferEngine.base_state { t with position := some k, words := [], sum := 0 } m k hc rfl]
  rfl

theorem Chip.startBlock_header (c : Chip) (m : Command) (t : TransferEngine) :
    c.startBlock m t none = c.reading m { t with position := none, words := [], sum := 0 } (m.num 1) := rfl

/-- The transfer with a word read. -/
def TransferEngine.withWord (t : TransferEngine) (x : Word) : TransferEngine := { t with words := t.words ++ [x], sum := t.sum + x }

theorem TransferEngine.withWord_length (t : TransferEngine) (x : Word) : (t.withWord x).words.length = t.words.length + 1 := by
  rw [TransferEngine.withWord, List.length_append, List.length_singleton]

/-- A word that is not the block's last is followed by the next read (R159). -/
theorem Chip.blockWord_next (c : Chip) (m : Command) (t : TransferEngine) (x : Word) (n : Nat) (hl : t.length m = n)
    (h : t.words.length + 1 < n) : c.blockWord m t x =
      { c with transfer := some (t.withWord x),
               im := { c.im with waitCommand := some ⟨BitVec.ofNat 24 (t.base m + 4 * (t.words.length + 1)), none⟩ } } := by
  subst hl
  refine (if_neg (by rw [← t.withWord_length x] at h; exact Nat.not_le.2 h)).trans ?_
  show Chip.issueCommand { c with transfer := some (t.withWord x) } (t.base m + 4 * (t.withWord x).words.length) none = _
  rw [t.withWord_length x]
  rfl

/-- The block's last word brings its checks. -/
theorem Chip.blockWord_last (c : Chip) (m : Command) (t : TransferEngine) (x : Word) (n : Nat) (hl : t.length m = n)
    (h : n ≤ t.words.length + 1) : c.blockWord m t x =
      { c with transfer := some (t.withWord x), command := some { m with stage := .working (t.judge m) } } := by
  subst hl
  exact if_pos (by rw [← t.withWord_length x] at h; exact h)

theorem MemRequest.perform_of_read (q : MemRequest) (mem : List Host.Cell) (h : q.wdata = none) : q.perform mem = mem := by
  obtain ⟨a, w⟩ := q
  cases h
  rfl

/-- The DACK of a block's read, by the command's row. -/
theorem exec_blockWord (s : State) (i : Instr) (m : Command) (t : TransferEngine) (q : MemRequest) (hpor : s.chip.porLow = false)
    (hp : s.chip.port = some (.internal .command q)) (hm : s.chip.command = some m) (hi : i.mailboxStep = some (m.code, .run 1))
    (hs : m.stage = .transferring .read) (ht : s.chip.transfer = some t) (hq : q.wdata = none) {d : Chip}
    (h : Chip.blockWord { s.chip with port := none, im := { s.chip.im with current := none } } m t
      (Mem.readWord s.chip.mem (wordBase q.addr)) = d) : exec i s = .next (s.withChip d.settle) := by
  have inHand : (s.chip.internalDone q).command = some m := hm
  refine exec_commandAccess s i m q hpor hp hm (fun w h => by rw [hs] at h; cases h) (.inr hi)
    ((Chip.commandAccessDone_transferring inHand _ .read hs).trans ?_)
  rw [q.data_read s.chip.mem hq, Chip.internalDone, q.perform_of_read s.chip.mem hq, Chip.transferDone]
  show (match s.chip.transfer with
    | none => _
    | some t => Chip.blockWord { s.chip with port := none, im := { s.chip.im with current := none } } m t
      (Mem.readWord s.chip.mem (wordBase q.addr))) = d
  rw [ht]
  exact h

/-- A work event of a transfer. -/
theorem exec_transferWork (s : State) (i : Instr) (m : Command) (b : Binding) (code : BitVec 8) (w : Work) (t : TransferEngine)
    (f : TransferEngine → Chip) (work : s.chip.AtWork m b code w) (ht : s.chip.transfer = some t)
    (hi : i.mailboxStep = some (code, .run 1)) (hw : s.chip.work m w = s.chip.transferWork f) {d : Chip} (h : f t = d) :
    exec i s = .next (s.withChip d.settle) :=
  exec_runWork s i m b code w work hi (hw.trans ((s.chip.transferWork_eq t f ht).trans h))

/-! ### Where a check fails -/

theorem badBlockDetail_eq (block slot : Nat) (h1 : block < 256) (h2 : slot < 256) :
    badBlockDetail block slot = word (256 * block + slot) := by
  apply BitVec.eq_of_toNat_eq
  simp only [badBlockDetail, word, toNat_append_add, BitVec.toNat_ofNat]
  omega

theorem TransferEngine.failure_refuses (t : TransferEngine) (m : Command) (reason : Reason) (detail : Word)
    (h : t.pass ≠ .install) : t.failure m reason detail = refusedWith reason detail := by
  rw [TransferEngine.failure]
  cases hp : t.pass with
  | install => exact absurd hp h
  | _ => rfl

theorem TransferEngine.failure_plan (t : TransferEngine) (m : Command) (reason : Reason) (detail : Word) (k : Nat)
    (hc : m.code = 1) (hk : t.position = some k) (h : t.pass = .install) :
    t.failure m reason detail = tornWith k [word k, word t.entries, word t.deletions] := by
  rw [TransferEngine.failure, h, ← t.block_eq k hk]
  exact if_pos hc

/-! ### An entry's install -/

/-- The openers after a plan entry is replaced: the old zone's goes when it names the point and the zone changes (R37, R118). -/
theorem Chip.replaceEntry_openers (c : Chip) (r : Rec) (e : Option PlanEntry) : ∃ zones : Vector ZoneRecord 100,
    (∀ z : Zone, zones[z] =
      if z = c.zoneOf r ∧ z ≠ Chip.zoneOf { c with plan := c.plan.set r e } r ∧ c.zones[z].opener.map (·.point) = some r
      then { c.zones[z] with opener := none } else c.zones[z]) ∧
    c.replaceEntry r e = { c with plan := c.plan.set r e, zones := zones } := by
  have zone : Chip.zoneOf { c with plan := c.plan.set r e } r = zoneFor r e := by
    rw [Chip.zoneOf]
    exact congrArg (zoneFor r) (by simp)
  by_cases same : zoneFor r e = c.zoneOf r
  · refine ⟨c.zones, fun z => (if_neg ?_).symm, if_pos same⟩
    rw [zone, same]
    exact fun h => h.2.1 h.1
  · refine ⟨_, fun z => ?_, if_neg same⟩
    show (c.zones.set (c.zoneOf r) _)[z] = _
    by_cases own : z = c.zoneOf r
    · subst own
      have there : ∀ x : ZoneRecord, (c.zones.set (c.zoneOf r) x)[c.zoneOf r] = x := fun x => by simp
      rw [there, zone, show (c.setPlan r e).zones = c.zones from rfl]
      generalize c.zones[c.zoneOf r] = record
      obtain ⟨withheld, walkSlot, opener⟩ := record
      cases opener with
      | none => exact (if_neg (fun h => nomatch h.2.2)).symm
      | some o =>
        show ZoneRecord.mk withheld walkSlot (if o.point = r then none else some o) = _
        by_cases point : o.point = r
        · rw [if_pos point, if_pos ⟨rfl, Ne.symm same, congrArg some point⟩]
        · rw [if_neg point, if_neg (fun h => point (Option.some.inj h.2.2))]
    · rw [if_neg (fun h => own h.1)]
      have other : ∀ x : ZoneRecord, (c.zones.set (c.zoneOf r) x)[z] = c.zones[z] := fun x => by
        simp [Fin.val_ne_of_ne (Ne.symm own)]
      exact other _

/-- An install: the entry, the opener, the point's own change, and the derived fields over the new entry (R37, R172). -/
theorem Chip.install_eq (c : Chip) (r : Rec) (e : Option PlanEntry) (f : PointRecord → PointRecord) :
    ∃ zones : Vector ZoneRecord 100,
    (∀ z : Zone, zones[z] =
      if z = c.zoneOf r ∧ z ≠ Chip.zoneOf { c with plan := c.plan.set r e } r ∧ c.zones[z].opener.map (·.point) = some r
      then { c.zones[z] with opener := none } else c.zones[z]) ∧
    ((c.replaceEntry r e).modPoint r f).rederive r =
      { c with plan := c.plan.set r e, zones := zones,
               points := c.points.set r (Chip.derived { c with plan := c.plan.set r e } r (f c.points[r])) } := by
  obtain ⟨zones, openers, replaced⟩ := c.replaceEntry_openers r e
  refine ⟨zones, openers, ?_⟩
  rw [replaced, Chip.modPoint_eq, Chip.rederive_setPoint]
  rfl

/-! ### The checks of PLAN LOAD -/

theorem entryPlanned_iff (first : Word) : entryPlanned first = true ↔ first.toNat / 65536 % 2 = 1 := getLsbD_iff first 16

/-- The fields of a present entry outside LOOP and ADDRESS (R162, R189). -/
theorem entryFields_iff (first second : Word) : (entryZoneOk first && entryUnusedClear first second) = true ↔
    (1 ≤ first.toNat / 16777216 % 128 ∧ first.toNat / 16777216 % 128 ≤ 96) ∧ first.toNat / 8 % 32 = 0 ∧
      first.toNat / 8388608 % 2 = 0 ∧ first.toNat < 0x80000000 ∧ second.toNat < 65536 := by
  have := first.isLt
  have := second.isLt
  simp only [entryZoneOk, entryUnusedClear, field_eq, Bool.and_eq_true, decide_eq_true_eq, beq_iff_eq]
  omega

theorem entryFormOk_iff (loops : Nat) (first second : Word) :
    entryFormOk loops first second = true ↔ PlanEntryRight loops first second := by
  rw [entryFormOk, Bool.and_eq_true, Bool.and_eq_true, decide_eq_true_iff, decide_eq_true_iff, entryLoop_eq, entryAddress_eq,
    Bool.or_eq_true, Bool.not_eq_true', entryFields_iff, and_assoc]
  refine and_congr Iff.rfl (and_congr Iff.rfl ?_)
  rw [← Bool.not_eq_true, entryPlanned_iff, ← imp_iff_not_or]

/-- A block's own checks (R161). -/
theorem TransferEngine.planBlockOk_iff (t : TransferEngine) (k : Nat) (hk : t.position = some k) : t.planBlockOk = true ↔
    t.words.getD 0 0 = 0x4F54504C#32 ∧ t.words.getD 1 0 = word k ∧ t.words.getD 18 0 = 0 ∧ t.sum = 0 := by
  rw [TransferEngine.planBlockOk, t.block_eq k hk, Bool.and_eq_true, Bool.and_eq_true, Bool.and_eq_true, beq_iff_eq, beq_iff_eq,
    beq_iff_eq, beq_iff_eq, and_assoc, and_assoc]
  rfl

/-- A zone in question is under a walk test (R162). -/
theorem Chip.entryInTest_iff (c : Chip) (first second : Word) : c.entryInTest first second = true ↔
    ∃ (j : Fin 4) (w : WalkSlot), c.slots[j] = some w ∧ (realZone w.zone = c.zoneOf (entryRecord first) ∨
      (first.getLsbD 16 = true ∧ realZone w.zone = zoneFor (entryRecord first) (entryOf first second))) := by
  rw [Chip.entryInTest, Bool.or_eq_true, Bool.and_eq_true, c.linkedSlot_isSome_iff, c.linkedSlot_isSome_iff]
  constructor
  · rintro (⟨j, w, hw, zone⟩ | ⟨planned, j, w, hw, zone⟩)
    · exact ⟨j, w, hw, .inl zone⟩
    · exact ⟨j, w, hw, .inr ⟨planned, zone⟩⟩
  · rintro ⟨j, w, hw, zone | ⟨planned, zone⟩⟩
    · exact .inl ⟨j, w, hw, zone⟩
    · exact .inr ⟨planned, j, w, hw, zone⟩

section
variable (c : Chip) (t : TransferEngine) (n : Nat)

/-! The checks of a non-empty slot, in their order (R162). -/

theorem Chip.entryFault_form (h : entryFormOk c.loops (t.entryWords n).1 (t.entryWords n).2 = false) :
    c.entryFault t n = some (.badBlock, badBlockDetail t.block n) := if_pos h

variable (h1 : entryFormOk c.loops (t.entryWords n).1 (t.entryWords n).2 = true)
include h1

theorem Chip.entryFault_marked (h : entryRecord (t.entryWords n).1 ∈ t.marks) :
    c.entryFault t n = some (.duplicateEntry, word (entryRecord (t.entryWords n).1).val) :=
  (if_neg (by rw [h1]; decide)).trans (if_pos (List.contains_iff_mem.2 h))

variable (h2 : entryRecord (t.entryWords n).1 ∉ t.marks)
include h2

theorem Chip.entryFault_locked (h : c.points[entryRecord (t.entryWords n).1].state = .commissioned) :
    c.entryFault t n = some (.lockedPoint, word (entryRecord (t.entryWords n).1).val) :=
  (if_neg (by rw [h1]; decide)).trans ((if_neg (fun g => h2 (List.contains_iff_mem.1 g))).trans (if_pos h))

variable (h3 : c.points[entryRecord (t.entryWords n).1].state ≠ .commissioned)
include h3

theorem Chip.entryFault_inTest (h : c.entryInTest (t.entryWords n).1 (t.entryWords n).2 = true) :
    c.entryFault t n = some (.zoneInTest, word (entryRecord (t.entryWords n).1).val) :=
  (if_neg (by rw [h1]; decide)).trans ((if_neg (fun g => h2 (List.contains_iff_mem.1 g))).trans ((if_neg h3).trans (if_pos h)))

theorem Chip.entryFault_none (h : c.entryInTest (t.entryWords n).1 (t.entryWords n).2 = false) : c.entryFault t n = none :=
  (if_neg (by rw [h1]; decide)).trans ((if_neg (fun g => h2 (List.contains_iff_mem.1 g))).trans ((if_neg h3).trans
    (if_neg (by rw [h]; decide))))

end

/-! What follows an entry slot that passes (R161 to R164). -/

/-- The next slot's checks, or what follows the block's last. -/
def Chip.afterEntry (c : Chip) (m : Command) (t : TransferEngine) (n : Nat) : Chip :=
  if n < 8 then Chip.gotoWork { c with transfer := some t } m (.planEntry (n + 1)) else c.afterPlanChecks m t

section
variable (c : Chip) (m : Command) (t : TransferEngine) (n : Nat)

theorem Chip.planEntry_empty (h : entryLoop (t.entryWords n).1 = 0) : c.planEntry m t n = c.afterEntry m t n := if_pos h

theorem Chip.planEntry_fault (h : entryLoop (t.entryWords n).1 ≠ 0) (reason : Reason) (detail : Word)
    (fault : c.entryFault t n = some (reason, detail)) : c.planEntry m t n = c.complete (t.failure m reason detail) := by
  refine (if_neg h).trans ?_
  rw [fault]

theorem Chip.planEntry_passes (h : entryLoop (t.entryWords n).1 ≠ 0) (fault : c.entryFault t n = none) :
    c.planEntry m t n = c.afterEntry m { t with marks := t.marks ++ [entryRecord (t.entryWords n).1] } n := by
  refine (if_neg h).trans ?_
  rw [fault]
  rfl

theorem Chip.afterEntry_more (h : n < 8) : c.afterEntry m t n =
    { c with transfer := some t, command := some { m with stage := .working (.planEntry (n + 1)) } } := if_pos h

theorem Chip.afterEntry_install (h : n = 8) (hp : t.pass = .install) : c.afterEntry m t n =
    { c with transfer := some t, command := some { m with stage := .working (.planInstall 1) } } := by
  refine (if_neg (by omega)).trans ?_
  rw [Chip.afterPlanChecks, hp]
  rfl

theorem Chip.afterEntry_verify (h : n = 8) (hp : t.pass ≠ .install) (k : Nat) (hc : m.code = 1) (hk : t.position = some k) :
    c.afterEntry m t n =
      if k + 1 < m.num 2 then c.reading m { t with position := some (k + 1), words := [], sum := 0 } (m.num 1 + 80 * (k + 1))
      else c.reading m { t with pass := .install, marks := [], position := some 0, words := [], sum := 0 } (m.num 1 + 80 * 0) := by
  have checks : c.afterPlanChecks m t = if t.block + 1 < m.num 2 then c.startBlock m t (some (t.block + 1))
      else c.startBlock m { t with pass := .install, marks := [] } (some 0) := by
    rw [Chip.afterPlanChecks]
    cases pass : t.pass with
    | install => exact absurd pass hp
    | _ => rfl
  refine (if_neg (by omega)).trans (checks.trans ?_)
  rw [t.block_eq k hk, Chip.startBlock_plan _ _ _ _ hc, Chip.startBlock_plan _ _ _ _ hc]

end

/-! ### The installs of PLAN LOAD -/

section
variable (c : Chip) (m : Command) (t : TransferEngine) (n : Nat)

/-- The next slot's install, or what follows the block's last (R163, R165). -/
def Chip.afterInstall (c : Chip) (m : Command) (t : TransferEngine) (n : Nat) : Chip :=
  if n < 8 then Chip.gotoWork { c with transfer := some t } m (.planInstall (n + 1)) else c.afterPlanInstalls m t

theorem Chip.planInstall_empty (h : entryLoop (t.entryWords n).1 = 0) : c.planInstall m t n = c.afterInstall m t n := by
  unfold Chip.planInstall
  dsimp only
  rw [if_pos h, if_pos h]
  rfl

theorem Chip.planInstall_entry (h : entryLoop (t.entryWords n).1 ≠ 0) : c.planInstall m t n =
    Chip.afterInstall (c.installEntry (entryRecord (t.entryWords n).1) (entryOf (t.entryWords n).1 (t.entryWords n).2)) m
      { t with entries := t.entries + 1
               deletions := if (t.entryWords n).1.getLsbD 16 = true then t.deletions else t.deletions + 1 } n := by
  unfold Chip.planInstall
  dsimp only
  rw [if_neg h, if_neg h]
  rfl

theorem Chip.afterInstall_more (h : n < 8) : c.afterInstall m t n =
    { c with transfer := some t, command := some { m with stage := .working (.planInstall (n + 1)) } } := if_pos h

theorem Chip.afterInstall_last (h : n = 8) (k : Nat) (hc : m.code = 1) (hk : t.position = some k) : c.afterInstall m t n =
    if k + 1 < m.num 2 then
      c.reading m { t with blocks := t.blocks + 1, position := some (k + 1), words := [], sum := 0 } (m.num 1 + 80 * (k + 1))
    else Chip.complete { c with transfer := some { t with blocks := t.blocks + 1 } }
      (doneWith [word (t.blocks + 1), word t.entries, word t.deletions]) := by
  have block : TransferEngine.block { t with blocks := t.blocks + 1 } = k := TransferEngine.block_eq _ k hk
  refine (if_neg (by omega)).trans ?_
  rw [Chip.afterPlanInstalls]
  dsimp only
  rw [block, Chip.startBlock_plan _ _ _ _ hc]
  rfl

end

/-! ### PLAN LOAD's events -/

/-- Settles O57: the first checks, a word's DACK, a block's own checks, an entry's checks, an entry's install. -/
theorem planLoadTakesEffect : Obligations.PlanLoadTakesEffect := by
  refine ⟨fun s m b t check unsealed ht => ?_, fun s m t q k hpor hp hm hc hs ht hk hq => ?_,
    fun s m b t k work ht hk small => ?_, fun s m b t k n work ht hk small n1 n8 => ?_, fun s m b t k n work ht hk n1 n8 => ?_⟩
  · intro c
    have own : c.checkCommand m = c.checkPlanLoad m b t :=
      (Chip.checkCommand_planLoad check.isCode unsealed).trans (c.checkTransfer_eq b t _ check.bound ht)
    refine ⟨fun h => ?_, fun count h => ?_, fun count h => ?_⟩ <;> refine exec_runCheck s _ m b 1 check rfl (own.trans ?_)
    · exact if_pos h
    · exact (if_neg (not_not.2 count)).trans (if_pos ((b.bufferOk_false _ _).2 h))
    · refine (if_neg (not_not.2 count)).trans ((if_neg (by rw [(b.bufferOk_iff _ _).2 h]; decide)).trans ?_)
      exact c.startBlock_plan m t 0 check.isCode
  · intro x n c
    have length : t.length m = 20 := by
      rw [TransferEngine.length, hk]
      exact if_pos hc
    have row : (Instr.planLoad (.run 1)).mailboxStep = some (m.code, .run 1) := by rw [hc]; rfl
    have judge : t.judge m = .planBlock := by
      rw [TransferEngine.judge, hk]
      exact if_pos hc
    refine ⟨fun more => ?_, fun last => ?_⟩ <;> refine exec_blockWord s _ m t q hpor hp hm row hs ht hq ?_
    · rw [Chip.blockWord_next _ m t x 20 length more, t.base_plan m k hc hk]
      rfl
    · rw [Chip.blockWord_last _ m t x 20 length last, judge]
      rfl
  · intro c right
    have own {d : Chip} (h : c.planBlock m t = d) := exec_transferWork s (.planLoad (.run 1)) m b 1 .planBlock t
      (fun t => c.planBlock m t) work ht rfl rfl h
    have fault (h : ¬right) : c.planBlock m t = c.complete (t.failure m .badBlock (word (256 * k))) := by
      have bad := Bool.eq_false_iff.2 fun ok => h ((t.planBlockOk_iff k hk).1 ok)
      refine (if_neg (by rw [bad]; decide)).trans ?_
      rw [t.block_eq k hk, badBlockDetail_eq k 0 (by omega) (by decide), Nat.add_zero]
    refine ⟨fun h => own (if_pos ((t.planBlockOk_iff k hk).2 h)), fun h hp => own ((fault h).trans ?_),
      fun h hp => own ((fault h).trans ?_)⟩
    · rw [t.failure_refuses m _ _ hp]
    · rw [t.failure_plan m _ _ k work.isCode hk hp]
  · intro c first second r answers fails reads goesOn right inTest
    have loops : c.loops = b.loops := c.loops_bound b work.bound
    have form : entryFormOk c.loops (t.entryWords n).1 (t.entryWords n).2 = true ↔ right := by
      rw [loops]
      exact entryFormOk_iff b.loops first second
    have own {d : Chip} (h : c.planEntry m t n = d) : answers d := exec_transferWork s (.planLoad (.run 1)) m b 1 (.planEntry n) t
      (fun t => c.planEntry m t n) work ht rfl rfl h
    have goes (t' : TransferEngine) (h : c.planEntry m t n = c.afterEntry m t' n) (pass : t'.pass = t.pass)
        (position : t'.position = some k) : goesOn t' := by
      refine ⟨fun more => own (h.trans (c.afterEntry_more m t' n more)),
        fun last hp => own (h.trans (c.afterEntry_install m t' n last (pass.trans hp))), fun last hp more => own (h.trans ?_),
        fun last hp past => own (h.trans ?_)⟩
      · exact (c.afterEntry_verify m t' n last (fun g => hp (pass.symm.trans g)) k work.isCode position).trans (if_pos more)
      · exact (c.afterEntry_verify m t' n last (fun g => hp (pass.symm.trans g)) k work.isCode position).trans
          (if_neg (Nat.not_lt.2 past))
    have stops (reason : Reason) (detail : Nat) (loop : entryLoop first ≠ 0)
        (fault : c.entryFault t n = some (reason, word detail)) : fails reason detail := by
      have failed := c.planEntry_fault m t n loop reason _ fault
      refine ⟨fun hp => own (failed.trans ?_), fun hp => own (failed.trans ?_)⟩
      · rw [t.failure_refuses m _ _ hp]
      · rw [t.failure_plan m _ _ k work.isCode hk hp]
    refine ⟨fun empty => goes t (c.planEntry_empty m t n ((entryLoop_eq first).trans empty)) rfl hk, fun present => ?_⟩
    have loop : entryLoop first ≠ 0 := fun h => present ((entryLoop_eq first).symm.trans h)
    refine ⟨fun h => stops _ _ loop ?_, fun h marked => stops _ _ loop (c.entryFault_marked t n (form.2 h) marked),
      fun h fresh locked => stops _ _ loop (c.entryFault_locked t n (form.2 h) fresh locked),
      fun h fresh free test => stops _ _ loop (c.entryFault_inTest t n (form.2 h) fresh free ((c.entryInTest_iff _ _).2 test)),
      fun h fresh free clear => goes _ (c.planEntry_passes m t n loop
        (c.entryFault_none t n (form.2 h) fresh free (Bool.eq_false_iff.2 fun g => clear ((c.entryInTest_iff _ _).1 g)))) rfl hk⟩
    rw [c.entryFault_form t n (Bool.eq_false_iff.2 fun g => h (form.1 g)), t.block_eq k hk, badBlockDetail_eq k n (by omega) (by omega)]
  · intro c first second answers goesOn
    have own {d : Chip} (h : c.planInstall m t n = d) : answers d := exec_transferWork s (.planLoad (.run 1)) m b 1 (.planInstall n) t
      (fun t => c.planInstall m t n) work ht rfl rfl h
    have goes (d : Chip) (t' : TransferEngine) (h : c.planInstall m t n = d.afterInstall m t' n) (im : d.im = c.im)
        (blocks : t'.blocks = t.blocks) (position : t'.position = some k) : goesOn d t' := by
      refine ⟨fun more => own (h.trans (d.afterInstall_more m t' n more)), fun last more => own (h.trans ?_),
        fun last past => own (h.trans ?_)⟩
      · rw [← im, ← blocks]
        exact (d.afterInstall_last m t' n last k work.isCode position).trans (if_pos more)
      · rw [← blocks]
        exact (d.afterInstall_last m t' n last k work.isCode position).trans (if_neg (Nat.not_lt.2 past))
    refine ⟨fun empty => goes c t (c.planInstall_empty m t n empty) rfl rfl hk, fun r loop record => ?_⟩
    subst record
    intro e d p
    obtain ⟨zones, openers, installed⟩ := c.install_eq (entryRecord first) e
      (fun p => { p with state := rederiveState p.state c.plan[entryRecord first] e p.foundClass false })
    refine ⟨zones, openers, goes _ _ ((c.planInstall_entry m t n loop).trans ?_) rfl rfl hk⟩
    exact congrArg (fun d : Chip => d.afterInstall m _ n) installed

end Sys2Proof.Machine
end


-- ==== Sys2Proof/Proofs/Snapshot.lean ====
section
/-! SUPPORT. SNAPSHOT: its check, the blocks and the header it assembles, and their writes (R158, R166, R167, R190). O58 is settled
here. -/

namespace Sys2Proof.Machine

/-! ### Assembled words -/

theorem withChecksum_sum (ws : List Word) : sumWords (withChecksum ws) = 0 := by
  rw [sumWords, withChecksum, List.foldl_append]
  exact BitVec.add_right_neg _

/-- The point entries of a state block lie one after the other (R190). -/
theorem Chip.stateBlock_entry (c : Chip) (k second i : Nat) (h : i < 8) :
    ((c.stateBlock k second).drop (2 + 5 * i)).take 5 =
      pointEntry (recordAt (8 * k + i)) c.plan[recordAt (8 * k + i)] c.points[recordAt (8 * k + i)] := by
  interval_cases i <;> rfl

/-- What a state block holds (R167, R190). -/
theorem Chip.stateBlock_facts (c : Chip) (k second : Nat) :
    (c.stateBlock k second).length = 44 ∧ (c.stateBlock k second).foldl (· + ·) 0 = 0 ∧
    (c.stateBlock k second).getD 0 0 = 0x4F545342#32 ∧ (c.stateBlock k second).getD 1 0 = word k ∧
    (c.stateBlock k second).getD 42 0 = word second ∧
    ∀ (i : Nat) (r : Rec), i < 8 → r.val = 8 * k + i →
      ((c.stateBlock k second).drop (2 + 5 * i)).take 5 = pointEntry r c.plan[r] c.points[r] := by
  refine ⟨rfl, withChecksum_sum _, rfl, rfl, rfl, fun i r hi hr => ?_⟩
  have here : recordAt (8 * k + i) = r := by rw [← hr, recordAt_val]
  subst here
  exact c.stateBlock_entry k second i hi

theorem toList_four {α : Type} (v : Vector α 4) : v.toList = [v[0], v[1], v[2], v[3]] := by
  refine List.ext_getElem (by simp) fun i h1 h2 => ?_
  have small : i < 4 := by simpa using h2
  interval_cases i <;> simp

/-- What the header holds (R166, R190). -/
theorem headerWords_facts (loops : Nat) (codes : Vector (BitVec 4) 4) (sealFlag : Bool) (second : Nat) :
    let ws := headerWords loops codes sealFlag second
    ws.length = 16 ∧ ws.foldl (· + ·) 0 = 0 ∧ ws.getD 0 0 = 0x4F545348#32 ∧ ws.getD 1 0 = 96 ∧
    ws.getD 2 0 = word loops ∧ (∀ k : Fin 4, ws.getD (3 + k.val) 0 = word codes[k].toNat) ∧
    ws.getD 7 0 = word sealFlag.toNat ∧ ws.getD 8 0 = word second ∧ ∀ i, 9 ≤ i → i ≤ 14 → ws.getD i 0 = 0 := by
  intro ws
  have list : ws = withChecksum ([Config.headerSignature, 96, word loops, word codes[0].toNat, word codes[1].toNat,
      word codes[2].toNat, word codes[3].toNat, word sealFlag.toNat, word second, 0, 0, 0, 0, 0, 0]) := by
    show headerWords loops codes sealFlag second = _
    rw [headerWords, toList_four]
    rfl
  rw [list]
  refine ⟨rfl, withChecksum_sum _, rfl, rfl, rfl, fun k => ?_, rfl, rfl, fun i h1 h2 => ?_⟩
  · match k with
    | 0 => rfl
    | 1 => rfl
    | 2 => rfl
    | 3 => rfl
  · interval_cases i <;> rfl

/-! ### The engine's steps -/

section
variable (c : Chip) (m : Command) (t : TransferEngine)

theorem Chip.checkSnapshot_starts (b : Binding) (h : b.BufferPasses (m.num 1) 16960) : c.checkSnapshot m b t =
    { c with transfer := some { t with second := c.seconds },
             command := some { m with stage := .transferring .withdraw },
             im := { c.im with waitCommand := some ⟨BitVec.ofNat 24 (m.num 1), some 0⟩ } } :=
  if_neg (by rw [(b.bufferOk_iff _ _).2 h]; decide)

theorem Chip.writeWord_eq (stage : Transfer) (i base : Nat) (hb : t.base m = base) : c.writeWord m t stage i =
    { c with transfer := some t, command := some { m with stage := .transferring stage },
             im := { c.im with waitCommand := some ⟨BitVec.ofNat 24 (base + 4 * i), some (t.words.getD i 0)⟩ } } := by
  subst hb
  rfl

/-- A word of the words in hand, issued over a chip that holds them. -/
theorem Chip.writeWord_same (ht : c.transfer = some t) (stage : Transfer) (i base : Nat) (hb : t.base m = base) :
    c.writeWord m t stage i =
      { c with command := some { m with stage := .transferring stage },
               im := { c.im with waitCommand := some ⟨BitVec.ofNat 24 (base + 4 * i), some (t.words.getD i 0)⟩ } } := by
  rw [c.writeWord_eq m t stage i base hb, ← ht]

variable (ht : c.transfer = some t) (d : Word)
include ht

theorem Chip.transferDone_withdraw : c.transferDone m .withdraw d = c.gotoWork m .snapshotBlock := by
  rw [Chip.transferDone, ht]

theorem Chip.transferDone_block (i : Nat) : c.transferDone m (.block i) d = c.blockWritten m t i := by
  rw [Chip.transferDone, ht]

theorem Chip.transferDone_header (i : Nat) : c.transferDone m (.header i) d = c.headerWritten m t i := by
  rw [Chip.transferDone, ht]

end

/-- The DACK of a transfer's access, by the command's row. -/
theorem exec_transferAccess (s : State) (i : Instr) (m : Command) (q : MemRequest) (a : Transfer) (hpor : s.chip.porLow = false)
    (hp : s.chip.port = some (.internal .command q)) (hm : s.chip.command = some m) (hi : i.mailboxStep = some (m.code, .run 1))
    (hs : m.stage = .transferring a) {d : Chip}
    (h : (s.chip.internalDone q).transferDone m a (q.data s.chip.mem) = d) : exec i s = .next (s.withChip d.settle) := by
  have inHand : (s.chip.internalDone q).command = some m := hm
  exact exec_commandAccess s i m q hpor hp hm (fun w h => by rw [hs] at h; cases h) (.inr hi)
    ((Chip.commandAccessDone_transferring inHand _ a hs).trans h)

/-- Settles O58: the check, a block, the writes' DACKs, the header, and the end. -/
theorem snapshotTakesEffect : Obligations.SnapshotTakesEffect := by
  refine ⟨fun s m b t check ht => ⟨fun h => ?_, fun h => ?_⟩, fun s m b t k work ht hk small => ?_,
    fun s m t q i hpor hp hm hc ht => ?_, fun s m b t work ht => ?_, fun s m t q hpor hp hm hc hs ht => ?_⟩
  · refine exec_runCheck s _ m b 2 check rfl ((Chip.checkCommand_snapshot check.isCode).trans
      ((s.chip.checkTransfer_eq b t _ check.bound ht).trans ?_))
    exact if_pos ((b.bufferOk_false _ _).2 h)
  · refine exec_runCheck s _ m b 2 check rfl ((Chip.checkCommand_snapshot check.isCode).trans
      ((s.chip.checkTransfer_eq b t _ check.bound ht).trans ?_))
    exact s.chip.checkSnapshot_starts m t b h
  · have base := t.base_state m k (by rw [work.isCode]; decide) hk
    have sum : sumWords (s.chip.stateBlock k t.second) = 0 := withChecksum_sum _
    refine ⟨s.chip.stateBlock k t.second, ?_, s.chip.stateBlock_facts k t.second⟩
    refine exec_transferWork s (.snapshot (.run 1)) m b 2 .snapshotBlock t (fun t => s.chip.snapshotBlock m t) work ht rfl rfl ?_
    rw [Chip.snapshotBlock, t.block_eq k hk]
    dsimp only
    rw [sum]
    exact s.chip.writeWord_eq m _ (.block 0) 0 _ base
  · intro c answers issues
    have inHand : (s.chip.internalDone q).transfer = some t := ht
    have row : (Instr.snapshot (.run 1)).mailboxStep = some (m.code, .run 1) := by rw [hc]; rfl
    have own (a : Transfer) (hs : m.stage = .transferring a) {d : Chip}
        (h : c.transferDone m a (q.data s.chip.mem) = d) : answers d := exec_transferAccess s _ m q a hpor hp hm row hs h
    refine ⟨fun hs => own _ hs (Chip.transferDone_withdraw c m t ht _), fun k hs hk => ?_, fun hs hk => ?_⟩
    · have base := t.base_state m k (by rw [hc]; decide) hk
      have written := Chip.transferDone_block c m t ht (q.data s.chip.mem) i
      refine ⟨fun more => own _ hs (written.trans ?_), fun last more => own _ hs (written.trans ?_),
        fun last past => own _ hs (written.trans ?_)⟩
      · exact (if_pos more).trans (Chip.writeWord_same c m t ht (.block (i + 1)) (i + 1) _ base)
      · refine (if_neg (Nat.not_lt.2 last)).trans ((if_pos (by rw [t.block_eq k hk]; exact more)).trans ?_)
        rw [t.block_eq k hk]
        rfl
      · exact (if_neg (Nat.not_lt.2 last)).trans (if_neg (by rw [t.block_eq k hk]; exact Nat.not_lt.2 past))
    · have base := t.base_header m hk
      have written := Chip.transferDone_header c m t ht (q.data s.chip.mem) i
      refine ⟨fun first more => own _ hs (written.trans ?_), fun last => own _ hs (written.trans ?_)⟩
      · exact (if_neg (by omega)).trans ((if_pos more).trans
          (Chip.writeWord_same c m t ht (.header (i + 1)) (i + 1) _ base))
      · exact (if_neg (by omega)).trans ((if_neg (by omega)).trans
          (Chip.writeWord_same c m t ht (.header 0) 0 _ base))
  · have loops := s.chip.loops_bound b work.bound
    have sum : sumWords (headerWords b.loops s.chip.profiles s.chip.sealed t.second) = 0 := withChecksum_sum _
    have facts := headerWords_facts b.loops s.chip.profiles s.chip.sealed t.second
    refine ⟨headerWords b.loops s.chip.profiles s.chip.sealed t.second, ?_, facts⟩
    refine exec_transferWork s (.snapshot (.run 1)) m b 2 .snapshotHeader t (fun t => s.chip.snapshotHeader m t) work ht rfl rfl ?_
    rw [Chip.snapshotHeader, loops]
    dsimp only
    rw [sum, s.chip.writeWord_eq m _ (.header 1) 1 _ (TransferEngine.base_header _ m rfl)]
    rfl
  · have row : (Instr.snapshot (.run 1)).mailboxStep = some (m.code, .run 1) := by rw [hc]; rfl
    exact exec_transferAccess s _ m q _ hpor hp hm row hs
      (Chip.transferDone_header (s.chip.internalDone q) m t ht (q.data s.chip.mem) 0)

end Sys2Proof.Machine
end


-- ==== Sys2Proof/Proofs/Restore.lean ====
section
/-! SUPPORT. RESTORE: its checks, the header's, a state block's, a point's install and the final event (R44, R118, R158, R159, R168
to R173, R190). O59 is settled here. -/

namespace Sys2Proof.Machine

/-! ### The first checks -/

theorem Chip.activeSlots_eq (c : Chip) : c.activeSlots = (List.finRange 4).countP fun k : Fin 4 => c.slots[k].isSome :=
  countP_toList c.slots Option.isSome

theorem Chip.activeSlots_zero (c : Chip) (h : ∀ k : Fin 4, c.slots[k] = none) : c.activeSlots = 0 := by
  rw [c.activeSlots_eq, List.countP_eq_zero]
  intro k _
  rw [h k]
  decide

theorem Chip.activeSlots_pos (c : Chip) (k : Fin 4) (h : c.slots[k] ≠ none) : c.activeSlots ≠ 0 := by
  rw [c.activeSlots_eq]
  exact Nat.ne_of_gt (List.countP_pos_iff.2 ⟨k, List.mem_finRange k, Option.isSome_iff_ne_none.2 h⟩)

/-! ### The header -/

/-- The header's checks (R169). -/
theorem headerOk_iff (ws : List Word) : headerOk ws = true ↔
    ws.getD 0 0 = 0x4F545348#32 ∧ ws.foldl (· + ·) 0 = 0 ∧ (ws.getD 1 0).toNat = 96 ∧
    (1 ≤ (ws.getD 2 0).toNat ∧ (ws.getD 2 0).toNat ≤ 4) ∧ (∀ i, 3 ≤ i → i ≤ 6 → (ws.getD i 0).toNat ≤ 15) ∧
    (ws.getD 7 0).toNat ≤ 1 ∧ ∀ i, 9 ≤ i → i ≤ 14 → (ws.getD i 0).toNat = 0 := by
  have codes : ([3, 4, 5, 6].all fun i => decide ((ws.getD i 0).toNat ≤ 15)) = true ↔
      ∀ i, 3 ≤ i → i ≤ 6 → (ws.getD i 0).toNat ≤ 15 := by
    rw [List.all_eq_true]
    refine ⟨fun h i h1 h2 => of_decide_eq_true (h i ?_), fun h i hi => decide_eq_true (h i ?_ ?_)⟩
    · interval_cases i <;> decide
    all_goals
      simp only [List.mem_cons, List.not_mem_nil, or_false] at hi
      omega
  have zeros : ([9, 10, 11, 12, 13, 14].all fun i => ws.getD i 0 == 0) = true ↔
      ∀ i, 9 ≤ i → i ≤ 14 → (ws.getD i 0).toNat = 0 := by
    rw [List.all_eq_true]
    refine ⟨fun h i h1 h2 => ?_, fun h i hi => beq_iff_eq.2 (BitVec.eq_of_toNat_eq (h i ?_ ?_))⟩
    · have zero := beq_iff_eq.1 (h i (by interval_cases i <;> decide))
      rw [zero]
      rfl
    all_goals
      simp only [List.mem_cons, List.not_mem_nil, or_false] at hi
      omega
  simp only [headerOk, Bool.and_eq_true, beq_iff_eq, codes, zeros, decide_eq_true_eq, and_assoc]
  rfl

/-- What RESTORE keeps of a good header (R169). -/
theorem keptHeader_facts (ws : List Word) (codes : ∀ i, 3 ≤ i → i ≤ 6 → (ws.getD i 0).toNat ≤ 15)
    (flag : (ws.getD 7 0).toNat ≤ 1) :
    (∀ i : Fin 4, (keptHeader ws).codes[i].toNat = (ws.getD (3 + i.val) 0).toNat) ∧
    (keptHeader ws).sealFlag.toNat = (ws.getD 7 0).toNat ∧ (keptHeader ws).second = ws.getD 8 0 := by
  refine ⟨fun i => ?_, ?_, rfl⟩
  · have small := codes (3 + i.val) (by omega) (by have := i.isLt; omega)
    have code : (keptHeader ws).codes[i] = (ws.getD (3 + i.val) 0).extractLsb' 0 4 := getElem_tabulate _ i.val i.isLt
    rw [code, lowBits_eq, BitVec.toNat_ofNat]
    omega
  · show ((ws.getD 7 0).toNat == 1).toNat = _
    have bit : (ws.getD 7 0).toNat = 0 ∨ (ws.getD 7 0).toNat = 1 := by omega
    rcases bit with zero | one
    · rw [zero]; rfl
    · rw [one]; rfl

/-! ### A point entry's checks -/

theorem serialOf_isSome (w : Word) : (serialOf w).isSome = true ↔ w ≠ 0 := by
  rw [serialOf]
  by_cases h : w = 0 <;> simp [h]

theorem serialOf_isNone (w : Word) : (serialOf w).isNone = true ↔ w.toNat = 0 := by
  rw [Option.isNone_iff_eq_none, ← Option.not_isSome_iff_eq_none, serialOf_isSome, not_not]
  exact (BitVec.toNat_inj (y := 0)).symm

theorem pointStateOf_code (code : BitVec 3) : (pointStateOf code).code = code.toNat := by
  revert code
  decide

theorem restoredPoint_state (words : List Word) (slot : Nat) :
    (restoredPoint words slot).state.code = (stateBlockWord words slot 2).toNat % 8 := by
  refine (pointStateOf_code _).trans ?_
  rw [lowBits_eq, BitVec.toNat_ofNat]

theorem entryOf_isSome (first second : Word) : (entryOf first second).isSome = true ↔ first.toNat / 65536 % 2 = 1 := by
  rw [← entryPlanned_iff, entryOf]
  cases entryPlanned first <;> simp

/-- The class of a present entry, by division. -/
theorem entryOf_cls (first second : Word) (h : entryPlanned first = true) :
    (entryOf first second).map (·.cls) = some (first.extractLsb' 18 3) := by
  rw [entryOf, if_pos h]
  rfl

theorem extract_toNat (w : Word) (lo len : Nat) : (w.extractLsb' lo len).toNat = w.toNat / 2 ^ lo % 2 ^ len := field_eq w lo len

/-- The state checks of a point entry, by the state's code (R170). -/
theorem RestoredPoint.consistent_iff (q : RestoredPoint) (planned found same first alone : Prop)
    (hp : q.entry.isSome = true ↔ planned) (hf : q.foundClass.isSome = true ↔ found)
    (hs : planned → found → ((q.foundClass == q.entry.map (·.cls)) = true ↔ same))
    (h1 : q.firstSerial.isSome = true ↔ first) (h2 : q.secondSerial.isNone = true ↔ alone) :
    q.consistent = true ↔
      match q.state.code with
      | 0 => ¬planned ∧ ¬found
      | 1 => planned ∧ ¬found
      | 2 => ¬planned ∧ found
      | 3 => planned ∧ found ∧ same
      | 4 => planned ∧ found ∧ ¬same
      | 5 => True
      | 6 => planned ∧ found ∧ same
      | _ => planned ∧ found ∧ same ∧ first ∧ alone := by
  have noEntry : q.entry.isNone = true ↔ ¬planned := by rw [← hp, Option.isNone_iff_eq_none, Option.isSome_iff_ne_none, not_not]
  have noClass : q.foundClass.isNone = true ↔ ¬found := by
    rw [← hf, Option.isNone_iff_eq_none, Option.isSome_iff_ne_none, not_not]
  have matched : (q.entry.isSome && q.foundClass.isSome && q.foundClass == q.entry.map (·.cls)) = true ↔
      planned ∧ found ∧ same := by
    rw [Bool.and_eq_true, Bool.and_eq_true, hp, hf, and_assoc]
    exact ⟨fun ⟨p, f, s⟩ => ⟨p, f, (hs p f).1 s⟩, fun ⟨p, f, s⟩ => ⟨p, f, (hs p f).2 s⟩⟩
  have mismatched : (q.entry.isSome && q.foundClass.isSome && q.foundClass != q.entry.map (·.cls)) = true ↔
      planned ∧ found ∧ ¬same := by
    rw [Bool.and_eq_true, Bool.and_eq_true, hp, hf, and_assoc, bne, Bool.not_eq_true', ← Bool.not_eq_true]
    exact ⟨fun ⟨p, f, s⟩ => ⟨p, f, fun g => s ((hs p f).2 g)⟩, fun ⟨p, f, s⟩ => ⟨p, f, fun g => s ((hs p f).1 g)⟩⟩
  unfold RestoredPoint.consistent
  cases q.state with
  | vacant => exact (Bool.and_eq_true_iff).trans (and_congr noEntry noClass)
  | expected => exact (Bool.and_eq_true_iff).trans (and_congr hp noClass)
  | unplanned => exact (Bool.and_eq_true_iff).trans (and_congr noEntry hf)
  | matched => exact matched
  | mismatch => exact mismatched
  | conflict => exact ⟨fun _ => trivial, fun _ => rfl⟩
  | tested => exact matched
  | commissioned =>
    show (q.entry.isSome && q.foundClass.isSome && q.foundClass == q.entry.map (·.cls) && q.firstSerial.isSome
      && q.secondSerial.isNone) = true ↔ _
    rw [Bool.and_eq_true, Bool.and_eq_true, matched, h1, h2]
    simp only [and_assoc]
    exact Iff.rfl

theorem PointState.conflict_iff (st : PointState) : (st == .conflict) = true ↔ st.code = 5 := by
  cases st <;> decide

theorem found_iff (words : List Word) (slot : Nat) :
    (restoredPoint words slot).foundClass.isSome = true ↔ (stateBlockWord words slot 2).toNat / 128 % 2 = 1 := by
  refine Iff.trans ?_ (getLsbD_iff _ 7)
  show (if (stateBlockWord words slot 2).getLsbD 7 = true then some _ else none : Option (BitVec 3)).isSome = true ↔ _
  cases (stateBlockWord words slot 2).getLsbD 7 <;> simp

/-- The class check of an entry whose point is planned and found. -/
theorem sameClass_iff (words : List Word) (slot : Nat) (planned : (stateBlockWord words slot 0).toNat / 65536 % 2 = 1)
    (found : (stateBlockWord words slot 2).toNat / 128 % 2 = 1) :
    ((restoredPoint words slot).foundClass == (restoredPoint words slot).entry.map (·.cls)) = true ↔
      (stateBlockWord words slot 2).toNat / 16 % 8 = (stateBlockWord words slot 0).toNat / 262144 % 8 := by
  have cls : (restoredPoint words slot).foundClass = some ((stateBlockWord words slot 2).extractLsb' 4 3) :=
    if_pos ((getLsbD_iff _ 7).2 found)
  have entry : (restoredPoint words slot).entry.map (·.cls) = some ((stateBlockWord words slot 0).extractLsb' 18 3) :=
    entryOf_cls _ _ ((entryPlanned_iff _).2 planned)
  rw [cls, entry, beq_iff_eq, Option.some_inj, ← BitVec.toNat_inj, extract_toNat, extract_toNat]
  norm_num

/-- The fields of an entry's first two words, by its PLANNED (R170, R189). -/
theorem entryBody_iff (first second : Word) :
    (if entryPlanned first then entryZoneOk first && entryUnusedClear first second
      else field first 17 6 == 0 && field first 24 7 == 0 && field second 0 16 == 0) = true ↔
    (first.toNat / 65536 % 2 = 1 → (1 ≤ first.toNat / 16777216 % 128 ∧ first.toNat / 16777216 % 128 ≤ 96) ∧
      first.toNat / 8 % 32 = 0 ∧ first.toNat / 8388608 % 2 = 0 ∧ first.toNat < 0x80000000 ∧ second.toNat < 65536) ∧
    (¬first.toNat / 65536 % 2 = 1 → first.toNat / 131072 % 64 = 0 ∧ first.toNat / 16777216 % 128 = 0 ∧
      second.toNat % 65536 = 0) := by
  rw [← entryPlanned_iff]
  by_cases planned : entryPlanned first = true
  · rw [if_pos planned, entryFields_iff]
    exact ⟨fun h => ⟨fun _ => h, fun n => absurd planned n⟩, fun h => h.1 planned⟩
  · rw [if_neg planned]
    simp only [field_eq, Bool.and_eq_true, beq_iff_eq, and_assoc, Nat.reducePow, Nat.div_one]
    exact ⟨fun h => ⟨fun p => absurd p planned, fun _ => h⟩, fun h => h.2 planned⟩

/-- The unused bits of an entry's state word, and its class when none is found. -/
theorem stateWord_iff (w : Word) : ((w.getLsbD 7 || field w 4 3 == 0) = true ∧ (field w 3 1 == 0) = true ∧
      (field w 12 20 == 0) = true) ↔
    (¬w.toNat / 128 % 2 = 1 → w.toNat / 16 % 8 = 0) ∧ w.toNat / 8 % 2 = 0 ∧ w.toNat < 4096 := by
  have := w.isLt
  rw [Bool.or_eq_true, getLsbD_iff, beq_iff_eq, beq_iff_eq, beq_iff_eq, field_eq, field_eq, field_eq]
  omega

/-- SECOND SERIAL only in CONFLICT beside a FIRST SERIAL (R170). -/
theorem serials_iff (words : List Word) (slot : Nat) :
    ((restoredPoint words slot).secondSerial.isNone ||
      ((restoredPoint words slot).state == .conflict && (restoredPoint words slot).firstSerial.isSome)) = true ↔
    ((stateBlockWord words slot 4).toNat ≠ 0 →
      (stateBlockWord words slot 2).toNat % 8 = 5 ∧ (stateBlockWord words slot 3).toNat ≠ 0) := by
  have word (w : Word) : w ≠ 0 ↔ w.toNat ≠ 0 := not_congr (BitVec.toNat_inj (y := 0)).symm
  rw [← word, ← word, ← restoredPoint_state, ← PointState.conflict_iff, ← serialOf_isSome, ← serialOf_isSome,
    Bool.or_eq_true, Bool.and_eq_true, Option.isNone_iff_eq_none, Option.isSome_iff_ne_none (o := serialOf _),
    or_iff_not_imp_left]
  exact Iff.rfl

/-- The whole of R170's checks over one entry. -/
theorem stateEntryOk_iff (words : List Word) (block slot : Nat) (h : 8 * block + slot - 1 < 768) :
    stateEntryOk words block slot = true ↔ StateEntryRight words block slot := by
  obtain ⟨r, record⟩ : ∃ r : Rec, r.val = 8 * block + slot - 1 := ⟨⟨_, h⟩, rfl⟩
  have word (w : Word) : w ≠ 0 ↔ w.toNat ≠ 0 := not_congr (BitVec.toNat_inj (y := 0)).symm
  have states := (restoredPoint words slot).consistent_iff _ _ _ _ _ (entryOf_isSome _ _) (found_iff words slot)
    (sameClass_iff words slot) ((serialOf_isSome _).trans (word _)) (serialOf_isNone _)
  rw [restoredPoint_state] at states
  have place : (entryLoop (stateBlockWord words slot 0) == loopNumber (recordAt (8 * block + slot - 1))
      && entryAddress (stateBlockWord words slot 0) == addressNumber (recordAt (8 * block + slot - 1))) = true ↔
      (stateBlockWord words slot 0).toNat % 8 = (8 * block + slot - 1) / 192 + 1 ∧
      (stateBlockWord words slot 0).toNat / 256 % 256 = (8 * block + slot - 1) % 192 + 1 := by
    rw [← record, recordAt_val, Bool.and_eq_true, beq_iff_eq, beq_iff_eq, entryLoop_eq, entryAddress_eq, loopNumber, addressNumber]
  rw [stateEntryOk, Bool.and_eq_true, Bool.and_eq_true, Bool.and_eq_true, Bool.and_eq_true, Bool.and_eq_true, Bool.and_eq_true]
  constructor
  · rintro ⟨⟨⟨⟨⟨⟨placed, body⟩, cls⟩, low⟩, high⟩, serial⟩, consistent⟩
    obtain ⟨loop, address⟩ := place.1 placed
    obtain ⟨present, absent⟩ := (entryBody_iff _ _).1 body
    obtain ⟨noClass, third, upper⟩ := (stateWord_iff _).1 ⟨cls, low, high⟩
    exact ⟨loop, address, present, absent, noClass, third, upper, (serials_iff words slot).1 serial, states.1 consistent⟩
  · rintro ⟨loop, address, present, absent, noClass, third, upper, serial, consistent⟩
    obtain ⟨cls, low, high⟩ := (stateWord_iff _).2 ⟨noClass, third, upper⟩
    exact ⟨⟨⟨⟨⟨⟨place.2 ⟨loop, address⟩, (entryBody_iff _ _).2 ⟨present, absent⟩⟩, cls⟩, low⟩, high⟩,
      (serials_iff words slot).2 serial⟩, states.2 consistent⟩

/-! ### A state block -/

/-- A state block's own checks (R170). -/
theorem TransferEngine.stateBlockOk_iff (t : TransferEngine) (k : Nat) (hk : t.position = some k) : t.stateBlockOk = true ↔
    t.words.getD 0 0 = 0x4F545342#32 ∧ t.words.getD 1 0 = word k ∧ t.kept.map (·.second) = some (t.words.getD 42 0) ∧
      t.sum = 0 := by
  have second : (match t.kept with | some h => t.words.getD 42 0 == h.second | none => false) = true ↔
      t.kept.map (·.second) = some (t.words.getD 42 0) := by
    cases t.kept with
    | none => exact ⟨fun h => (nomatch h), fun h => (nomatch h)⟩
    | some h => exact beq_iff_eq.trans (eq_comm.trans Option.some_inj.symm)
  have position : (t.words.getD 1 0 == word t.block) = true ↔ t.words.getD 1 0 = word k := by rw [t.block_eq k hk, beq_iff_eq]
  refine (Bool.and_eq_true_iff.trans (and_congr (Bool.and_eq_true_iff.trans (and_congr
    (Bool.and_eq_true_iff.trans (and_congr beq_iff_eq position)) second)) beq_iff_eq)).trans ?_
  rw [and_assoc, and_assoc]
  rfl

theorem TransferEngine.failure_state (t : TransferEngine) (m : Command) (reason : Reason) (detail : Word) (k : Nat)
    (hc : m.code ≠ 1) (hk : t.position = some k) (h : t.pass = .install) :
    t.failure m reason detail = tornWith k [word k, word (8 * k)] := by
  rw [TransferEngine.failure, h, ← t.block_eq k hk]
  exact if_neg hc

/-- The first bad entry, when the entries before it pass. -/
theorem TransferEngine.firstBadEntry_some (t : TransferEngine) (n : Nat) (n8 : n < 8)
    (before : ∀ i, 1 ≤ i → i ≤ n → stateEntryOk t.words t.block i = true)
    (bad : stateEntryOk t.words t.block (n + 1) = false) : t.firstBadEntry = some (n + 1) := by
  have slots : [1, 2, 3, 4, 5, 6, 7, 8] = List.range' 1 n ++ (n + 1) :: List.range' (n + 2) (7 - n) := by
    interval_cases n <;> rfl
  rw [TransferEngine.firstBadEntry, slots, List.find?_append, List.find?_cons, bad]
  have none : (List.range' 1 n).find? (fun s => !stateEntryOk t.words t.block s) = none := by
    rw [List.find?_eq_none]
    intro i hi
    obtain ⟨low, high⟩ := List.mem_range'_1.1 hi
    rw [before i low (by omega)]
    decide
  rw [none]
  rfl

section
variable (c : Chip) (m : Command) (t : TransferEngine)

theorem Chip.restoreBlock_block (h : t.stateBlockOk = false) :
    c.restoreBlock m t = c.complete (t.failure m .badBlock (badBlockDetail t.block 0)) := if_pos h

variable (whole : t.stateBlockOk = true)
include whole

theorem Chip.restoreBlock_entry (n : Nat) (h : t.firstBadEntry = some n) :
    c.restoreBlock m t = c.complete (t.failure m .badBlock (badBlockDetail t.block n)) := by
  refine (if_neg (by rw [whole]; decide)).trans ?_
  rw [h]

theorem Chip.restoreBlock_install (h : t.firstBadEntry = none) (hp : t.pass = .install) :
    c.restoreBlock m t = c.gotoWork m (.restoreInstall 1) := by
  refine (if_neg (by rw [whole]; decide)).trans ?_
  rw [h, hp]

theorem Chip.restoreBlock_verify (h : t.firstBadEntry = none) (hp : t.pass ≠ .install) (k : Nat) (hc : m.code ≠ 1)
    (hk : t.position = some k) : c.restoreBlock m t =
      if k < 95 then c.reading m { t with position := some (k + 1), words := [], sum := 0 } (m.num 1 + 64 + 176 * (k + 1))
      else c.reading m { t with pass := .install, position := some 0, words := [], sum := 0 } (m.num 1 + 64 + 176 * 0) := by
  have goes : c.restoreBlock m t = if t.block < 95 then c.startBlock m t (some (t.block + 1))
      else c.startBlock m { t with pass := .install } (some 0) := by
    refine (if_neg (by rw [whole]; decide)).trans ?_
    rw [h]
    cases pass : t.pass with
    | install => exact absurd pass hp
    | _ => rfl
  rw [goes, t.block_eq k hk, Chip.startBlock_state _ _ _ _ hc, Chip.startBlock_state _ _ _ _ hc]

end

/-! ### A point's install and the end -/

/-- The next slot's install, or what follows the block's last (R172). -/
theorem Chip.restoreInstall_more (c : Chip) (m : Command) (t : TransferEngine) (n : Nat) (h : n < 8) :
    c.restoreInstall m t n =
      { c.restorePoint (recordAt (8 * t.block + n - 1)) (restoredPoint t.words n) with
        command := some { m with stage := .working (.restoreInstall (n + 1)) } } := if_pos h

theorem Chip.restoreInstall_last (c : Chip) (m : Command) (t : TransferEngine) (n k : Nat) (h : n = 8) (hc : m.code ≠ 1)
    (hk : t.position = some k) : c.restoreInstall m t n =
      if k < 95 then
        Chip.reading (c.restorePoint (recordAt (8 * k + n - 1)) (restoredPoint t.words n)) m
          { t with blocks := t.blocks + 1, position := some (k + 1), words := [], sum := 0 } (m.num 1 + 64 + 176 * (k + 1))
      else
        { c.restorePoint (recordAt (8 * k + n - 1)) (restoredPoint t.words n) with
          transfer := some { t with blocks := t.blocks + 1 }
          command := some { m with stage := .working .restoreFinal } } := by
  have block : TransferEngine.block { t with blocks := t.blocks + 1 } = k := TransferEngine.block_eq _ k hk
  refine (if_neg (by omega)).trans ?_
  dsimp only
  rw [block, t.block_eq k hk, Chip.startBlock_state _ _ _ _ hc]
  rfl

theorem Chip.restoreFinal_kept (c : Chip) (t : TransferEngine) (h : KeptHeader) (kept : t.kept = some h) :
    c.restoreFinal t = Chip.complete { c with profiles := h.codes, sealed := c.sealed || h.sealFlag }
      (doneWith [word t.blocks, word (8 * t.blocks), if h.sealFlag = true then 1 else 0, h.second]) := by
  have flag : word h.sealFlag.toNat = if h.sealFlag = true then 1 else 0 := by cases h.sealFlag <;> rfl
  rw [Chip.restoreFinal, kept, ← flag]
  rfl

/-! ### RESTORE's events -/

/-- Settles O59: the first checks, a word's DACK, the header's checks, a block's, a point's install, an entry's fields, the end. -/
theorem restoreTakesEffect : Obligations.RestoreTakesEffect := by
  refine ⟨fun s m b t check unsealed ht => ?_, fun s m t q hpor hp hm hc hs ht hq => ?_, fun s m b t work ht => ?_,
    fun s m b t k work ht hk small => ?_, fun s m b t k n r work ht hk n1 n8 record => ?_, fun t n n1 n8 => ?_,
    fun s m b t h work ht kept => ?_⟩
  · intro c turnsAway
    have own {d : Chip} (h : c.checkRestore m b t = d) : exec (.restore (.run 1)) s = .next (s.withChip d.settle) :=
      exec_runCheck s _ m b 3 check rfl
        (((Chip.checkCommand_restore check.isCode unsealed).trans (c.checkTransfer_eq b t _ check.bound ht)).trans h)
    refine ⟨fun h => own (if_pos ((b.bufferOk_false _ _).2 h)), fun h => ?_⟩
    have buffer : ¬b.bufferOk (m.num 1) 16960 = false := by
      rw [(b.bufferOk_iff _ _).2 h]
      decide
    refine ⟨fun ⟨k, active⟩ => own ((if_neg buffer).trans (if_pos (c.activeSlots_pos k active))), fun idle => ?_⟩
    have noSlot : ¬c.activeSlots ≠ 0 := not_not.2 (c.activeSlots_zero idle)
    refine ⟨fun fire => own ((if_neg buffer).trans ((if_neg noSlot).trans (if_pos fire))), fun fire => ?_⟩
    exact own ((if_neg buffer).trans ((if_neg noSlot).trans ((if_neg (not_not.2 fire)).trans (c.startBlock_header m t))))
  · intro x n c block
    have other : m.code ≠ 1 := by rw [hc]; decide
    have row : (Instr.restore (.run 1)).mailboxStep = some (m.code, .run 1) := by rw [hc]; rfl
    have goes (base length : Nat) (checks : Work) (hb : t.base m = base) (hl : t.length m = length) (hj : t.judge m = checks) :
        block base length checks := by
      refine ⟨fun more => ?_, fun last => ?_⟩ <;> refine exec_blockWord s _ m t q hpor hp hm row hs ht hq ?_
      · rw [Chip.blockWord_next _ m t x length hl more, hb]
        rfl
      · rw [Chip.blockWord_last _ m t x length hl last, hj]
        rfl
    refine ⟨fun hk => goes _ _ _ (t.base_header m hk) (by rw [TransferEngine.length, hk]) (by rw [TransferEngine.judge, hk]),
      fun k hk => goes _ _ _ (t.base_state m k other hk) ?_ ?_⟩
    · rw [TransferEngine.length, hk]
      exact if_neg other
    · rw [TransferEngine.judge, hk]
      exact if_neg other
  · intro c w right
    have other : m.code ≠ 1 := by rw [work.isCode]; decide
    have own {d : Chip} (h : c.restoreHeader m t = d) := exec_transferWork s (.restore (.run 1)) m b 3 .restoreHeader t
      (fun t => c.restoreHeader m t) work ht rfl rfl h
    refine ⟨fun ok => ?_, fun bad hp => own ?_⟩
    · obtain ⟨-, -, -, -, codes, flag, -⟩ := id ok
      obtain ⟨keptCodes, keptFlag, keptSecond⟩ := keptHeader_facts t.words codes flag
      refine ⟨keptHeader t.words, keptCodes, keptFlag, keptSecond, own ((if_pos ((headerOk_iff t.words).2 ok)).trans ?_)⟩
      exact c.startBlock_state m _ 0 other
    · refine (if_neg fun ok => bad ((headerOk_iff t.words).1 ok)).trans ?_
      rw [t.failure_refuses m _ _ hp]
      rfl
  · intro c answers fails reads whole right
    have other : m.code ≠ 1 := by rw [work.isCode]; decide
    have own {d : Chip} (h : c.restoreBlock m t = d) : answers d := exec_transferWork s (.restore (.run 1)) m b 3 .restoreBlock t
      (fun t => c.restoreBlock m t) work ht rfl rfl h
    have entry (i : Nat) (low : 1 ≤ i) (high : i ≤ 8) : stateEntryOk t.words t.block i = true ↔ StateEntryRight t.words k i := by
      rw [t.block_eq k hk]
      exact stateEntryOk_iff t.words k i (by omega)
    have ok (h : whole) : t.stateBlockOk = true := (t.stateBlockOk_iff k hk).2 h
    have good (h : right 8) : t.firstBadEntry = none :=
      t.firstBadEntry_eq_none.2 fun i low high => (entry i low high).2 (h i low high)
    have stops (n : Nat) (n8 : n ≤ 8) (h : c.restoreBlock m t = c.complete (t.failure m .badBlock (badBlockDetail t.block n))) :
        fails n := by
      refine ⟨fun hp => own (h.trans ?_), fun hp => own (h.trans ?_)⟩
      · rw [t.failure_refuses m _ _ hp, t.block_eq k hk, badBlockDetail_eq k n (by omega) (by omega)]
      · rw [t.failure_state m _ _ k other hk hp]
    refine ⟨fun h => stops 0 (by omega) (c.restoreBlock_block m t (Bool.eq_false_iff.2 fun g => h ((t.stateBlockOk_iff k hk).1 g))),
      fun n h n8 before bad => stops (n + 1) n8 (c.restoreBlock_entry m t (ok h) (n + 1) (t.firstBadEntry_some n n8 ?_ ?_)),
      fun h entries hp => own (c.restoreBlock_install m t (ok h) (good entries) hp),
      fun h entries hp more => own ((c.restoreBlock_verify m t (ok h) (good entries) hp k other hk).trans (if_pos more)),
      fun h entries hp last => own ((c.restoreBlock_verify m t (ok h) (good entries) hp k other hk).trans (if_neg (by omega)))⟩
    · exact fun i low high => (entry i low (by omega)).2 (before i low high)
    · exact Bool.eq_false_iff.2 fun g => bad ((entry (n + 1) (by omega) n8).1 g)
  · intro c q d p answers
    have other : m.code ≠ 1 := by rw [work.isCode]; decide
    have own {e : Chip} (h : c.restoreInstall m t n = e) : answers e := exec_transferWork s (.restore (.run 1)) m b 3
      (.restoreInstall n) t (fun t => c.restoreInstall m t n) work ht rfl rfl h
    have here : recordAt (8 * k + n - 1) = r := by rw [← record, recordAt_val]
    obtain ⟨zones, openers, installed⟩ := c.install_eq r q.entry fun p =>
      { p with state := q.state, foundClass := q.foundClass, testCount := q.testCount, firstSerial := q.firstSerial,
               secondSerial := q.secondSerial }
    refine ⟨zones, openers, fun more => own ?_, fun last more => own ?_, fun last past => own ?_⟩
    · refine (c.restoreInstall_more m t n more).trans ?_
      rw [t.block_eq k hk, here]
      exact congrArg (fun e : Chip => { e with command := some { m with stage := .working (.restoreInstall (n + 1)) } }) installed
    · refine (c.restoreInstall_last m t n k last other hk).trans ((if_pos more).trans ?_)
      rw [here]
      exact congrArg (fun e : Chip => e.reading m _ _) installed
    · refine (c.restoreInstall_last m t n k last other hk).trans ((if_neg (by omega)).trans ?_)
      rw [here]
      exact congrArg (fun e : Chip => { e with transfer := some { t with blocks := t.blocks + 1 },
                                               command := some { m with stage := .working .restoreFinal } }) installed
  · intro w q
    refine ⟨rfl, restoredPoint_state t.words n, rfl, ?_, rfl, rfl⟩
    exact field_eq (stateBlockWord t.words n 2) 8 4
  · exact exec_transferWork s (.restore (.run 1)) m b 3 .restoreFinal t (fun t => s.chip.restoreFinal t) work ht rfl rfl
      (s.chip.restoreFinal_kept t h kept)

end Sys2Proof.Machine
end


-- ==== Sys2Proof/Proofs/Resets.lean ====
section
/-! SUPPORT. The host reset and the power-on reset, with their releases (R16, R22, R31, R32, R49, R76, R98, R103, R124, R143, R157,
R174, R183). O60 is settled here. -/

namespace Sys2Proof.Machine

/-! ### The path after a host reset -/

/-- With nothing current in the Internal Master a grant is the host's or none, and STARVE COUNT stands. -/
theorem Chip.grant_idle (c : Chip) (hc : c.im.current = none) : ∃ h p, c.grant = { c with host := h, port := p } := by
  by_cases waiting : c.port = none ∧ c.hostWaiting = true
  · obtain ⟨free, waiting⟩ := waiting
    cases hh : c.host with
    | none =>
      rw [Chip.hostWaiting, hh] at waiting
      cases waiting
    | some h =>
      have stage : h.stage = .waiting := by
        rw [Chip.hostWaiting, hh] at waiting
        exact beq_iff_eq.1 waiting
      exact ⟨_, _, c.grant_host h free hh stage hc⟩
  · refine ⟨c.host, c.port, ?_⟩
    by_cases free : c.port = none
    · exact c.grant_none (Bool.eq_false_iff.2 fun h => waiting ⟨free, h⟩) hc
    · exact c.grant_busy free

theorem Chip.unbindByHostReset_host (c : Chip) : c.unbindByHostReset.host =
    match c.host with
    | some h => if h.stage = .held then none else some h.untaken
    | none => none := rfl

theorem Chip.unbindByHostReset_untaken (c : Chip) : c.unbindByHostReset.HostUntaken := by
  intro h hh
  rw [c.unbindByHostReset_host] at hh
  cases old : c.host with
  | none => rw [old] at hh; cases hh
  | some a =>
    rw [old] at hh
    dsimp only at hh
    split at hh
    · cases hh
    · cases hh
      exact .inl rfl

/-- After a host reset the settling is the arbiter's grant alone. -/
theorem Chip.settle_hostReset (c : Chip) : c.unbindByHostReset.settle = c.unbindByHostReset.grant := by
  have released := c.unbindByHostReset.releaseHeld_untaken c.unbindByHostReset_untaken
  rw [Chip.settle, released]
  rfl

/-- The part is at the BIND STATUS write of its check (R28, R29). -/
theorem BindState.answering_iff (b : BindState) : b.answering = true ↔
    ∃ k, b = .checking k ∧ ((∃ reason detail, k.phase = .rejecting reason detail) ∨ ∃ b, k.phase = .status b) := by
  cases b with
  | unbound => exact ⟨fun h => (nomatch h), fun ⟨_, h, _⟩ => (nomatch h)⟩
  | bound b => exact ⟨fun h => (nomatch h), fun ⟨_, h, _⟩ => (nomatch h)⟩
  | checking k =>
    rw [BindState.answering]
    constructor
    · intro h
      refine ⟨k, rfl, ?_⟩
      cases phase : k.phase with
      | rejecting reason detail => exact .inl ⟨_, _, rfl⟩
      | status b => exact .inr ⟨_, rfl⟩
      | reading => rw [phase] at h; cases h
      | producer b => rw [phase] at h; cases h
    · rintro ⟨_, ⟨⟩, ⟨reason, detail, phase⟩ | ⟨b, phase⟩⟩ <;> rw [phase]

/-- What becomes of an internal access at the port (R22, log 14). -/
theorem PortAccess.orphaned_internal (answering : Bool) (cl : Client) (q : MemRequest) :
    (PortAccess.internal cl q).orphaned answering =
      if cl = .binding ∧ answering = true then .abandonedStatus q else .orphan q := by
  cases cl <;> cases answering <;> rfl

theorem PortAccess.orphaned_other (answering : Bool) (p : PortAccess) (h : ∀ cl q, p ≠ .internal cl q) :
    p.orphaned answering = p := by
  cases p with
  | internal cl q => exact absurd rfl (h cl q)
  | _ => rfl

/-- What a point derives does not hang on the Point Table. -/
theorem Chip.derived_points (c : Chip) (points : Vector PointRecord 768) (r : Rec) (p : PointRecord) :
    c.derived r p = Chip.derived { c with points := points } r p := rfl

/-- Settles O60: the host reset by what it leaves at the port and in the path, and each of the others by its definition. -/
theorem resetsTakeEffect : Obligations.ResetsTakeEffect := by
  refine fun s => ⟨fun hpor => ?_, rfl, ?_, fun low liso => ?_⟩
  · generalize hu : Chip.unbindByHostReset { s.chip with hrstLow := true } = u
    have row : exec .hostReset s = .next (s.withChip u.grant) := by
      have high : Chip.porLow { s.chip with hrstLow := true } = false := hpor
      rw [← hu, ← Chip.settle_hostReset]
      exact s.next_congr (Chip.event_high _ _ high)
    have host : u.host = match s.chip.host with
      | some h => if h.stage = .held then none else some h.untaken
      | none => none := by rw [← hu]; rfl
    have port : u.port = s.chip.port.map (PortAccess.orphaned s.chip.bind.answering) := by rw [← hu]; rfl
    have im : u.im = InternalMaster.fresh := by rw [← hu]; rfl
    have low : u.porLow = false := by rw [← hu]; exact hpor
    have mem : u.mem = s.chip.mem := by rw [← hu]; rfl
    obtain ⟨points, zones, slots⟩ := Chip.unbindBlocks_tables { s.chip with hrstLow := true }
    obtain ⟨a, p, granted⟩ := u.grant_idle (by rw [im]; rfl)
    refine ⟨u, u.grant, row, rfl, fun hh => ?_, fun h hh held => ?_, fun h hh free => ?_, fun cl q hp => ?_, fun other => ?_, im, ?_⟩
    · rw [host, hh]
    · rw [host, hh]
      exact if_pos held
    · rw [host, hh]
      exact if_neg free
    · have mapped : u.port = some (if cl = .binding ∧ s.chip.bind.answering = true then .abandonedStatus q else .orphan q) := by
        rw [port, hp, ← PortAccess.orphaned_internal]
        rfl
      intro answers
      have here : (cl = .binding ∧ s.chip.bind.answering = true) ↔ answers := and_congr Iff.rfl s.chip.bind.answering_iff
      refine ⟨fun no => mapped.trans (congrArg some (if_neg (mt here.1 no))), fun yes => ?_⟩
      have status : u.port = some (.abandonedStatus q) := mapped.trans (congrArg some (if_pos (here.2 yes)))
      have busy : u.grant = u := u.grant_busy (by rw [status]; exact fun h => nomatch h)
      refine ⟨status, Chip.settle { u with port := none }, ?_, ?_⟩
      · rw [busy]
        exact exec_downstreamAccessDone (s.withChip u) low (u.accessDone_abandonedStatus q status)
      · exact (Chip.settle_frame { u with port := none }).1.trans mem
    · rw [port]
      cases hp : s.chip.port with
      | none => rfl
      | some access =>
        exact congrArg some (access.orphaned_other _ fun cl q h => other cl q (hp.trans (congrArg some h)))
    · rw [granted, ← hu]
      exact ⟨rfl, rfl, rfl, rfl, rfl, rfl, rfl, rfl, rfl, rfl, rfl, rfl, rfl, rfl, rfl, rfl, rfl, rfl, rfl, rfl, rfl, slots,
        zones, points, rfl, rfl, rfl, rfl, rfl, rfl, rfl, rfl, rfl, rfl, rfl, hpor⟩
  · exact ⟨_, fun r => getElem_tabulate _ r.val r.isLt, rfl⟩
  · refine ⟨s.chip.powerOnRelease liso, rfl, ?_⟩
    rw [Chip.powerOnRelease, if_pos low]
    exact ⟨rfl, fun l => ⟨getElem_tabulate _ l.val l.isLt, Vector.getElem_replicate _⟩,
      fun r => (getElem_tabulate _ r.val r.isLt).trans (Chip.derived_points _ _ r _), rfl⟩

end Sys2Proof.Machine
end
